-- ==== Sys2Proof/Word.lean ====
section
/-! DEFINITION. The plain words of the TS-8: bytes, addresses, units, tags and the index ranges of its tables. -/

namespace Sys2Proof

/-- One byte of a frame, record or reply (R11, R12). -/
abbrev Byte := BitVec 8

/-- A 36-bit byte address, upstream or target (00_scope.md, conventions). -/
abbrev Addr := BitVec 36

/-- A unit number: 4 KiB units, 0 to 0FF_FFFFh (00_scope.md, conventions). -/
abbrev UnitNo := BitVec 24

/-- A page number: 16 KiB pages, 0 to 3F_FFFFh (R64). -/
abbrev PageNo := BitVec 22

/-- An upstream tag, 0 to 63 (R11, R21). -/
abbrev Tag := BitVec 6

/-- A target port T0 to T7 (00_scope.md, conventions). -/
abbrev PortId := Fin 8

/-- A downstream tag, which is a tag slot of a port, 0 to 15 (R85). -/
abbrev SlotId := Fin 16

/-- A window index, 0 to 31 (R36). -/
abbrev WindowIx := Fin 32

/-- A page entry index, 0 to 255 (R64). -/
abbrev PageIx := Fin 256

end Sys2Proof
end

