-- ==== Sys2Proof/Syntax.lean ====
section
/-! DEFINITION. The commands of the TS-8: one constructor for each row of spec/opcode_table.json, with its operands.
The table gives its rows no fields. An operand is either what the rule of the row needs from outside the part (a frame, a
port, a pin's level), or the choice of one thing among several that the spec leaves open (an order, a report on its way);
log 4 says which. Control requests carry their arguments in the payload the Control Unit holds, so their rows need none. -/

namespace Sys2Proof

/-- The start plan that the PLAN_SEL strap selects: PASS when high, EMPTY when low (R192). -/
inductive PlanSel where
  | pass
  | empty
deriving DecidableEq, Repr

/-- When the credit of a request that leaves the ingress FIFO reaches the ULC: within the step, ahead of the answer, or
later, by a CREDIT_RETURN of its own. R27 leaves the order open (log 5). -/
inductive CreditPath where
  | atOnce
  | later
deriving DecidableEq, Repr

/-- An order that the spec leaves open (log 4): the k-th number picks, modulo their number, among the items not yet
taken; when the numbers run out, the rest follow in the order they stand in. Between two lists that keep each its own order, a
number picks the list that goes on: even the first, odd the second. Every order of the items is some `Order`. -/
abbrev Order := List Nat

/-- How the OTT takes an abort: the request at position `request` among those on their way, and `order`, which chooses how the
answers of a RESET FULL that are still to be placed stand among the OTT's own (R34, R156, R172, log 12). -/
structure AbortTaking where
  request : Nat
  order : Order
deriving DecidableEq, Repr

/-- The order of a RESET FULL's answers: `order` among themselves; the last `late` of them are placed with those of the OTT's
abort, the others ahead of those (R34, R156, R172, log 12). -/
structure FullOrder where
  order : Order
  late : Nat
deriving DecidableEq, Repr

/-- The status of a target response: OK, ERROR, or neither (R18). -/
inductive TargetStatus where
  | ok
  | error
  | other
deriving DecidableEq, Repr

/-- A target response as it arrives whole: the downstream tag if the frame is long enough to give one, the status, and
the data bytes. R18 gives these fields and no byte layout (log 15). -/
structure TargetFrame where
  tag : Option SlotId
  status : TargetStatus
  data : List Byte
deriving DecidableEq, Repr

/-- The commands: the steps of spec/opcode_table.json, in the table's order. -/
inductive Instr where
  /-- POWER_ON (R189): power is applied. -/
  | powerOn
  /-- RESET_N_ASSERT (R189): RESET_N goes low. -/
  | resetNAssert
  /-- START_UP (R191): a start-up begins; `sel` is the level of PLAN_SEL then. -/
  | startUp (sel : PlanSel)
  /-- START_UP_COMPLETE (R191): the bank clearing ends and steps 3 to 7 are taken. -/
  | startUpComplete
  /-- CARRIER_GAINED (R1). -/
  | carrierGained
  /-- CARRIER_LOST (R2). -/
  | carrierLost
  /-- LINK_LOSS_IQ (R32). -/
  | linkLossIq
  /-- LINK_LOSS_PLAN_STORE (R155). -/
  | linkLossPlanStore
  /-- LINK_LOSS_CONTROL_UNIT (R173). -/
  | linkLossControlUnit
  /-- LINK_LOSS_PORTS (R108). -/
  | linkLossPorts
  /-- PACKET_ARRIVAL (R5): an upstream frame arrives whole while the ULC is UP. -/
  | packetArrival (frame : List Byte)
  /-- PACKET_DISCARD_NOT_UP (R1): an upstream frame arrives while the ULC is DOWN or READY. -/
  | packetDiscardNotUp (frame : List Byte)
  /-- CREDIT_RETURN (R7): one credit on its way reaches the ULC. -/
  | creditReturn
  /-- TRANSMIT_DONE (R10): the last byte of the packet being sent upstream is sent. -/
  | transmitDone
  /-- HEAD_ATTEMPT (R23, R25): the attempt event at position `event` among those on their way reaches the IQ. -/
  | headAttempt (event : Nat) (credit : CreditPath)
  /-- HIT_REPORT (R52): the Plan Store takes the hit report at position `report` among those on their way. -/
  | hitReport (report : Nat)
  /-- EVENT_OCCURRENCE (R175): the Event Unit takes the occurrence at position `report` among those on their way. -/
  | eventOccurrence (report : Nat)
  /-- TARGET_RESPONSE (R18, R88): a target response arrives whole at a port. -/
  | targetResponse (port : PortId) (frame : TargetFrame)
  /-- DEADLINE_EXPIRY (R87): the deadline of a tag slot, which has reached its last tick, expires. -/
  | deadlineExpiry (port : PortId) (slot : SlotId) (order : Order)
  /-- IDLE_TIMEOUT (R97): the idle timer of a port expires. -/
  | idleTimeout (port : PortId)
  /-- WAKE_TIMEOUT (R100): the wake timer of a port expires. -/
  | wakeTimeout (port : PortId) (order : Order)
  /-- TARGET_LINK_UP (R95): a target link changes to UP. -/
  | targetLinkUp (port : PortId)
  /-- TARGET_LINK_DOWN (R95): a target link changes to DOWN. -/
  | targetLinkDown (port : PortId) (order : Order)
  /-- TICK_BOUNDARY (R187). -/
  | tickBoundary
  /-- HOLDOFF_EXPIRY (R183). -/
  | holdoffExpiry
  /-- DRAIN_TIMEOUT (R150). -/
  | drainTimeout
  /-- OTT_ABORT (R130): the OTT takes an abort request of those on their way. -/
  | ottAbort (request : AbortTaking)
  /-- OTT_EMPTY_REPORT (R149): the Plan Store takes an empty report of the OTT. -/
  | ottEmptyReport
  /-- COPY_STEP (R144). -/
  | copyStep
  /-- CLEAR_STEP (R146). -/
  | clearStep
  /-- HELD_REPLY_RELEASE (R162): the Control Unit takes the completion report at position `report`. -/
  | heldReplyRelease (report : Nat)
  /-- RESET_TRAFFIC (R171). -/
  | resetTraffic
  /-- RESET_FULL (R172): `sel` is the level of PLAN_SEL then, `credit` and `order` choose as R34 and R172 leave open. -/
  | resetFull (sel : PlanSel) (credit : CreditPath) (order : FullOrder)
  /-- READ_STATUS (R163). -/
  | readStatus
  /-- READ_WINDOW (R164). -/
  | readWindow
  /-- READ_PAGE (R165). -/
  | readPage
  /-- READ_PORT (R166): `due` gives the ticks shown for timers whose expiry is due and not yet taken (log 9). -/
  | readPort (due : List (BitVec 16))
  /-- READ_EVENTS (R167). -/
  | readEvents
  /-- READ_RESET_CAUSE (R168). -/
  | readResetCause
  /-- CLEAR_COUNTERS (R169). -/
  | clearCounters
  /-- LOAD_WINDOW (R141). -/
  | loadWindow
  /-- CLEAR_WINDOW (R142). -/
  | clearWindow
  /-- LOAD_PAGES (R143). -/
  | loadPages
  /-- COPY_PLAN (R144). -/
  | copyPlan
  /-- CLEAR_PLAN (R146). -/
  | clearPlan
  /-- SWITCH_PLAN_DRAIN (R147). -/
  | switchPlanDrain
  /-- SWITCH_PLAN_FORCE (R148). -/
  | switchPlanForce
  /-- SET_PLAN_TIMING (R153). -/
  | setPlanTiming
  /-- PORT_ENABLE (R103). -/
  | portEnable
  /-- PORT_DISABLE (R104): `order` chooses as R102 and R104 leave open. -/
  | portDisable (order : Order)
  /-- PARK_PORT (R98). -/
  | parkPort
  /-- SET_PORT (R105). -/
  | setPort
  /-- SET_EVENT_ENABLES (R181). -/
  | setEventEnables
  /-- CLEAR_EVENTS (R182). -/
  | clearEvents
  /-- SET_HOLDOFF (R183). -/
  | setHoldoff
  /-- SET_TIMEBASE (R188). -/
  | setTimebase
  /-- UNKNOWN_COMMAND (R159). -/
  | unknownCommand
deriving DecidableEq, Repr

end Sys2Proof
end

