-- ==== Sys2Proof/Decode.lean ====
section
/-! DEFINITION. Decoding of table words. spec/opcode_table.json gives none of its 57 rows any bits, so no word spells a
command. The byte layouts the spec does give (R11, R12, R14, R15) are in Machine/Operands.lean. -/

namespace Sys2Proof

/-- The command that a word spells by the table's bits: none, since no row has bits. -/
def decodeTableWord (_nbits _w : Nat) : Option Instr := none

end Sys2Proof
end

