-- ==== Sys2Proof/Config.lean ====
section
/-! DEFINITION. What the part fixes: its capacities and the values start-up restores (00_scope.md, capacities).
The model has no opaque free value: every order or value the spec leaves open is an operand of the command (log 4, log 9). -/

namespace Sys2Proof.Config

/-- Ingress FIFO places, and the credits of a LINK START (R4, R19). -/
def credits : Nat := 16

/-- Places of a port's egress FIFO (R28, R83). -/
def egressPlaces : Nat := 8

/-- Response timeout after start-up, in ticks (R81). -/
def responseTimeout : Nat := 250

/-- Wake timeout after start-up, in ticks (R81). -/
def wakeTimeout : Nat := 64

/-- Idle park timeout after start-up; 0 disables idle parking (R81). -/
def idlePark : Nat := 0

/-- Drain timeout after start-up, in ticks (R153). -/
def drainTimeout : Nat := 1250

/-- Alert holdoff after start-up, in ticks (R185). -/
def holdoff : Nat := 16

/-- Timebase exponent after start-up (R187). -/
def exponent : Fin 8 := 3

/-- Bytes of a request header, the least length of a well-formed frame (R6, R11). -/
def headerBytes : Nat := 12

/-- Greatest length of a well-formed frame (R6). -/
def frameBytes : Nat := 268

/-- Greatest control payload (R6). -/
def payloadBytes : Nat := 160

/-- Bytes of a unit, 4 KiB (00_scope.md, conventions). -/
def unitBytes : Nat := 4096

/-- Bytes of a page, 16 KiB (00_scope.md, conventions). -/
def pageBytes : Nat := 16384

/-- One past the last byte address, 2^36 (00_scope.md, conventions). -/
def addressSpace : Nat := 68719476736

end Sys2Proof.Config
end

