-- ==== Sys2Proof/Machine/State.lean ====
section
/-! DEFINITION. The state of the TS-8, block by block, as plain data; what is on its way between the blocks; the queue of
commands; the faults and refusals; and the state after reset. -/

namespace Sys2Proof.Machine

/-! ## Upstream packets and the ULC (01) -/

/-- The kind of a memory request (R11). -/
inductive MemKind where
  | read
  | write
deriving DecidableEq, Repr

/-- What a request held in the ingress FIFO carries beside its tag (R19). -/
inductive RequestBody where
  /-- MEMORY READ or MEMORY WRITE: address, the length field as it arrived, and the write data. -/
  | memory (kind : MemKind) (addr : Addr) (length : Nat) (data : List Byte)
  /-- CONTROL: the control payload, whose first byte is the command identifier. -/
  | control (payload : List Byte)
deriving DecidableEq, Repr

/-- A request of the ingress FIFO (R19). -/
structure Request where
  tag : Tag
  body : RequestBody
deriving DecidableEq, Repr

/-- The statuses of responses and replies (R13). -/
inductive Status where
  | ok
  | okDegraded
  | noWindow
  | notMapped
  | accessProtected
  | badRequest
  | portDown
  | timeout
  | targetError
  | aborted
  | done
  | doneForced
  | busy
  | badArgument
  | unknownCommand
  | portBusy
  | pendingEvent
  | linkNotReady
  | notInService
deriving DecidableEq, Repr

/-- The kinds of response the response queue holds (R8). -/
inductive ResponseKind where
  | read
  | write
  | control
deriving DecidableEq, Repr

/-- A response waiting in the response queue (R8): its tag, status, event summary (control replies) and what follows the
header (read data or reply contents). -/
structure Response where
  kind : ResponseKind
  tag : Tag
  status : Status
  summary : BitVec 5
  contents : List Byte
deriving DecidableEq, Repr

/-- What the upstream transmitter is sending (R9). A response being sent is the head of the response queue. -/
inductive TxPacket where
  | linkStart
  | credit (count : Nat)
  | response
deriving DecidableEq, Repr

/-- The states of the upstream link (R1). -/
inductive UlcState where
  | down
  | ready
  | up
deriving DecidableEq, Repr

/-- The Upstream Link Controller (R1, R4, R8, R9). -/
structure Ulc where
  state : UlcState
  credits : Nat
  awaiting : Nat
  queue : List Response
  tx : Option TxPacket
deriving DecidableEq, Repr

/-! ## The Ingress Queue (02) -/

/-- The admission gate, OPEN or HELD (R22). -/
inductive Gate where
  | opened
  | held
deriving DecidableEq, Repr

/-- The condition of the head of the ingress FIFO (02, the head of the FIFO). `fresh` is the model's own: a head that has
its attempt coming and has not been attempted (log 20). -/
inductive HeadCond where
  | noHead
  | fresh
  | startWait
  | gateWait
  | spaceWait
deriving DecidableEq, Repr

/-- The Ingress Queue (R19, R21, R22). -/
structure IngressQueue where
  fifo : List Request
  tags : List Tag
  gate : Gate
  cond : HeadCond
deriving DecidableEq, Repr

/-- The events that may cause an attempt of the head (R23). -/
inductive AttemptEvent where
  | newHead
  | startUpComplete
  | gateOpened
  | placesRose (port : PortId)
  | portChanged (port : PortId)
deriving DecidableEq, Repr

/-! ## The Plan Store (03, 04, 07) -/

/-- Read policies (R46). -/
inductive ReadPolicy where
  | allow
  | refuse
deriving DecidableEq, Repr

/-- Write policies (R46). -/
inductive WritePolicy where
  | allow
  | refuse
  | discard
deriving DecidableEq, Repr

/-- Interleave strides: 256 bytes, 1 KiB, 4 KiB, 16 KiB (R72). -/
inductive Stride where
  | b256
  | k1
  | k4
  | k16
deriving DecidableEq, Repr

/-- The modes and the fields each holds (R36). -/
inductive Mode where
  | direct (port : PortId) (targetBase : UnitNo) (fallback : Option PortId)
  | paged (start : PageIx) (count : Nat)
  | interleaved (members : List PortId) (stride : Stride) (targetBase : UnitNo)
  | mirrored (members : List PortId) (targetBase : UnitNo)
deriving DecidableEq, Repr

/-- The fields of a LOADED window entry (R36). A mask may be present with no bit set (R41). -/
structure Window where
  base : UnitNo
  limit : UnitNo
  mask : Option UnitNo
  readPolicy : ReadPolicy
  writePolicy : WritePolicy
  mode : Mode
deriving DecidableEq, Repr

/-- A window entry (R36). -/
inductive WindowEntry where
  | empty
  | loaded (w : Window)
deriving DecidableEq, Repr

/-- A page entry (R64). -/
inductive PageEntry where
  | absent
  | present (port : PortId) (page : PageNo)
deriving DecidableEq, Repr

/-- A plan bank: its window entries, page table and hit counters (R36, R64). -/
structure Bank where
  windows : Vector WindowEntry 32
  pages : Vector PageEntry 256
  hits : Vector (BitVec 32) 32
deriving DecidableEq, Repr

/-- The two banks (R136). -/
inductive BankId where
  | a
  | b
deriving DecidableEq, Repr

/-- The modes of a switch (R138). -/
inductive SwitchMode where
  | drain
  | force
deriving DecidableEq, Repr

/-- The plan-operation state with its record (R138). `tag` is the request whose reply may be owed (R162). The drain timer
is stopped (`none`) or holds its remaining ticks; 0 is an expiry not yet taken (log 9). -/
inductive PlanOp where
  | idle
  | copying (progress : Fin 288) (replyOwed : Bool) (tag : Tag)
  | clearing (progress : Fin 288) (replyOwed : Bool) (tag : Tag)
  | draining (mode : SwitchMode) (escalated : Bool) (timer : Option Nat) (replyOwed : Bool) (tag : Tag)
deriving DecidableEq, Repr

/-- The Plan Store (R136 to R138, R153). -/
structure PlanStore where
  bankA : Bank
  bankB : Bank
  active : BankId
  generation : BitVec 8
  op : PlanOp
  drainTimeout : Nat
deriving DecidableEq, Repr

/-! ## The Outstanding Transaction Table (06) -/

/-- Mode classes (R58, R111). -/
inductive ModeClass where
  | single
  | mirrorWrite
  | mirrorRead
deriving DecidableEq, Repr

/-- Copy states (R112). -/
inductive CopyState where
  | queued
  | reissueWait
  | sent
  | ok
  | targetError
  | timeout
  | portDown
deriving DecidableEq, Repr

/-- A copy of an entry (R112). -/
structure Copy where
  port : PortId
  target : Addr
  position : Option (Fin 4)
  state : CopyState
  slot : Option SlotId
deriving DecidableEq, Repr

/-- An OTT entry (R111); `writeData` are the bytes each write copy carries (R112). -/
structure Entry where
  tag : Tag
  kind : MemKind
  length : Nat
  window : WindowIx
  generation : BitVec 8
  modeClass : ModeClass
  copies : List Copy
  skipped : List PortId
  readData : Option (List Byte)
  writeData : List Byte
deriving DecidableEq, Repr

/-! ## Target ports (05) -/

/-- Port states (R82). -/
inductive PortState where
  | disabled
  | active
  | parked
  | waking
  | quarantined
deriving DecidableEq, Repr

/-- Quarantine causes (R81). -/
inductive QuarantineCause where
  | secondStrike
  | linkLoss
deriving DecidableEq, Repr

/-- A tag slot (R85). The copy of an IN_FLIGHT slot is the OTT's copy, at this port, of the entry named. A deadline of 0 is
an expiry not yet taken (log 9). -/
inductive Slot where
  | free
  | inFlight (tag : Tag) (deadline : Nat)
  | orphan (deadline : Nat)
deriving DecidableEq, Repr

/-- The port record (R81). `egress` names each QUEUED copy by the tag of its entry. A timer is stopped (`none`) or holds
its remaining ticks; 0 is an expiry not yet taken (log 9). -/
structure Port where
  state : PortState
  cause : Option QuarantineCause
  responseTimeout : Nat
  wakeTimeout : Nat
  idlePark : Nat
  egress : List Tag
  slots : Vector Slot 16
  idle : Option Nat
  wake : Option Nat
  copiesSent : BitVec 32
  timeouts : BitVec 16
  strays : BitVec 16
  targetErrors : BitVec 16
  autoEnable : Bool
deriving DecidableEq, Repr

/-! ## The Control Unit (08) -/

/-- A control request as the IQ passes it to the Control Unit (R24). -/
structure ControlRequest where
  tag : Tag
  payload : List Byte
deriving DecidableEq, Repr

/-- The commands whose reply may be held (R162). -/
inductive HeldCommand where
  | copyPlan
  | clearPlan
  | switchPlan
deriving DecidableEq, Repr

/-- An item of the held-reply list (R162). -/
structure HeldItem where
  tag : Tag
  command : HeldCommand
deriving DecidableEq, Repr

/-- The Control Unit: the request passed to it and not yet taken (log 6), and the held-reply list (R162). -/
structure ControlUnit where
  taking : Option ControlRequest
  held : List HeldItem
deriving DecidableEq, Repr

/-! ## The Event Unit (09) -/

/-- The kinds of the fault record (R178). -/
inductive FaultKind where
  | miss
  | protect
  | notMapped
deriving DecidableEq, Repr

/-- The kinds of the link fault record (R179). -/
inductive LinkFaultKind where
  | malformedUpstream
  | overrun
  | tagClash
  | malformedTarget
deriving DecidableEq, Repr

/-- A filled fault record (R178). -/
structure FaultRecord where
  kind : FaultKind
  request : MemKind
  tag : Tag
  addr : Addr
  window : Option WindowIx
  generation : BitVec 8
  repeats : BitVec 8
deriving DecidableEq, Repr

/-- A filled link fault record (R179); the tag is an upstream or a downstream tag, as the kind says. -/
structure LinkFaultRecord where
  kind : LinkFaultKind
  port : Option PortId
  tag : Option Byte
  repeats : BitVec 8
deriving DecidableEq, Repr

/-- The occurrences the blocks report (R174, R175). -/
inductive Occurrence where
  | resetDone
  | uplinkLoss
  /-- MISS, PROTECT or NOT_MAPPED with its contents (R50, R67). -/
  | refused (kind : FaultKind) (request : MemKind) (tag : Tag) (addr : Addr) (window : Option WindowIx) (generation : BitVec 8)
  | degraded
  | strike (port : PortId)
  | quarantine (port : PortId)
  | stray (port : PortId)
  | linkFault (kind : LinkFaultKind) (port : Option PortId) (tag : Option Byte)
  | switchDone
  | switchForced
deriving DecidableEq, Repr

/-- The Event Unit (R174 to R184). `pending` holds bytes 0 and 1 of the pending form (R167), byte 0 in bits 7:0; `enables`
holds the enable-controlled bits in the same form; the three port sets have bit n for port n. `alert` is ALERT_N asserted. -/
structure EventUnit where
  pending : BitVec 16
  strikes : BitVec 8
  quarantines : BitVec 8
  strayPorts : BitVec 8
  enables : BitVec 16
  faultRecord : Option FaultRecord
  linkFaultRecord : Option LinkFaultRecord
  holdoffSetting : BitVec 8
  holdoff : Option Nat
  alert : Bool
deriving DecidableEq, Repr

/-! ## Timebase, Reset and Start-up (10) -/

/-- The Timebase (R187). -/
structure Timebase where
  exponent : Fin 8
  pendingExponent : Option (Fin 8)
deriving DecidableEq, Repr

/-- Reset causes (R190). -/
inductive ResetCause where
  | powerOn
  | pin
  | command
deriving DecidableEq, Repr

/-- The states of the Reset and Start-up block (R191). -/
inductive RsState where
  | running
  | starting
deriving DecidableEq, Repr

/-- The held conditions of R189. -/
inductive HeldCondition where
  | powerOn
  | pin
deriving DecidableEq, Repr

/-- How far a RESET FULL has come before its start-up begins (R172, R189). -/
inductive FullReset where
  | none
  | awaitAbort
  | ready
deriving DecidableEq, Repr

/-- Reset and Start-up (R189 to R192). -/
structure ResetUnit where
  state : RsState
  held : Option HeldCondition
  full : FullReset
  sample : PlanSel
  lastCause : ResetCause
  previousCause : Option ResetCause
  resetCount : BitVec 8
deriving DecidableEq, Repr

/-! ## Between the blocks -/

/-- Who requests an abort (R130). -/
inductive AbortSource where
  | planStore
  | resetTraffic
  | resetFull
  | linkLoss
deriving DecidableEq, Repr

/-- A hit report (R52). -/
structure HitReport where
  bank : BankId
  window : WindowIx
deriving DecidableEq, Repr

/-- The Plan Store's report that an operation has ended, with the reply it brings (R145, R151, R162). -/
structure OperationEnd where
  tag : Tag
  status : Status
  contents : List Byte
deriving DecidableEq, Repr

/-- An ABORTED answer: the kind of the response and its tag (R34, R131, R172). -/
structure AbortedAnswer where
  kind : ResponseKind
  tag : Tag
deriving DecidableEq, Repr

/-- The blocks that have not yet taken an upstream link loss (R2). The OTT's signal is its abort request. -/
structure LossSignals where
  iq : Bool
  ott : Bool
  planStore : Bool
  controlUnit : Bool
  ports : Bool
deriving DecidableEq, Repr

/-- What is on its way from one block to another and is taken in a step of its own (log 3). -/
structure Mail where
  creditReturns : Nat
  hitReports : List HitReport
  occurrences : List Occurrence
  aborts : List AbortSource
  emptyReports : Nat
  ends : List OperationEnd
  attempts : List AttemptEvent
  /-- ABORTED answers of a RESET FULL, of the Control Unit and of the IQ, that join the response queue with those of the OTT's
  abort (R34, R156, R172, log 12). -/
  answers : List AbortedAnswer
  /-- Ports that have the return to PARKED of a RESET TRAFFIC or an upstream link loss still to take, in number order: they hold
  copies that the OTT's abort removes first (R107, R108, log 27). -/
  returns : List PortId
  /-- Frames that have arrived while the Control Unit has a request in hand, which it takes first (R24, log 6). -/
  arrivals : List (List Byte)
  loss : LossSignals
deriving DecidableEq, Repr

/-! ## Pins and outputs -/

/-- The input pins as they stand (00_scope.md, terminal functions). -/
structure Pins where
  /-- RESET_N is asserted (low). -/
  resetN : Bool
  planSel : PlanSel
  /-- The upstream carrier is PRESENT (R1). -/
  carrier : Bool
  /-- T0_LINK to T7_LINK report UP (R16). -/
  link : Vector Bool 8
deriving DecidableEq, Repr

/-- What the part puts on its output lines. -/
inductive Output where
  /-- A packet sent whole on UL_TX (R12). -/
  | upstream (bytes : List Byte)
  /-- A downstream request begun on a target link (R18, R86). -/
  | downstream (port : PortId) (kind : MemKind) (slot : SlotId) (target : Addr) (length : Nat) (data : List Byte)
  /-- A low-power request on T*_LP (R17). -/
  | lowPower (port : PortId)
  /-- A wake request on T*_WAKE (R17). -/
  | wake (port : PortId)
deriving DecidableEq, Repr

/-! ## The state -/

/-- The TS-8: its pins, its blocks, what is on its way between them, what it has put on its output lines (`wire`, oldest
first, log 14), and the queue of commands (log 1). -/
structure State where
  pending : List Instr
  pins : Pins
  ulc : Ulc
  iq : IngressQueue
  ps : PlanStore
  ott : List Entry
  ports : Vector Port 8
  cu : ControlUnit
  eu : EventUnit
  tb : Timebase
  rs : ResetUnit
  mail : Mail
  wire : List Output
deriving DecidableEq, Repr

/-- No step of the part stops with a fault: R5, R6, R18, R20, R90 and R159 answer, discard or record every malformed input.
Nobody raises one, which is safe. -/
inductive Fault where
deriving DecidableEq, Repr

/-- Refusals. -/
inductive Refusal where
  /-- Raised by an arm of `exec` whose command has no meaning yet; safe. No arm raises it now. -/
  | notModelled (mnemonic : String)
deriving DecidableEq, Repr

/-! ## Values after reset -/

/-- A bank with every window EMPTY, every page ABSENT and every counter 0, as start-up clears it (R56). -/
def Bank.cleared : Bank :=
  { windows := .replicate 32 .empty, pages := .replicate 256 .absent, hits := .replicate 32 0 }

/-- The port record as start-up leaves it (R81, R109). -/
def Port.startUp : Port :=
  { state := .disabled, cause := none, responseTimeout := Config.responseTimeout, wakeTimeout := Config.wakeTimeout,
    idlePark := Config.idlePark, egress := [], slots := .replicate 16 .free, idle := none, wake := none, copiesSent := 0,
    timeouts := 0, strays := 0, targetErrors := 0, autoEnable := false }

/-- The Event Unit as start-up sets it, before RESET_DONE is reported (R185): nothing pending, MISS, PROTECT, NOT_MAPPED,
DEGRADED and LINK_FAULT enabled, STRAY and SWITCH_DONE disabled (R174), holdoff 16, ALERT_N released. -/
def EventUnit.startUp : EventUnit :=
  { pending := 0, strikes := 0, quarantines := 0, strayPorts := 0, enables := 0x7C, faultRecord := none,
    linkFaultRecord := none, holdoffSetting := BitVec.ofNat 8 Config.holdoff, holdoff := none, alert := false }

/-- Nothing on its way between the blocks. -/
def Mail.none : Mail :=
  { creditReturns := 0, hitReports := [], occurrences := [], aborts := [], emptyReports := 0, ends := [], attempts := [],
    answers := [], returns := [], arrivals := [],
    loss := { iq := false, ott := false, planStore := false, controlUnit := false, ports := false } }

/-- What is on its way at the assertion of a power-on or pin reset: only the report of the OTT, which the reset empties, that
it is empty (R134, log 11). -/
def Mail.atReset : Mail := { Mail.none with emptyReports := 1 }

/-- The state after reset: the held condition of a power-on reset (R189), before start-up begins. Every block stands as
its chapter states from the assertion (R3, R33, R134, R157, R173, R185); registers for which the spec gives a value only
after start-up hold that value, and the pins and the strap's sample hold values of the model's choice (log 7). -/
def State.reset : State :=
  { pending := []
    pins := { resetN := false, planSel := .empty, carrier := false, link := .replicate 8 false }
    ulc := { state := .down, credits := 0, awaiting := 0, queue := [], tx := none }
    iq := { fifo := [], tags := [], gate := .opened, cond := .noHead }
    ps := { bankA := .cleared, bankB := .cleared, active := .a, generation := 0, op := .idle,
            drainTimeout := Config.drainTimeout }
    ott := []
    ports := .replicate 8 .startUp
    cu := { taking := none, held := [] }
    eu := .startUp
    tb := { exponent := Config.exponent, pendingExponent := none }
    rs := { state := .running, held := some .powerOn, full := .none, sample := .empty, lastCause := .powerOn,
            previousCause := none, resetCount := 0 }
    mail := .atReset
    wire := [] }

end Sys2Proof.Machine
end

