-- ==== Sys2Proof/Machine/Operands.lean ====
section
/-! DEFINITION. The byte layouts of the link: request headers (R11), packets sent upstream (R12, R13), window entry
records (R14) with the conditions of a well-formed entry (R38, R63, R68, R72, R76), page entry records (R15), and the
classification of control payloads by command identifier (R159). -/

namespace Sys2Proof.Machine

/-! ## Bytes, least significant first (01, packet and record layouts) -/

/-- Byte `i` of a list, 0 beyond its end. -/
def byteAt (bs : List Byte) (i : Nat) : Byte := bs.getD i 0

/-- The `n` low bytes of a number, least significant byte first. -/
def leBytes : Nat → Nat → List Byte
  | 0, _ => []
  | n + 1, x => BitVec.ofNat 8 x :: leBytes n (x / 256)

/-- The number that bytes give, least significant byte first. -/
def leNat : List Byte → Nat
  | [] => 0
  | b :: bs => b.toNat + 256 * leNat bs

/-- The number held in `n` bytes from byte `i` on. -/
def leField (bs : List Byte) (i n : Nat) : Nat := leNat ((bs.drop i).take n)

/-- Bits 2:0 of a byte as a port number. -/
def portOfByte (b : Byte) : PortId := ⟨b.toNat % 8, Nat.mod_lt _ (by decide)⟩

/-- A port number as a byte. -/
def byteOfPort (p : PortId) : Byte := BitVec.ofNat 8 p.val

/-- A Bool as the byte 00h or 01h. -/
def flagByte (b : Bool) : Byte := if b then 1 else 0

/-! ## Upstream requests (R6, R11) -/

/-- The tag of a frame that holds a tag byte: bits 5:0 of byte 1 (R11 note 3). -/
def frameTag (frame : List Byte) : Option Tag := frame[1]?.map fun b => b.setWidth 6

/-- The 36-bit address field: bytes 4 to 7 and bits 3:0 of byte 8 (R11). -/
def frameAddr (frame : List Byte) : Addr := BitVec.ofNat 36 (leField frame 4 5)

/-- The form check (R6): the request a well-formed frame carries, none for a malformed frame. -/
def parseFrame (frame : List Byte) : Option Request :=
  let length := leField frame 2 2
  let tag := (byteAt frame 1).setWidth 6
  let rest := frame.drop Config.headerBytes
  if frame.length < Config.headerBytes ∨ Config.frameBytes < frame.length then none
  else match (byteAt frame 0).toNat with
    | 1 => if rest = [] then some ⟨tag, .memory .read (frameAddr frame) length []⟩ else none
    | 2 => if rest.length = length then some ⟨tag, .memory .write (frameAddr frame) length rest⟩ else none
    | 3 =>
      if 1 ≤ length ∧ length ≤ Config.payloadBytes ∧ rest.length = length then some ⟨tag, .control rest⟩ else none
    | _ => none

/-! ## Packets sent upstream (R12, R13) -/

/-- The status codes (R13). -/
def Status.code : Status → Byte
  | .ok => 0x00
  | .okDegraded => 0x01
  | .noWindow => 0x10
  | .notMapped => 0x11
  | .accessProtected => 0x12
  | .badRequest => 0x13
  | .portDown => 0x20
  | .timeout => 0x21
  | .targetError => 0x22
  | .aborted => 0x30
  | .done => 0x00
  | .doneForced => 0x01
  | .busy => 0x40
  | .badArgument => 0x41
  | .unknownCommand => 0x42
  | .portBusy => 0x43
  | .pendingEvent => 0x44
  | .linkNotReady => 0x45
  | .notInService => 0x46

/-- The kind bytes of responses (R12). -/
def ResponseKind.code : ResponseKind → Byte
  | .read => 0x81
  | .write => 0x82
  | .control => 0x83

/-- A response as it is sent: the 8-byte header of R12, then its data or contents. -/
def Response.bytes (r : Response) : List Byte :=
  [r.kind.code, r.tag.setWidth 8, r.status.code, r.summary.setWidth 8] ++ leBytes 2 r.contents.length ++ [0, 0]
    ++ r.contents

/-- A LINK START or CREDIT packet with its credit count (R12). -/
def creditPacketBytes (kind : Byte) (count : Nat) : List Byte :=
  [kind, 0, BitVec.ofNat 8 count, 0, 0, 0, 0, 0]

/-! ## Window entry records (R14) -/

/-- The stride codes (R14). -/
def Stride.code : Stride → Byte
  | .b256 => 0
  | .k1 => 1
  | .k4 => 2
  | .k16 => 3

/-- The stride that bits 1:0 of a byte give (R14). -/
def strideOfByte (b : Byte) : Stride :=
  match b.toNat % 4 with
  | 0 => .b256
  | 1 => .k1
  | 2 => .k4
  | _ => .k16

/-- A stride in bytes (R72). -/
def Stride.bytes : Stride → Nat
  | .b256 => 256
  | .k1 => 1024
  | .k4 => 4096
  | .k16 => 16384

/-- The read policy that bits 1:0 of byte 2 give, none for an unlisted code (R14). -/
def readPolicyOfByte (b : Byte) : Option ReadPolicy :=
  match b.toNat % 4 with
  | 0 => some .allow
  | 1 => some .refuse
  | _ => none

/-- The write policy that bits 5:4 of byte 2 give, none for an unlisted code (R14). -/
def writePolicyOfByte (b : Byte) : Option WritePolicy :=
  match b.toNat / 16 % 4 with
  | 0 => some .allow
  | 1 => some .refuse
  | 2 => some .discard
  | _ => none

/-- Byte 2 of a record: both policies (R14). -/
def policyByte (r : ReadPolicy) (w : WritePolicy) : Byte :=
  (match r with | .allow => 0x00 | .refuse => 0x01) ||| (match w with | .allow => 0x00 | .refuse => 0x10 | .discard => 0x20)

/-- The member ports of a record, in list order, from byte 18 on (R14). -/
def recordMembers (r : List Byte) (n : Nat) : List PortId :=
  (List.range n).map fun i => portOfByte (byteAt r (18 + i))

/-- A 24-bit unit field of a record (R14). -/
def recordUnit (r : List Byte) (i : Nat) : UnitNo := BitVec.ofNat 24 (leField r i 3)

/-- The mode and its fields in a LOADED record, none for an unlisted mode code (R14). Member counts are checked by
`Mode.wellFormed` (R72, R76). -/
def parseMode (r : List Byte) : Option Mode :=
  let target := recordUnit r 13
  let b16 := byteAt r 16
  let b17 := byteAt r 17
  match (byteAt r 1).toNat with
  | 0 => some (.direct (portOfByte b16) target (if b17.getLsbD 7 then some (portOfByte b17) else none))
  | 1 => some (.paged b16.toFin (b17.toNat + 1))
  | 2 => some (.interleaved (recordMembers r (b16.toNat % 16)) (strideOfByte b17) target)
  | 3 => some (.mirrored (recordMembers r (b16.toNat % 16)) target)
  | _ => none

/-- The entry a 32-byte record carries, none for a state, mode or policy outside the listed codes (R14). An EMPTY state
ignores the rest of the record (R38 note 3, R141). -/
def parseWindow (r : List Byte) : Option WindowEntry :=
  match (byteAt r 0).toNat with
  | 0 => some .empty
  | 1 =>
    match readPolicyOfByte (byteAt r 2), writePolicyOfByte (byteAt r 2), parseMode r with
    | some rp, some wp, some mode =>
      some (.loaded
        { base := recordUnit r 4, limit := recordUnit r 7,
          mask := if (byteAt r 3).getLsbD 0 then some (recordUnit r 10) else none,
          readPolicy := rp, writePolicy := wp, mode := mode })
    | _, _, _ => none
  | _ => none

/-- The member bytes 18 to 25 of a record: the members in list order, zero beyond them (R14 note 2). -/
def memberBytes (ms : List PortId) : List Byte :=
  (List.range 8).map fun i => (ms[i]?.map byteOfPort).getD 0

/-- The mode code (R14). -/
def Mode.code : Mode → Byte
  | .direct _ _ _ => 0
  | .paged _ _ => 1
  | .interleaved _ _ _ => 2
  | .mirrored _ _ => 3

/-- Bytes 13 to 31 of a LOADED record: target base, the two shared bytes, members and zeros (R14). -/
def Mode.recordBytes : Mode → List Byte
  | .direct p t f =>
    leBytes 3 t.toNat ++ [byteOfPort p, (match f with | some q => 0x80 ||| byteOfPort q | none => 0)] ++ List.replicate 14 0
  | .paged s c => [0, 0, 0, BitVec.ofNat 8 s.val, BitVec.ofNat 8 (c - 1)] ++ List.replicate 14 0
  | .interleaved ms st t =>
    leBytes 3 t.toNat ++ [BitVec.ofNat 8 ms.length, st.code] ++ memberBytes ms ++ List.replicate 6 0
  | .mirrored ms t => leBytes 3 t.toNat ++ [BitVec.ofNat 8 ms.length, 0] ++ memberBytes ms ++ List.replicate 6 0

/-- The 32-byte record of an entry, as READ WINDOW returns it: every byte that its state and mode do not use is zero (R14). -/
def WindowEntry.record : WindowEntry → List Byte
  | .empty => List.replicate 32 0
  | .loaded w =>
    [1, w.mode.code, policyByte w.readPolicy w.writePolicy, flagByte w.mask.isSome] ++ leBytes 3 w.base.toNat
      ++ leBytes 3 w.limit.toNat ++ leBytes 3 (w.mask.getD 0).toNat ++ w.mode.recordBytes

/-! ## Well-formed window entries (R38) -/

/-- The window size in bytes (R37). -/
def Window.size (w : Window) : Nat := (w.limit.toNat + 1 - w.base.toNat) * Config.unitBytes

/-- A translated range of `size` bytes from a target base lies within the target address space (R78). -/
def rangeFits (targetBase : UnitNo) (size : Nat) : Bool :=
  targetBase.toNat * Config.unitBytes + size ≤ Config.addressSpace

/-- The conditions of each mode (R63, R68, R72, R76, R78). -/
def Mode.wellFormed (m : Mode) (w : Window) : Bool :=
  match m with
  | .direct p t f => f != some p && rangeFits t w.size
  | .paged s c =>
    w.base.toNat % 4 == 0 && (w.limit.toNat + 1 - w.base.toNat) % 4 == 0 && decide (1 ≤ c) && decide (s.val + c ≤ 256)
      && decide (w.size ≤ c * Config.pageBytes)
  | .interleaved ms st t =>
    (ms.length == 2 || ms.length == 4 || ms.length == 8) && decide ms.Nodup && w.size % (st.bytes * ms.length) == 0
      && rangeFits t (w.size / ms.length)
  | .mirrored ms t =>
    decide (2 ≤ ms.length) && decide (ms.length ≤ 4) && decide ms.Nodup && rangeFits t w.size

/-- A LOADED entry is well formed (R38). -/
def Window.wellFormed (w : Window) : Bool :=
  decide (w.base.toNat ≤ w.limit.toNat)
    && (match w.mask with | some m => w.base &&& m == 0 && w.limit &&& m == 0 | none => true)
    && w.mode.wellFormed w

/-- An entry is well formed: EMPTY, or LOADED and well formed (R38). -/
def WindowEntry.wellFormed : WindowEntry → Bool
  | .empty => true
  | .loaded w => w.wellFormed

/-! ## Page entry records (R15) -/

/-- The page entry a 4-byte record carries; the bits marked zero are ignored (R15, R143). -/
def parsePage (r : List Byte) : PageEntry :=
  if (byteAt r 0).getLsbD 0 then
    .present (portOfByte ((byteAt r 0) >>> 4)) (BitVec.ofNat 22 (leField r 1 3))
  else .absent

/-- The 4-byte record of a page entry; ABSENT has port and page number zero (R15). -/
def PageEntry.record : PageEntry → List Byte
  | .absent => [0, 0, 0, 0]
  | .present p n => (1 ||| (byteOfPort p <<< 4)) :: leBytes 3 n.toNat

/-! ## Control payloads (R139, R159, R163 to R170, R180, R188, R102) -/

/-- The commands of the index of 08. -/
inductive Command where
  | reset
  | readStatus
  | readWindow
  | readPage
  | readPort
  | readEvents
  | readResetCause
  | clearCounters
  | loadWindow
  | clearWindow
  | loadPages
  | copyPlan
  | clearPlan
  | switchPlan
  | setPlanTiming
  | portEnable
  | portDisable
  | parkPort
  | setPort
  | setEventEnables
  | clearEvents
  | setHoldoff
  | setTimebase
deriving DecidableEq, Repr

/-- The command that a payload's identifier names, none for an identifier of no command (R159, step 1). -/
def commandOf (payload : List Byte) : Option Command :=
  match (byteAt payload 0).toNat with
  | 0x01 => some .reset
  | 0x10 => some .readStatus
  | 0x11 => some .readWindow
  | 0x12 => some .readPage
  | 0x13 => some .readPort
  | 0x14 => some .readEvents
  | 0x15 => some .readResetCause
  | 0x16 => some .clearCounters
  | 0x20 => some .loadWindow
  | 0x21 => some .clearWindow
  | 0x22 => some .loadPages
  | 0x23 => some .copyPlan
  | 0x24 => some .clearPlan
  | 0x25 => some .switchPlan
  | 0x26 => some .setPlanTiming
  | 0x30 => some .portEnable
  | 0x31 => some .portDisable
  | 0x32 => some .parkPort
  | 0x33 => some .setPort
  | 0x40 => some .setEventEnables
  | 0x41 => some .clearEvents
  | 0x42 => some .setHoldoff
  | 0x50 => some .setTimebase
  | _ => none

end Sys2Proof.Machine
end

