-- ==== Sys2Proof/Machine/Flags.lean ====
section
/-! DEFINITION. The Event Unit's flags: capture (R174 to R179), the event summary (R161), ALERT_N (R184) and clearing
(R182), and saturating counters (00_scope.md, conventions). -/

namespace Sys2Proof.Machine

/-- A saturating counter advanced by one. -/
def satInc {n : Nat} (c : BitVec n) : BitVec n := if c = BitVec.allOnes n then c else c + 1

/-- The bit of a port in a port set. -/
def portBit (p : PortId) : BitVec 8 := 1 <<< p.val

/-- The bit of an event in bytes 0 and 1 of the pending form (R167); 0 for the per-port events of bytes 2 and 3. -/
def Occurrence.bit : Occurrence → BitVec 16
  | .resetDone => 0x001
  | .uplinkLoss => 0x002
  | .refused .miss _ _ _ _ _ => 0x004
  | .refused .protect _ _ _ _ _ => 0x008
  | .refused .notMapped _ _ _ _ _ => 0x010
  | .degraded => 0x020
  | .linkFault _ _ _ => 0x040
  | .stray _ => 0x080
  | .switchDone => 0x100
  | .switchForced => 0x200
  | .strike _ => 0
  | .quarantine _ => 0

/-- The bits of bytes 0 and 1 that name an event (R167). -/
def eventBits : BitVec 16 := 0x3FF

/-- The bits of the enable-controlled events: MISS, PROTECT, NOT_MAPPED, DEGRADED, LINK_FAULT, STRAY, SWITCH_DONE (R181). -/
def enableBits : BitVec 16 := 0x1FC

/-- The bits of the events of bytes 0 and 1 that are always captured: RESET_DONE, UPLINK_LOSS, SWITCH_FORCED (R174). -/
def alwaysBits : BitVec 16 := 0x203

/-- An occurrence is captured: its event is marked always, or its capture enable is set (R175). -/
def EventUnit.captures (eu : EventUnit) (o : Occurrence) : Bool :=
  match o with
  | .resetDone | .uplinkLoss | .switchForced | .strike _ | .quarantine _ => true
  | .refused _ _ _ _ _ _ | .degraded | .linkFault _ _ _ | .stray _ | .switchDone => eu.enables &&& o.bit != 0

/-- At least one event is pending (R174). -/
def EventUnit.anyPending (eu : EventUnit) : Bool := eu.pending != 0 || eu.strikes != 0 || eu.quarantines != 0

/-- ALERT_N brought to the level of R184: asserted while an event is pending and the holdoff timer is not running. -/
def EventUnit.settleAlert (eu : EventUnit) : EventUnit :=
  { eu with alert := eu.anyPending && eu.holdoff.isNone }

/-- The fault record after a captured MISS, PROTECT or NOT_MAPPED: filled if empty, else its repeat count advanced (R178). -/
def fillFault (r : Option FaultRecord) (new : FaultRecord) : FaultRecord :=
  match r with
  | none => new
  | some old => { old with repeats := satInc old.repeats }

/-- The link fault record after a captured LINK_FAULT (R179). -/
def fillLinkFault (r : Option LinkFaultRecord) (new : LinkFaultRecord) : LinkFaultRecord :=
  match r with
  | none => new
  | some old => { old with repeats := satInc old.repeats }

/-- The record, port set or per-port flag that a captured occurrence changes beside its pending flag (R175 to R179). -/
def EventUnit.fill (eu : EventUnit) : Occurrence → EventUnit
  | .refused kind request tag addr window generation =>
    { eu with faultRecord := some (fillFault eu.faultRecord ⟨kind, request, tag, addr, window, generation, 0⟩) }
  | .linkFault kind port tag =>
    { eu with linkFaultRecord := some (fillLinkFault eu.linkFaultRecord ⟨kind, port, tag, 0⟩) }
  | .stray p => { eu with strayPorts := eu.strayPorts ||| portBit p }
  | .strike p => { eu with strikes := eu.strikes ||| portBit p }
  | .quarantine p => { eu with quarantines := eu.quarantines ||| portBit p }
  | .resetDone | .uplinkLoss | .degraded | .switchDone | .switchForced => eu

/-- The Event Unit takes an occurrence (R175): if captured it sets the pending flag, fills or advances the record, and
brings ALERT_N to its level; if not, it changes nothing. -/
def EventUnit.take (eu : EventUnit) (o : Occurrence) : EventUnit :=
  if eu.captures o then ({ eu.fill o with pending := eu.pending ||| o.bit }).settleAlert else eu

/-- The event summary (R161, R12): SYSTEM, TRAFFIC, PORT, LINK and PLAN in bits 0 to 4. -/
def EventUnit.summary (eu : EventUnit) : BitVec 5 :=
  (if eu.pending &&& 0x003 != 0 then 0x01 else 0)
    ||| (if eu.pending &&& 0x03C != 0 then 0x02 else 0)
    ||| (if eu.pending &&& 0x080 != 0 || eu.strikes != 0 || eu.quarantines != 0 then 0x04 else 0)
    ||| (if eu.pending &&& 0x040 != 0 then 0x08 else 0)
    ||| (if eu.pending &&& 0x300 != 0 then 0x10 else 0)

/-- The bit of the event whose kind a fault record holds (R178). -/
def FaultKind.bit : FaultKind → BitVec 16
  | .miss => 0x004
  | .protect => 0x008
  | .notMapped => 0x010

/-- What a CLEAR EVENTS clears: the named events that are pending (R182). -/
structure ClearedEvents where
  events : BitVec 16
  strikes : BitVec 8
  quarantines : BitVec 8
deriving DecidableEq, Repr

/-- The events among those named that are pending (R182). -/
def EventUnit.clearable (eu : EventUnit) (events : BitVec 16) (strikes quarantines : BitVec 8) : ClearedEvents :=
  { events := eu.pending &&& events &&& eventBits, strikes := eu.strikes &&& strikes,
    quarantines := eu.quarantines &&& quarantines }

/-- At least one event is cleared (R182). -/
def ClearedEvents.any (c : ClearedEvents) : Bool := c.events != 0 || c.strikes != 0 || c.quarantines != 0

/-- The holdoff timer after a clear of at least one event: started at the setting, stopped for a setting of 0 (R183). -/
def EventUnit.restartHoldoff (eu : EventUnit) : EventUnit :=
  { eu with holdoff := if eu.holdoffSetting = 0 then none else some eu.holdoffSetting.toNat }

/-- The Event Unit after the events of `c` are cleared (R182, R183, R184). -/
def EventUnit.clear (eu : EventUnit) (c : ClearedEvents) : EventUnit :=
  if c.any then
    ({ eu with
        pending := eu.pending &&& ~~~c.events
        strikes := eu.strikes &&& ~~~c.strikes
        quarantines := eu.quarantines &&& ~~~c.quarantines
        faultRecord := eu.faultRecord.filter fun r => c.events &&& r.kind.bit == 0
        linkFaultRecord := if c.events &&& 0x040 = 0 then eu.linkFaultRecord else none
        strayPorts := if c.events &&& 0x080 = 0 then eu.strayPorts else 0 }).restartHoldoff.settleAlert
  else eu

end Sys2Proof.Machine
end

