-- ==== Sys2Proof/Machine/Ops.lean ====
section
/-! DEFINITION. The named operations that the meanings share: reading and writing ports, banks and entries, reporting to
another block, the upstream transmitter and response queue, credits, egress FIFOs, sending, waking, idle timers, and the
orders that commands choose. -/

namespace Sys2Proof.Machine

/-! ## Orders (log 4) -/

/-- The item at position `i` of a list, and the list without it. -/
def takeAt {α : Type} (i : Nat) (xs : List α) : Option (α × List α) :=
  match xs[i]? with
  | some x => some (x, xs.eraseIdx i)
  | none => none

/-- The items of a list in the order that `order` chooses. -/
def permute {α : Type} : Order → List α → List α
  | [], xs => xs
  | k :: ks, xs =>
    match takeAt (k % xs.length) xs with
    | some (x, rest) => x :: permute ks rest
    | none => xs

/-- The items of two lists in one, each list in its own order, as `order` chooses. -/
def interleave {α : Type} : Order → List α → List α → List α
  | k :: ks, x :: xs, y :: ys =>
    if k % 2 = 0 then x :: interleave ks xs (y :: ys) else y :: interleave ks (x :: xs) ys
  | _, xs, ys => xs ++ ys

/-! ## Ports, banks and entries -/

/-- The record of a port (R81). -/
def State.port (s : State) (p : PortId) : Port := s.ports.get p

/-- The record of a port replaced. -/
def State.setPort (s : State) (p : PortId) (x : Port) : State := { s with ports := s.ports.set p.val x p.isLt }

/-- All ports in number order. -/
def allPorts : List PortId := [0, 1, 2, 3, 4, 5, 6, 7]

/-- All tag slots in number order. -/
def allSlots : List SlotId := [0, 1, 2, 3, 4, 5, 6, 7, 8, 9, 10, 11, 12, 13, 14, 15]

/-- In service: ACTIVE, PARKED or WAKING (R60, R82). -/
def PortState.inService : PortState → Bool
  | .active => true
  | .parked => true
  | .waking => true
  | .disabled => false
  | .quarantined => false

/-- The strike flag of a port: the pending flag of PORT_STRIKE for it (R177). -/
def State.strikeFlag (s : State) (p : PortId) : Bool := s.eu.strikes.getLsbD p.val

/-- The other bank. -/
def BankId.other : BankId → BankId
  | .a => .b
  | .b => .a

/-- A bank by name (R136). -/
def PlanStore.bank (ps : PlanStore) : BankId → Bank
  | .a => ps.bankA
  | .b => ps.bankB

/-- A bank replaced. -/
def PlanStore.setBank (ps : PlanStore) (i : BankId) (x : Bank) : PlanStore :=
  match i with
  | .a => { ps with bankA := x }
  | .b => { ps with bankB := x }

/-- The active bank (R136). -/
def PlanStore.activeBank (ps : PlanStore) : Bank := ps.bank ps.active

/-- The staged bank (R136). -/
def PlanStore.stagedBank (ps : PlanStore) : Bank := ps.bank ps.active.other

/-- The staged bank replaced. -/
def PlanStore.setStaged (ps : PlanStore) (x : Bank) : PlanStore := ps.setBank ps.active.other x

/-- A window entry of a bank written, its hit counter set to 0 (R53, R141, R142, R144, R146). -/
def Bank.setWindow (b : Bank) (i : WindowIx) (e : WindowEntry) : Bank :=
  { b with windows := b.windows.set i.val e i.isLt, hits := b.hits.set i.val 0 i.isLt }

/-- A page entry of a bank written. -/
def Bank.setPage (b : Bank) (i : PageIx) (e : PageEntry) : Bank :=
  { b with pages := b.pages.set i.val e i.isLt }

/-- The OTT entry of an upstream tag (R110). -/
def State.entry? (s : State) (t : Tag) : Option Entry := s.ott.find? fun e => e.tag == t

/-- An OTT entry replaced where it stands. -/
def State.setEntry (s : State) (e : Entry) : State :=
  { s with ott := s.ott.map fun x => if x.tag = e.tag then e else x }

/-- The copy of an entry at a port takes a state and a downstream tag; a copy is identified within its entry by its port (R112). -/
def Entry.setCopy (e : Entry) (p : PortId) (st : CopyState) (slot : Option SlotId) : Entry :=
  { e with copies := e.copies.map fun c => if c.port = p then { c with state := st, slot := slot } else c }

/-- The copy of an entry at a port. -/
def Entry.copyAt (e : Entry) (p : PortId) : Option Copy := e.copies.find? fun c => c.port == p

/-- The copy at port `p` of the entry of tag `t` takes a state and a downstream tag (R115). -/
def State.markCopy (s : State) (t : Tag) (p : PortId) (st : CopyState) (slot : Option SlotId) : State :=
  { s with ott := s.ott.map fun e => if e.tag = t then e.setCopy p st slot else e }

/-! ## Reports to other blocks (log 3) -/

/-- A power-on or pin reset is in force: from its assertion until its start-up completes, the Event Unit takes no
occurrence and no tick reaches a timer (R185, R187). -/
def State.underReset (s : State) : Bool :=
  s.rs.held.isSome || (s.rs.state == .starting && s.rs.lastCause != .command)

/-- The head is not attempted: start-up is in progress, or a RESET FULL awaits its start-up (R23, R34). -/
def State.startHold (s : State) : Bool := s.rs.state == .starting || s.rs.full != .none

/-- An occurrence is reported to the Event Unit, which takes it in a step of its own (R175); during a power-on or pin
reset it is lost (log 11). -/
def State.report (s : State) (o : Occurrence) : State :=
  if s.underReset then s else { s with mail := { s.mail with occurrences := s.mail.occurrences ++ [o] } }

/-- The Event Unit takes an occurrence in this very step (log 3: PORT_STRIKE, UPLINK_LOSS and RESET_DONE). -/
def State.capture (s : State) (o : Occurrence) : State := { s with eu := s.eu.take o }

/-- An attempt event sets out for the IQ (R23); an event already on its way stands for both (log 20). -/
def State.attemptDue (s : State) (e : AttemptEvent) : State :=
  { s with mail := { s.mail with attempts := if e ∈ s.mail.attempts then s.mail.attempts else s.mail.attempts ++ [e] } }

/-- A hit report sets out for the Plan Store (R52). -/
def State.hitReport (s : State) (w : WindowIx) : State :=
  { s with mail := { s.mail with hitReports := s.mail.hitReports ++ [⟨s.ps.active, w⟩] } }

/-- An abort is requested of the OTT (R130). -/
def State.requestAbort (s : State) (a : AbortSource) : State :=
  { s with mail := { s.mail with aborts := s.mail.aborts ++ [a] } }

/-- The OTT reports itself empty to the Plan Store (R120). -/
def State.reportEmpty (s : State) : State :=
  { s with mail := { s.mail with emptyReports := s.mail.emptyReports + 1 } }

/-- The Plan Store reports the end of an operation to the Control Unit, if a reply is owed (R145, R151). -/
def State.reportEnd (s : State) (replyOwed : Bool) (tag : Tag) (status : Status) (contents : List Byte) : State :=
  if replyOwed then { s with mail := { s.mail with ends := s.mail.ends ++ [⟨tag, status, contents⟩] } } else s

/-- Something is put on an output line (log 14). -/
def State.emit (s : State) (o : Output) : State := { s with wire := s.wire ++ [o] }

/-! ## The upstream transmitter, the response queue and credits (R7 to R10) -/

/-- A free transmitter in UP takes a CREDIT packet if a credit awaits return, else the head response (R9, R7). -/
def Ulc.kick (u : Ulc) : Ulc :=
  if u.state = .up ∧ u.tx = none then
    if 1 ≤ u.awaiting then { u with tx := some (.credit u.awaiting), awaiting := 0 }
    else if u.queue = [] then u else { u with tx := some .response }
  else u

/-- A response is presented to the response queue: placed at its tail, or discarded while the ULC is not UP (R8, R10). -/
def State.place (s : State) (r : Response) : State :=
  if s.ulc.state = .up then { s with ulc := { s.ulc with queue := s.ulc.queue ++ [r] }.kick } else s

/-- The response kind that answers a memory request (R27, R119). -/
def MemKind.response : MemKind → ResponseKind
  | .read => .read
  | .write => .write

/-- A memory request is answered: a READ or WRITE RESPONSE is placed (R27, R119). -/
def State.respond (s : State) (kind : MemKind) (tag : Tag) (status : Status) (data : List Byte) : State :=
  s.place { kind := kind.response, tag := tag, status := status, summary := 0, contents := data }

/-- A CONTROL REPLY is placed with the event summary of this moment (R160, R161). -/
def State.reply (s : State) (tag : Tag) (status : Status) (contents : List Byte) : State :=
  s.place { kind := .control, tag := tag, status := status, summary := s.eu.summary, contents := contents }

/-- The ABORTED answer of an OTT entry (R131). -/
def Entry.abortedAnswer (e : Entry) : AbortedAnswer := ⟨e.kind.response, e.tag⟩

/-- The ABORTED answer of a request of the ingress FIFO (R34). -/
def Request.abortedAnswer (r : Request) : AbortedAnswer :=
  match r.body with
  | .memory kind _ _ _ => ⟨kind.response, r.tag⟩
  | .control _ => ⟨.control, r.tag⟩

/-- The ABORTED answer of a held control request (R172). -/
def HeldItem.abortedAnswer (h : HeldItem) : AbortedAnswer := ⟨.control, h.tag⟩

/-- ABORTED answers placed one after another, with nothing behind their headers; a CONTROL REPLY bears the event summary of this
moment (R34, R131, R160, R172). -/
def State.answerAborted (s : State) : List AbortedAnswer → State
  | [] => s
  | a :: as =>
    State.answerAborted
      (s.place { kind := a.kind, tag := a.tag, status := .aborted,
                 summary := if a.kind = .control then s.eu.summary else 0, contents := [] }) as

/-- `n` returned credits reach the ULC: counted as granted and awaiting return, or dropped while it is not UP (R7). -/
def Ulc.takeCredits (u : Ulc) (n : Nat) : Ulc :=
  if u.state = .up then { u with credits := u.credits + n, awaiting := u.awaiting + n }.kick else u

/-- `n` credits are returned to the ULC, within the step or by CREDIT_RETURNs of their own (R7, R27, log 5). -/
def State.returnCredits (s : State) (path : CreditPath) (n : Nat) : State :=
  match path with
  | .atOnce => { s with ulc := s.ulc.takeCredits n }
  | .later => { s with mail := { s.mail with creditReturns := s.mail.creditReturns + n } }

/-- LINK START is sent with 16 credits and the ULC enters UP (R1, R4). Credits and completion reports on their way from
before are void (log 11). -/
def State.linkStart (s : State) : State :=
  { s with
    ulc := { s.ulc with state := .up, credits := Config.credits, awaiting := 0, tx := some .linkStart }
    mail := { s.mail with creditReturns := 0, ends := [] } }

/-- Some block has not yet taken the upstream link loss (R2). -/
def LossSignals.any (l : LossSignals) : Bool := l.iq || l.ott || l.planStore || l.controlUnit || l.ports

/-- A drain is in progress (R138). -/
def PlanOp.drains : PlanOp → Bool
  | .draining _ _ _ _ _ => true
  | .idle | .copying _ _ _ | .clearing _ _ _ => false

/-- Every block has done what it does on an upstream link loss, so that a carrier may be acted on: each has taken its signal,
and a drain in progress has swapped, which opens the gate (R2, R32, R155; log 26). -/
def State.lossDone (s : State) : Bool := !s.mail.loss.any && !s.ps.op.drains

/-- A carrier that is PRESENT in READY is acted on once every block signalled has taken the loss (R1, R2). -/
def State.settleLink (s : State) : State :=
  if s.ulc.state = .ready ∧ s.pins.carrier = true ∧ s.lossDone = true then s.linkStart else s

/-! ## The admission gate (R22) -/

/-- The gate turns OPEN. The OTT is empty then. An abort that the Plan Store has requested and the OTT has not yet taken is
taken here, ahead of any admission: it answers nothing, changes no port and reports the OTT empty again (R130, R148, R150;
log 24). -/
def State.openGate (s : State) : State :=
  { s with
    iq := { s.iq with gate := .opened }
    mail := { s.mail with
      aborts := s.mail.aborts.filter (· != .planStore)
      emptyReports := s.mail.emptyReports + s.mail.aborts.count .planStore } }

/-! ## Egress FIFOs, sending and waking (R28, R83 to R86, R99, R100) -/

/-- A copy of the entry waits in REISSUE_WAIT for the port (R112). -/
def Entry.waitsFor (e : Entry) (p : PortId) : Bool := e.copies.any fun c => c.port == p && c.state == .reissueWait

/-- The reissue claims on a port: the tags of the entries that wait for it, oldest entry first (R28, R127). -/
def State.claims (s : State) (p : PortId) : List Tag := (s.ott.filter fun e => e.waitsFor p).map (·.tag)

/-- The egress places available to the head at a port (R28). -/
def State.placesAvailable (s : State) (p : PortId) : Nat :=
  Config.egressPlaces - (s.port p).egress.length - (s.claims p).length

/-- The idle timer's conditions (R96). -/
def Port.idles (q : Port) (strike : Bool) : Bool :=
  q.state == .active && q.egress.isEmpty && q.slots.toList.all (· == .free) && !strike && q.idlePark != 0

/-- The idle timer brought to its conditions: started when the last of them becomes true, stopped when one is false, and
left running otherwise (R96). -/
def State.settleIdle (s : State) (p : PortId) : State :=
  let q := s.port p
  s.setPort p { q with idle := if q.idles (s.strikeFlag p) then some (q.idle.getD q.idlePark) else none }

/-- A wake completes: the port becomes ACTIVE and its wake timer stops (R100). -/
def State.completeWake (s : State) (p : PortId) : State :=
  (s.setPort p { s.port p with state := .active, wake := none }).attemptDue (.portChanged p)

/-- A PARKED port becomes WAKING: it issues a wake request and starts its wake timer, and the wake completes at once if
the link is UP (R99). -/
def State.startWake (s : State) (p : PortId) : State :=
  let s1 := ((s.setPort p { s.port p with state := .waking, wake := some (s.port p).wakeTimeout }).emit
    (.wake p)).attemptDue (.portChanged p)
  if s.pins.link.get p then s1.completeWake p else s1

/-- A copy is placed QUEUED at the tail of a port's egress FIFO; at a PARKED port it starts a wake (R83, R99). -/
def State.placeCopy (s : State) (p : PortId) (t : Tag) : State :=
  let s1 := (s.setPort p { s.port p with egress := (s.port p).egress ++ [t] }).markCopy t p .queued none
  if (s.port p).state = .parked then s1.startWake p else s1

/-- The lowest-numbered FREE slot (R86). -/
def Port.freeSlot (q : Port) : Option SlotId := allSlots.find? fun i => q.slots.get i == .free

/-- The downstream request that sends the copy of an entry at a port (R18, R86). -/
def Entry.downstream (e : Entry) (p : PortId) (i : SlotId) : Output :=
  .downstream p e.kind i (((e.copyAt p).map (·.target)).getD 0) e.length e.writeData

/-- The head of the egress FIFO is sent on a slot: the slot becomes IN_FLIGHT with its deadline, the copy SENT, and the
freed place goes to the arbiter, or is reported to the IQ if no reissue waits (R84, R86). -/
def State.sendOn (s : State) (p : PortId) (t : Tag) (rest : List Tag) (i : SlotId) : State :=
  let q := s.port p
  let s1 := (s.setPort p { q with
    egress := rest
    slots := q.slots.set i.val (.inFlight t q.responseTimeout) i.isLt
    copiesSent := satInc q.copiesSent }).markCopy t p .sent (some i)
  let s2 := match s.entry? t with
    | some e => s1.emit (e.downstream p i)
    | none => s1
  if s.claims p = [] then s2.attemptDue (.placesRose p) else s2

/-- A port in ACTIVE sends the head of its egress FIFO if a slot is FREE (R86); none if it sends nothing. -/
def State.send? (s : State) (p : PortId) : Option State :=
  match (s.port p).state, (s.port p).egress, (s.port p).freeSlot with
  | .active, t :: rest, some i => some (s.sendOn p t rest i)
  | _, _, _ => none

/-- The arbiter gives a free place to the oldest claim on the port (R84, R127); none if there is no place or no claim. -/
def State.arbitrate? (s : State) (p : PortId) : Option State :=
  if (s.port p).state.inService = true ∧ (s.port p).egress.length < Config.egressPlaces then
    match s.claims p with
    | t :: _ => some (s.placeCopy p t)
    | [] => none
  else none

/-- At most `n` acts of the arbiter and the sender of a port, one after another. -/
def State.serveN : Nat → State → PortId → State
  | 0, s, _ => s
  | n + 1, s, p =>
    match s.arbitrate? p with
    | some s1 => State.serveN n s1 p
    | none =>
      match s.send? p with
      | some s1 => State.serveN n s1 p
      | none => s

/-- The port gives its free places to the claims and sends what it can, then its idle timer is brought to its conditions.
Each act takes one of at most 64 claims or one of 16 slots, so 80 acts are enough. -/
def State.serve (s : State) (p : PortId) : State := (State.serveN 80 s p).settleIdle p

/-- The port parks: PARKED, idle timer stopped, a low-power request issued (R97). -/
def State.park (s : State) (p : PortId) : State :=
  ((s.setPort p { s.port p with state := .parked, idle := none }).emit (.lowPower p)).attemptDue (.portChanged p)

/-- Every WAKING port of a list returns to PARKED, its wake timer stopped, no request issued (R108). -/
def State.parkWaking (s : State) : List PortId → State
  | [] => s
  | p :: ps =>
    State.parkWaking
      (if (s.port p).state = .waking then
        (s.setPort p { s.port p with state := .parked, wake := none }).attemptDue (.portChanged p)
      else s) ps

/-- The port holds nothing that an abort takes from its FIFO or its claims (R107). -/
def State.nothingWaits (s : State) (p : PortId) : Bool := (s.port p).egress.isEmpty && (s.claims p).isEmpty

/-- Every WAKING port is asked to return to PARKED (R108). A PARKED port holds nothing that an abort can reach (R107), so a port for
which no copy waits returns now, and one for which some do returns when the OTT's abort has removed them (log 27). -/
def State.returnWaking (s : State) : State :=
  let waiting := fun p => (s.port p).state == .waking && !s.nothingWaits p
  ({ s with mail := { s.mail with
      returns := allPorts.filter fun p => s.mail.returns.contains p || waiting p } }).parkWaking (allPorts.filter s.nothingWaits)

/-! ## The head of the ingress FIFO (R23) -/

/-- The head condition after the head has left or the FIFO has gained its first request: none, START_WAIT while start-up is
due or in progress, else a head whose attempt event sets out (R23). -/
def State.newHead (s : State) : State :=
  if s.iq.fifo = [] then { s with iq := { s.iq with cond := .noHead } }
  else if s.startHold then { s with iq := { s.iq with cond := .startWait } }
  else ({ s with iq := { s.iq with cond := .fresh } }).attemptDue .newHead

end Sys2Proof.Machine
end

