-- ==== Sys2Proof/Machine/Copies.lean ====
section
/-! DEFINITION. What becomes of copies and entries: outcomes and completion by mode class (R117 to R124), failover (R125,
R126), ports leaving service (R94, R104, R128), strikes (R92, R93), and the abort (R130 to R132). -/

namespace Sys2Proof.Machine

/-- The status that a SINGLE or MIRROR_READ entry takes from its copy's final state (R117, R124). -/
def CopyState.status : CopyState → Status
  | .ok => .ok
  | .targetError => .targetError
  | .timeout => .timeout
  | .portDown => .portDown
  | .queued | .reissueWait | .sent => .aborted

/-- The copy's outcome is not yet known (R112). -/
def CopyState.isOpen : CopyState → Bool
  | .queued | .reissueWait | .sent => true
  | .ok | .targetError | .timeout | .portDown => false

/-- The status of a completed mirrored write, by the first line of R122 that applies. -/
def Entry.mergedStatus (e : Entry) : Status :=
  if (e.copies.all fun c => c.state == .ok) ∧ e.skipped = [] then .ok
  else if e.copies.any fun c => c.state == .ok then .okDegraded
  else if e.copies.any fun c => c.state == .targetError then .targetError
  else if e.copies.any fun c => c.state == .timeout then .timeout
  else .portDown

/-- The data of an entry's response: the read data for a READ with status OK, nothing otherwise (R119). -/
def Entry.responseData (e : Entry) (st : Status) : List Byte :=
  if e.kind = .read ∧ st = .ok then e.readData.getD [] else []

/-- An entry completes: its response is placed, it leaves the OTT, DEGRADED is reported for OK_DEGRADED, and the OTT
reports itself empty if it was the last (R118, R119, R120, R123). -/
def State.complete (s : State) (e : Entry) (st : Status) : State :=
  let s1 := { s with ott := s.ott.filter fun x => x.tag != e.tag }
  let s2 := s1.respond e.kind e.tag st (e.responseData st)
  let s3 := if st = .okDegraded then s2.report .degraded else s2
  if s1.ott = [] then s3.reportEmpty else s3

/-- The members of the window an entry was routed under, in the active bank (R75); none for a window that is not MIRRORED. -/
def State.membersOf (s : State) (w : WindowIx) : List PortId :=
  match s.ps.activeBank.windows.get w with
  | .loaded { mode := .mirrored members _, .. } => members
  | _ => []

/-- The next member, after a position, whose port is in service, with its position (R125). -/
def State.nextMember (s : State) (w : WindowIx) (position : Nat) : Option (PortId × Nat) :=
  ((s.membersOf w).zipIdx.drop (position + 1)).find? fun m => (s.port m.1).state.inService

/-- A position in a member list of at most four. -/
def memberPosition (i : Nat) : Fin 4 := ⟨i % 4, Nat.mod_lt _ (by decide)⟩

/-- The copy that a failover makes for a port: placed if the FIFO has a place and no other reissue waits, else it waits in
REISSUE_WAIT (R126). -/
def State.reissue (s : State) (e : Entry) (q : PortId) (position : Nat) (target : Addr) : State :=
  let copy : Copy := ⟨q, target, some (memberPosition position), .reissueWait, none⟩
  let s1 := s.setEntry { e with copies := e.copies ++ [copy] }
  if (s.port q).egress.length < Config.egressPlaces ∧ s.claims q = [] then (s1.placeCopy q e.tag).serve q else s1

/-- A mirrored read whose copy at port `p` failed with `o` moves to the next member in service, or completes with the
failed copy's final state (R125). -/
def State.failover (s : State) (e : Entry) (p : PortId) (o : CopyState) : State :=
  match e.copyAt p with
  | some { position := some i, target, .. } =>
    match s.nextMember e.window i.val with
    | some (q, j) => s.reissue e q j target
    | none => s.complete e o.status
  | _ => s.complete e o.status

/-- The copy at port `p` of the entry of tag `t` takes the final state `o`, with the data it returned, and the entry acts
on the outcome by its mode class (R114, R117, R121, R124). -/
def State.outcome (s : State) (t : Tag) (p : PortId) (o : CopyState) (data : List Byte) : State :=
  match s.entry? t with
  | none => s
  | some e0 =>
    let e1 := e0.setCopy p o none
    let e := if e0.kind = .read ∧ o = .ok then { e1 with readData := some data } else e1
    let s1 := s.setEntry e
    match e.modeClass with
    | .single => s1.complete e o.status
    | .mirrorWrite => if e.copies.any (fun c => c.state.isOpen) then s1 else s1.complete e e.mergedStatus
    | .mirrorRead =>
      match o with
      | .ok | .targetError => s1.complete e o.status
      | .timeout | .portDown | .queued | .reissueWait | .sent => s1.failover e p o

/-! ## Ports leaving service -/

/-- What one event of a port does to several entries, in an order the spec leaves open (R94, R102, R104, R115). -/
inductive Job where
  /-- A copy of the port fails with a final state. -/
  | fail (tag : Tag) (o : CopyState)
  /-- The oldest claim on the port gives up and its entry fails over (R128: in OTT order among themselves). -/
  | failClaim
  /-- The reply to a port command (R102). -/
  | reply (tag : Tag) (status : Status)
deriving DecidableEq, Repr

/-- One job carried out. -/
def State.runJob (s : State) (p : PortId) : Job → State
  | .fail t o => s.outcome t p o []
  | .failClaim =>
    match s.claims p with
    | t :: _ => s.outcome t p .portDown []
    | [] => s
  | .reply t st => s.reply t st []

/-- Jobs carried out one after another. -/
def State.runJobs (s : State) (p : PortId) : List Job → State
  | [] => s
  | j :: js => State.runJobs (s.runJob p j) p js

/-- The upstream tags of a port's IN_FLIGHT slots, in slot order. -/
def Port.inFlightTags (q : Port) : List Tag :=
  q.slots.toList.filterMap fun x => match x with | .inFlight t _ => some t | .free => none | .orphan _ => none

/-- What leaves with a port that leaves service: its queued and in-flight copies fail with PORT_DOWN and every claim on it
is given up (R94, R104). -/
def State.leavingJobs (s : State) (p : PortId) : List Job :=
  (s.port p).egress.map (Job.fail · .portDown) ++ (s.port p).inFlightTags.map (Job.fail · .portDown)
    ++ List.replicate (s.claims p).length Job.failClaim

/-- A port record out of service: nothing queued, every slot FREE, every deadline and timer stopped (R94, R104). -/
def Port.outOfService (q : Port) (st : PortState) (cause : Option QuarantineCause) : Port :=
  { q with state := st, cause := cause, egress := [], slots := .replicate 16 .free, idle := none, wake := none }

/-- A port leaves service; the copies it held, the claims on it and `more` are dealt with in the order chosen. -/
def State.leaveService (s : State) (p : PortId) (st : PortState) (cause : Option QuarantineCause) (more : List Job)
    (order : Order) : State :=
  ((s.setPort p ((s.port p).outOfService st cause)).attemptDue (.portChanged p)).runJobs p
    (permute order (more ++ s.leavingJobs p))

/-- A quarantine (R94): PORT_QUARANTINE is reported and the port leaves service. -/
def State.quarantine (s : State) (p : PortId) (cause : QuarantineCause) (more : List Job) (order : Order) : State :=
  (s.report (.quarantine p)).leaveService p .quarantined (some cause) more order

/-- The timeouts counter advanced, the first act of strike processing (R92). -/
def State.countTimeout (s : State) (p : PortId) : State :=
  s.setPort p { s.port p with timeouts := satInc (s.port p).timeouts }

/-! ## The abort -/

/-- A slot at an abort: IN_FLIGHT becomes ORPHAN and keeps its deadline (R107). -/
def Slot.orphaned : Slot → Slot
  | .inFlight _ d => .orphan d
  | .orphan d => .orphan d
  | .free => .free

/-- A port record at an abort of every entry: its queued copies are removed, its IN_FLIGHT slots become ORPHAN (R107). -/
def Port.aborted (q : Port) : Port := { q with egress := [], slots := q.slots.map Slot.orphaned }

/-- The abort reaches one port. Queued copies and claims it removes make places available, an attempt event (R28, R132). -/
def State.abortPort (s : State) (p : PortId) (claimed : Bool) : State :=
  let s1 := (s.setPort p (s.port p).aborted).settleIdle p
  if claimed || !(s.port p).egress.isEmpty then s1.attemptDue (.placesRose p) else s1

/-- The abort reaches the ports of a list; `claimed` says on which of them a reissue waited. -/
def State.abortPorts (s : State) (claimed : PortId → Bool) : List PortId → State
  | [] => s
  | p :: ps => State.abortPorts (s.abortPort p (claimed p)) claimed ps

/-- An abort (R130 to R132): every entry is answered ABORTED, in OTT order, the OTT is left empty, the ports deal with the
copies, and the OTT reports itself empty. The answers of a RESET FULL still to be placed join the response queue in this step,
among the OTT's as `order` chooses (R34, R156, R172, log 12). The ports that waited for the abort to return to PARKED return now
that nothing waits for them (R107, R108, log 27). -/
def State.abort (s : State) (order : Order) : State :=
  let answers := interleave order (s.ott.map Entry.abortedAnswer) s.mail.answers
  let s1 := ({ s with ott := [], mail := { s.mail with answers := [], returns := [] } }).answerAborted answers
  ((s1.abortPorts (fun p => !(s.claims p).isEmpty) allPorts).parkWaking s.mail.returns).reportEmpty

end Sys2Proof.Machine
end

