-- ==== Sys2Proof/Machine/Admission.lean ====
section
/-! DEFINITION. The head of the ingress FIFO: HEAD_ATTEMPT (R23 to R31), window lookup and policy (R39 to R50), mode
resolution (R58 to R77), admission (R30, R113), and the Plan Store's HIT_REPORT (R52). -/

namespace Sys2Proof.Machine

/-! ## Window lookup (R39, R42) -/

/-- The unit number of an address (00_scope.md, conventions). -/
def unitOf (a : Addr) : UnitNo := (a >>> 12).setWidth 24

/-- The masked address: the address with the window's masked bits cleared; bit i of the mask stands for address bit 12 + i
(R39). -/
def Window.maskedAddr (w : Window) (a : Addr) : Addr := a &&& ~~~((w.mask.getD 0).setWidth 36 <<< 12)

/-- The window contains the address: its masked unit lies between base and limit (R37, R39). -/
def Window.contains (w : Window) (a : Addr) : Bool :=
  let u := unitOf (w.maskedAddr a)
  decide (w.base.toNat ≤ u.toNat) && decide (u.toNat ≤ w.limit.toNat)

/-- The entry contains the address; an EMPTY entry contains none (R36). -/
def WindowEntry.contains (e : WindowEntry) (a : Addr) : Bool :=
  match e with
  | .empty => false
  | .loaded w => w.contains a

/-- The matching window: the first entry, in order of index, that contains the address (R42, R43). -/
def Bank.lookup (b : Bank) (a : Addr) : Option (WindowIx × Window) :=
  match (List.finRange 32).find? fun i => (b.windows.get i).contains a with
  | some i =>
    match b.windows.get i with
    | .loaded w => some (i, w)
    | .empty => none
  | none => none

/-- The window offset (R59). -/
def Window.offset (w : Window) (a : Addr) : Nat := (w.maskedAddr a).toNat - w.base.toNat * Config.unitBytes

/-! ## Mode resolution (R58) -/

/-- What mode resolution ends in (R58). -/
inductive Resolution where
  | notMapped
  | portDown
  | copies (modeClass : ModeClass) (copies : List Copy) (skipped : List PortId)
deriving DecidableEq, Repr

/-- The port is in service at the attempt (R60). -/
def State.serves (s : State) (p : PortId) : Bool := (s.port p).state.inService

/-- The target address of an offset from a target base (R61, R73). -/
def targetAt (base : UnitNo) (offset : Nat) : Addr := BitVec.ofNat 36 (base.toNat * Config.unitBytes + offset)

/-- One copy of a SINGLE request (R61, R66, R70). -/
def singleCopy (p : PortId) (target : Addr) : Resolution := .copies .single [⟨p, target, none, .queued, none⟩] []

/-- A DIRECT window: the port, else the fallback, else PORT_DOWN (R61). -/
def State.resolveDirect (s : State) (p : PortId) (fallback : Option PortId) (target : Addr) : Resolution :=
  if s.serves p then singleCopy p target
  else
    match fallback with
    | some f => if s.serves f then singleCopy f target else .portDown
    | none => .portDown

/-- A page index as an index of the page table. A well-formed window never passes 255 (R68). -/
def pageIndex (i : Nat) : PageIx := ⟨i % 256, Nat.mod_lt _ (by decide)⟩

/-- A PAGED window: the page entry at page start plus offset divided by 16 KiB (R66). -/
def State.resolvePaged (s : State) (start : PageIx) (offset : Nat) : Resolution :=
  match s.ps.activeBank.pages.get (pageIndex (start.val + offset / Config.pageBytes)) with
  | .absent => .notMapped
  | .present p page =>
    if s.serves p then
      singleCopy p (BitVec.ofNat 36 (page.toNat * Config.pageBytes + offset % Config.pageBytes))
    else .portDown

/-- An INTERLEAVED window: the member at block index modulo the member count (R70, R71). -/
def State.resolveInterleaved (s : State) (members : List PortId) (stride : Stride) (targetBase : UnitNo) (offset : Nat) :
    Resolution :=
  let block := offset / stride.bytes
  match members[block % members.length]? with
  | some p =>
    if s.serves p then
      singleCopy p (targetAt targetBase (block / members.length * stride.bytes + offset % stride.bytes))
    else .portDown
  | none => .portDown

/-- The members of a mirrored window with their positions (R73). -/
def memberList (members : List PortId) : List (PortId × Nat) := members.zipIdx

/-- The copy of a mirrored entry for a member (R73 to R75). -/
def mirrorCopy (target : Addr) (m : PortId × Nat) : Copy := ⟨m.1, target, some (memberPosition m.2), .queued, none⟩

/-- A mirrored write: one copy to each member in service, the others skipped, all in member order (R73). -/
def State.resolveMirrorWrite (s : State) (members : List PortId) (target : Addr) : Resolution :=
  match (memberList members).filter fun m => s.serves m.1 with
  | [] => .portDown
  | m :: ms => .copies .mirrorWrite ((m :: ms).map (mirrorCopy target)) (members.filter fun p => !s.serves p)

/-- A mirrored read: one copy to the first member in service (R74). -/
def State.resolveMirrorRead (s : State) (members : List PortId) (target : Addr) : Resolution :=
  match (memberList members).find? fun m => s.serves m.1 with
  | some m => .copies .mirrorRead [mirrorCopy target m] []
  | none => .portDown

/-- Mode resolution (R58). -/
def State.resolve (s : State) (w : Window) (kind : MemKind) (a : Addr) : Resolution :=
  let offset := w.offset a
  match w.mode, kind with
  | .direct p t f, _ => s.resolveDirect p f (targetAt t offset)
  | .paged start _, _ => s.resolvePaged start offset
  | .interleaved ms st t, _ => s.resolveInterleaved ms st t offset
  | .mirrored ms t, .write => s.resolveMirrorWrite ms (targetAt t offset)
  | .mirrored ms t, .read => s.resolveMirrorRead ms (targetAt t offset)

/-! ## The attempt (R25) -/

/-- How an attempt on a memory request ends (R25, R27). -/
inductive Decision where
  | wait (cond : HeadCond)
  | answer (status : Status) (window : Option WindowIx) (event : Option FaultKind)
  | takeIn (window : WindowIx) (modeClass : ModeClass) (copies : List Copy) (skipped : List PortId)
deriving DecidableEq, Repr

/-- The request checks fail (R26). -/
def badRequest (a : Addr) (length : Nat) : Bool :=
  length == 0 || decide (256 < length) || decide (256 < a.toNat % 256 + length)

/-- The answer of the policy step, none where the attempt goes on (R46). -/
def Window.policyAnswer (w : Window) (kind : MemKind) : Option Status :=
  match kind, w.readPolicy, w.writePolicy with
  | .read, .allow, _ => none
  | .read, .refuse, _ => some .accessProtected
  | .write, _, .allow => none
  | .write, _, .refuse => some .accessProtected
  | .write, _, .discard => some .ok

/-- Steps 5 to 7 under the matching window (R25). -/
def State.decideMode (s : State) (i : WindowIx) (w : Window) (kind : MemKind) (a : Addr) : Decision :=
  match s.resolve w kind a with
  | .notMapped => .answer .notMapped (some i) (some .notMapped)
  | .portDown => .answer .portDown (some i) none
  | .copies cls cs skipped =>
    if cs.all fun c => decide (1 ≤ s.placesAvailable c.port) then .takeIn i cls cs skipped else .wait .spaceWait

/-- The attempt on a memory request, in the order of R25; it records nothing (R29). -/
def State.decideMemory (s : State) (kind : MemKind) (a : Addr) (length : Nat) : Decision :=
  if s.iq.gate = .held then .wait .gateWait
  else if badRequest a length then .answer .badRequest none none
  else
    match s.ps.activeBank.lookup a with
    | none => .answer .noWindow none (some .miss)
    | some (i, w) =>
      match w.policyAnswer kind with
      | some st => .answer st (some i) (some .protect)
      | none => s.decideMode i w kind a

/-- The head leaves the FIFO and its credit is returned (R7, R24, R27, R30). -/
def State.leaveHead (s : State) (rest : List Request) (credit : CreditPath) : State :=
  ({ s with iq := { s.iq with fifo := rest } }).returnCredits credit 1

/-- The hit report of a request that leaves under a window (R51). -/
def State.reportHit (s : State) (window : Option WindowIx) : State :=
  match window with
  | some i => s.hitReport i
  | none => s

/-- The MISS, PROTECT or NOT_MAPPED report of an answer, with its contents (R27, R50, R67). -/
def State.reportRefused (s : State) (event : Option FaultKind) (kind : MemKind) (tag : Tag) (a : Addr)
    (window : Option WindowIx) : State :=
  match event with
  | some k => s.report (.refused k kind tag a window s.ps.generation)
  | none => s

/-- Each copy of an admitted request is placed QUEUED at the tail of its port's egress FIFO (R30). -/
def State.placeCopies (s : State) (t : Tag) : List Copy → State
  | [] => s
  | c :: cs => State.placeCopies ((s.placeCopy c.port t).serve c.port) t cs

/-- A memory request is admitted (R30, R113). -/
def State.takeIn (s : State) (e : Entry) : State :=
  (({ s with ott := s.ott ++ [e] }).reportHit (some e.window)).placeCopies e.tag e.copies

/-- A memory request is answered at the head (R27). -/
def State.answerHead (s : State) (kind : MemKind) (tag : Tag) (a : Addr) (status : Status) (window : Option WindowIx)
    (event : Option FaultKind) : State :=
  ((s.reportHit window).reportRefused event kind tag a window).respond kind tag status []

/-- The entry made at admission (R113). -/
def State.newEntry (s : State) (tag : Tag) (kind : MemKind) (length : Nat) (data : List Byte) (window : WindowIx)
    (modeClass : ModeClass) (copies : List Copy) (skipped : List PortId) : Entry :=
  { tag := tag, kind := kind, length := length, window := window, generation := s.ps.generation, modeClass := modeClass,
    copies := copies, skipped := skipped, readData := none, writeData := data }

/-- The attempt of the head: a CONTROL request is passed to the Control Unit (R24); a memory request waits, is answered, or
is admitted (R25). -/
def State.attempt (s : State) (credit : CreditPath) : State :=
  match s.iq.fifo with
  | [] => s
  | r :: rest =>
    match r.body with
    | .control payload =>
      let s1 := s.leaveHead rest credit
      ({ s1 with cu := { s1.cu with taking := some ⟨r.tag, payload⟩ } }).newHead
    | .memory kind a length data =>
      match s.decideMemory kind a length with
      | .wait c => { s with iq := { s.iq with cond := c } }
      | .answer st w ev => ((s.leaveHead rest credit).answerHead kind r.tag a st w ev).newHead
      | .takeIn i cls cs skipped =>
        ((s.leaveHead rest credit).takeIn (s.newEntry r.tag kind length data i cls cs skipped)).newHead

/-- An attempt event matches the head condition (R23). -/
def AttemptEvent.attempts (e : AttemptEvent) (c : HeadCond) : Bool :=
  match e with
  | .newHead => c == .fresh
  | .startUpComplete => c == .startWait
  | .gateOpened => c == .gateWait
  | .placesRose _ => c == .spaceWait
  | .portChanged _ => c == .spaceWait

/-- HEAD_ATTEMPT (R23, R25): an attempt event on its way reaches the IQ; if it matches the head condition the head is
attempted, otherwise it has no effect. While the Control Unit has a request to take, the event stays on its way: the
Control Unit takes each request at once (R24, log 6). -/
def execHeadAttempt (event : Nat) (credit : CreditPath) (s : State) : Host.Outcome State Fault Refusal :=
  .next
    (if s.cu.taking.isSome then s
    else
      match takeAt event s.mail.attempts with
      | none => s
      | some (e, rest) =>
        let s1 := { s with mail := { s.mail with attempts := rest } }
        if e.attempts s.iq.cond ∧ s.startHold = false then s1.attempt credit else s1)

/-- The hit counter of a window entry that is LOADED incremented; a report naming an EMPTY entry is dropped (R51, R52). -/
def Bank.hit (b : Bank) (i : WindowIx) : Bank :=
  match b.windows.get i with
  | .loaded _ => { b with hits := b.hits.set i.val (satInc (b.hits.get i)) i.isLt }
  | .empty => b

/-- HIT_REPORT (R52). -/
def execHitReport (report : Nat) (s : State) : Host.Outcome State Fault Refusal :=
  .next
    (match takeAt report s.mail.hitReports with
    | none => s
    | some (h, rest) =>
      { s with
        ps := s.ps.setBank h.bank ((s.ps.bank h.bank).hit h.window)
        mail := { s.mail with hitReports := rest } })

end Sys2Proof.Machine
end

