-- ==== Sys2Proof/Machine/Link.lean ====
section
/-! DEFINITION. The upstream link: carrier, upstream link loss, packets, credits and the transmitter (01, R20, R32, R108,
R155, R173). -/

namespace Sys2Proof.Machine

/-- CARRIER_GAINED (R1, R2): in READY, LINK START is sent once every block has done what it does on an upstream link loss
(log 26). -/
def execCarrierGained (s : State) : Host.Outcome State Fault Refusal :=
  .next (if s.pins.carrier then s else ({ s with pins := { s.pins with carrier := true } }).settleLink)

/-- What the ULC does at an upstream link loss before it signals the IQ (R2): the packet being sent is abandoned, the
response queue emptied, both credit counts 0, READY, and UPLINK_LOSS captured. Answers of a RESET FULL still to be placed are
lost with the queue (R10, log 11, log 12). -/
def State.linkLoss (s : State) : State :=
  ({ s with
    ulc := { state := .ready, credits := 0, awaiting := 0, queue := [], tx := none }
    mail := { s.mail with answers := [], loss := { s.mail.loss with iq := true } } }).capture .uplinkLoss

/-- CARRIER_LOST (R1, R2). -/
def execCarrierLost (s : State) : Host.Outcome State Fault Refusal :=
  let s1 := { s with pins := { s.pins with carrier := false } }
  .next (if s.ulc.state = .up then s1.linkLoss else s1)

/-- LINK_LOSS_IQ (R32): the FIFO and the tag-in-use set are emptied without answers or credits, and the ULC signals the OTT,
the Plan Store, the Control Unit and the ports (R2). A request passed to the Control Unit before is taken first (R24, log 6),
so that no operation it starts owes a reply past the loss (R155, R173). -/
def execLinkLossIq (s : State) : Host.Outcome State Fault Refusal :=
  .next
    (if s.mail.loss.iq ∧ s.cu.taking = none then
      { s with
        iq := { s.iq with fifo := [], tags := [], cond := .noHead }
        mail := { s.mail with
          attempts := []
          aborts := s.mail.aborts ++ [.linkLoss]
          loss := { iq := false, ott := true, planStore := true, controlUnit := true, ports := true } } }
    else s)

/-- The operation in progress with no reply owed (R155). -/
def PlanOp.oweNothing : PlanOp → PlanOp
  | .idle => .idle
  | .copying k _ t => .copying k false t
  | .clearing k _ t => .clearing k false t
  | .draining m e d _ t => .draining m e d false t

/-- LINK_LOSS_PLAN_STORE (R155). -/
def execLinkLossPlanStore (s : State) : Host.Outcome State Fault Refusal :=
  .next
    (if s.mail.loss.planStore then
      ({ s with
        ps := { s.ps with op := s.ps.op.oweNothing }
        mail := { s.mail with loss := { s.mail.loss with planStore := false } } }).settleLink
    else s)

/-- LINK_LOSS_CONTROL_UNIT (R173): the held-reply list is emptied with no replies. A request passed to the Control Unit
before is taken first (R24, log 6). -/
def execLinkLossControlUnit (s : State) : Host.Outcome State Fault Refusal :=
  .next
    (if s.mail.loss.controlUnit ∧ s.cu.taking = none then
      ({ s with
        cu := { s.cu with held := [] }
        mail := { s.mail with loss := { s.mail.loss with controlUnit := false } } }).settleLink
    else s)

/-- LINK_LOSS_PORTS (R108): every WAKING port returns to PARKED; one that holds copies which the loss's abort has still to remove
returns with that abort (R107, log 27). -/
def execLinkLossPorts (s : State) : Host.Outcome State Fault Refusal :=
  .next
    (if s.mail.loss.ports then
      let s1 := s.returnWaking
      ({ s1 with mail := { s1.mail with loss := { s1.mail.loss with ports := false } } }).settleLink
    else s)

/-- The ULC discards a packet whose credit it has taken: the credit is returned at once (R5, R7, R20). -/
def State.discardPacket (s : State) : State :=
  { s with ulc := ({ s.ulc with credits := s.ulc.credits - 1 }).takeCredits 1 }

/-- A LINK_FAULT of an upstream kind, with the tag if the frame held one (R5, R20, R179). -/
def State.upstreamFault (s : State) (kind : LinkFaultKind) (tag : Option Tag) : State :=
  s.report (.linkFault kind none (tag.map fun t => t.setWidth 8))

/-- A request with a free tag joins the FIFO with the credit it used; at an empty FIFO it becomes the head (R20). -/
def State.enqueue (s : State) (r : Request) : State :=
  let s1 := { s with
    ulc := { s.ulc with credits := s.ulc.credits - 1 }
    iq := { s.iq with fifo := s.iq.fifo ++ [r], tags := r.tag :: s.iq.tags } }
  if s.iq.fifo = [] then s1.newHead else s1

/-- A packet is taken: overrun check, form check, tag check (R5, R6, R20). In DOWN or READY it is discarded (R1). -/
def State.arrive (s : State) (frame : List Byte) : State :=
  if s.ulc.state ≠ .up then s
  else if s.ulc.credits = 0 then s.upstreamFault .overrun (frameTag frame)
  else
    match parseFrame frame with
    | none => s.discardPacket.upstreamFault .malformedUpstream (frameTag frame)
    | some r => if r.tag ∈ s.iq.tags then s.discardPacket.upstreamFault .tagClash (some r.tag) else s.enqueue r

/-- PACKET_ARRIVAL (R1, R5, R6, R20). The Control Unit takes each request at once (R24), so a packet that arrives in UP while
it has one in hand is taken behind it (log 6). -/
def execPacketArrival (frame : List Byte) (s : State) : Host.Outcome State Fault Refusal :=
  .next
    (if s.ulc.state = .up ∧ s.cu.taking ≠ none then
      { s with mail := { s.mail with arrivals := s.mail.arrivals ++ [frame] } }
    else s.arrive frame)

/-- PACKET_DISCARD_NOT_UP (R1): a packet that arrives in DOWN or READY is discarded; no event is reported and no credit
changes. In UP this event does not occur (log 2). -/
def execPacketDiscardNotUp (_frame : List Byte) (s : State) : Host.Outcome State Fault Refusal :=
  .next s

/-- CREDIT_RETURN (R7): one credit on its way reaches the ULC. -/
def execCreditReturn (s : State) : Host.Outcome State Fault Refusal :=
  .next
    (if s.mail.creditReturns = 0 then s
    else
      { s with
        ulc := s.ulc.takeCredits 1
        mail := { s.mail with creditReturns := s.mail.creditReturns - 1 } })

/-- A packet has been sent whole, leaving the response queue as `queue`: the transmitter is free and takes what waits (R9). -/
def State.txDone (s : State) (bytes : List Byte) (queue : List Response) : State :=
  ({ s with ulc := ({ s.ulc with tx := none, queue := queue }).kick }).emit (.upstream bytes)

/-- The tag of a response that has been sent leaves the tag-in-use set (R10). -/
def State.releaseTag (s : State) (t : Tag) : State :=
  { s with iq := { s.iq with tags := s.iq.tags.filter fun x => x != t } }

/-- TRANSMIT_DONE (R9, R10): a sent response leaves the queue and its tag is released; the free transmitter takes a CREDIT
packet or the next response. -/
def execTransmitDone (s : State) : Host.Outcome State Fault Refusal :=
  .next
    (match s.ulc.tx, s.ulc.queue with
    | none, _ => s
    | some .linkStart, q => s.txDone (creditPacketBytes 0xC0 Config.credits) q
    | some (.credit n), q => s.txDone (creditPacketBytes 0xC1 n) q
    | some .response, r :: q => (s.txDone r.bytes q).releaseTag r.tag
    | some .response, [] => s)

end Sys2Proof.Machine
end

