-- ==== Sys2Proof/Machine/Requests.lean ====
section
/-! DEFINITION. How the Control Unit takes a control request (R158, R159), UNKNOWN_COMMAND, and the release of held replies
(R162). -/

namespace Sys2Proof.Machine

/-- The Control Unit takes the request passed to it, if the command is the one it carries (R158). By then the credits of
the requests that have left the FIFO have been returned (R158, R163, log 6). Packets that arrived while the request was in
hand are taken behind it (R24, log 6). Otherwise the event does not occur (log 2). -/
def State.takeRequest (s : State) (accepts : List Byte → Bool) (carry : State → Tag → List Byte → State) : State :=
  match s.cu.taking with
  | none => s
  | some r =>
    if s.mail.creditReturns = 0 ∧ accepts r.payload = true then
      s.mail.arrivals.foldl State.arrive
        (carry { s with cu := { s.cu with taking := none }, mail := { s.mail with arrivals := [] } } r.tag r.payload)
    else s

/-- The payload carries a command (R159, step 1). -/
def carries (c : Command) (payload : List Byte) : Bool := commandOf payload == some c

/-- The length check (R159, step 2): a payload of another length is answered BAD_ARGUMENT. -/
def withLength (n : Nat) (carry : State → Tag → List Byte → State) (s : State) (t : Tag) (payload : List Byte) : State :=
  if payload.length = n then carry s t payload else s.reply t .badArgument []

/-- UNKNOWN_COMMAND (R159): an identifier that names no command. -/
def execUnknownCommand (s : State) : Host.Outcome State Fault Refusal :=
  .next (s.takeRequest (fun payload => commandOf payload == none) fun s t _ => s.reply t .unknownCommand [])

/-- HELD_REPLY_RELEASE (R162): the Control Unit takes a completion report and places the reply of the item it names; a report
for a tag that is not in the held-reply list is dropped. -/
def execHeldReplyRelease (report : Nat) (s : State) : Host.Outcome State Fault Refusal :=
  .next
    (match takeAt report s.mail.ends with
    | none => s
    | some (e, rest) =>
      let s1 := { s with mail := { s.mail with ends := rest } }
      if s.cu.held.any fun h => h.tag == e.tag then
        ({ s1 with cu := { s1.cu with held := s1.cu.held.filter fun h => h.tag != e.tag } }).reply e.tag e.status e.contents
      else s1)

end Sys2Proof.Machine
end

