-- ==== Sys2Proof/Machine/Plans.lean ====
section
/-! DEFINITION. Plans: the plan commands (R139 to R148, R153), the steps of a copy or clear (R144 to R146), the swap (R151),
and the OTT's abort and empty report as they reach the OTT and the Plan Store (R130, R149). -/

namespace Sys2Proof.Machine

/-- The byte of a bank: 00h A, 01h B (R151, R163). -/
def BankId.code : BankId → Byte
  | .a => 0
  | .b => 1

/-! ## The swap (R151) -/

/-- The swap's effect on the Plan Store and the gate: roles exchanged, generation advanced, operation ended, gate OPEN. -/
def State.exchange (s : State) : State :=
  let s1 := { s with ps := { s.ps with active := s.ps.active.other, generation := s.ps.generation + 1, op := .idle } }
  s1.openGate.attemptDue .gateOpened

/-- The reply contents of a SWITCH PLAN: the active bank and the generation after the swap (R151). -/
def PlanStore.switchContents (ps : PlanStore) : List Byte := [ps.active.code, ps.generation]

/-- The swap that ends a switch, with its reports to the Event Unit (R151). -/
def State.swap (s : State) (escalated : Bool) : State :=
  let s1 := s.exchange.report .switchDone
  if escalated then s1.report .switchForced else s1

/-- The end of a drain: the swap, and the report to the Control Unit if a reply is owed (R149, R151). -/
def State.endDrain (s : State) (escalated replyOwed : Bool) (t : Tag) : State :=
  let s1 := s.swap escalated
  s1.reportEnd replyOwed t (if escalated then .doneForced else .done) s1.ps.switchContents

/-- OTT_EMPTY_REPORT (R149): in DRAINING the drain ends, if the OTT is empty still; a report older than an entry that stands
is no end of the drain, since a swap takes place only with the OTT empty (R137, R151, log 10). After an upstream link loss
the swap may be what a carrier waits for (R2, R155, log 26). -/
def execOttEmptyReport (s : State) : Host.Outcome State Fault Refusal :=
  .next
    (if s.mail.emptyReports = 0 then s
    else
      let s1 := { s with mail := { s.mail with emptyReports := s.mail.emptyReports - 1 } }
      match s.ps.op with
      | .draining _ escalated _ owed t => if s.ott = [] then (s1.endDrain escalated owed t).settleLink else s1
      | .idle | .copying _ _ _ | .clearing _ _ _ => s1)

/-- The requester of an abort learns that the OTT has taken it (R2, R172). -/
def State.abortTaken (s : State) (a : AbortSource) : State :=
  match a with
  | .planStore => s
  | .resetTraffic => s
  | .resetFull => if s.rs.full = .awaitAbort then { s with rs := { s.rs with full := .ready } } else s
  | .linkLoss => ({ s with mail := { s.mail with loss := { s.mail.loss with ott := false } } }).settleLink

/-- OTT_ABORT (R130): the OTT takes an abort request. -/
def execOttAbort (request : AbortTaking) (s : State) : Host.Outcome State Fault Refusal :=
  .next
    (match takeAt request.request s.mail.aborts with
    | none => s
    | some (a, rest) => (({ s with mail := { s.mail with aborts := rest } }).abort request.order).abortTaken a)

/-! ## Copying and clearing (R144 to R146) -/

/-- A step of COPY PLAN on the staged bank: a window with its counter set to 0, or a page entry (R144). -/
def copyEntry (active staged : Bank) (k : Fin 288) : Bank :=
  if h : k.val < 32 then staged.setWindow ⟨k.val, h⟩ (active.windows.get ⟨k.val, h⟩)
  else
    let i : PageIx := ⟨k.val - 32, by omega⟩
    staged.setPage i (active.pages.get i)

/-- A step of CLEAR PLAN on the staged bank (R146). -/
def clearEntry (staged : Bank) (k : Fin 288) : Bank :=
  if h : k.val < 32 then staged.setWindow ⟨k.val, h⟩ .empty
  else staged.setPage ⟨k.val - 32, by omega⟩ .absent

/-- The operation after a step: the next step's progress, none after the last (R144, R145). -/
def nextProgress (k : Fin 288) : Option (Fin 288) :=
  if h : k.val + 1 < 288 then some ⟨k.val + 1, h⟩ else none

/-- The operation ends at its last step: IDLE, and completion is reported if a reply is owed (R145). -/
def State.finishPlanOp (s : State) (replyOwed : Bool) (t : Tag) : State :=
  ({ s with ps := { s.ps with op := .idle } }).reportEnd replyOwed t .done []

/-- COPY_STEP (R144, R145). -/
def execCopyStep (s : State) : Host.Outcome State Fault Refusal :=
  .next
    (match s.ps.op with
    | .copying k owed t =>
      let s1 := { s with ps := s.ps.setStaged (copyEntry s.ps.activeBank s.ps.stagedBank k) }
      match nextProgress k with
      | some k1 => { s1 with ps := { s1.ps with op := .copying k1 owed t } }
      | none => s1.finishPlanOp owed t
    | _ => s)

/-- CLEAR_STEP (R145, R146). -/
def execClearStep (s : State) : Host.Outcome State Fault Refusal :=
  .next
    (match s.ps.op with
    | .clearing k owed t =>
      let s1 := { s with ps := s.ps.setStaged (clearEntry s.ps.stagedBank k) }
      match nextProgress k with
      | some k1 => { s1 with ps := { s1.ps with op := .clearing k1 owed t } }
      | none => s1.finishPlanOp owed t
    | _ => s)

/-! ## Plan commands (R139, R140) -/

/-- The state step of R140: BUSY while a plan operation is in progress. -/
def unlessBusy (carry : State → Tag → List Byte → State) (s : State) (t : Tag) (payload : List Byte) : State :=
  if s.ps.op = .idle then carry s t payload else s.reply t .busy []

/-- The staged bank written, and DONE (R140). -/
def State.writeStaged (s : State) (b : Bank) (t : Tag) : State :=
  ({ s with ps := s.ps.setStaged b }).reply t .done []

/-- A window index of 0 to 31, none above (R141, R142). -/
def windowIndex (b : Byte) : Option WindowIx := if h : b.toNat < 32 then some ⟨b.toNat, h⟩ else none

/-- The entry a LOAD WINDOW record gives, none if it fails any check (R141, R38). -/
def loadableWindow (r : List Byte) : Option WindowEntry := (parseWindow r).filter WindowEntry.wellFormed

/-- LOAD WINDOW with the right length, in IDLE (R141). -/
def State.loadWindow (s : State) (t : Tag) (payload : List Byte) : State :=
  match windowIndex (byteAt payload 1), loadableWindow (payload.drop 2) with
  | some i, some e => s.writeStaged (s.ps.stagedBank.setWindow i e) t
  | _, _ => s.reply t .badArgument []

/-- LOAD_WINDOW (R141). -/
def execLoadWindow (s : State) : Host.Outcome State Fault Refusal :=
  .next (s.takeRequest (carries .loadWindow) (withLength 34 (unlessBusy State.loadWindow)))

/-- CLEAR WINDOW with the right length, in IDLE (R142). -/
def State.clearWindow (s : State) (t : Tag) (payload : List Byte) : State :=
  match windowIndex (byteAt payload 1) with
  | some i => s.writeStaged (s.ps.stagedBank.setWindow i .empty) t
  | none => s.reply t .badArgument []

/-- CLEAR_WINDOW (R142). -/
def execClearWindow (s : State) : Host.Outcome State Fault Refusal :=
  .next (s.takeRequest (carries .clearWindow) (withLength 2 (unlessBusy State.clearWindow)))

/-- The page entries that the records of a LOAD PAGES carry, written from an index on (R143). -/
def Bank.loadPages (b : Bank) (start : Nat) : Nat → List Byte → Bank
  | 0, _ => b
  | n + 1, records =>
    Bank.loadPages (if h : start < 256 then b.setPage ⟨start, h⟩ (parsePage records) else b) (start + 1) n (records.drop 4)

/-- The range of a LOAD PAGES or READ PAGE is admissible (R143, R165). -/
def pageRange (start count : Nat) : Bool := decide (1 ≤ count) && decide (count ≤ 16) && decide (start + count ≤ 256)

/-- LOAD PAGES with the right length, in IDLE (R143): all or nothing. -/
def State.loadPages (s : State) (t : Tag) (payload : List Byte) : State :=
  let start := (byteAt payload 1).toNat
  let count := (byteAt payload 2).toNat
  if pageRange start count then s.writeStaged (s.ps.stagedBank.loadPages start count (payload.drop 3)) t
  else s.reply t .badArgument []

/-- The length check of LOAD PAGES, whose length follows from its count byte (R140). -/
def loadPagesLength (carry : State → Tag → List Byte → State) (s : State) (t : Tag) (payload : List Byte) : State :=
  if 3 ≤ payload.length ∧ payload.length = 3 + 4 * (byteAt payload 2).toNat then carry s t payload
  else s.reply t .badArgument []

/-- LOAD_PAGES (R143). -/
def execLoadPages (s : State) : Host.Outcome State Fault Refusal :=
  .next (s.takeRequest (carries .loadPages) (loadPagesLength (unlessBusy State.loadPages)))

/-- A plan operation starts and its reply is held (R144, R146, R162). -/
def State.startPlanOp (s : State) (op : PlanOp) (t : Tag) (c : HeldCommand) : State :=
  { s with ps := { s.ps with op := op }, cu := { s.cu with held := s.cu.held ++ [⟨t, c⟩] } }

/-- COPY_PLAN (R144). -/
def execCopyPlan (s : State) : Host.Outcome State Fault Refusal :=
  .next (s.takeRequest (carries .copyPlan)
    (withLength 1 (unlessBusy fun s t _ => s.startPlanOp (.copying 0 true t) t .copyPlan)))

/-- CLEAR_PLAN (R146). -/
def execClearPlan (s : State) : Host.Outcome State Fault Refusal :=
  .next (s.takeRequest (carries .clearPlan)
    (withLength 1 (unlessBusy fun s t _ => s.startPlanOp (.clearing 0 true t) t .clearPlan)))

/-- A switch taken with the OTT empty: the swap in the same event, its reply placed at once (R147, R148, R162). -/
def State.switchAtOnce (s : State) (t : Tag) : State :=
  let s1 := s.swap false
  s1.reply t .done s1.ps.switchContents

/-- A switch taken with the OTT not empty: the gate HELD, the operation DRAINING, the reply held (R147, R148). -/
def State.startDrain (s : State) (m : SwitchMode) (timer : Option Nat) (t : Tag) : State :=
  ({ s with iq := { s.iq with gate := .held } }).startPlanOp (.draining m false timer true t) t .switchPlan

/-- SWITCH PLAN with the right length, in IDLE: a mode byte that is neither DRAIN nor FORCE is answered BAD_ARGUMENT (R147,
R148). -/
def State.switchPlan (s : State) (t : Tag) (payload : List Byte) : State :=
  match (byteAt payload 1).toNat with
  | 0 => if s.ott = [] then s.switchAtOnce t else s.startDrain .drain (some s.ps.drainTimeout) t
  | 1 => if s.ott = [] then s.switchAtOnce t else (s.startDrain .force none t).requestAbort .planStore
  | _ => s.reply t .badArgument []

/-- A SWITCH PLAN payload that names a mode in its second byte, with the right length. -/
def namesMode (mode : Byte) (payload : List Byte) : Bool := payload.length == 2 && byteAt payload 1 == mode

/-- SWITCH_PLAN_DRAIN (R147): a SWITCH PLAN that does not name FORCE. One that names no mode is taken by either row (log 19). -/
def execSwitchPlanDrain (s : State) : Host.Outcome State Fault Refusal :=
  .next (s.takeRequest (fun payload => carries .switchPlan payload && !namesMode 1 payload)
    (withLength 2 (unlessBusy State.switchPlan)))

/-- SWITCH_PLAN_FORCE (R148): a SWITCH PLAN that does not name DRAIN. One that names no mode is taken by either row (log 19). -/
def execSwitchPlanForce (s : State) : Host.Outcome State Fault Refusal :=
  .next (s.takeRequest (fun payload => carries .switchPlan payload && !namesMode 0 payload)
    (withLength 2 (unlessBusy State.switchPlan)))

/-- SET PLAN TIMING with the right length, in every plan-operation state (R153). -/
def State.setPlanTiming (s : State) (t : Tag) (payload : List Byte) : State :=
  let v := leField payload 1 2
  if v = 0 then s.reply t .badArgument [] else ({ s with ps := { s.ps with drainTimeout := v } }).reply t .done []

/-- SET_PLAN_TIMING (R153). -/
def execSetPlanTiming (s : State) : Host.Outcome State Fault Refusal :=
  .next (s.takeRequest (carries .setPlanTiming) (withLength 3 State.setPlanTiming))

end Sys2Proof.Machine
end

