-- ==== Sys2Proof/Machine/Queries.lean ====
section
/-! DEFINITION. The queries (R163 to R168) and CLEAR COUNTERS (R169). -/

namespace Sys2Proof.Machine

/-! ## READ STATUS (R163) -/

/-- The ULC state byte (R163). -/
def UlcState.code : UlcState → Byte
  | .down => 0
  | .ready => 1
  | .up => 2

/-- The port state byte (R163). -/
def PortState.code : PortState → Byte
  | .disabled => 0
  | .active => 1
  | .parked => 2
  | .waking => 3
  | .quarantined => 4

/-- The plan-operation state byte (R163). -/
def PlanOp.code : PlanOp → Byte
  | .idle => 0
  | .copying _ _ _ => 1
  | .clearing _ _ _ => 2
  | .draining _ _ _ _ _ => 3

/-- The admission gate byte (R163). -/
def Gate.code : Gate → Byte
  | .opened => 0
  | .held => 1

/-- The 18 bytes of READ STATUS (R163). -/
def State.statusContents (s : State) : List Byte :=
  [s.ulc.state.code, BitVec.ofNat 8 s.ulc.credits, BitVec.ofNat 8 s.ulc.awaiting, BitVec.ofNat 8 s.iq.fifo.length,
    BitVec.ofNat 8 s.ott.length, s.ps.active.code, s.ps.generation, s.ps.op.code, s.iq.gate.code,
    BitVec.ofNat 8 s.tb.exponent.val] ++ allPorts.map fun p => (s.port p).state.code

/-- READ_STATUS (R163). -/
def execReadStatus (s : State) : Host.Outcome State Fault Refusal :=
  .next (s.takeRequest (carries .readStatus) (withLength 1 fun s t _ => s.reply t .done s.statusContents))

/-! ## READ WINDOW and READ PAGE (R164, R165) -/

/-- The bank a selector byte names, ACTIVE or STAGED, none for another code (R164). -/
def PlanStore.selectBank (ps : PlanStore) (b : Byte) : Option BankId :=
  match b.toNat with
  | 0 => some ps.active
  | 1 => some ps.active.other
  | _ => none

/-- The 37 bytes of READ WINDOW: the bank read, the record, the hit counter (R164, R55). -/
def State.windowContents (s : State) (k : BankId) (i : WindowIx) : List Byte :=
  k.code :: ((s.ps.bank k).windows.get i).record ++ leBytes 4 ((s.ps.bank k).hits.get i).toNat

/-- READ WINDOW with the right length (R164). -/
def State.readWindow (s : State) (t : Tag) (payload : List Byte) : State :=
  match s.ps.selectBank (byteAt payload 1), windowIndex (byteAt payload 2) with
  | some k, some i => s.reply t .done (s.windowContents k i)
  | _, _ => s.reply t .badArgument []

/-- READ_WINDOW (R164). -/
def execReadWindow (s : State) : Host.Outcome State Fault Refusal :=
  .next (s.takeRequest (carries .readWindow) (withLength 3 State.readWindow))

/-- The page entry records from an index on (R165). -/
def Bank.pageRecords (b : Bank) (start : Nat) : Nat → List Byte
  | 0 => []
  | n + 1 => (if h : start < 256 then (b.pages.get ⟨start, h⟩).record else []) ++ Bank.pageRecords b (start + 1) n

/-- READ PAGE with the right length (R165). -/
def State.readPage (s : State) (t : Tag) (payload : List Byte) : State :=
  let start := (byteAt payload 2).toNat
  let count := (byteAt payload 3).toNat
  match s.ps.selectBank (byteAt payload 1), pageRange start count with
  | some k, true => s.reply t .done (k.code :: (s.ps.bank k).pageRecords start count)
  | _, _ => s.reply t .badArgument []

/-- READ_PAGE (R165). -/
def execReadPage (s : State) : Host.Outcome State Fault Refusal :=
  .next (s.takeRequest (carries .readPage) (withLength 4 State.readPage))

/-! ## READ PORT (R166) -/

/-- The quarantine cause byte (R166). -/
def causeCode : Option QuarantineCause → Byte
  | none => 0
  | some .secondStrike => 1
  | some .linkLoss => 2

/-- The ticks shown for a timer or deadline with `n` still to run, 1 or more. For one that has reached its last tick and whose
expiry is not yet taken (n = 0), R166 says only that the value is 1 or more: the command supplies it, at position `k` of `due`
(log 9). -/
def shownTicks (due : List (BitVec 16)) (k n : Nat) : Nat :=
  if n = 0 then max 1 ((due.getD k 1).toNat) else n

/-- A timer's running flag and remaining ticks (R166). -/
def timerBytes (due : List (BitVec 16)) (k : Nat) : Option Nat → List Byte
  | none => [0, 0, 0]
  | some n => 1 :: leBytes 2 (shownTicks due k n)

/-- The four bytes of a tag slot (R166). -/
def slotBytes (due : List (BitVec 16)) (k : Nat) : Slot → List Byte
  | .free => [0, 0, 0, 0]
  | .inFlight t d => [1, t.setWidth 8] ++ leBytes 2 (shownTicks due k d)
  | .orphan d => [2, 0] ++ leBytes 2 (shownTicks due k d)

/-- The 92 bytes of READ PORT (R166). The ticks of `due` are, in order: idle timer, wake timer, slots 0 to 15. -/
def State.portContents (s : State) (due : List (BitVec 16)) (p : PortId) : List Byte :=
  let q := s.port p
  [q.state.code, causeCode q.cause, flagByte (s.pins.link.get p), flagByte q.autoEnable] ++ leBytes 2 q.responseTimeout
    ++ leBytes 2 q.wakeTimeout ++ leBytes 2 q.idlePark
    ++ [BitVec.ofNat 8 q.egress.length, BitVec.ofNat 8 (s.claims p).length]
    ++ timerBytes due 0 q.idle ++ timerBytes due 1 q.wake ++ leBytes 4 q.copiesSent.toNat ++ leBytes 2 q.timeouts.toNat
    ++ leBytes 2 q.strays.toNat ++ leBytes 2 q.targetErrors.toNat
    ++ allSlots.flatMap fun i => slotBytes due (2 + i.val) (q.slots.get i)

/-- A port number of 0 to 7, none above (R102, R166). -/
def portNumber (b : Byte) : Option PortId := if h : b.toNat < 8 then some ⟨b.toNat, h⟩ else none

/-- READ PORT with the right length (R166). -/
def State.readPort (due : List (BitVec 16)) (s : State) (t : Tag) (payload : List Byte) : State :=
  match portNumber (byteAt payload 1) with
  | some p => s.reply t .done (s.portContents due p)
  | none => s.reply t .badArgument []

/-- READ_PORT (R166). -/
def execReadPort (due : List (BitVec 16)) (s : State) : Host.Outcome State Fault Refusal :=
  .next (s.takeRequest (carries .readPort) (withLength 2 (State.readPort due)))

/-! ## READ EVENTS (R167) -/

/-- The fault kind byte (R167). -/
def FaultKind.code : FaultKind → Byte
  | .miss => 0
  | .protect => 1
  | .notMapped => 2

/-- The link fault kind byte (R167). -/
def LinkFaultKind.code : LinkFaultKind → Byte
  | .malformedUpstream => 0
  | .overrun => 1
  | .tagClash => 2
  | .malformedTarget => 3

/-- The request kind byte (R167). -/
def MemKind.code : MemKind → Byte
  | .read => 0
  | .write => 1

/-- The 12 bytes of the fault record (R167). -/
def faultBytes : Option FaultRecord → List Byte
  | none => List.replicate 12 0
  | some r =>
    [1, r.kind.code, r.request.code, r.tag.setWidth 8] ++ leBytes 5 r.addr.toNat
      ++ [(match r.window with | some i => BitVec.ofNat 8 i.val | none => 0xFF), r.generation, r.repeats]

/-- The 5 bytes of the link fault record (R167). -/
def linkFaultBytes : Option LinkFaultRecord → List Byte
  | none => List.replicate 5 0
  | some r => [1, r.kind.code, (match r.port with | some p => byteOfPort p | none => 0xFF), r.tag.getD 0xFF, r.repeats]

/-- The 27 bytes of READ EVENTS (R167). -/
def EventUnit.contents (eu : EventUnit) : List Byte :=
  leBytes 2 eu.pending.toNat ++ [eu.strikes, eu.quarantines, eu.strayPorts] ++ leBytes 2 (eu.enables ||| alwaysBits).toNat
    ++ faultBytes eu.faultRecord ++ linkFaultBytes eu.linkFaultRecord
    ++ [eu.holdoffSetting, flagByte eu.holdoff.isSome, flagByte eu.alert]

/-- READ_EVENTS (R167). -/
def execReadEvents (s : State) : Host.Outcome State Fault Refusal :=
  .next (s.takeRequest (carries .readEvents) (withLength 1 fun s t _ => s.reply t .done s.eu.contents))

/-! ## READ RESET CAUSE and CLEAR COUNTERS (R168, R169) -/

/-- The reset cause byte (R168). -/
def ResetCause.code : ResetCause → Byte
  | .powerOn => 0
  | .pin => 1
  | .command => 2

/-- The 3 bytes of READ RESET CAUSE (R168). -/
def ResetUnit.contents (rs : ResetUnit) : List Byte :=
  [rs.lastCause.code, (match rs.previousCause with | some c => c.code | none => 0xFF), rs.resetCount]

/-- READ_RESET_CAUSE (R168). -/
def execReadResetCause (s : State) : Host.Outcome State Fault Refusal :=
  .next (s.takeRequest (carries .readResetCause) (withLength 1 fun s t _ => s.reply t .done s.rs.contents))

/-- A bank with its hit counters 0 (R53). -/
def Bank.clearHits (b : Bank) : Bank := { b with hits := .replicate 32 0 }

/-- The hit counters of both banks 0 (R53, R169). -/
def State.clearHits (s : State) : State :=
  { s with ps := { s.ps with bankA := s.ps.bankA.clearHits, bankB := s.ps.bankB.clearHits } }

/-- A port record with its four counters 0 (R106). -/
def Port.clearCounters (q : Port) : Port := { q with copiesSent := 0, timeouts := 0, strays := 0, targetErrors := 0 }

/-- The counters of every port 0 (R106, R169). -/
def State.clearPortCounters (s : State) : State := { s with ports := s.ports.map Port.clearCounters }

/-- CLEAR COUNTERS with the right length (R169). -/
def State.clearCounters (s : State) (t : Tag) (payload : List Byte) : State :=
  match (byteAt payload 1).toNat with
  | 0 => s.clearHits.reply t .done []
  | 1 => s.clearPortCounters.reply t .done []
  | 2 => s.clearHits.clearPortCounters.reply t .done []
  | _ => s.reply t .badArgument []

/-- CLEAR_COUNTERS (R169). -/
def execClearCounters (s : State) : Host.Outcome State Fault Refusal :=
  .next (s.takeRequest (carries .clearCounters) (withLength 2 State.clearCounters))

end Sys2Proof.Machine
end

