-- ==== Sys2Proof/Machine/Resets.lean ====
section
/-! DEFINITION. Resets and start-up: POWER_ON, RESET_N_ASSERT, START_UP, START_UP_COMPLETE (10; R3, R33, R134, R157, R173,
R185). -/

namespace Sys2Proof.Machine

/-- The Event Unit from the assertion of a power-on or pin reset: ALERT_N released, nothing pending, no timer (R185, R187,
log 8). -/
def EventUnit.underReset (eu : EventUnit) : EventUnit :=
  { eu with pending := 0, strikes := 0, quarantines := 0, strayPorts := 0, faultRecord := none, linkFaultRecord := none,
            holdoff := none, alert := false }

/-- Every block at the assertion of a power-on or pin reset (R189): ULC DOWN with its queue lost (R3), FIFO and tags empty
and gate OPEN (R33), OTT empty (R134), ports with nothing held (R109, log 8), plan operation abandoned (R157), held replies
dropped (R173), nothing on its way but the OTT's report that it is empty (R134, log 11). Any start-up or RESET FULL in
progress is abandoned. -/
def State.assertReset (s : State) (h : HeldCondition) : State :=
  { s with
    ulc := { state := .down, credits := 0, awaiting := 0, queue := [], tx := none }
    iq := { fifo := [], tags := [], gate := .opened, cond := .noHead }
    ps := { s.ps with op := .idle }
    ott := []
    ports := s.ports.map fun q => q.outOfService .disabled none
    cu := { taking := none, held := [] }
    eu := s.eu.underReset
    rs := { s.rs with state := .running, held := some h, full := .none }
    mail := .atReset }

/-- POWER_ON (R189). -/
def execPowerOn (s : State) : Host.Outcome State Fault Refusal :=
  .next (s.assertReset .powerOn)

/-- The held condition that a RESET_N assertion brings: a power-on condition still in force stays one (R189, log 21). -/
def ResetUnit.pinHeld (rs : ResetUnit) : HeldCondition :=
  if rs.held = some .powerOn then .powerOn else .pin

/-- RESET_N_ASSERT (R189). -/
def execResetNAssert (s : State) : Host.Outcome State Fault Refusal :=
  .next { s.assertReset s.rs.pinHeld with pins := { s.pins with resetN := true } }

/-- The reset cause record when a start-up of a cause begins (R190). -/
def ResetUnit.recordCause (rs : ResetUnit) (c : ResetCause) : ResetUnit :=
  match c with
  | .powerOn => { rs with lastCause := .powerOn, previousCause := none, resetCount := 0 }
  | .pin => { rs with lastCause := .pin, previousCause := some rs.lastCause, resetCount := satInc rs.resetCount }
  | .command => { rs with lastCause := .command, previousCause := some rs.lastCause, resetCount := satInc rs.resetCount }

/-- A start-up begins (R191, steps 1 and 2): the cause is recorded, both banks are cleared, and hit reports made before it
are void (R56, log 11). -/
def State.beginStartUp (s : State) (c : ResetCause) (sample : PlanSel) : State :=
  { s with
    rs := { s.rs.recordCause c with state := .starting, held := none, full := .none, sample := sample }
    ps := { s.ps with bankA := .cleared, bankB := .cleared }
    mail := { s.mail with hitReports := [] } }

/-- START_UP (R189, R191): at the end of a held condition, with PLAN_SEL sampled now, or after a RESET FULL whose answers
and abort are done, with PLAN_SEL as sampled when the RESET was taken. -/
def execStartUp (sel : PlanSel) (s : State) : Host.Outcome State Fault Refusal :=
  .next
    (match s.rs.held with
    | some .powerOn => { s.beginStartUp .powerOn sel with pins := { s.pins with resetN := false, planSel := sel } }
    | some .pin => { s.beginStartUp .pin sel with pins := { s.pins with resetN := false, planSel := sel } }
    | none => if s.rs.full = .ready then s.beginStartUp .command s.rs.sample else s)

/-- The pass-through window of the PASS start plan (R192). -/
def passWindow : Window :=
  { base := 0, limit := 0xFFFFFF, mask := none, readPolicy := .allow, writePolicy := .allow, mode := .direct 0 0 none }

/-- A port becomes ACTIVE with nothing held: the state change is reported and its idle timer brought to its conditions
(R96, R103). -/
def State.activate (s : State) (p : PortId) : State :=
  ((s.setPort p { (s.port p).outOfService .active none with autoEnable := false }).attemptDue (.portChanged p)).settleIdle p

/-- Step 5 of start-up: the start plan is loaded into bank A, and under PASS T0 is made ACTIVE or given its auto-enable flag
(R192). -/
def State.loadStartPlan (s : State) : State :=
  match s.rs.sample with
  | .empty => s
  | .pass =>
    let s1 := { s with ps := { s.ps with bankA := s.ps.bankA.setWindow 0 (.loaded passWindow) } }
    if s.pins.link.get 0 then s1.activate 0 else s1.setPort 0 { s1.port 0 with autoEnable := true }

/-- Steps 3 and 4 of start-up: every port, the Event Unit, the timebase, the Plan Store and the gate at their start values
(R81, R109, R185, R187, R191). -/
def State.startValues (s : State) : State :=
  ({ s with
    ports := .replicate 8 .startUp
    eu := .startUp
    tb := { exponent := Config.exponent, pendingExponent := none }
    ps := { s.ps with active := .a, generation := 0, op := .idle, drainTimeout := Config.drainTimeout } }).openGate

/-- Step 7 of start-up at the ULC (R1, R191): from DOWN, LINK START if the carrier is PRESENT, else READY; an ULC that
stayed UP, or is READY after a loss, sends nothing. -/
def State.ulcStart (s : State) : State :=
  if s.ulc.state = .down then
    if s.pins.carrier then s.linkStart else { s with ulc := { s.ulc with state := .ready } }
  else s

/-- START_UP_COMPLETE (R191, steps 3 to 7). -/
def execStartUpComplete (s : State) : Host.Outcome State Fault Refusal :=
  .next
    (if s.rs.state = .starting then
      let s1 := s.startValues.loadStartPlan.capture .resetDone
      ({ s1 with rs := { s1.rs with state := .running } }).ulcStart.attemptDue .startUpComplete
    else s)

end Sys2Proof.Machine
end

