-- ==== Sys2Proof/Machine/Commands.lean ====
section
/-! DEFINITION. The commands that act on ports, events, the timebase and the whole part: PORT ENABLE, PORT DISABLE, PARK
PORT, SET PORT (R102 to R105), SET EVENT ENABLES, CLEAR EVENTS, SET HOLDOFF (R180 to R183), SET TIMEBASE (R188), RESET
(R170 to R172). -/

namespace Sys2Proof.Machine

/-! ## Port commands (R102) -/

/-- A port command that names port 0 clears T0's auto-enable flag, whatever its reply (R102, R193). -/
def State.clearAutoEnable (s : State) (p : PortId) : State :=
  if p = 0 then s.setPort p { s.port p with autoEnable := false } else s

/-- The port argument of a port command with the right length: above 7, BAD_ARGUMENT; else the auto-enable flag of port 0 is
cleared and the command carried out (R102). -/
def onPort (carry : State → Tag → List Byte → PortId → State) (s : State) (t : Tag) (payload : List Byte) : State :=
  match portNumber (byteAt payload 1) with
  | some p => carry (s.clearAutoEnable p) t payload p
  | none => s.reply t .badArgument []

/-- PORT ENABLE (R103). -/
def State.enablePort (s : State) (t : Tag) (_payload : List Byte) (p : PortId) : State :=
  match (s.port p).state with
  | .active | .parked | .waking => s.reply t .done []
  | .disabled | .quarantined =>
    if s.pins.link.get p then (s.activate p).reply t .done [] else s.reply t .linkNotReady []

/-- PORT_ENABLE (R103). -/
def execPortEnable (s : State) : Host.Outcome State Fault Refusal :=
  .next (s.takeRequest (carries .portEnable) (withLength 2 (onPort State.enablePort)))

/-- PORT DISABLE (R104): the reply stands in any order among the answers of the copies it fails (R102). -/
def State.disablePort (order : Order) (s : State) (t : Tag) (_payload : List Byte) (p : PortId) : State :=
  match (s.port p).state with
  | .disabled => s.reply t .done []
  | .active | .parked | .waking | .quarantined => s.leaveService p .disabled none [.reply t .done] order

/-- PORT_DISABLE (R104). -/
def execPortDisable (order : Order) (s : State) : Host.Outcome State Fault Refusal :=
  .next (s.takeRequest (carries .portDisable) (withLength 2 (onPort (State.disablePort order))))

/-- No copy is queued and no slot is IN_FLIGHT or ORPHAN (R98). -/
def Port.holdsNothing (q : Port) : Bool := q.egress.isEmpty && q.slots.toList.all (· == .free)

/-- PARK PORT (R98). -/
def State.parkPort (s : State) (t : Tag) (_payload : List Byte) (p : PortId) : State :=
  match (s.port p).state with
  | .active =>
    if s.strikeFlag p then s.reply t .pendingEvent []
    else if (s.port p).holdsNothing then (s.park p).reply t .done []
    else s.reply t .portBusy []
  | .parked => s.reply t .done []
  | .waking => s.reply t .portBusy []
  | .disabled | .quarantined => s.reply t .notInService []

/-- PARK_PORT (R98). -/
def execParkPort (s : State) : Host.Outcome State Fault Refusal :=
  .next (s.takeRequest (carries .parkPort) (withLength 2 (onPort State.parkPort)))

/-- SET PORT (R105): all three timeouts are replaced, or none. The idle timer follows R96. -/
def State.setTimeouts (s : State) (t : Tag) (payload : List Byte) (p : PortId) : State :=
  let response := leField payload 2 2
  let wake := leField payload 4 2
  let idle := leField payload 6 2
  if 1 ≤ response ∧ 1 ≤ wake ∧ wake ≤ 4095 then
    ((s.setPort p { s.port p with responseTimeout := response, wakeTimeout := wake, idlePark := idle }).settleIdle
      p).reply t .done []
  else s.reply t .badArgument []

/-- SET_PORT (R105). -/
def execSetPort (s : State) : Host.Outcome State Fault Refusal :=
  .next (s.takeRequest (carries .setPort) (withLength 8 (onPort State.setTimeouts)))

/-! ## Event commands (R180) -/

/-- The 16 bits of two payload bytes, in the form of bytes 0 and 1 of the pending form (R167, R180). -/
def eventField (payload : List Byte) : BitVec 16 := BitVec.ofNat 16 (leField payload 1 2)

/-- SET_EVENT_ENABLES (R181). -/
def execSetEventEnables (s : State) : Host.Outcome State Fault Refusal :=
  .next (s.takeRequest (carries .setEventEnables) (withLength 3 fun s t payload =>
    ({ s with eu := { s.eu with enables := eventField payload &&& enableBits } }).reply t .done []))

/-- The strike clears of a CLEAR EVENTS reach their ports (R177, R182): an idle condition may be regained (R96). -/
def State.strikesCleared (s : State) (cleared : BitVec 8) : List PortId → State
  | [] => s
  | p :: ps => State.strikesCleared (if cleared.getLsbD p.val then s.settleIdle p else s) cleared ps

/-- The 4 bytes of the CLEAR EVENTS reply: exactly the events cleared (R182). -/
def ClearedEvents.contents (c : ClearedEvents) : List Byte := leBytes 2 c.events.toNat ++ [c.strikes, c.quarantines]

/-- CLEAR EVENTS with the right length (R182). -/
def State.clearEvents (s : State) (t : Tag) (payload : List Byte) : State :=
  let c := s.eu.clearable (eventField payload) (byteAt payload 3) (byteAt payload 4)
  (({ s with eu := s.eu.clear c }).strikesCleared c.strikes allPorts).reply t .done c.contents

/-- CLEAR_EVENTS (R182). -/
def execClearEvents (s : State) : Host.Outcome State Fault Refusal :=
  .next (s.takeRequest (carries .clearEvents) (withLength 5 State.clearEvents))

/-- SET_HOLDOFF (R183): the setting is replaced; a running timer keeps its remaining ticks. -/
def execSetHoldoff (s : State) : Host.Outcome State Fault Refusal :=
  .next (s.takeRequest (carries .setHoldoff) (withLength 2 fun s t payload =>
    ({ s with eu := { s.eu with holdoffSetting := byteAt payload 1 } }).reply t .done []))

/-! ## SET TIMEBASE (R188) -/

/-- SET TIMEBASE with the right length (R188). -/
def State.setTimebase (s : State) (t : Tag) (payload : List Byte) : State :=
  match portNumber (byteAt payload 1) with
  | some k => ({ s with tb := { s.tb with pendingExponent := some k } }).reply t .done []
  | none => s.reply t .badArgument []

/-- SET_TIMEBASE (R188). -/
def execSetTimebase (s : State) : Host.Outcome State Fault Refusal :=
  .next (s.takeRequest (carries .setTimebase) (withLength 2 State.setTimebase))

/-! ## RESET (R170 to R172) -/

/-- A RESET payload that names a scope, with the right length (R170). -/
def namesScope (scope : Byte) (payload : List Byte) : Bool := payload.length == 2 && byteAt payload 1 == scope

/-- RESET TRAFFIC (R171): DONE, an abort of the OTT, and every WAKING port back to PARKED: in this step if no copy waits for it, else
with the abort, since a PARKED port holds nothing that an abort can reach (R107, R108, log 27). R171 lets the answer of an entry that
completes between the placing of the DONE and the OTT's taking of the abort stand ahead of the DONE or behind it; the model's choice
is behind it, since the DONE is placed in this step (log 28). -/
def State.resetTraffic (s : State) (t : Tag) : State := ((s.reply t .done []).requestAbort .resetTraffic).returnWaking

/-- RESET_TRAFFIC (R171): a RESET that does not name FULL. One that names no scope, or has another length, is taken by either
row and answered BAD_ARGUMENT (R170, log 19). -/
def execResetTraffic (s : State) : Host.Outcome State Fault Refusal :=
  .next (s.takeRequest (fun payload => carries .reset payload && !namesScope 1 payload) fun s t payload =>
    if namesScope 0 payload then s.resetTraffic t else s.reply t .badArgument [])

/-- The answers of a RESET FULL but for the OTT's: to the held requests in any order, and to the requests of the ingress FIFO
in FIFO order (R34, R156, R172). -/
def State.fullAnswers (s : State) (order : Order) : List AbortedAnswer :=
  interleave (order.drop s.cu.held.length) ((permute order s.cu.held).map HeldItem.abortedAnswer)
    (s.iq.fifo.map Request.abortedAnswer)

/-- RESET FULL (R172, R34, R156): DONE first; any plan operation abandoned; the held items and the FIFO answered ABORTED, the
FIFO's in FIFO order, otherwise in the order chosen, all but the last `order.late` of them now, and in UP those at the OTT's abort (log
12); the credits returned; an abort of the OTT requested. Start-up follows the abort, with PLAN_SEL as sampled now. -/
def State.resetFull (s : State) (t : Tag) (sel : PlanSel) (credit : CreditPath) (order : FullOrder) : State :=
  let s1 := s.reply t .done []
  let s2 := ({ s1 with ps := { s1.ps with op := .idle } }).returnCredits credit s.iq.fifo.length
  let answers := s.fullAnswers order.order
  let now := answers.length - order.late
  let later := if s.ulc.state = .up then answers.drop now else []
  let s3 := s2.answerAborted (answers.take now)
  ({ s3 with
    cu := { s3.cu with held := [] }
    iq := { s3.iq with fifo := [], cond := .noHead }
    mail := { s3.mail with attempts := [], ends := [], answers := s3.mail.answers ++ later }
    pins := { s3.pins with planSel := sel }
    rs := { s3.rs with full := .awaitAbort, sample := sel } }).requestAbort .resetFull

/-- RESET_FULL (R172): a RESET that does not name TRAFFIC. One that names no scope, or has another length, is taken by either
row and answered BAD_ARGUMENT (R170, log 19). -/
def execResetFull (sel : PlanSel) (credit : CreditPath) (order : FullOrder) (s : State) : Host.Outcome State Fault Refusal :=
  .next (s.takeRequest (fun payload => carries .reset payload && !namesScope 0 payload) fun s t payload =>
    if namesScope 1 payload then s.resetFull t sel credit order else s.reply t .badArgument [])

end Sys2Proof.Machine
end

