-- ==== Sys2Proof/Machine/Targets.lean ====
section
/-! DEFINITION. What reaches a target port: TARGET_RESPONSE (R18, R88 to R91), DEADLINE_EXPIRY (R87), IDLE_TIMEOUT (R97),
WAKE_TIMEOUT (R92, R100), TARGET_LINK_UP and TARGET_LINK_DOWN (R95). -/

namespace Sys2Proof.Machine

/-- A tag slot of a port written. -/
def State.setSlot (s : State) (p : PortId) (i : SlotId) (x : Slot) : State :=
  s.setPort p { s.port p with slots := (s.port p).slots.set i.val x i.isLt }

/-- A stray response: counted and reported, nothing else changes (R90). -/
def State.strayResponse (s : State) (p : PortId) : State :=
  (s.setPort p { s.port p with strays := satInc (s.port p).strays }).report (.stray p)

/-- A LINK_FAULT of kind MALFORMED_TARGET, with the tag if the frame gave one (R18, R179). -/
def State.malformedTarget (s : State) (p : PortId) (tag : Option SlotId) : State :=
  s.report (.linkFault .malformedTarget (some p) (tag.map fun i => BitVec.ofNat 8 i.val))

/-- A response that R18 takes as a target ERROR: OK to a READ with a wrong number of data bytes, or any answer to a WRITE
that carries data. -/
def Entry.refusesResponse (e : Entry) (ok : Bool) (data : List Byte) : Bool :=
  match e.kind with
  | .read => ok && data.length != e.length
  | .write => !data.isEmpty

/-- The response is taken as a target ERROR for the copy of the entry of tag `t` (R18). -/
def State.refusesAnswer (s : State) (t : Tag) (ok : Bool) (data : List Byte) : Bool :=
  match s.entry? t with
  | some e => e.refusesResponse ok data
  | none => false

/-- The target errors counter advanced (R88, R106). -/
def State.countTargetError (s : State) (p : PortId) : State :=
  s.setPort p { s.port p with targetErrors := satInc (s.port p).targetErrors }

/-- A response answers the copy in IN_FLIGHT slot `i` (R18, R88): the slot becomes FREE, the outcome is taken, and the port
sends what it now can. -/
def State.answerCopy (s : State) (p : PortId) (i : SlotId) (t : Tag) (ok : Bool) (data : List Byte) : State :=
  let malformed := s.refusesAnswer t ok data
  let s1 := s.setSlot p i .free
  let s2 := if malformed then s1.malformedTarget p (some i) else s1
  if ok && !malformed then (s2.outcome t p .ok data).serve p
  else ((s2.countTargetError p).outcome t p .targetError []).serve p

/-- A well-formed target response is matched to its slot (R88 to R91). -/
def State.matchResponse (s : State) (p : PortId) (i : SlotId) (ok : Bool) (data : List Byte) : State :=
  if (s.port p).state = .active then
    match (s.port p).slots.get i with
    | .free => s.strayResponse p
    | .orphan _ => (s.setSlot p i .free).serve p
    | .inFlight t _ => s.answerCopy p i t ok data
  else s.strayResponse p

/-- TARGET_RESPONSE (R18, R88): the form check comes first, in every port state. -/
def execTargetResponse (p : PortId) (frame : TargetFrame) (s : State) : Host.Outcome State Fault Refusal :=
  .next
    (match frame.tag, frame.status with
    | none, _ => s.malformedTarget p none
    | some i, .other => s.malformedTarget p (some i)
    | some i, .ok => s.matchResponse p i true frame.data
    | some i, .error => s.matchResponse p i false frame.data)

/-- Strike processing for a response deadline (R92, R93), `failed` being the copy of the expired slot, if it had one: with
the strike flag set the port is quarantined, otherwise it is struck and stays ACTIVE. -/
def State.strikeDeadline (s : State) (p : PortId) (failed : List Job) (order : Order) : State :=
  let s1 := s.countTimeout p
  if s.strikeFlag p then s1.quarantine p .secondStrike failed order
  else ((s1.capture (.strike p)).runJobs p failed).serve p

/-- DEADLINE_EXPIRY (R87): the deadline of a slot that has reached its last tick expires. -/
def execDeadlineExpiry (p : PortId) (i : SlotId) (order : Order) (s : State) : Host.Outcome State Fault Refusal :=
  .next
    (match (s.port p).slots.get i with
    | .inFlight t 0 => (s.setSlot p i .free).strikeDeadline p [.fail t .timeout] order
    | .orphan 0 => (s.setSlot p i .free).strikeDeadline p [] order
    | .inFlight _ (_ + 1) | .orphan (_ + 1) | .free => s)

/-- IDLE_TIMEOUT (R97): the idle timer has reached its last tick and the port parks. -/
def execIdleTimeout (p : PortId) (s : State) : Host.Outcome State Fault Refusal :=
  .next (if (s.port p).state = .active ∧ (s.port p).idle = some 0 then s.park p else s)

/-- A wake that timed out with the strike flag clear (R92): the port is struck, its queued copies fail with TIMEOUT, it
returns to PARKED, and its free places go to the arbiter. -/
def State.failWake (s : State) (p : PortId) (order : Order) : State :=
  let jobs := (s.port p).egress.map (Job.fail · .timeout)
  let s1 := ((s.capture (.strike p)).setPort p { s.port p with state := .parked, wake := none, egress := [] }).attemptDue
    (.portChanged p)
  let s2 := if (s.port p).egress ≠ [] ∧ s.claims p = [] then s1.attemptDue (.placesRose p) else s1
  (s2.runJobs p (permute order jobs)).serve p

/-- WAKE_TIMEOUT (R92, R93, R100): the wake timer of a WAKING port has reached its last tick and expires. -/
def execWakeTimeout (p : PortId) (order : Order) (s : State) : Host.Outcome State Fault Refusal :=
  .next
    (if (s.port p).state = .waking ∧ (s.port p).wake = some 0 then
      let s1 := s.countTimeout p
      if s.strikeFlag p then s1.quarantine p .secondStrike [] order else s1.failWake p order
    else s)

/-- The link condition of a port as T*_LINK reports it (R16). -/
def State.setLink (s : State) (p : PortId) (up : Bool) : State :=
  { s with pins := { s.pins with link := s.pins.link.set p.val up p.isLt } }

/-- A port takes link UP according to its state (R95, R100, R193). -/
def State.linkUp (s : State) (p : PortId) : State :=
  match (s.port p).state with
  | .active => s
  | .parked => s.emit (.lowPower p)
  | .waking => (s.completeWake p).serve p
  | .disabled => if (s.port p).autoEnable then s.activate p else s
  | .quarantined => s

/-- TARGET_LINK_UP (R95): a change of T*_LINK to UP. During a power-on or pin reset only the pin changes (R189, log 8). -/
def execTargetLinkUp (p : PortId) (s : State) : Host.Outcome State Fault Refusal :=
  .next
    (if s.pins.link.get p then s
    else if s.underReset then s.setLink p true
    else (s.setLink p true).linkUp p)

/-- A port takes link DOWN according to its state (R95): ACTIVE is quarantined with cause LINK_LOSS. -/
def State.linkDown (s : State) (p : PortId) (order : Order) : State :=
  match (s.port p).state with
  | .active => s.quarantine p .linkLoss [] order
  | .parked => s
  | .waking => s
  | .disabled => s
  | .quarantined => s

/-- TARGET_LINK_DOWN (R95): a change of T*_LINK to DOWN. -/
def execTargetLinkDown (p : PortId) (order : Order) (s : State) : Host.Outcome State Fault Refusal :=
  .next (if s.pins.link.get p then (s.setLink p false).linkDown p order else s)

end Sys2Proof.Machine
end

