-- ==== Sys2Proof/Machine/Time.lean ====
section
/-! DEFINITION. Time and events: TICK_BOUNDARY (R187, R188), HOLDOFF_EXPIRY (R183), DRAIN_TIMEOUT (R150), and the Event
Unit's EVENT_OCCURRENCE (R175). -/

namespace Sys2Proof.Machine

/-- A slot's deadline at a tick boundary (R87, R187); at 0 it waits for its expiry to be taken. -/
def Slot.tick : Slot → Slot
  | .free => .free
  | .inFlight t d => .inFlight t (d - 1)
  | .orphan d => .orphan (d - 1)

/-- A timer at a tick boundary: stopped, or its count falls by one (R187). -/
def tickTimer (t : Option Nat) : Option Nat := t.map (· - 1)

/-- A port's timers at a tick boundary. -/
def Port.tick (q : Port) : Port :=
  { q with slots := q.slots.map Slot.tick, idle := tickTimer q.idle, wake := tickTimer q.wake }

/-- The drain timer at a tick boundary. -/
def PlanOp.tick : PlanOp → PlanOp
  | .draining m e d o t => .draining m e (tickTimer d) o t
  | .idle => .idle
  | .copying k o t => .copying k o t
  | .clearing k o t => .clearing k o t

/-- The timebase at a tick boundary: a pending exponent comes into force (R188). -/
def Timebase.tick (tb : Timebase) : Timebase :=
  { exponent := tb.pendingExponent.getD tb.exponent, pendingExponent := none }

/-- TICK_BOUNDARY (R187): every running timer counts one tick and a pending exponent comes into force. From the assertion of
a power-on or pin reset until start-up sets the exponent, no boundary reaches any timer; that none brings a pending exponent
into force either is the model's choice (log 25). -/
def execTickBoundary (s : State) : Host.Outcome State Fault Refusal :=
  .next
    (if s.underReset then s
    else
      { s with
        ports := s.ports.map Port.tick
        ps := { s.ps with op := s.ps.op.tick }
        eu := { s.eu with holdoff := tickTimer s.eu.holdoff }
        tb := s.tb.tick })

/-- HOLDOFF_EXPIRY (R183, R184): the holdoff timer has reached its last tick; it stops and ALERT_N is brought to its level. -/
def execHoldoffExpiry (s : State) : Host.Outcome State Fault Refusal :=
  .next (if s.eu.holdoff = some 0 then { s with eu := ({ s.eu with holdoff := none }).settleAlert } else s)

/-- DRAIN_TIMEOUT (R150): the drain timer of a DRAIN switch has reached its last tick; the switch escalates and an abort of
the OTT is requested. -/
def execDrainTimeout (s : State) : Host.Outcome State Fault Refusal :=
  .next
    (match s.ps.op with
    | .draining m _ (some 0) owed t =>
      ({ s with ps := { s.ps with op := .draining m true none owed t } }).requestAbort .planStore
    | _ => s)

/-- EVENT_OCCURRENCE (R175): the Event Unit takes a reported occurrence. -/
def execEventOccurrence (report : Nat) (s : State) : Host.Outcome State Fault Refusal :=
  .next
    (match takeAt report s.mail.occurrences with
    | none => s
    | some (o, rest) => ({ s with mail := { s.mail with occurrences := rest } }).capture o)

end Sys2Proof.Machine
end

