-- ==== Sys2Proof/Machine/Dispatch.lean ====
section
/-! DEFINITION. The dispatch: one arm for each command. -/

namespace Sys2Proof.Machine

/-- The effect of a command on everything but the queue. -/
def exec (i : Instr) (s : State) : Host.Outcome State Fault Refusal :=
  match i with
  | .powerOn => Sys2Proof.Machine.execPowerOn s
  | .resetNAssert => Sys2Proof.Machine.execResetNAssert s
  | .startUp sel => Sys2Proof.Machine.execStartUp sel s
  | .startUpComplete => Sys2Proof.Machine.execStartUpComplete s
  | .carrierGained => Sys2Proof.Machine.execCarrierGained s
  | .carrierLost => Sys2Proof.Machine.execCarrierLost s
  | .linkLossIq => Sys2Proof.Machine.execLinkLossIq s
  | .linkLossPlanStore => Sys2Proof.Machine.execLinkLossPlanStore s
  | .linkLossControlUnit => Sys2Proof.Machine.execLinkLossControlUnit s
  | .linkLossPorts => Sys2Proof.Machine.execLinkLossPorts s
  | .packetArrival frame => Sys2Proof.Machine.execPacketArrival frame s
  | .packetDiscardNotUp frame => Sys2Proof.Machine.execPacketDiscardNotUp frame s
  | .creditReturn => Sys2Proof.Machine.execCreditReturn s
  | .transmitDone => Sys2Proof.Machine.execTransmitDone s
  | .headAttempt event credit => Sys2Proof.Machine.execHeadAttempt event credit s
  | .hitReport report => Sys2Proof.Machine.execHitReport report s
  | .eventOccurrence report => Sys2Proof.Machine.execEventOccurrence report s
  | .targetResponse port frame => Sys2Proof.Machine.execTargetResponse port frame s
  | .deadlineExpiry port slot order => Sys2Proof.Machine.execDeadlineExpiry port slot order s
  | .idleTimeout port => Sys2Proof.Machine.execIdleTimeout port s
  | .wakeTimeout port order => Sys2Proof.Machine.execWakeTimeout port order s
  | .targetLinkUp port => Sys2Proof.Machine.execTargetLinkUp port s
  | .targetLinkDown port order => Sys2Proof.Machine.execTargetLinkDown port order s
  | .tickBoundary => Sys2Proof.Machine.execTickBoundary s
  | .holdoffExpiry => Sys2Proof.Machine.execHoldoffExpiry s
  | .drainTimeout => Sys2Proof.Machine.execDrainTimeout s
  | .ottAbort request => Sys2Proof.Machine.execOttAbort request s
  | .ottEmptyReport => Sys2Proof.Machine.execOttEmptyReport s
  | .copyStep => Sys2Proof.Machine.execCopyStep s
  | .clearStep => Sys2Proof.Machine.execClearStep s
  | .heldReplyRelease report => Sys2Proof.Machine.execHeldReplyRelease report s
  | .resetTraffic => Sys2Proof.Machine.execResetTraffic s
  | .resetFull sel credit order => Sys2Proof.Machine.execResetFull sel credit order s
  | .readStatus => Sys2Proof.Machine.execReadStatus s
  | .readWindow => Sys2Proof.Machine.execReadWindow s
  | .readPage => Sys2Proof.Machine.execReadPage s
  | .readPort due => Sys2Proof.Machine.execReadPort due s
  | .readEvents => Sys2Proof.Machine.execReadEvents s
  | .readResetCause => Sys2Proof.Machine.execReadResetCause s
  | .clearCounters => Sys2Proof.Machine.execClearCounters s
  | .loadWindow => Sys2Proof.Machine.execLoadWindow s
  | .clearWindow => Sys2Proof.Machine.execClearWindow s
  | .loadPages => Sys2Proof.Machine.execLoadPages s
  | .copyPlan => Sys2Proof.Machine.execCopyPlan s
  | .clearPlan => Sys2Proof.Machine.execClearPlan s
  | .switchPlanDrain => Sys2Proof.Machine.execSwitchPlanDrain s
  | .switchPlanForce => Sys2Proof.Machine.execSwitchPlanForce s
  | .setPlanTiming => Sys2Proof.Machine.execSetPlanTiming s
  | .portEnable => Sys2Proof.Machine.execPortEnable s
  | .portDisable order => Sys2Proof.Machine.execPortDisable order s
  | .parkPort => Sys2Proof.Machine.execParkPort s
  | .setPort => Sys2Proof.Machine.execSetPort s
  | .setEventEnables => Sys2Proof.Machine.execSetEventEnables s
  | .clearEvents => Sys2Proof.Machine.execClearEvents s
  | .setHoldoff => Sys2Proof.Machine.execSetHoldoff s
  | .setTimebase => Sys2Proof.Machine.execSetTimebase s
  | .unknownCommand => Sys2Proof.Machine.execUnknownCommand s

end Sys2Proof.Machine
end

