-- ==== Sys2Proof/Safety.lean ====
section
/-! DEFINITION. What the spec says always holds of the part: the Event Unit's flags, records and line (R174 to R184), the
balance of credits (R1, R4), the plans (R38, R52), the ports (R82, R83, R96, R105, R193), the tags (R21), and the
generations of the entries (R111, R137). Also the words in which the statements speak of a control
request as it is taken and of the head as it is attempted. -/

namespace Sys2Proof.Machine

/-! ## The Event Unit -/

/-- ALERT_N is asserted exactly while an event is pending and the holdoff timer does not run (R184); a filled record stands
beside its pending event (R178, R179); STRAY's ports stand beside STRAY (R176); only events are pending and only
enable-controlled events have enables (R174). -/
def EventUnit.Sound (eu : EventUnit) : Prop :=
  eu.alert = (eu.anyPending && eu.holdoff.isNone)
    ∧ (∀ r, eu.faultRecord = some r → eu.pending &&& r.kind.bit ≠ 0)
    ∧ (eu.linkFaultRecord ≠ none → eu.pending &&& 0x040 ≠ 0)
    ∧ (eu.strayPorts ≠ 0 → eu.pending &&& 0x080 ≠ 0)
    ∧ eu.pending &&& ~~~eventBits = 0
    ∧ eu.enables &&& ~~~enableBits = 0

/-- The state's Event Unit is sound. -/
def State.EventsSound (s : State) : Prop := s.eu.Sound

/-! ## Credits -/

/-- While the ULC is UP, the credits granted and not yet used, the requests in the ingress FIFO and the credits on their way
to the ULC number 16; in DOWN and READY no credits are outstanding and the response queue is empty; the FIFO is empty in
DOWN, and in READY unless the IQ has the link loss still to take (R1, R4; log 5). The FIFO holds at most 16 requests, and at
most 15 while the Control Unit has one in hand, which is what READ STATUS counts (R19, R163). -/
def State.CreditsBalance (s : State) : Prop :=
  (s.ulc.state = .up → s.ulc.credits + s.iq.fifo.length + s.mail.creditReturns = 16)
    ∧ (s.ulc.state ≠ .up → s.ulc.credits = 0 ∧ s.ulc.awaiting = 0 ∧ s.ulc.queue = [] ∧ s.ulc.tx = none)
    ∧ (s.ulc.state = .down → s.iq.fifo = [])
    ∧ (s.ulc.state = .ready → s.iq.fifo = [] ∨ s.mail.loss.iq = true)
    ∧ (s.ulc.state ≠ .ready → s.mail.loss.iq = false)
    ∧ s.iq.fifo.length + s.cu.taking.toList.length ≤ 16

/-- The count of credits awaiting return is part of the credit count (R4). -/
def State.AwaitingIsGranted (s : State) : Prop := s.ulc.awaiting ≤ s.ulc.credits

/-- The initiator keeps to the credits announced to it: a packet that arrives uses a credit that does not still await return,
or finds none at all, and the packets that wait behind a request in hand have each a credit that does not await return (R4,
log 23). -/
def State.FrontArrivalIsCredited (s : State) : Prop :=
  (∀ frame rest, s.pending = .packetArrival frame :: rest → s.ulc.awaiting < s.ulc.credits ∨ s.ulc.credits = 0)
    ∧ (s.mail.arrivals ≠ [] → s.ulc.awaiting + s.mail.arrivals.length ≤ s.ulc.credits)

/-! ## Plans -/

/-- Every window entry of a bank is well formed (R38) and the counter of an EMPTY entry is 0 (R52). -/
def Bank.Sound (b : Bank) : Prop :=
  ∀ i : WindowIx, (b.windows.get i).wellFormed = true ∧ (b.windows.get i = .empty → b.hits.get i = 0)

/-- Both banks are sound. -/
def State.PlansSound (s : State) : Prop := s.ps.bankA.Sound ∧ s.ps.bankB.Sound

/-! ## Ports -/

/-- A port record is sound, `strike` being its strike flag (R81, R82, R83, R96, R105). A PARKED port holds nothing that an abort can
reach: every slot FREE and nothing queued (R82, R107). -/
def Port.Sound (q : Port) (strike : Bool) : Prop :=
  (q.state ≠ .active → ∀ i, q.slots.get i = .free)
    ∧ (q.state.inService = false ∨ q.state = .parked → q.egress = [])
    ∧ q.egress.length ≤ 8
    ∧ (q.cause ≠ none ↔ q.state = .quarantined)
    ∧ (q.wake ≠ none ↔ q.state = .waking)
    ∧ (q.idle ≠ none ↔ q.idles strike = true)
    ∧ (1 ≤ q.responseTimeout ∧ q.responseTimeout ≤ 65535)
    ∧ (1 ≤ q.wakeTimeout ∧ q.wakeTimeout ≤ 4095)
    ∧ q.idlePark ≤ 65535

/-- Every port is sound; an auto-enable flag is set only for a DISABLED T0 (R193); a strike is never on its way to the Event
Unit, which takes it in the step that reports it (R177). -/
def State.PortsSound (s : State) : Prop :=
  (∀ p, (s.port p).Sound (s.strikeFlag p))
    ∧ (∀ p, (s.port p).autoEnable = true → p = 0 ∧ (s.port p).state = .disabled)
    ∧ ∀ p, Occurrence.strike p ∉ s.mail.occurrences

/-! ## Tags -/

/-- The tags of the requests the part holds: in the ingress FIFO, passed to the Control Unit, in the OTT, awaiting a control
reply, awaiting the OTT's abort with their ABORTED answer (log 12), or in the response queue (R21). -/
def State.heldTags (s : State) : List Tag :=
  s.iq.fifo.map (·.tag) ++ s.cu.taking.toList.map (·.tag) ++ s.ott.map (·.tag) ++ s.cu.held.map (·.tag)
    ++ s.mail.answers.map (·.tag) ++ s.ulc.queue.map (·.tag)

/-- No two requests held bear the same tag; while the ULC is UP the tags held are those of the tag-in-use set, which holds no tag
twice, so that a tag in use belongs to a request that stands in some block or to its answer in the response queue (R8, R21). A link
loss is on its way to a block only in READY, and the blocks that have taken it hold nothing (R1, R2, R32). ABORTED answers wait
only for the abort of the RESET FULL that made them, in UP (R172; log 12). -/
def State.TagsHeldOnce (s : State) : Prop :=
  s.heldTags.Nodup
    ∧ s.iq.tags.Nodup
    ∧ (s.ulc.state = .up → (∀ t ∈ s.heldTags, t ∈ s.iq.tags) ∧ ∀ t ∈ s.iq.tags, t ∈ s.heldTags)
    ∧ (s.ulc.state = .down → s.heldTags = [] ∧ s.iq.tags = [])
    ∧ (s.ulc.state ≠ .up → s.ulc.queue = [] ∧ s.mail.answers = [])
    ∧ (s.mail.answers ≠ [] → AbortSource.resetFull ∈ s.mail.aborts)
    ∧ (s.ulc.state ≠ .ready → s.mail.loss.any = false)
    ∧ (s.ulc.state = .ready → s.mail.loss.iq = false →
        s.iq.fifo = [] ∧ s.iq.tags = [] ∧ (s.mail.loss.ott = false → s.ott = [])
          ∧ (s.mail.loss.controlUnit = false → s.cu.taking = none ∧ s.cu.held = []))

/-! ## Generations -/

/-- Every OTT entry carries the generation of the active plan (R111, R137); the OTT is empty from the end of a RESET FULL's
abort, or the assertion of a reset, until start-up completes (R134, R135); in a held condition the ULC is DOWN, the FIFO is
empty and no start-up runs (R189). -/
def State.GenerationsCurrent (s : State) : Prop :=
  (∀ e ∈ s.ott, e.generation = s.ps.generation)
    ∧ (s.rs.full = .ready ∨ s.rs.state = .starting ∨ s.rs.held ≠ none → s.ott = [])
    ∧ (s.rs.held ≠ none → s.ulc.state = .down ∧ s.iq.fifo = [] ∧ s.rs.state = .running)

/-- The admission gate is HELD throughout a drain, and as long as an abort that the Plan Store has requested is on its way
(R22, R147, R148; log 24). In a drain with the OTT empty a report of that is on its way, so that the drain ends however the last
entry left (R120, R149). -/
def State.DrainHoldsGate (s : State) : Prop :=
  (∀ m e d o t, s.ps.op = .draining m e d o t → s.iq.gate = .held)
    ∧ (AbortSource.planStore ∈ s.mail.aborts → s.iq.gate = .held)
    ∧ (∀ m e d o t, s.ps.op = .draining m e d o t → s.ott = [] → s.mail.emptyReports ≠ 0)

/-! ## A control request as it is taken, the head as it is attempted -/

/-- The Control Unit takes the control request of tag `t` now: it has been passed to it, and the credits of the requests that
have left the FIFO have been returned (R158), and no packet has arrived since. -/
def State.Takes (s : State) (t : Tag) (payload : List Byte) : Prop :=
  s.cu.taking = some ⟨t, payload⟩ ∧ s.mail.creditReturns = 0 ∧ s.mail.arrivals = []

/-- The state in which the Control Unit has the request in hand and has done nothing with it yet. -/
def State.inHand (s : State) : State := { s with cu := { s.cu with taking := none } }

/-- The attempt event at position `k` of those on their way attempts the head: it matches the head condition, start-up holds
nothing back, and the Control Unit has no request still to take (R23, log 6). -/
def State.AttemptsHead (s : State) (k : Nat) : Prop :=
  s.cu.taking = none ∧ s.startHold = false
    ∧ ∃ e rest, takeAt k s.mail.attempts = some (e, rest) ∧ e.attempts s.iq.cond = true

/-! ## What becomes of copies at a port -/

/-- `i` is the lowest-numbered FREE slot of the port (R86). -/
def Port.LowestFree (q : Port) (i : SlotId) : Prop := q.slots.get i = .free ∧ ∀ j, j < i → q.slots.get j ≠ .free

/-- From `s` to `u` one copy, of tag `t`, has been placed at the port `p`, with no reissue waiting there (R30, R83, R126). A
WAKING port keeps it at the tail of its FIFO, and so does an ACTIVE one with no slot FREE. A PARKED port starts its wake: wake
request, wake timer, report to the IQ; with the link UP the wake completes at once (R99). An ACTIVE port sends the copy on its
lowest FREE slot, with the deadline at the response timeout, and counts it; `request` is the downstream request that then
goes out on that slot (R18, R86). -/
def State.Places (s u : State) (p : PortId) (t : Tag) (request : SlotId → Output) : Prop :=
  let q := s.port p
  let new := u.wire.drop s.wire.length
  (q.state = .waking → u.port p = { q with egress := q.egress ++ [t], idle := none })
    ∧ (q.state = .active → (∀ i, q.slots.get i ≠ .free) → u.port p = { q with egress := q.egress ++ [t], idle := none })
    ∧ (q.state = .parked → s.pins.link.get p = false →
        u.port p = { q with state := .waking, wake := some q.wakeTimeout, egress := q.egress ++ [t], idle := none }
        ∧ Output.wake p ∈ new ∧ AttemptEvent.portChanged p ∈ u.mail.attempts)
    ∧ ∀ i, q.LowestFree i → q.egress = [] →
        let sending : Port :=
          { q with slots := q.slots.set i.val (.inFlight t q.responseTimeout) i.isLt, copiesSent := satInc q.copiesSent,
                   idle := none }
        (q.state = .active → u.port p = sending ∧ request i ∈ new)
        ∧ (q.state = .parked → s.pins.link.get p = true →
            u.port p = { sending with state := .active, wake := none } ∧ Output.wake p ∈ new ∧ request i ∈ new
            ∧ AttemptEvent.portChanged p ∈ u.mail.attempts)

/-- The port held a copy of the entry of tag `x`, queued or in flight. -/
def Port.Held (q : Port) (x : Tag) : Prop := x ∈ q.egress ∨ ∃ i d, q.slots.get i = .inFlight x d

/-- From `s` to `u` the port `p` has left service, and what it held has failed with PORT_DOWN (R94, R104, R128): every copy it
held, but for one of tag `but` that has failed of itself, is PORT_DOWN wherever its entry still stands; a SINGLE entry does
not stand but is answered PORT_DOWN (R117); no claim on the port remains. -/
def State.LetsGo (s u : State) (p : PortId) (but : Option Tag) : Prop :=
  (∀ x, some x ≠ but → (s.port p).Held x →
    (∀ e ∈ u.ott, e.tag = x → ∀ c ∈ e.copies, c.port = p → c.state = .portDown)
    ∧ ∀ e, s.entry? x = some e → e.modeClass = .single →
        (∀ y ∈ u.ott, y.tag ≠ x)
        ∧ (s.ulc.state = .up → ⟨e.kind.response, x, .portDown, 0, []⟩ ∈ u.ulc.queue.drop s.ulc.queue.length))
  ∧ u.claims p = []

/-- From `s` to `u` the acts of `failed` have been carried out one after another, in some order: `some (x, o)` is the outcome `o`
of the copy at the port `p` of the entry of tag `x`; `none` is the oldest claim on the port given up, its copy PORT_DOWN
(R94, R114, R115, R128; log 4). -/
def State.FailsInTurn (s u : State) (p : PortId) (failed : List (Option (Tag × CopyState))) : Prop :=
  ∃ acts : List (Option (Tag × CopyState)), acts.Perm failed
    ∧ u = acts.foldl (fun a act =>
        match act with
        | some (x, o) => a.outcome x p o []
        | none =>
          match a.claims p with
          | x :: _ => a.outcome x p .portDown []
          | [] => a) s

/-- What the port `p`, with the tag slots `slots`, lets go when it leaves service, as acts of `State.FailsInTurn`: each copy queued
there and each copy in flight fails with PORT_DOWN, and each claim on it is given up (R94, R104, R128). -/
def State.letGoActs (s : State) (p : PortId) (slots : Vector Slot 16) : List (Option (Tag × CopyState)) :=
  (s.port p).egress.map (fun x => some (x, .portDown))
    ++ slots.toList.filterMap (fun slot => match slot with | .inFlight x _ => some (some (x, .portDown)) | _ => none)
    ++ List.replicate (s.claims p).length none

/-! ## The records and conditions of a window -/

/-- The conditions of a well-formed LOADED window (R38), those of its mode (R63, R68, R72, R76) and the range limit (R78). -/
def Window.Conditions (w : Window) : Prop :=
  let units := w.limit.toNat + 1 - w.base.toNat
  let size := units * 4096
  w.base.toNat ≤ w.limit.toNat
    ∧ (∀ m, w.mask = some m → ∀ i, m.getLsbD i = true → w.base.getLsbD i = false ∧ w.limit.getLsbD i = false)
    ∧ match w.mode with
      | .direct port target fallback => fallback ≠ some port ∧ target.toNat * 4096 + size - 1 ≤ 0xFFFFFFFFF
      | .paged start count =>
        w.base.toNat % 4 = 0 ∧ units % 4 = 0 ∧ 1 ≤ count ∧ count ≤ 256 ∧ start.val + count ≤ 256 ∧ size ≤ count * 16384
      | .interleaved members stride target =>
        (members.length = 2 ∨ members.length = 4 ∨ members.length = 8) ∧ members.Nodup
          ∧ size % (stride.bytes * members.length) = 0 ∧ target.toNat * 4096 + size / members.length - 1 ≤ 0xFFFFFFFFF
      | .mirrored members target =>
        2 ≤ members.length ∧ members.length ≤ 4 ∧ members.Nodup ∧ target.toNat * 4096 + size - 1 ≤ 0xFFFFFFFFF

/-- What a window entry record of 32 bytes carries (R14): no entry where the state, the mode or a policy is outside the listed
codes (note 3), EMPTY whatever the other bytes (R38 note 3), or a LOADED window, field by field. -/
def RecordCarries (record : List Byte) (entry : Option WindowEntry) : Prop :=
  let b : Nat → Nat := fun k => (record.getD k 0).toNat
  let unit : Nat → Nat := fun k => b k + 256 * b (k + 1) + 65536 * b (k + 2)
  match entry with
  | none => 1 < b 0 ∨ (b 0 = 1 ∧ (3 < b 1 ∨ 1 < b 2 % 4 ∨ b 2 / 16 % 4 = 3))
  | some .empty => b 0 = 0
  | some (.loaded w) =>
    b 0 = 1 ∧ w.base.toNat = unit 4 ∧ w.limit.toNat = unit 7
      ∧ w.mask.map (·.toNat) = (if b 3 % 2 = 1 then some (unit 10) else none)
      ∧ [ReadPolicy.allow, .refuse][b 2 % 4]? = some w.readPolicy
      ∧ [WritePolicy.allow, .refuse, .discard][b 2 / 16 % 4]? = some w.writePolicy
      ∧ match w.mode with
        | .direct port target fallback =>
          b 1 = 0 ∧ port.val = b 16 % 8 ∧ target.toNat = unit 13
            ∧ fallback.map (·.val) = (if 128 ≤ b 17 then some (b 17 % 8) else none)
        | .paged start count => b 1 = 1 ∧ start.val = b 16 ∧ count = b 17 + 1
        | .interleaved members stride target =>
          b 1 = 2 ∧ members.length = b 16 % 16 ∧ (∀ k m, members[k]? = some m → m.val = b (18 + k) % 8)
            ∧ [256, 1024, 4096, 16384][b 17 % 4]? = some stride.bytes ∧ target.toNat = unit 13
        | .mirrored members target =>
          b 1 = 3 ∧ members.length = b 16 % 16 ∧ (∀ k m, members[k]? = some m → m.val = b (18 + k) % 8)
            ∧ target.toNat = unit 13

/-- Only the port records, the OTT, the ULC, the output lines and what is on its way may differ. -/
def State.OnlyDataPath (s t : State) : Prop :=
  t = { s with ulc := t.ulc, ott := t.ott, ports := t.ports, mail := t.mail, wire := t.wire }

end Sys2Proof.Machine
end

