-- ==== Sys2Proof/Certificates/Slice0/Obligations.lean ====
section
/-! DEFINITION. The statements for the provers, in the order of OBLIGATIONS.json. Commands are written by their constructor;
`s.Takes t payload` says that the Control Unit takes the request of tag `t` now, and `s.inHand` is the state in which it has it
in hand. -/

section Statements

open Sys2Proof Sys2Proof.Machine

/-! ## The machine -/

/-- A step of a queue with `c` at its front is `exec c` on the state with the queue's rest; on an empty queue the part idles
(the model's choice, log 1). -/
def Obligations.StepTakesFrontCommand : Prop :=
  (∀ (c : Instr) (rest : List Instr) (s : State), s.pending = c :: rest → step s = exec c { s with pending := rest })
    ∧ ∀ s : State, s.pending = [] → step s = .next s

/-- Every command has a next state in every state, and leaves the queue alone. That a command whose event cannot occur
leaves the state as it is, rather than stop, is the model's choice (log 2). -/
def Obligations.EveryCommandCompletes : Prop :=
  ∀ (c : Instr) (s : State), ∃ t, exec c s = .next t ∧ t.pending = s.pending

/-- The state after reset is the held condition of a power-on reset (R189): that condition in force and no start-up in
progress, ULC DOWN, FIFO, tags, OTT and held-reply list empty, the OTT's report of that on its way (R134), ports holding
nothing, nothing pending and ALERT_N released; a POWER_ON there changes nothing; and every invariant holds of it. That it is
this moment and not a later one is the model's choice (log 7). -/
def Obligations.ResetIsTheHeldCondition : Prop :=
  State.reset.rs.held = some .powerOn ∧ State.reset.rs.state = .running ∧ State.reset.rs.full = .none
    ∧ State.reset.mail = { Mail.none with emptyReports := 1 } ∧ exec .powerOn State.reset = .next State.reset
    ∧ State.reset.ulc = ⟨.down, 0, 0, [], none⟩ ∧ State.reset.iq = ⟨[], [], .opened, .noHead⟩ ∧ State.reset.ott = []
    ∧ State.reset.cu = ⟨none, []⟩ ∧ State.reset.ps.op = .idle
    ∧ (∀ p, (State.reset.port p).egress = [] ∧ ∀ i, (State.reset.port p).slots.get i = .free)
    ∧ State.reset.eu.anyPending = false ∧ State.reset.eu.alert = false ∧ State.reset.pending = []
    ∧ State.reset.EventsSound ∧ State.reset.CreditsBalance ∧ State.reset.AwaitingIsGranted ∧ State.reset.PlansSound
    ∧ State.reset.PortsSound ∧ State.reset.TagsHeldOnce ∧ State.reset.GenerationsCurrent ∧ State.reset.DrainHoldsGate

/-! ## Invariants -/

/-- Every step keeps the Event Unit sound: ALERT_N asserted exactly while an event is pending and no holdoff runs, records
only beside their pending events. That nothing is pending in a held condition is the model's reading (log 8). -/
def Obligations.StepKeepsEventsSound : Prop :=
  ∀ s t : State, s.EventsSound → step s = .next t → t.EventsSound

/-- Every step keeps the balance of credits: in UP, credits, FIFO and returns on their way number 16; the FIFO holds at most 16
requests, and at most 15 beside a request that the Control Unit has in hand. That returned credits may be on their way, and that
packets wait behind a request in hand, are the model's readings (log 5, log 6). -/
def Obligations.StepKeepsCreditsBalance : Prop :=
  ∀ s t : State, s.CreditsBalance → step s = .next t → t.CreditsBalance

/-- While the initiator keeps to the credits announced to it, every step keeps the count awaiting return within the credit
count. The premise on arrivals is the model's reading (log 23). -/
def Obligations.StepKeepsAwaitingGranted : Prop :=
  ∀ s t : State, s.AwaitingIsGranted → s.FrontArrivalIsCredited → step s = .next t → t.AwaitingIsGranted

/-- Every step keeps every LOADED window of both banks well formed and every EMPTY window's counter 0. -/
def Obligations.StepKeepsPlansSound : Prop :=
  ∀ s t : State, s.PlansSound → step s = .next t → t.PlansSound

/-- Every step keeps the ports sound: no more than 8 copies queued, slots FREE outside ACTIVE, nothing queued out of
service nor at a PARKED port, timers running exactly in their conditions, timeouts in range, auto-enable only for a DISABLED T0. The values in a
held condition are the model's (log 7, log 8). -/
def Obligations.StepKeepsPortsSound : Prop :=
  ∀ s t : State, s.PlansSound → s.PortsSound → step s = .next t → t.PortsSound

/-- Every step keeps the tags apart and every request held: no two requests held by the part bear the same tag, and in UP the tags
held are exactly those of the tag-in-use set, from the request's arrival until its response has been sent (R8, R10, R20, R21): no
request is taken out of every block without an answer in the response queue. The interleaving of the blocks is the model's (log 3, log
6, log 12). -/
def Obligations.StepKeepsTagsHeldOnce : Prop :=
  ∀ s t : State, s.TagsHeldOnce → step s = .next t → t.TagsHeldOnce

/-- Every step keeps every OTT entry at the active generation, and the gate HELD throughout a drain and as long as an abort
that the Plan Store has requested is on its way; and in a drain with the OTT empty a report of that is on its way to the Plan Store,
whether the last entry left by completing or by an abort (R120, R149). That a stale empty report ends no drain (log 10) and that such an abort is
taken before the gate opens (log 24) are the model's readings. -/
def Obligations.StepKeepsGenerationsCurrent : Prop :=
  ∀ s t : State, s.GenerationsCurrent → s.DrainHoldsGate → step s = .next t → t.GenerationsCurrent ∧ t.DrainHoldsGate

/-! ## Resets and start-up -/

/-- POWER_ON and RESET_N_ASSERT bring every block to its held condition and leave the banks, the timebase and the reset
cause record as they were. POWER_ON gives the power-on held condition, and so does a RESET_N assertion during one (log
21); any other RESET_N assertion gives the pin's (R189). The OTT reports itself empty, and no other report is on its way (R134;
log 11). What the ports and the Event Unit hold meanwhile is the model's reading (log 8). -/
def Obligations.AssertionHoldsEveryBlock : Prop :=
  ∀ (s : State) (c : Instr), c = .powerOn ∨ c = .resetNAssert →
    ∃ t, exec c s = .next t
      ∧ t.ulc = ⟨.down, 0, 0, [], none⟩ ∧ t.iq = ⟨[], [], .opened, .noHead⟩ ∧ t.ott = [] ∧ t.cu = ⟨none, []⟩
      ∧ t.ps = { s.ps with op := .idle }
      ∧ (∀ p, (t.port p).egress = [] ∧ (∀ i, (t.port p).slots.get i = .free) ∧ (t.port p).idle = none
          ∧ (t.port p).wake = none)
      ∧ t.eu.alert = false
      ∧ t.rs.state = .running ∧ t.rs.full = .none ∧ t.rs.held ≠ none
      ∧ (c = .powerOn → t.rs.held = some .powerOn)
      ∧ (c = .resetNAssert → t.rs.held = some (if s.rs.held = some .powerOn then .powerOn else .pin))
      ∧ t.mail = { Mail.none with emptyReports := 1 }
      ∧ t.rs.lastCause = s.rs.lastCause ∧ t.rs.previousCause = s.rs.previousCause ∧ t.rs.resetCount = s.rs.resetCount
      ∧ t.tb = s.tb ∧ t.wire = s.wire ∧ t.pins.link = s.pins.link ∧ t.pins.carrier = s.pins.carrier

/-- START_UP, from a held condition or after a RESET FULL whose answers and abort are done: the reset cause record changes
by R190, PLAN_SEL is sampled (unless the RESET sampled it), and both banks are cleared. PLAN_SEL's level is the command's
operand (log 13), hit reports on their way are void (log 11), and that the clearing is done in this step is the model's reading
(log 21). -/
def Obligations.StartUpRecordsTheCause : Prop :=
  ∀ (s : State) (sel : PlanSel) (cause : ResetCause),
    (s.rs.held = some .powerOn ∧ cause = .powerOn) ∨ (s.rs.held = some .pin ∧ cause = .pin)
        ∨ (s.rs.held = none ∧ s.rs.full = .ready ∧ cause = .command) →
    ∃ t, exec (.startUp sel) s = .next t
      ∧ t.rs.state = .starting ∧ t.rs.held = none ∧ t.rs.full = .none
      ∧ t.rs.sample = (if cause = .command then s.rs.sample else sel)
      ∧ t.rs.lastCause = cause
      ∧ t.rs.previousCause = (if cause = .powerOn then none else some s.rs.lastCause)
      ∧ t.rs.resetCount.toNat = (if cause = .powerOn then 0 else min 255 (s.rs.resetCount.toNat + 1))
      ∧ (∀ k i, (t.ps.bank k).windows.get i = .empty ∧ (t.ps.bank k).hits.get i = 0)
      ∧ (∀ k i, (t.ps.bank k).pages.get i = .absent)
      ∧ t.mail.hitReports = []
      ∧ t.pins.link = s.pins.link ∧ t.pins.carrier = s.pins.carrier
      ∧ t = { s with pins := t.pins, ps := t.ps, rs := t.rs, mail := t.mail }

/-- START_UP_COMPLETE: ports, Event Unit, timebase, Plan Store and gate at their start values, the start plan loaded,
RESET_DONE pending with ALERT_N asserted, and the ULC up from DOWN if the carrier is present. Steps 3 to 7 are taken in one
step (log 3). -/
def Obligations.StartUpCompleteSetsEveryBlock : Prop :=
  ∀ s : State, s.rs.state = .starting →
    let fresh : Port :=
      { state := .disabled, cause := none, responseTimeout := 250, wakeTimeout := 64, idlePark := 0, egress := [],
        slots := .replicate 16 .free, idle := none, wake := none, copiesSent := 0, timeouts := 0, strays := 0,
        targetErrors := 0, autoEnable := false }
    ∃ t, exec .startUpComplete s = .next t
      ∧ t.rs = { s.rs with state := .running }
      ∧ t.eu = { pending := 1, strikes := 0, quarantines := 0, strayPorts := 0, enables := 0x7C, faultRecord := none,
                 linkFaultRecord := none, holdoffSetting := 16, holdoff := none, alert := true }
      ∧ t.tb = ⟨3, none⟩
      ∧ t.ps.active = .a ∧ t.ps.generation = 0 ∧ t.ps.op = .idle ∧ t.ps.drainTimeout = 1250 ∧ t.ps.bankB = s.ps.bankB
      ∧ t.iq = { s.iq with gate := .opened }
      ∧ AttemptEvent.startUpComplete ∈ t.mail.attempts
      ∧ (∀ p, p ≠ 0 → t.port p = fresh)
      ∧ (s.rs.sample = .empty → t.port 0 = fresh ∧ t.ps.bankA = s.ps.bankA)
      ∧ (s.rs.sample = .pass →
          t.ps.bankA.windows.get 0 = .loaded { base := 0, limit := 0xFFFFFF, mask := none, readPolicy := .allow,
                                               writePolicy := .allow, mode := .direct 0 0 none }
          ∧ t.ps.bankA.hits.get 0 = 0
          ∧ (∀ i, i ≠ 0 → t.ps.bankA.windows.get i = s.ps.bankA.windows.get i)
          ∧ t.ps.bankA.pages = s.ps.bankA.pages
          ∧ (s.pins.link.get 0 = true → t.port 0 = { fresh with state := .active })
          ∧ (s.pins.link.get 0 = false → t.port 0 = { fresh with autoEnable := true }))
      ∧ (s.ulc.state = .down → s.pins.carrier = true →
          t.ulc.state = .up ∧ t.ulc.credits = 16 ∧ t.ulc.awaiting = 0 ∧ t.ulc.tx = some .linkStart)
      ∧ (s.ulc.state = .down → s.pins.carrier = false → t.ulc = { s.ulc with state := .ready })
      ∧ (s.ulc.state ≠ .down → t.ulc = s.ulc)
      ∧ t.ott = s.ott ∧ t.cu = s.cu ∧ t.wire = s.wire ∧ t.pins = s.pins

/-! ## The upstream link -/

/-- CARRIER_GAINED and CARRIER_LOST in each ULC state (R1, R2). In READY a carrier is acted on once every block has taken a
link loss, which for a drain means its swap (R2, R32, R155; log 26). What is void at LINK START is the model's reading (log
11), and so is an event that changes nothing (log 13). -/
def Obligations.CarrierChangesLinkState : Prop :=
  ∀ s : State,
    (s.ulc.state = .down →
      exec .carrierGained s = .next { s with pins := { s.pins with carrier := true } }
      ∧ exec .carrierLost s = .next { s with pins := { s.pins with carrier := false } })
    ∧ (s.ulc.state = .ready → exec .carrierLost s = .next { s with pins := { s.pins with carrier := false } })
    ∧ (s.ulc.state = .ready → s.pins.carrier = false → s.mail.loss.any = false → s.ps.op.drains = false →
        exec .carrierGained s = .next { s with
          pins := { s.pins with carrier := true }
          ulc := { s.ulc with state := .up, credits := 16, awaiting := 0, tx := some .linkStart }
          mail := { s.mail with creditReturns := 0, ends := [] } })
    ∧ (s.ulc.state = .ready → s.pins.carrier = false → s.mail.loss.any = true ∨ s.ps.op.drains = true →
        exec .carrierGained s = .next { s with pins := { s.pins with carrier := true } })
    ∧ (s.ulc.state = .up → exec .carrierGained s = .next { s with pins := { s.pins with carrier := true } })
    ∧ (s.ulc.state = .up →
        exec .carrierLost s = .next { s with
          pins := { s.pins with carrier := false }
          ulc := ⟨.ready, 0, 0, [], none⟩
          eu := { s.eu with pending := s.eu.pending ||| 2, alert := s.eu.holdoff.isNone }
          mail := { s.mail with answers := [], loss := { s.mail.loss with iq := true } } })

/-- What each block does when it takes the link loss: the IQ empties its FIFO and its tags and lets the others be signalled,
the Plan Store owes no reply, the Control Unit drops its held replies, every WAKING port returns to PARKED, or has its return still to
take if copies wait there for the loss's abort (R107, log 27). A carrier that
is PRESENT in READY is acted on at the moment the last block takes the loss, whichever it is; with a drain in progress it is
acted on at the swap, so that the link comes up with the gate OPEN, the new bank active and the new generation in force (R2,
R32, R108, R155, R173). That the Control Unit first takes a request passed to it (log 6), that attempt events on their way to
the IQ are void (log 11), and that the drain's swap is waited for (log 26) are the model's readings. -/
def Obligations.LossTakenByEachBlock : Prop :=
  (∀ s : State,
    (s.mail.loss.iq = true → s.cu.taking ≠ none → exec .linkLossIq s = .next s)
    ∧ (s.mail.loss.iq = true → s.cu.taking = none →
      exec .linkLossIq s = .next { s with
        iq := ⟨[], [], s.iq.gate, .noHead⟩
        mail := { s.mail with
          attempts := [], aborts := s.mail.aborts ++ [.linkLoss],
          loss := { iq := false, ott := true, planStore := true, controlUnit := true, ports := true } } })
    ∧ (s.mail.loss.planStore = true →
        ∃ t, exec .linkLossPlanStore s = .next t ∧ t.ps = { s.ps with op := s.ps.op.oweNothing }
          ∧ t.mail.loss = { s.mail.loss with planStore := false } ∧ t = { s with ps := t.ps, ulc := t.ulc, mail := t.mail })
    ∧ (s.mail.loss.controlUnit = true → s.cu.taking = none →
        ∃ t, exec .linkLossControlUnit s = .next t ∧ t.cu = ⟨none, []⟩
          ∧ t.mail.loss = { s.mail.loss with controlUnit := false }
          ∧ t = { s with cu := t.cu, ulc := t.ulc, mail := t.mail })
    ∧ (s.mail.loss.ports = true →
        ∃ t, exec .linkLossPorts s = .next t
          ∧ (∀ p, t.port p = if (s.port p).state = .waking ∧ (s.port p).egress = [] ∧ s.claims p = [] then
                { s.port p with state := .parked, wake := none } else s.port p)
          ∧ (∀ p, t.port p ≠ s.port p → AttemptEvent.portChanged p ∈ t.mail.attempts)
          ∧ (∀ p, p ∈ t.mail.returns ↔ p ∈ s.mail.returns
              ∨ ((s.port p).state = .waking ∧ ((s.port p).egress ≠ [] ∨ s.claims p ≠ [])))
          ∧ t.mail.loss = { s.mail.loss with ports := false }
          ∧ t = { s with ports := t.ports, ulc := t.ulc, mail := t.mail }))
  ∧ (∀ (s : State) (c : Instr), s.ulc.state = .ready → s.pins.carrier = true →
    (c = .linkLossPlanStore ∧ s.mail.loss = ⟨false, false, true, false, false⟩)
      ∨ (c = .linkLossControlUnit ∧ s.mail.loss = ⟨false, false, false, true, false⟩ ∧ s.cu.taking = none)
      ∨ (c = .linkLossPorts ∧ s.mail.loss = ⟨false, false, false, false, true⟩)
      ∨ ((∃ order, c = .ottAbort ⟨0, order⟩) ∧ s.mail.loss = ⟨false, true, false, false, false⟩ ∧ s.mail.aborts = [.linkLoss]) →
    ∃ t, exec c s = .next t
      ∧ (s.ps.op.drains = false →
          t.ulc.state = .up ∧ t.ulc.credits = 16 ∧ t.ulc.awaiting = 0 ∧ t.ulc.tx = some .linkStart)
      ∧ (s.ps.op.drains = true → t.ulc = s.ulc ∧ t.mail.loss.any = false ∧ t.ps.op.drains = true))
  ∧ ∀ (s : State) (m : SwitchMode) (e : Bool) (d : Option Nat) (o : Bool) (x : Tag),
    s.ulc.state = .ready → s.pins.carrier = true → s.mail.loss.any = false → s.ps.op = .draining m e d o x → s.ott = [] →
    s.mail.emptyReports ≠ 0 →
    ∃ t, exec .ottEmptyReport s = .next t
      ∧ t.ulc.state = .up ∧ t.ulc.credits = 16 ∧ t.ulc.awaiting = 0 ∧ t.ulc.tx = some .linkStart
      ∧ t.iq.gate = .opened ∧ t.ps = { s.ps with active := s.ps.active.other, generation := s.ps.generation + 1, op := .idle }

/-- PACKET_ARRIVAL and PACKET_DISCARD_NOT_UP (R1, R5, R20). A packet that arrives in DOWN or READY changes nothing; an
overrun takes no credit; a malformed packet and a tag clash give their credit back, which awaits return; each of these three
reports its LINK_FAULT. A well-formed request with a free tag takes a credit and joins the FIFO at its tail, its tag in use;
at an empty FIFO it becomes the head, which waits in START_WAIT while start-up is due and is otherwise to be attempted. A
packet that arrives while the Control Unit has a request in hand is taken right behind that request (R24; log 6). That a new
head is to be attempted is held as the condition `fresh` (log 20); reports are taken in steps of their own (log 3). -/
def Obligations.PacketArrivalChecks : Prop :=
  (∀ (s : State) (frame : List Byte),
    (s.ulc.state ≠ .up → exec (.packetDiscardNotUp frame) s = .next s ∧ exec (.packetArrival frame) s = .next s)
    ∧ (s.ulc.state = .up → s.cu.taking ≠ none →
        exec (.packetArrival frame) s = .next { s with mail := { s.mail with arrivals := s.mail.arrivals ++ [frame] } })
    ∧ (∀ (c : Instr) (t : Tag) (payload : List Byte) (u : State),
        s.Takes t payload → exec c s = .next u → u.cu.taking = none →
        exec c { s with mail := { s.mail with arrivals := [frame] } } = exec (.packetArrival frame) u)
    ∧ (s.ulc.state = .up → s.cu.taking = none → s.underReset = false →
        (s.ulc.credits = 0 →
          exec (.packetArrival frame) s = .next { s with mail := { s.mail with
            occurrences := s.mail.occurrences
              ++ [.linkFault .overrun none ((frameTag frame).map fun t => t.setWidth 8)] } })
        ∧ ∀ (kind : LinkFaultKind) (tag : Option Tag),
            (parseFrame frame = none ∧ kind = .malformedUpstream ∧ tag = frameTag frame)
              ∨ (∃ r, parseFrame frame = some r ∧ r.tag ∈ s.iq.tags ∧ kind = .tagClash ∧ tag = some r.tag) →
            s.ulc.credits ≠ 0 →
            exec (.packetArrival frame) s = .next { s with
              ulc := if s.ulc.tx = none then { s.ulc with awaiting := 0, tx := some (.credit (s.ulc.awaiting + 1)) }
                     else { s.ulc with awaiting := s.ulc.awaiting + 1 }
              mail := { s.mail with
                occurrences := s.mail.occurrences ++ [.linkFault kind none (tag.map fun t => t.setWidth 8)] } }))
  ∧ ∀ (s : State) (frame : List Byte) (r : Request), s.ulc.state = .up → s.cu.taking = none → s.ulc.credits ≠ 0 →
    parseFrame frame = some r → r.tag ∉ s.iq.tags →
    ∃ t, exec (.packetArrival frame) s = .next t
      ∧ t.ulc = { s.ulc with credits := s.ulc.credits - 1 }
      ∧ t.iq.fifo = s.iq.fifo ++ [r] ∧ t.iq.tags = r.tag :: s.iq.tags ∧ t.iq.gate = s.iq.gate
      ∧ (s.iq.fifo ≠ [] → t.iq.cond = s.iq.cond ∧ t.mail = s.mail)
      ∧ (s.iq.fifo = [] → s.startHold = true → t.iq.cond = .startWait ∧ t.mail = s.mail)
      ∧ (s.iq.fifo = [] → s.startHold = false → t.iq.cond = .fresh ∧ AttemptEvent.newHead ∈ t.mail.attempts)
      ∧ t = { s with ulc := t.ulc, iq := t.iq, mail := t.mail }

/-- The form check reads the header of R11 and refuses by R6: a frame of a wrong length or another kind is malformed; a READ
holds no data; a WRITE holds as many bytes as its length says, up to 256; a CONTROL holds 1 to 160. -/
def Obligations.FormCheckReadsTheHeader : Prop :=
  (∀ frame : List Byte, frame.length < 12 ∨ 268 < frame.length ∨ (frame[0]? ≠ some 1 ∧ frame[0]? ≠ some 2 ∧ frame[0]? ≠ some 3) →
    parseFrame frame = none)
  ∧ ∀ (kind : Byte) (tag : Tag) (length : Nat) (a : Addr) (rest : List Byte), length < 65536 →
      let frame := [kind, tag.setWidth 8] ++ leBytes 2 length ++ leBytes 5 a.toNat ++ [0, 0, 0] ++ rest
      (kind = 1 → parseFrame frame = if rest = [] then some ⟨tag, .memory .read a length []⟩ else none)
      ∧ (kind = 2 →
          parseFrame frame = if rest.length = length ∧ length ≤ 256 then some ⟨tag, .memory .write a length rest⟩ else none)
      ∧ (kind = 3 →
          parseFrame frame = if rest.length = length ∧ 1 ≤ length ∧ length ≤ 160 then some ⟨tag, .control rest⟩ else none)

/-- CREDIT_RETURN: in UP the credit counts as granted and awaits return, and a free transmitter announces it at once;
outside UP it is dropped. TRANSMIT_DONE in UP: the packet stands whole on UL_TX; a sent response leaves the queue and its
tag the tag-in-use set; the transmitter takes a CREDIT packet with the whole count awaiting return, else the next response,
else it is free (R7, R9, R10, R12). Packets sent stand on `wire` (log 14). -/
def Obligations.CreditReturnAndTransmitDone : Prop :=
  (∀ s : State, s.mail.creditReturns ≠ 0 →
    exec .creditReturn s = .next { s with
      mail := { s.mail with creditReturns := s.mail.creditReturns - 1 }
      ulc :=
        if s.ulc.state = .up then
          if s.ulc.tx = none then
            { s.ulc with credits := s.ulc.credits + 1, awaiting := 0, tx := some (.credit (s.ulc.awaiting + 1)) }
          else { s.ulc with credits := s.ulc.credits + 1, awaiting := s.ulc.awaiting + 1 }
        else s.ulc })
  ∧ ∀ (s : State) (p : TxPacket) (rest : List Response) (sent : List Byte), s.ulc.state = .up → s.ulc.tx = some p →
    (p = .linkStart ∧ rest = s.ulc.queue ∧ sent = [0xC0, 0, 16, 0, 0, 0, 0, 0])
      ∨ (∃ n, p = .credit n ∧ rest = s.ulc.queue ∧ sent = [0xC1, 0, BitVec.ofNat 8 n, 0, 0, 0, 0, 0])
      ∨ (∃ r, p = .response ∧ s.ulc.queue = r :: rest ∧ sent = r.bytes) →
    exec .transmitDone s = .next { s with
      wire := s.wire ++ [.upstream sent]
      ulc :=
        { s.ulc with
          queue := rest
          awaiting := 0
          tx := if s.ulc.awaiting ≠ 0 then some (.credit s.ulc.awaiting)
                else if rest ≠ [] then some .response else none }
      iq :=
        { s.iq with
          tags := if p = .response then s.iq.tags.filter (fun x => some x ≠ (s.ulc.queue.head?.map (·.tag))) else s.iq.tags } }

/-- A reply joins the response queue at its tail in UP, with the event summary of this moment, and is discarded otherwise; a
free transmitter takes a CREDIT packet first if credits await return (R8, R9, R10, R160, R161). -/
def Obligations.ReplyJoinsTheQueue : Prop :=
  ∀ (s : State) (t : Tag) (st : Status) (contents : List Byte),
    (s.ulc.state ≠ .up → s.reply t st contents = s)
    ∧ (s.ulc.state = .up →
        ∃ u : Ulc, s.reply t st contents = { s with ulc := u }
          ∧ u.queue = s.ulc.queue ++ [⟨.control, t, st, s.eu.summary, contents⟩]
          ∧ u.state = .up ∧ u.credits = s.ulc.credits
          ∧ (s.ulc.tx ≠ none → u.tx = s.ulc.tx ∧ u.awaiting = s.ulc.awaiting)
          ∧ (s.ulc.tx = none → s.ulc.awaiting = 0 → u.tx = some .response ∧ u.awaiting = 0)
          ∧ (s.ulc.tx = none → s.ulc.awaiting ≠ 0 → u.tx = some (.credit s.ulc.awaiting) ∧ u.awaiting = 0))
    ∧ (s.eu.summary.getLsbD 0 = (s.eu.pending.getLsbD 0 || s.eu.pending.getLsbD 1)
        ∧ s.eu.summary.getLsbD 1
            = (s.eu.pending.getLsbD 2 || s.eu.pending.getLsbD 3 || s.eu.pending.getLsbD 4 || s.eu.pending.getLsbD 5)
        ∧ s.eu.summary.getLsbD 2 = (s.eu.pending.getLsbD 7 || s.eu.strikes != 0 || s.eu.quarantines != 0)
        ∧ s.eu.summary.getLsbD 3 = s.eu.pending.getLsbD 6
        ∧ s.eu.summary.getLsbD 4 = (s.eu.pending.getLsbD 8 || s.eu.pending.getLsbD 9))

/-! ## The head of the ingress FIFO -/

/-- HEAD_ATTEMPT of a CONTROL request: it leaves the FIFO with its credit, keeps its tag, and is passed to the Control Unit
whether the gate is OPEN or HELD; the next request becomes the head. The order of the credit is the command's operand (log
5), the hand-over is a step of its own (log 6), and the next head stands in the condition `fresh` with its attempt on its way
(log 20). -/
def Obligations.HeadControlPassed : Prop :=
  ∀ (s : State) (k : Nat) (credit : CreditPath) (t : Tag) (payload : List Byte) (rest : List Request),
    s.AttemptsHead k → s.iq.fifo = ⟨t, .control payload⟩ :: rest →
    ∃ u, exec (.headAttempt k credit) s = .next u
      ∧ u.cu = { s.cu with taking := some ⟨t, payload⟩ }
      ∧ u.iq.fifo = rest ∧ u.iq.tags = s.iq.tags ∧ u.iq.gate = s.iq.gate
      ∧ (rest = [] → u.iq.cond = .noHead) ∧ (rest ≠ [] → u.iq.cond = .fresh ∧ AttemptEvent.newHead ∈ u.mail.attempts)
      ∧ u.ulc = (s.returnCredits credit 1).ulc
      ∧ u.mail.creditReturns = (s.returnCredits credit 1).mail.creditReturns
      ∧ u.mail.hitReports = s.mail.hitReports ∧ u.mail.occurrences = s.mail.occurrences
      ∧ u = { s with ulc := u.ulc, iq := u.iq, cu := u.cu, mail := u.mail }

/-- HEAD_ATTEMPT that ends in GATE_WAIT or SPACE_WAIT records nothing (R29); the gate is the first step (R25). -/
def Obligations.HeadWaitRecordsNothing : Prop :=
  ∀ (s : State) (k : Nat) (credit : CreditPath) (t : Tag) (kind : MemKind) (a : Addr) (length : Nat) (data : List Byte)
    (rest : List Request) (c : HeadCond),
    s.AttemptsHead k → s.iq.fifo = ⟨t, .memory kind a length data⟩ :: rest →
    (s.iq.gate = .held → s.decideMemory kind a length = .wait .gateWait)
    ∧ (s.decideMemory kind a length = .wait c →
        (c = .gateWait ∧ s.iq.gate = .held ∨ c = .spaceWait ∧ s.iq.gate = .opened)
        ∧ exec (.headAttempt k credit) s = .next { s with
            iq := { s.iq with cond := c }, mail := { s.mail with attempts := s.mail.attempts.eraseIdx k } })

/-- HEAD_ATTEMPT that answers a memory request: it leaves the FIFO with its credit, a response of its kind with its tag and
no data is placed, the named window's hit is reported and the refusal is reported with its contents; no entry is made and
nothing goes to a port (R27). The order of the credit is the command's operand (log 5). -/
def Obligations.HeadAnsweredLeaves : Prop :=
  ∀ (s : State) (k : Nat) (credit : CreditPath) (t : Tag) (kind : MemKind) (a : Addr) (length : Nat) (data : List Byte)
    (rest : List Request) (st : Status) (w : Option WindowIx) (ev : Option FaultKind),
    s.AttemptsHead k → s.iq.fifo = ⟨t, .memory kind a length data⟩ :: rest →
    s.decideMemory kind a length = .answer st w ev →
    ∃ u, exec (.headAttempt k credit) s = .next u
      ∧ u.iq.fifo = rest ∧ u.iq.tags = s.iq.tags ∧ u.iq.gate = s.iq.gate
      ∧ u.ulc = ((s.returnCredits credit 1).place ⟨kind.response, t, st, 0, []⟩).ulc
      ∧ u.mail.creditReturns = (s.returnCredits credit 1).mail.creditReturns
      ∧ u.mail.hitReports = s.mail.hitReports ++ w.toList.map (HitReport.mk s.ps.active)
      ∧ (s.underReset = false →
          u.mail.occurrences = s.mail.occurrences
            ++ ev.toList.map fun f => Occurrence.refused f kind t a w s.ps.generation)
      ∧ u = { s with ulc := u.ulc, iq := u.iq, mail := u.mail }

/-- HEAD_ATTEMPT that admits a memory request: it leaves the FIFO with its credit and becomes the youngest OTT entry, with
its fields and its copies as resolved; its hit is reported (R30, R113). Each copy takes a place in its port's egress FIFO, at
the tail; a PARKED port starts its wake; an ACTIVE port with a FREE slot sends the copy at once, as a downstream request with
the copy's target address, the length and the write data (R18, R83, R86, R99). The entry records each copy as it then stands,
QUEUED or SENT on that slot. A port that none of the copies names is left alone. The order of the credit is the command's
operand (log 5). -/
def Obligations.HeadAdmittedBecomesAnEntry : Prop :=
  ∀ (s : State) (k : Nat) (credit : CreditPath) (t : Tag) (kind : MemKind) (a : Addr) (length : Nat) (data : List Byte)
    (rest : List Request) (i : WindowIx) (cls : ModeClass) (cs : List Copy) (skipped : List PortId),
    s.AttemptsHead k → s.iq.fifo = ⟨t, .memory kind a length data⟩ :: rest →
    s.decideMemory kind a length = .takeIn i cls cs skipped →
    ∃ u e, exec (.headAttempt k credit) s = .next u
      ∧ u.iq.fifo = rest ∧ u.iq.tags = s.iq.tags ∧ u.iq.gate = s.iq.gate
      ∧ u.ott.map (·.tag) = s.ott.map (·.tag) ++ [t] ∧ u.ott.getLast? = some e
      ∧ e.kind = kind ∧ e.length = length ∧ e.window = i ∧ e.generation = s.ps.generation ∧ e.modeClass = cls
      ∧ e.skipped = skipped ∧ e.readData = none ∧ e.writeData = data
      ∧ e.copies.map (fun c => (c.port, c.target, c.position)) = cs.map (fun c => (c.port, c.target, c.position))
      ∧ (∀ c ∈ e.copies, c.state = .queued ∨ c.state = .sent)
      ∧ (∀ p, p ∉ cs.map (·.port) → u.port p = s.port p)
      ∧ ((cs.map (·.port)).Nodup → (∀ x ∈ s.ott, x.tag ≠ t) → ∀ c ∈ cs, s.claims c.port = [] →
          s.Places u c.port t (fun slot => .downstream c.port kind slot c.target length data)
          ∧ ∀ d ∈ e.copies, d.port = c.port →
              ((s.port c.port).state = .waking → d.state = .queued)
              ∧ ∀ slot, (s.port c.port).LowestFree slot → (s.port c.port).egress = [] → (s.port c.port).state = .active →
                  d.state = .sent ∧ d.slot = some slot)
      ∧ u.mail.hitReports = s.mail.hitReports ++ [⟨s.ps.active, i⟩]
      ∧ u.ulc = (s.returnCredits credit 1).ulc
      ∧ u.mail.creditReturns = (s.returnCredits credit 1).mail.creditReturns
      ∧ u.mail.occurrences = s.mail.occurrences
      ∧ u = { s with ulc := u.ulc, iq := u.iq, ott := u.ott, ports := u.ports, mail := u.mail, wire := u.wire }

/-- With the gate OPEN a request is answered BAD_REQUEST, with no window and no event, exactly when its length is 0 or over
256 or its range crosses a 256-byte-aligned boundary; behind a HELD gate every request waits, whatever its length; a request
that passes lies within the address space (R26). -/
def Obligations.RequestChecks : Prop :=
  ∀ (s : State) (kind : MemKind) (a : Addr) (length : Nat),
    (s.iq.gate = .opened →
      (s.decideMemory kind a length = .answer .badRequest none none
        ↔ length = 0 ∨ 256 < length ∨ 256 < a.toNat % 256 + length)
      ∧ (∀ w ev, s.decideMemory kind a length = .answer .badRequest w ev → w = none ∧ ev = none))
    ∧ (s.iq.gate = .held → s.decideMemory kind a length = .wait .gateWait)
    ∧ (¬ (length = 0 ∨ 256 < length ∨ 256 < a.toNat % 256 + length) → a.toNat + length ≤ 2 ^ 36)

/-- A request that passes the gate and the checks is answered NO_WINDOW with a MISS if no window contains it; else its own
policy decides before any port is looked at: REFUSE answers PROTECTED and DISCARD answers OK, each with a PROTECT; ALLOW
goes on to the mode, whose copies must each find an egress place (R25, R45 to R49). -/
def Obligations.AttemptFollowsThePolicy : Prop :=
  ∀ (s : State) (kind : MemKind) (a : Addr) (length : Nat), s.iq.gate = .opened → badRequest a length = false →
    (s.ps.activeBank.lookup a = none → s.decideMemory kind a length = .answer .noWindow none (some .miss))
    ∧ ∀ i w, s.ps.activeBank.lookup a = some (i, w) →
        (kind = .read → w.readPolicy = .refuse →
          s.decideMemory kind a length = .answer .accessProtected (some i) (some .protect))
        ∧ (kind = .write → w.writePolicy = .refuse →
            s.decideMemory kind a length = .answer .accessProtected (some i) (some .protect))
        ∧ (kind = .write → w.writePolicy = .discard →
            s.decideMemory kind a length = .answer .ok (some i) (some .protect))
        ∧ ((kind = .read ∧ w.readPolicy = .allow) ∨ (kind = .write ∧ w.writePolicy = .allow) →
            s.decideMemory kind a length =
              match s.resolve w kind a with
              | .notMapped => .answer .notMapped (some i) (some .notMapped)
              | .portDown => .answer .portDown (some i) none
              | .copies cls cs skipped =>
                if ∀ c ∈ cs, (s.port c.port).egress.length + (s.claims c.port).length < 8 then .takeIn i cls cs skipped
                else .wait .spaceWait)

/-- The matching window is the LOADED entry of lowest index that contains the address, and there is none exactly when no
entry contains it (R42, R43). -/
def Obligations.LookupTakesTheFirstMatch : Prop :=
  ∀ (b : Bank) (a : Addr),
    (∀ i w, b.lookup a = some (i, w) ↔
      b.windows.get i = .loaded w ∧ w.contains a = true ∧ ∀ j, j < i → (b.windows.get j).contains a = false)
    ∧ (b.lookup a = none ↔ ∀ j, (b.windows.get j).contains a = false)

/-- A window compares the unit of the address with its masked bits cleared; bits 0 to 11 are never masked; addresses that
differ only in masked bits are contained alike, at the same offset (R37, R39, R40). -/
def Obligations.MaskComparesTheMaskedUnit : Prop :=
  ∀ (w : Window) (a b : Addr),
    unitOf (w.maskedAddr a) = unitOf a &&& ~~~(w.mask.getD 0)
    ∧ (w.maskedAddr a).toNat % 4096 = a.toNat % 4096
    ∧ (unitOf a).toNat = a.toNat / 4096
    ∧ (w.contains a = true ↔
        w.base.toNat ≤ (unitOf a &&& ~~~(w.mask.getD 0)).toNat ∧ (unitOf a &&& ~~~(w.mask.getD 0)).toNat ≤ w.limit.toNat)
    ∧ (a.toNat % 4096 = b.toNat % 4096 → unitOf a &&& ~~~(w.mask.getD 0) = unitOf b &&& ~~~(w.mask.getD 0) →
        w.contains a = w.contains b ∧ w.offset a = w.offset b)

/-- A mask that is present with no bit set compares as no mask does, and its record keeps it present with its bits zero
(R41). -/
def Obligations.EmptyMaskActsAsNone : Prop :=
  ∀ (w : Window) (a : Addr),
    ({ w with mask := some 0 } : Window).contains a = ({ w with mask := none } : Window).contains a
    ∧ ({ w with mask := some 0 } : Window).maskedAddr a = a
    ∧ ((WindowEntry.loaded { w with mask := some 0 }).record)[3]? = some 1
    ∧ (((WindowEntry.loaded { w with mask := some 0 }).record).drop 10).take 3 = [0, 0, 0]
    ∧ ((WindowEntry.loaded { w with mask := none }).record)[3]? = some 0

/-- A DIRECT window: its port if in service, else its fallback if present and in service, at the same target address, else
PORT_DOWN (R61). -/
def Obligations.DirectResolution : Prop :=
  ∀ (s : State) (w : Window) (kind : MemKind) (a : Addr) (p : PortId) (base : UnitNo) (f : Option PortId),
    w.mode = .direct p base f →
    let target : Addr := BitVec.ofNat 36 (base.toNat * 4096 + w.offset a)
    ((s.port p).state.inService = true → s.resolve w kind a = .copies .single [⟨p, target, none, .queued, none⟩] [])
    ∧ ((s.port p).state.inService = false → ∀ q, f = some q → (s.port q).state.inService = true →
        s.resolve w kind a = .copies .single [⟨q, target, none, .queued, none⟩] [])
    ∧ ((s.port p).state.inService = false → (f = none ∨ ∃ q, f = some q ∧ (s.port q).state.inService = false) →
        s.resolve w kind a = .portDown)

/-- A PAGED window: the page entry at page start plus offset divided by 16 KiB, in the active bank; ABSENT answers
NOT_MAPPED whatever the ports, PRESENT gives one copy or PORT_DOWN (R66, R67). -/
def Obligations.PagedResolution : Prop :=
  ∀ (s : State) (w : Window) (kind : MemKind) (a : Addr) (start : PageIx) (count : Nat) (i : PageIx),
    w.mode = .paged start count → i.val = start.val + w.offset a / 16384 →
    (s.ps.activeBank.pages.get i = .absent → s.resolve w kind a = .notMapped)
    ∧ ∀ p page, s.ps.activeBank.pages.get i = .present p page →
        ((s.port p).state.inService = true →
          s.resolve w kind a =
            .copies .single [⟨p, BitVec.ofNat 36 (page.toNat * 16384 + w.offset a % 16384), none, .queued, none⟩] [])
        ∧ ((s.port p).state.inService = false → s.resolve w kind a = .portDown)

/-- An INTERLEAVED window: the member at block index modulo the member count, at the block's place in its share; PORT_DOWN
if that member is out of service, whatever the others (R70, R71). -/
def Obligations.InterleavedResolution : Prop :=
  ∀ (s : State) (w : Window) (kind : MemKind) (a : Addr) (ms : List PortId) (st : Stride) (base : UnitNo) (p : PortId),
    w.mode = .interleaved ms st base → ms[w.offset a / st.bytes % ms.length]? = some p →
    ((s.port p).state.inService = true →
      s.resolve w kind a = .copies .single
        [⟨p, BitVec.ofNat 36 (base.toNat * 4096
            + (w.offset a / st.bytes / ms.length * st.bytes + w.offset a % st.bytes)), none, .queued, none⟩] [])
    ∧ ((s.port p).state.inService = false → s.resolve w kind a = .portDown)

/-- A MIRRORED window: a write goes to every member in service, in member order, and the others are skipped; a read goes to
the first member in service; PORT_DOWN if there is none (R73, R74). -/
def Obligations.MirroredResolution : Prop :=
  ∀ (s : State) (w : Window) (a : Addr) (ms : List PortId) (base : UnitNo),
    w.mode = .mirrored ms base → ms.length ≤ 4 →
    let up : PortId → Bool := fun p => (s.port p).state.inService
    let target : Addr := BitVec.ofNat 36 (base.toNat * 4096 + w.offset a)
    ((∀ p ∈ ms, up p = false) → s.resolve w .write a = .portDown ∧ s.resolve w .read a = .portDown)
    ∧ ((∃ p ∈ ms, up p = true) →
        (∃ cs, s.resolve w .write a = .copies .mirrorWrite cs (ms.filter fun p => !up p)
          ∧ cs.map (·.port) = ms.filter up
          ∧ ∀ c ∈ cs, c.target = target ∧ c.state = .queued ∧ c.slot = none
              ∧ ∃ j : Fin 4, c.position = some j ∧ ms[j.val]? = some c.port)
        ∧ ∃ (j : Fin 4) (p : PortId), ms[j.val]? = some p ∧ up p = true ∧ (∀ q ∈ ms.take j.val, up q = false)
            ∧ s.resolve w .read a = .copies .mirrorRead [⟨p, target, some j, .queued, none⟩] [])

/-- Under a well-formed window that contains the address, the offset lies within the window, and every mode's translation
stays within the target address space: the 36-bit target address is the sum the rule gives, for a PAGED window that of the
PRESENT page entry its offset names (R59, R64, R66, R78). -/
def Obligations.TranslationStaysInRange : Prop :=
  ∀ (s : State) (w : Window) (kind : MemKind) (a : Addr) (cls : ModeClass) (cs : List Copy) (skipped : List PortId),
    w.wellFormed = true → w.contains a = true →
    (w.maskedAddr a).toNat = w.base.toNat * 4096 + w.offset a ∧ w.offset a < w.size
    ∧ (s.resolve w kind a = .copies cls cs skipped → ∀ c ∈ cs,
        match w.mode with
        | .direct _ base _ | .mirrored _ base => c.target.toNat = base.toNat * 4096 + w.offset a
        | .paged start _ =>
          ∃ (i : PageIx) (page : PageNo), i.val = start.val + w.offset a / 16384
            ∧ s.ps.activeBank.pages.get i = .present c.port page
            ∧ c.target.toNat = page.toNat * 16384 + w.offset a % 16384
        | .interleaved ms st base =>
          c.target.toNat = base.toNat * 4096
            + (w.offset a / st.bytes / ms.length * st.bytes + w.offset a % st.bytes))

/-- HIT_REPORT: the counter of the named window of the named bank rises by one, held at its maximum, if the entry is LOADED
when the report is taken; otherwise the report is dropped; no other counter, entry or block changes (R51, R52). -/
def Obligations.HitReportCounts : Prop :=
  ∀ (s : State) (k : Nat) (h : HitReport) (rest : List HitReport), takeAt k s.mail.hitReports = some (h, rest) →
    ∃ t, exec (.hitReport k) s = .next t
      ∧ t = { s with ps := t.ps, mail := { s.mail with hitReports := rest } }
      ∧ (∀ w, (s.ps.bank h.bank).windows.get h.window = .loaded w →
          ((t.ps.bank h.bank).hits.get h.window).toNat
            = min 4294967295 (((s.ps.bank h.bank).hits.get h.window).toNat + 1))
      ∧ ((s.ps.bank h.bank).windows.get h.window = .empty → t.ps = s.ps)
      ∧ (∀ x i, (x ≠ h.bank ∨ i ≠ h.window) → (t.ps.bank x).hits.get i = (s.ps.bank x).hits.get i)
      ∧ (∀ x, (t.ps.bank x).windows = (s.ps.bank x).windows ∧ (t.ps.bank x).pages = (s.ps.bank x).pages)
      ∧ t.ps.active = s.ps.active ∧ t.ps.generation = s.ps.generation ∧ t.ps.op = s.ps.op

/-! ## Events -/

/-- EVENT_OCCURRENCE: an occurrence that is not captured changes nothing; a captured one sets its pending flag, fills an
empty record or advances its repeat count, joins its port to its set, and asserts ALERT_N unless a holdoff runs. Five events
are captured always, the seven others by their enables (R174 to R179, R184). -/
def Obligations.OccurrenceIsCaptured : Prop :=
  ∀ (s : State) (k : Nat) (o : Occurrence) (rest : List Occurrence), takeAt k s.mail.occurrences = some (o, rest) →
    (s.eu.captures o = false →
      exec (.eventOccurrence k) s = .next { s with mail := { s.mail with occurrences := rest } })
    ∧ (s.eu.captures o = true →
        ∃ eu : EventUnit, exec (.eventOccurrence k) s = .next { s with eu := eu, mail := { s.mail with occurrences := rest } }
          ∧ eu.pending = s.eu.pending ||| o.bit ∧ eu.enables = s.eu.enables ∧ eu.holdoff = s.eu.holdoff
          ∧ eu.holdoffSetting = s.eu.holdoffSetting ∧ eu.alert = s.eu.holdoff.isNone
          ∧ (∀ p, o = .strike p → eu.strikes = s.eu.strikes ||| portBit p)
          ∧ (∀ p, o = .quarantine p → eu.quarantines = s.eu.quarantines ||| portBit p)
          ∧ (∀ p, o = .stray p → eu.strayPorts = s.eu.strayPorts ||| portBit p)
          ∧ (∀ kind request tag addr window generation, o = .refused kind request tag addr window generation →
              (s.eu.faultRecord = none → eu.faultRecord = some ⟨kind, request, tag, addr, window, generation, 0⟩)
              ∧ ∀ r, s.eu.faultRecord = some r →
                  eu.faultRecord = some { r with repeats := if r.repeats = 255 then 255 else r.repeats + 1 })
          ∧ (∀ kind port tag, o = .linkFault kind port tag →
              (s.eu.linkFaultRecord = none → eu.linkFaultRecord = some ⟨kind, port, tag, 0⟩)
              ∧ ∀ r, s.eu.linkFaultRecord = some r →
                  eu.linkFaultRecord = some { r with repeats := if r.repeats = 255 then 255 else r.repeats + 1 })
          ∧ ((∀ kind request tag addr window generation, o ≠ .refused kind request tag addr window generation) →
              eu.faultRecord = s.eu.faultRecord)
          ∧ ((∀ kind port tag, o ≠ .linkFault kind port tag) → eu.linkFaultRecord = s.eu.linkFaultRecord)
          ∧ ((∀ p, o ≠ .strike p) → eu.strikes = s.eu.strikes)
          ∧ ((∀ p, o ≠ .quarantine p) → eu.quarantines = s.eu.quarantines)
          ∧ ((∀ p, o ≠ .stray p) → eu.strayPorts = s.eu.strayPorts))
    ∧ (o = .resetDone ∨ o = .uplinkLoss ∨ o = .switchForced ∨ (∃ p, o = .strike p) ∨ (∃ p, o = .quarantine p) →
        s.eu.captures o = true)
    ∧ (o = .degraded → s.eu.captures o = s.eu.enables.getLsbD 5)
    ∧ (o = .switchDone → s.eu.captures o = s.eu.enables.getLsbD 8)
    ∧ (∀ p, o = .stray p → s.eu.captures o = s.eu.enables.getLsbD 7)
    ∧ (∀ kind port tag, o = .linkFault kind port tag → s.eu.captures o = s.eu.enables.getLsbD 6)
    ∧ (∀ request tag addr window generation,
        (o = .refused .miss request tag addr window generation → s.eu.captures o = s.eu.enables.getLsbD 2)
        ∧ (o = .refused .protect request tag addr window generation → s.eu.captures o = s.eu.enables.getLsbD 3)
        ∧ (o = .refused .notMapped request tag addr window generation → s.eu.captures o = s.eu.enables.getLsbD 4))

/-- SET_EVENT_ENABLES replaces the enables of the seven enable-controlled events and nothing else; SET_HOLDOFF replaces the
setting and leaves a running timer; HOLDOFF_EXPIRY stops the timer and asserts ALERT_N if an event is pending (R181, R183,
R184). An expiry due stands as a timer of 0 (log 9). -/
def Obligations.EventSettings : Prop :=
  ∀ (s : State) (t : Tag) (a b : Byte),
    (s.Takes t [0x40, a, b] →
      exec .setEventEnables s = .next (({ s.inHand with
        eu := { s.eu with enables := BitVec.ofNat 16 (a.toNat + 256 * b.toNat) &&& 0x1FC } } : State).reply t .done []))
    ∧ (s.Takes t [0x42, a] →
        exec .setHoldoff s = .next (({ s.inHand with eu := { s.eu with holdoffSetting := a } } : State).reply t .done []))
    ∧ (s.eu.holdoff = some 0 →
        exec .holdoffExpiry s = .next { s with eu := { s.eu with holdoff := none, alert := s.eu.anyPending } })

/-- CLEAR_EVENTS clears exactly the named events that are pending, with their records and the STRAY port set, and replies
with exactly those; if it cleared any, the holdoff restarts at its setting (none for 0) and ALERT_N follows; if none, timer
and line stay. Of the ports only idle timers may change, and only where a strike was cleared (R182, R183, R184). -/
def Obligations.ClearEventsClearsExactly : Prop :=
  ∀ (s : State) (t : Tag) (b0 b1 b2 b3 : Byte), s.Takes t [0x41, b0, b1, b2, b3] →
    let named : BitVec 16 := BitVec.ofNat 16 (b0.toNat + 256 * b1.toNat) &&& 0x3FF
    let cleared : BitVec 16 := s.eu.pending &&& named
    let strikes := s.eu.strikes &&& b2
    let quarantines := s.eu.quarantines &&& b3
    let some_ : Bool := cleared != 0 || strikes != 0 || quarantines != 0
    ∃ u, exec .clearEvents s = .next u
      ∧ u.eu.pending = s.eu.pending &&& ~~~cleared
      ∧ u.eu.strikes = s.eu.strikes &&& ~~~b2 ∧ u.eu.quarantines = s.eu.quarantines &&& ~~~b3
      ∧ u.eu.strayPorts = (if cleared.getLsbD 7 then 0 else s.eu.strayPorts)
      ∧ u.eu.linkFaultRecord = (if cleared.getLsbD 6 then none else s.eu.linkFaultRecord)
      ∧ u.eu.faultRecord = s.eu.faultRecord.filter (fun r => cleared &&& r.kind.bit == 0)
      ∧ u.eu.enables = s.eu.enables ∧ u.eu.holdoffSetting = s.eu.holdoffSetting
      ∧ u.eu.holdoff = (if some_ then (if s.eu.holdoffSetting = 0 then none else some s.eu.holdoffSetting.toNat)
                        else s.eu.holdoff)
      ∧ u.eu.alert = (if some_ then u.eu.anyPending && u.eu.holdoff.isNone else s.eu.alert)
      ∧ u.ulc = (({ s with eu := u.eu } : State).reply t .done (leBytes 2 cleared.toNat ++ [strikes, quarantines])).ulc
      ∧ (∀ p, u.port p = { s.port p with idle := (u.port p).idle }
          ∧ (strikes.getLsbD p.val = false → u.port p = s.port p))
      ∧ u = { s.inHand with eu := u.eu, ulc := u.ulc, ports := u.ports }

/-! ## Target ports -/

/-- TARGET_RESPONSE that answers a copy in flight at an ACTIVE port: the slot becomes FREE, the copy takes its outcome, and the
port sends what it then can. The outcome is OK with the data for a well-formed OK; TARGET_ERROR, counted, for an ERROR and for
an OK that R18 refuses, which also reports MALFORMED_TARGET; no strike changes (R18, R86, R88). That holds whatever the mode
class of the entry: MirroredWriteMerges and MirroredReadFailsOver say what the outcome then does to a mirrored one (R121, R124).
A SINGLE entry leaves the OTT and is answered so (R117, R119); where a copy waits in the FIFO and no reissue does, its head goes
out at once on the lowest FREE slot, as its entry's downstream request. A WRITE answered with data is malformed whatever the
status (log 15). -/
def Obligations.TargetResponseAnswers : Prop :=
  ∀ (s : State) (p : PortId) (i : SlotId) (status : TargetStatus) (data : List Byte) (t : Tag) (d : Nat),
    (s.port p).state = .active → (s.port p).slots.get i = .inFlight t d → status ≠ .other →
    let malformed : Bool := s.refusesAnswer t (status == .ok) data
    let good : Bool := status == .ok && !malformed
    (∃ s1 : State, exec (.targetResponse p ⟨some i, status, data⟩) s
          = .next ((s1.outcome t p (if good then .ok else .targetError) (if good then data else [])).serve p)
      ∧ s1.port p = { s.port p with
          slots := (s.port p).slots.set i.val .free i.isLt
          targetErrors := if good then (s.port p).targetErrors else satInc (s.port p).targetErrors }
      ∧ (∀ q, q ≠ p → s1.port q = s.port q)
      ∧ s1 = { s with
          ports := s1.ports
          mail := { s.mail with
            occurrences := s.mail.occurrences ++ (if malformed ∧ s.underReset = false then
              [.linkFault .malformedTarget (some p) (some (BitVec.ofNat 8 i.val))] else []) } })
    ∧ (∀ e, s.entry? t = some e →
        (malformed = true ↔ (e.kind = .read ∧ status = .ok ∧ data.length ≠ e.length) ∨ (e.kind = .write ∧ data ≠ [])))
    ∧ ∀ e, s.entry? t = some e → e.modeClass = .single →
    ∃ u, exec (.targetResponse p ⟨some i, status, data⟩) s = .next u
      ∧ u.ulc = (s.respond e.kind t (if good then .ok else .targetError)
          (if good ∧ e.kind = .read then data else [])).ulc
      ∧ (∀ x ∈ u.ott, x.tag ≠ t)
      ∧ u.mail.emptyReports = s.mail.emptyReports + (if u.ott = [] then 1 else 0)
      ∧ (u.port p).targetErrors = (if good then (s.port p).targetErrors else satInc (s.port p).targetErrors)
      ∧ (malformed = true → s.underReset = false →
          Occurrence.linkFault .malformedTarget (some p) (some (BitVec.ofNat 8 i.val)) ∈ u.mail.occurrences)
      ∧ (malformed = false → u.mail.occurrences = s.mail.occurrences)
      ∧ ((s.port p).egress = [] → s.claims p = [] → (u.port p).slots = (s.port p).slots.set i.val .free i.isLt)
      ∧ (∀ x waiting f c j, (s.port p).egress = x :: waiting → s.claims p = [] → x ≠ t → s.entry? x = some f →
          f.copyAt p = some c →
          Port.LowestFree { s.port p with slots := (s.port p).slots.set i.val .free i.isLt } j →
          ∃ more, u.wire = s.wire ++ [.downstream p f.kind j c.target f.length f.writeData] ++ more
            ∧ (waiting = [] →
                more = [] ∧ (u.port p).egress = [] ∧ (u.port p).copiesSent = satInc (s.port p).copiesSent
                ∧ (u.port p).slots = ((s.port p).slots.set i.val .free i.isLt).set j.val
                    (.inFlight x (s.port p).responseTimeout) j.isLt
                ∧ u.entry? x = some (f.setCopy p .sent (some j))))
      ∧ s.OnlyDataPath u

/-- TARGET_RESPONSE that answers no copy: a malformed frame is discarded with a LINK_FAULT and no slot changes; a stray is
counted and reported; an ORPHAN's answer frees its slot silently, with no outcome, event or error counted (R18, R89, R90).
The frame's fields are the model's (log 15). -/
def Obligations.TargetResponseDiscarded : Prop :=
  ∀ (s : State) (p : PortId) (i : SlotId) (status : TargetStatus) (data : List Byte),
    (exec (.targetResponse p ⟨none, status, data⟩) s = .next (s.report (.linkFault .malformedTarget (some p) none)))
    ∧ (exec (.targetResponse p ⟨some i, .other, data⟩) s
        = .next (s.report (.linkFault .malformedTarget (some p) (some (BitVec.ofNat 8 i.val)))))
    ∧ (status ≠ .other → (s.port p).state ≠ .active ∨ (s.port p).slots.get i = .free →
        exec (.targetResponse p ⟨some i, status, data⟩) s
          = .next ((s.setPort p { s.port p with strays := satInc (s.port p).strays }).report (.stray p)))
    ∧ (∀ d, status ≠ .other → (s.port p).state = .active → (s.port p).slots.get i = .orphan d →
        ∃ u, exec (.targetResponse p ⟨some i, status, data⟩) s = .next u
          ∧ u.ulc = s.ulc ∧ u.ott.map (·.tag) = s.ott.map (·.tag) ∧ u.mail.occurrences = s.mail.occurrences
          ∧ (u.port p).strays = (s.port p).strays ∧ (u.port p).targetErrors = (s.port p).targetErrors
          ∧ (u.port p).timeouts = (s.port p).timeouts ∧ (u.port p).state = .active
          ∧ ((s.port p).egress = [] → s.claims p = [] → (u.port p).slots = (s.port p).slots.set i.val .free i.isLt)
          ∧ s.OnlyDataPath u)

/-- A first strike: DEADLINE_EXPIRY with the strike flag clear frees the slot, counts the timeout and sets the flag at once;
the copy takes the outcome TIMEOUT, whatever the mode class of its entry, and the port, which stays ACTIVE, then sends what it
can; an ORPHAN's expiry answers nothing (R87, R92). A SINGLE entry is answered TIMEOUT (R117), the copy of a mirrored write that
waits for others stands as TIMEOUT (R121), and a mirrored read fails over as MirroredReadFailsOver says (R125). With nothing
waiting for the port, and no failover that comes back to it, the slot is FREE after the step and no other slot has changed. An
expiry due stands as a deadline of 0 (log 9); the flag is set in the step itself (log 22). -/
def Obligations.DeadlineFirstStrike : Prop :=
  ∀ (s : State) (p : PortId) (i : SlotId) (order : Order), (s.port p).state = .active → s.strikeFlag p = false →
    (∀ u, exec (.deadlineExpiry p i order) s = .next u →
      (s.port p).slots.get i = .orphan 0 ∨ (∃ t, (s.port p).slots.get i = .inFlight t 0) →
        u.eu.strikes = s.eu.strikes ||| portBit p ∧ u.eu.pending = s.eu.pending ∧ u.strikeFlag p = true
        ∧ (s.eu.holdoff = none → u.eu.alert = true))
    ∧ ((s.port p).slots.get i = .orphan 0 →
        ∃ u, exec (.deadlineExpiry p i order) s = .next u
          ∧ (u.port p).timeouts = satInc (s.port p).timeouts ∧ (u.port p).state = .active ∧ (u.port p).idle = none
          ∧ u.ulc = s.ulc ∧ u.ott.map (·.tag) = s.ott.map (·.tag)
          ∧ ((s.port p).egress = [] → s.claims p = [] → (u.port p).slots = (s.port p).slots.set i.val .free i.isLt)
          ∧ ({ s with eu := u.eu } : State).OnlyDataPath u)
    ∧ (∀ t, (s.port p).slots.get i = .inFlight t 0 →
        ∃ s1 u : State, exec (.deadlineExpiry p i order) s = .next u ∧ u = (s1.outcome t p .timeout []).serve p
          ∧ s1.port p = { s.port p with
              slots := (s.port p).slots.set i.val .free i.isLt, timeouts := satInc (s.port p).timeouts }
          ∧ (∀ q, q ≠ p → s1.port q = s.port q)
          ∧ s1 = { s with ports := s1.ports, eu := s.eu.take (.strike p) }
          ∧ (u.port p).timeouts = satInc (s.port p).timeouts ∧ (u.port p).state = .active ∧ (u.port p).idle = none
          ∧ ({ s with eu := u.eu } : State).OnlyDataPath u
          ∧ ∀ e, s.entry? t = some e → e.modeClass = .mirrorWrite → t ∉ (s.port p).egress →
              ∀ y ∈ u.ott, y.tag = t → ∀ c ∈ y.copies, c.port = p → c.state = .timeout)
    ∧ (∀ t e, (s.port p).slots.get i = .inFlight t 0 → s.entry? t = some e →
        (e.modeClass = .mirrorRead → ∀ c j q n, e.copyAt p = some c → c.position = some j →
          s.nextMember e.window j.val = some (q, n) → q ≠ p) →
        (s.port p).egress = [] → s.claims p = [] →
        ∃ u, exec (.deadlineExpiry p i order) s = .next u
          ∧ u.port p = { s.port p with
              slots := (s.port p).slots.set i.val .free i.isLt, timeouts := satInc (s.port p).timeouts, idle := none })
    ∧ (∀ t e, (s.port p).slots.get i = .inFlight t 0 → s.entry? t = some e → e.modeClass = .single →
        ∃ u, exec (.deadlineExpiry p i order) s = .next u
          ∧ (u.port p).timeouts = satInc (s.port p).timeouts ∧ (u.port p).state = .active ∧ (u.port p).idle = none
          ∧ ((s.port p).egress = [] → s.claims p = [] → (u.port p).slots = (s.port p).slots.set i.val .free i.isLt)
          ∧ u.ulc = (s.respond e.kind t .timeout []).ulc ∧ (∀ x ∈ u.ott, x.tag ≠ t)
          ∧ ({ s with eu := u.eu } : State).OnlyDataPath u)

/-- A second strike, by DEADLINE_EXPIRY in ACTIVE or WAKE_TIMEOUT in WAKING with the strike flag set: the port is
QUARANTINED with cause SECOND_STRIKE, holds nothing, runs no timer and has the timeout counted; PORT_QUARANTINE is reported;
the flag stays set and no request goes out on its lines (R93, R94). The copy whose deadline expired takes the outcome TIMEOUT
(R87), every other copy the port held and every claim on it PORT_DOWN (R94, R128), one after another in an order of the
command's (log 4), whatever the mode classes of their entries; SINGLE entries are answered so (R117), and the copy of a mirrored
write stands so while it waits for others (R121). An expiry due stands as a timer of 0 (log 9). -/
def Obligations.SecondStrikeQuarantines : Prop :=
  ∀ (s : State) (p : PortId) (i : SlotId) (order : Order) (c : Instr), s.strikeFlag p = true →
    (c = .deadlineExpiry p i order
        ∧ ((s.port p).slots.get i = .orphan 0 ∨ ∃ t, (s.port p).slots.get i = .inFlight t 0))
      ∨ (c = .wakeTimeout p order ∧ (s.port p).state = .waking ∧ (s.port p).wake = some 0) →
    ∃ s1 u : State, exec c s = .next u
      ∧ s1.port p = { s.port p with
          state := .quarantined, cause := some .secondStrike, egress := [], slots := .replicate 16 .free, idle := none,
          wake := none, timeouts := satInc (s.port p).timeouts }
      ∧ (∀ q, q ≠ p → s1.port q = s.port q) ∧ s1 = { s with ports := s1.ports, mail := s1.mail }
      ∧ ((c = .wakeTimeout p order ∨ (s.port p).slots.get i = .orphan 0) → s1.FailsInTurn u p (s.letGoActs p (s.port p).slots))
      ∧ (∀ t, c = .deadlineExpiry p i order → (s.port p).slots.get i = .inFlight t 0 →
          s1.FailsInTurn u p (some (t, .timeout) :: s.letGoActs p ((s.port p).slots.set i.val .free i.isLt)))
      ∧ u.port p = { s.port p with
          state := .quarantined, cause := some .secondStrike, egress := [], slots := .replicate 16 .free, idle := none,
          wake := none, timeouts := satInc (s.port p).timeouts }
      ∧ (s.underReset = false → Occurrence.quarantine p ∈ u.mail.occurrences)
      ∧ AttemptEvent.portChanged p ∈ u.mail.attempts
      ∧ u.eu = s.eu ∧ Output.lowPower p ∉ u.wire.drop s.wire.length ∧ Output.wake p ∉ u.wire.drop s.wire.length
      ∧ ((c = .wakeTimeout p order ∨ (s.port p).slots.get i = .orphan 0) → s.LetsGo u p none)
      ∧ (∀ t, c = .deadlineExpiry p i order → (s.port p).slots.get i = .inFlight t 0 →
          s.LetsGo u p (some t)
          ∧ ∀ e, s.entry? t = some e → t ∉ (s.port p).egress → t ∉ s.claims p →
              (∀ j d, j ≠ i → (s.port p).slots.get j ≠ .inFlight t d) →
              (e.modeClass = .single →
                (∀ x ∈ u.ott, x.tag ≠ t)
                ∧ (s.ulc.state = .up → ⟨e.kind.response, t, .timeout, 0, []⟩ ∈ u.ulc.queue.drop s.ulc.queue.length))
              ∧ ∀ y ∈ u.ott, y.tag = t → ∀ c ∈ y.copies, c.port = p → c.state = .timeout)
      ∧ s.OnlyDataPath u

/-- IDLE_TIMEOUT parks the port with a low-power request; WAKE_TIMEOUT with the strike flag clear strikes the port, fails
its queued copies with TIMEOUT and returns it to PARKED (R92, R97, R100). A SINGLE entry queued there is answered TIMEOUT
(R117), the copy of a mirrored write that waits for others stands as TIMEOUT (R121), and each failed copy is an outcome of its
entry, taken in an order of the command's (log 4), before the port is served. With SINGLE entries queued the port is left
PARKED and empty if no reissue waits for it; if some do, the free places go to the eight oldest, which wakes the port again
(R84, R92, R99, R127). An expiry due stands as a timer of 0 (log 9). -/
def Obligations.TimersParkThePort : Prop :=
  ∀ (s : State) (p : PortId) (order : Order),
    ((s.port p).state = .active → (s.port p).idle = some 0 →
      ∃ u, exec (.idleTimeout p) s = .next u
        ∧ u.port p = { s.port p with state := .parked, idle := none } ∧ (∀ q, q ≠ p → u.port q = s.port q)
        ∧ u.wire = s.wire ++ [.lowPower p] ∧ AttemptEvent.portChanged p ∈ u.mail.attempts ∧ u.ulc = s.ulc ∧ u.ott = s.ott
        ∧ s.OnlyDataPath u)
    ∧ ((s.port p).state = .waking → (s.port p).wake = some 0 → s.strikeFlag p = false → s.claims p = [] →
        (∀ t ∈ (s.port p).egress, ∃ e, s.entry? t = some e ∧ e.modeClass = .single) →
        ∃ u, exec (.wakeTimeout p order) s = .next u
          ∧ u.port p = { s.port p with
              state := .parked, wake := none, egress := [], idle := none, timeouts := satInc (s.port p).timeouts }
          ∧ u.eu.strikes = s.eu.strikes ||| portBit p
          ∧ (∀ t ∈ (s.port p).egress, ∀ x ∈ u.ott, x.tag ≠ t)
          ∧ AttemptEvent.portChanged p ∈ u.mail.attempts
          ∧ ({ s with eu := u.eu } : State).OnlyDataPath u)
    ∧ ((s.port p).state = .waking → (s.port p).wake = some 0 → s.strikeFlag p = false →
        ∃ (u s1 : State) (ts : List Tag), exec (.wakeTimeout p order) s = .next u
          ∧ List.Perm ts (s.port p).egress
          ∧ u = (ts.foldl (fun a t => a.outcome t p .timeout []) s1).serve p
          ∧ s1 = { s with ports := s1.ports, eu := s1.eu, mail := s1.mail }
          ∧ s1.port p = { s.port p with
              state := .parked, wake := none, egress := [], timeouts := satInc (s.port p).timeouts }
          ∧ (∀ q, q ≠ p → s1.port q = s.port q)
          ∧ u.eu = s1.eu ∧ s1.eu = s.eu.take (.strike p) ∧ u.strikeFlag p = true
          ∧ AttemptEvent.portChanged p ∈ u.mail.attempts
          ∧ ({ s with eu := u.eu } : State).OnlyDataPath u
          ∧ (∀ x ∈ (s.port p).egress, ∀ e, s.entry? x = some e →
              (e.modeClass = .single →
                (∀ y ∈ u.ott, y.tag ≠ x)
                ∧ (s.ulc.state = .up → ⟨e.kind.response, x, .timeout, 0, []⟩ ∈ u.ulc.queue.drop s.ulc.queue.length))
              ∧ (e.modeClass = .mirrorWrite → x ∉ s.claims p →
                  ∀ y ∈ u.ott, y.tag = x → ∀ c ∈ y.copies, c.port = p → c.state = .timeout))
          ∧ ((∀ x ∈ (s.port p).egress, x ∉ s.claims p ∧ ∃ e, s.entry? x = some e ∧ e.modeClass = .single) →
              (s.ott.map (·.tag)).Nodup → s.pins.link.get p = false → s.claims p ≠ [] →
              u.port p = { s.port p with
                  state := .waking, wake := some (s.port p).wakeTimeout, egress := (s.claims p).take 8, idle := none,
                  timeouts := satInc (s.port p).timeouts }
              ∧ Output.wake p ∈ u.wire.drop s.wire.length))

/-- TARGET_LINK_UP and TARGET_LINK_DOWN in each port state (R95, R100, R193). At a link DOWN an ACTIVE port is QUARANTINED with cause
LINK_LOSS and holds nothing, and no request goes out on its lines; every copy it held and every claim on it then takes the outcome
PORT_DOWN, one after another in an order of the command's (log 4), whatever the mode classes of their entries, and SINGLE entries are
answered so (R94, R117, R121, R125, R128). A WAKING port becomes ACTIVE and sends its queued copies, the oldest first, on its lowest FREE slots (R86,
R100). From the assertion of a power-on or pin reset until start-up completes a link that comes UP moves only the pin, whatever
the port; that the ports stand DISABLED then, so that a link that goes DOWN does no more, is the model's reading (log 8). -/
def Obligations.TargetLinkChanges : Prop :=
  ∀ (s : State) (p : PortId) (order : Order),
    (s.pins.link.get p = false → s.underReset = true → exec (.targetLinkUp p) s = .next (s.setLink p true))
    ∧ (s.pins.link.get p = false → s.underReset = false →
      ((s.port p).state = .active ∨ (s.port p).state = .quarantined
          ∨ ((s.port p).state = .disabled ∧ (s.port p).autoEnable = false) →
        exec (.targetLinkUp p) s = .next (s.setLink p true))
      ∧ ((s.port p).state = .parked → exec (.targetLinkUp p) s = .next ((s.setLink p true).emit (.lowPower p)))
      ∧ ((s.port p).state = .waking →
          ∃ u, exec (.targetLinkUp p) s = .next u ∧ (u.port p).state = .active ∧ (u.port p).wake = none
            ∧ AttemptEvent.portChanged p ∈ u.mail.attempts ∧ u.ulc = s.ulc ∧ u.eu = s.eu
            ∧ (s.setLink p true).OnlyDataPath u
            ∧ (∃ s1 : State, u = s1.serve p ∧ s1.port p = { s.port p with state := .active, wake := none }
                ∧ s1 = { s.setLink p true with ports := s1.ports, mail := s1.mail } ∧ ∀ q, q ≠ p → s1.port q = s.port q)
            ∧ ((∀ i, (s.port p).slots.get i = .free) → (s.port p).egress.length ≤ 8 → s.claims p = [] →
                (∀ x ∈ (s.port p).egress, ∃ e c, s.entry? x = some e ∧ e.copyAt p = some c) →
                (u.port p).egress = []
                ∧ ∃ sent, u.wire = s.wire ++ sent ∧ sent.length = (s.port p).egress.length
                    ∧ ∀ (i : SlotId) (x : Tag), (s.port p).egress[i.val]? = some x →
                        (u.port p).slots.get i = .inFlight x (s.port p).responseTimeout
                        ∧ ∀ e c, s.entry? x = some e → e.copyAt p = some c →
                            sent[i.val]? = some (.downstream p e.kind i c.target e.length e.writeData)))
      ∧ ((s.port p).state = .disabled → (s.port p).autoEnable = true →
          ∃ u, exec (.targetLinkUp p) s = .next u ∧ (u.port p).state = .active ∧ (u.port p).autoEnable = false
            ∧ (u.port p).egress = [] ∧ (∀ i, (u.port p).slots.get i = .free) ∧ u.eu = s.eu
            ∧ AttemptEvent.portChanged p ∈ u.mail.attempts ∧ (s.setLink p true).OnlyDataPath u))
    ∧ (s.pins.link.get p = true →
        ((s.port p).state ≠ .active → exec (.targetLinkDown p order) s = .next (s.setLink p false))
        ∧ ((s.port p).state = .active →
            ∃ s1 u : State, exec (.targetLinkDown p order) s = .next u
              ∧ s1.port p = { s.port p with
                  state := .quarantined, cause := some .linkLoss, egress := [], slots := .replicate 16 .free, idle := none,
                  wake := none }
              ∧ (∀ q, q ≠ p → s1.port q = s.port q)
              ∧ s1 = { s.setLink p false with ports := s1.ports, mail := s1.mail }
              ∧ s1.FailsInTurn u p (s.letGoActs p (s.port p).slots)
              ∧ Output.lowPower p ∉ u.wire.drop s.wire.length ∧ Output.wake p ∉ u.wire.drop s.wire.length
              ∧ u.port p = { s.port p with
                  state := .quarantined, cause := some .linkLoss, egress := [], slots := .replicate 16 .free, idle := none,
                  wake := none }
              ∧ (s.underReset = false → Occurrence.quarantine p ∈ u.mail.occurrences)
              ∧ s.LetsGo u p none
              ∧ AttemptEvent.portChanged p ∈ u.mail.attempts ∧ u.eu = s.eu ∧ (s.setLink p false).OnlyDataPath u))

/-- PORT_ENABLE and PARK_PORT by the port's state and condition, and SET_PORT by its ranges; each that names port 0 clears
T0's auto-enable flag whatever its reply (R98, R102, R103, R105). -/
def Obligations.PortCommands : Prop :=
  ∀ (s : State) (t : Tag) (b : Byte) (p : PortId), b.toNat = p.val →
    let q : Port := if p = 0 then { s.port p with autoEnable := false } else s.port p
    let s1 : State := s.inHand.setPort p q
    (s.Takes t [0x30, b] →
      (q.state.inService = true → exec .portEnable s = .next (s1.reply t .done []))
      ∧ (q.state.inService = false → s.pins.link.get p = false → exec .portEnable s = .next (s1.reply t .linkNotReady []))
      ∧ (q.state.inService = false → s.pins.link.get p = true →
          ∃ u, exec .portEnable s = .next u
            ∧ u.port p = { q with
                state := .active, cause := none, egress := [], slots := .replicate 16 .free, wake := none, autoEnable := false,
                idle := if s.strikeFlag p = false ∧ q.idlePark ≠ 0 then some q.idlePark else none }
            ∧ (∀ x, x ≠ p → u.port x = s.port x) ∧ AttemptEvent.portChanged p ∈ u.mail.attempts
            ∧ u.ulc = (s.reply t .done []).ulc ∧ u.ott = s.ott ∧ s.inHand.OnlyDataPath u))
    ∧ (s.Takes t [0x32, b] →
        (q.state = .active → s.strikeFlag p = true → exec .parkPort s = .next (s1.reply t .pendingEvent []))
        ∧ (q.state = .active → s.strikeFlag p = false → q.holdsNothing = false →
            exec .parkPort s = .next (s1.reply t .portBusy []))
        ∧ (q.state = .active → s.strikeFlag p = false → q.holdsNothing = true →
            ∃ u, exec .parkPort s = .next u ∧ u.port p = { q with state := .parked, idle := none }
              ∧ (∀ x, x ≠ p → u.port x = s.port x) ∧ u.wire = s.wire ++ [.lowPower p]
              ∧ AttemptEvent.portChanged p ∈ u.mail.attempts ∧ u.ulc = (s.reply t .done []).ulc ∧ u.ott = s.ott
              ∧ s.inHand.OnlyDataPath u)
        ∧ (q.state = .parked → exec .parkPort s = .next (s1.reply t .done []))
        ∧ (q.state = .waking → exec .parkPort s = .next (s1.reply t .portBusy []))
        ∧ (q.state.inService = false → exec .parkPort s = .next (s1.reply t .notInService [])))
    ∧ (∀ r0 r1 w0 w1 i0 i1 : Byte, s.Takes t [0x33, b, r0, r1, w0, w1, i0, i1] →
        let response := r0.toNat + 256 * r1.toNat
        let wake := w0.toNat + 256 * w1.toNat
        let idle := i0.toNat + 256 * i1.toNat
        (response = 0 ∨ wake = 0 ∨ 4095 < wake → exec .setPort s = .next (s1.reply t .badArgument []))
        ∧ (1 ≤ response → 1 ≤ wake → wake ≤ 4095 →
            exec .setPort s = .next (((s1.setPort p { q with
              responseTimeout := response, wakeTimeout := wake, idlePark := idle }).settleIdle p).reply t .done [])))

/-- PORT_DISABLE: from DISABLED it only replies; from any other state the port becomes DISABLED and holds nothing, no timer
runs, its cause is absent and no request goes out on its lines; every copy it held and every claim on it then takes the outcome
PORT_DOWN, one after another, whatever the mode classes of their entries, and the DONE reply is placed among them; SINGLE entries are
answered PORT_DOWN (R102, R104, R117, R121, R125, R128). The order of the outcomes and the place of the reply are the command's
operand (log 4). -/
def Obligations.PortDisableTakesOutOfService : Prop :=
  ∀ (s : State) (t : Tag) (b : Byte) (p : PortId) (order : Order), b.toNat = p.val → s.Takes t [0x31, b] →
    let q : Port := if p = 0 then { s.port p with autoEnable := false } else s.port p
    (q.state = .disabled → exec (.portDisable order) s = .next ((s.inHand.setPort p q).reply t .done []))
    ∧ (q.state ≠ .disabled →
        ∃ (s1 mid u : State) (before after : List (Option (Tag × CopyState))), exec (.portDisable order) s = .next u
          ∧ s1.port p = { q with
              state := .disabled, cause := none, egress := [], slots := .replicate 16 .free, idle := none, wake := none }
          ∧ (∀ x, x ≠ p → s1.port x = s.port x) ∧ s1 = { s.inHand with ports := s1.ports, mail := s1.mail }
          ∧ (before ++ after).Perm (s.letGoActs p (s.port p).slots)
          ∧ s1.FailsInTurn mid p before ∧ (mid.reply t .done []).FailsInTurn u p after
          ∧ Output.lowPower p ∉ u.wire.drop s.wire.length ∧ Output.wake p ∉ u.wire.drop s.wire.length
          ∧ u.port p = { q with
              state := .disabled, cause := none, egress := [], slots := .replicate 16 .free, idle := none, wake := none }
          ∧ AttemptEvent.portChanged p ∈ u.mail.attempts
          ∧ (s.ulc.state = .up → ⟨.control, t, .done, s.eu.summary, []⟩ ∈ u.ulc.queue)
          ∧ (∀ x e, s.entry? x = some e → e.modeClass = .single →
              x ∈ q.egress ∨ (∃ i d, q.slots.get i = .inFlight x d) → ∀ y ∈ u.ott, y.tag ≠ x)
          ∧ s.LetsGo u p none
          ∧ u.eu = s.eu ∧ s.inHand.OnlyDataPath u)

/-! ## Time -/

/-- TICK_BOUNDARY takes one tick from every running timer and brings a pending exponent into force, and from the assertion
of a power-on or pin reset until start-up reaches no timer; SET_TIMEBASE sets the pending exponent; SET_PLAN_TIMING replaces
the drain timeout; DRAIN_TIMEOUT escalates the switch and asks for an abort (R150, R153, R187, R188). A timer at 0 waits for
its expiry's own command (log 9). That a boundary under a power-on or pin reset leaves the exponents too is the model's choice
(log 25). -/
def Obligations.TicksAndTimers : Prop :=
  ∀ (s : State) (t : Tag) (a b : Byte),
    (s.underReset = true → exec .tickBoundary s = .next s)
    ∧ (s.underReset = false →
        ∃ u, exec .tickBoundary s = .next u
          ∧ u = { s with ports := u.ports, ps := { s.ps with op := u.ps.op },
                         eu := { s.eu with holdoff := s.eu.holdoff.map (· - 1) }, tb := u.tb }
          ∧ u.tb = ⟨s.tb.pendingExponent.getD s.tb.exponent, none⟩
          ∧ (∀ m e d o x, s.ps.op = .draining m e d o x → u.ps.op = .draining m e (d.map (· - 1)) o x)
          ∧ ((∀ m e d o x, s.ps.op ≠ .draining m e d o x) → u.ps.op = s.ps.op)
          ∧ ∀ p, u.port p = { s.port p with
                idle := (s.port p).idle.map (· - 1), wake := (s.port p).wake.map (· - 1), slots := (u.port p).slots }
              ∧ ∀ i, (u.port p).slots.get i =
                  match (s.port p).slots.get i with
                  | .free => .free
                  | .inFlight x d => .inFlight x (d - 1)
                  | .orphan d => .orphan (d - 1))
    ∧ (s.Takes t [0x50, a] →
        (7 < a.toNat → exec .setTimebase s = .next (s.inHand.reply t .badArgument []))
        ∧ ∀ k : Fin 8, a.toNat = k.val →
            exec .setTimebase s
              = .next (({ s.inHand with tb := { s.tb with pendingExponent := some k } } : State).reply t .done []))
    ∧ (s.Takes t [0x26, a, b] →
        (a = 0 ∧ b = 0 → exec .setPlanTiming s = .next (s.inHand.reply t .badArgument []))
        ∧ (¬ (a = 0 ∧ b = 0) →
            exec .setPlanTiming s = .next (({ s.inHand with
              ps := { s.ps with drainTimeout := a.toNat + 256 * b.toNat } } : State).reply t .done [])))
    ∧ (∀ m e o x, s.ps.op = .draining m e (some 0) o x →
        exec .drainTimeout s = .next { s with
          ps := { s.ps with op := .draining m true none o x }
          mail := { s.mail with aborts := s.mail.aborts ++ [.planStore] } })

/-! ## The OTT -/

/-- OTT_ABORT: every entry is answered ABORTED with no data, in OTT order, and the OTT is left empty and reports so, even if
it was empty before; every IN_FLIGHT slot becomes ORPHAN with its deadline and every egress FIFO is emptied, and a port that a copy
waited for, queued or to be reissued, has its freed places reported to the IQ, so that a head in SPACE_WAIT is attempted again (R28,
R35, R132); a port that had its return to PARKED still to take, and is WAKING, takes it, its wake timer stopped (R108, log 27); no
other port changes its state, and a PARKED one with no claim on it holds nothing that the abort reaches (R107); events, plans and lines
stay; a RESET FULL that waits for the abort may start up (R130 to R132, R172). Answers
of a RESET FULL still to be placed join the response queue in this step, keeping their order, in an order of the command's relative
to the OTT's (R34, R156, R172; log 12). A link loss's abort may also bring the ULC up (LossTakenByEachBlock). -/
def Obligations.AbortAnswersInOrder : Prop :=
  ∀ (s : State) (k : Nat) (order : Order) (a : AbortSource) (rest : List AbortSource),
    takeAt k s.mail.aborts = some (a, rest) →
    let own : List (ResponseKind × Tag) := s.ott.map fun e => (e.kind.response, e.tag)
    let waiting : List (ResponseKind × Tag) := s.mail.answers.map fun r => (r.kind, r.tag)
    let aborted : ResponseKind × Tag → Response := fun r => ⟨r.1, r.2, .aborted, if r.1 = .control then s.eu.summary else 0, []⟩
    ∃ u answers, exec (.ottAbort ⟨k, order⟩) s = .next u
      ∧ u.ott = [] ∧ u.mail.emptyReports = s.mail.emptyReports + 1 ∧ u.mail.aborts = rest ∧ u.mail.answers = []
      ∧ List.Perm answers (own ++ waiting) ∧ List.Sublist own answers ∧ List.Sublist waiting answers
      ∧ (s.ulc.state = .up → u.ulc.queue = s.ulc.queue ++ answers.map aborted)
      ∧ (∀ p, (s.port p).egress ≠ [] ∨ s.claims p ≠ [] → AttemptEvent.placesRose p ∈ u.mail.attempts)
      ∧ u.mail.returns = []
      ∧ (∀ p, (s.port p).Sound (s.strikeFlag p) → (s.port p).state = .parked → u.port p = s.port p)
      ∧ (∀ p, p ∈ s.mail.returns → (s.port p).state = .waking → AttemptEvent.portChanged p ∈ u.mail.attempts)
      ∧ (∀ p, (let returns : Bool := decide (p ∈ s.mail.returns) && (s.port p).state == .waking
            u.port p = { s.port p with
              state := if returns then .parked else (s.port p).state
              wake := if returns then none else (s.port p).wake
              egress := [], slots := (u.port p).slots, idle := (u.port p).idle })
          ∧ ∀ i, (u.port p).slots.get i =
              match (s.port p).slots.get i with
              | .inFlight _ d => .orphan d
              | .orphan d => .orphan d
              | .free => .free)
      ∧ u.eu = s.eu ∧ u.ps = s.ps ∧ u.iq = s.iq ∧ u.cu = s.cu ∧ u.tb = s.tb ∧ u.pins = s.pins ∧ u.wire = s.wire
      ∧ u.mail.occurrences = s.mail.occurrences
      ∧ (a = .resetFull → s.rs.full = .awaitAbort → u.rs = { s.rs with full := .ready })
      ∧ (a ≠ .resetFull → u.rs = s.rs)

/-- A mirrored write takes its status by the first line of R122 that applies, and is answered when its last open copy has
its outcome; until then the outcome is only recorded (R121 to R123). -/
def Obligations.MirroredWriteMerges : Prop :=
  (∀ e : Entry,
    ((∀ c ∈ e.copies, c.state = .ok) → e.skipped = [] → e.mergedStatus = .ok)
    ∧ (¬ ((∀ c ∈ e.copies, c.state = .ok) ∧ e.skipped = []) →
        ((∃ c ∈ e.copies, c.state = .ok) → e.mergedStatus = .okDegraded)
        ∧ ((∀ c ∈ e.copies, c.state ≠ .ok) →
            ((∃ c ∈ e.copies, c.state = .targetError) → e.mergedStatus = .targetError)
            ∧ ((∀ c ∈ e.copies, c.state ≠ .targetError) →
                ((∃ c ∈ e.copies, c.state = .timeout) → e.mergedStatus = .timeout)
                ∧ ((∀ c ∈ e.copies, c.state ≠ .timeout) → e.mergedStatus = .portDown)))))
  ∧ ∀ (s : State) (t : Tag) (p : PortId) (o : CopyState) (data : List Byte) (e : Entry),
      s.entry? t = some e → e.kind = .write → e.modeClass = .mirrorWrite →
      ((∃ c ∈ (e.setCopy p o none).copies, c.state = .queued ∨ c.state = .reissueWait ∨ c.state = .sent) →
        s.outcome t p o data = s.setEntry (e.setCopy p o none))
      ∧ ((∀ c ∈ (e.setCopy p o none).copies, ¬ (c.state = .queued ∨ c.state = .reissueWait ∨ c.state = .sent)) →
          (s.outcome t p o data).ulc = (s.respond .write t (e.setCopy p o none).mergedStatus []).ulc
          ∧ (∀ x ∈ (s.outcome t p o data).ott, x.tag ≠ t)
          ∧ ((e.setCopy p o none).mergedStatus = .okDegraded → s.underReset = false →
              (s.outcome t p o data).mail.occurrences = s.mail.occurrences ++ [.degraded])
          ∧ ((e.setCopy p o none).mergedStatus ≠ .okDegraded →
              (s.outcome t p o data).mail.occurrences = s.mail.occurrences))

/-- A mirrored read whose copy is OK is answered with the data it returned. One whose copy failed with TIMEOUT or PORT_DOWN
moves to the first member after it whose port is in service: it waits there if the FIFO is full or another reissue waits, else
it is placed, and an ACTIVE port with a FREE slot sends it at once; with no such member it completes with the failed copy's
state. A target ERROR ends it (R124 to R126). -/
def Obligations.MirroredReadFailsOver : Prop :=
  ∀ (s : State) (t : Tag) (p : PortId) (o : CopyState) (e : Entry) (c : Copy) (i : Fin 4) (ms : List PortId) (w : Window)
    (base : UnitNo),
    s.entry? t = some e → e.modeClass = .mirrorRead → (e.setCopy p o none).copyAt p = some c → c.position = some i →
    s.ps.activeBank.windows.get e.window = .loaded w → w.mode = .mirrored ms base → ms.length ≤ 4 →
    (o = .targetError →
      (s.outcome t p o []).ulc = (s.respond e.kind t .targetError []).ulc ∧ ∀ x ∈ (s.outcome t p o []).ott, x.tag ≠ t)
    ∧ (o = .ok → e.kind = .read → ∀ data : List Byte,
        (s.outcome t p o data).ulc = (s.respond .read t .ok data).ulc ∧ ∀ x ∈ (s.outcome t p o data).ott, x.tag ≠ t)
    ∧ (o = .timeout ∨ o = .portDown →
        ((∀ q ∈ ms.drop (i.val + 1), (s.port q).state.inService = false) →
          (s.outcome t p o []).ulc = (s.respond e.kind t o.status []).ulc
          ∧ ∀ x ∈ (s.outcome t p o []).ott, x.tag ≠ t)
        ∧ ∀ (j : Fin 4) (q : PortId), i.val < j.val → ms[j.val]? = some q → (s.port q).state.inService = true →
            (∀ m : Nat, i.val < m → m < j.val → ∀ x, ms[m]? = some x → (s.port x).state.inService = false) →
            (s.outcome t p o []).ulc = s.ulc
            ∧ ((s.port q).egress.length = 8 ∨ (∃ x ∈ s.claims q, x ≠ t) →
                s.outcome t p o [] = (s.setEntry { e.setCopy p o none with
                  copies := (e.setCopy p o none).copies ++ [⟨q, c.target, some j, .reissueWait, none⟩] }))
            ∧ ((s.port q).egress.length < 8 → s.claims q = [] → (∀ d ∈ e.copies, d.port ≠ q) →
                s.Places (s.outcome t p o []) q t (fun slot => .downstream q e.kind slot c.target e.length e.writeData)
                ∧ ∃ f d, (s.outcome t p o []).entry? t = some f ∧ f.copies = (e.setCopy p o none).copies ++ [d]
                    ∧ d.port = q ∧ d.target = c.target ∧ d.position = some j
                    ∧ ((s.port q).state = .waking → t ∉ (s.port q).egress → d.state = .queued)
                    ∧ (∀ slot, (s.port q).LowestFree slot → (s.port q).egress = [] → (s.port q).state = .active →
                        d.state = .sent ∧ d.slot = some slot))
            ∧ ((s.port q).egress = [] → (s.port q).state = .waking → s.claims q = [] →
                ((s.outcome t p o []).port q).egress = [t]))

/-- The arbiter of a port in service with a place gives it to the oldest claim; an ACTIVE port sends the head of its FIFO on
its lowest FREE slot, with the deadline at the response timeout, as the entry's downstream request, and reports the place to the
IQ if no reissue waits. A WAKING port gives its places to its claims from the oldest on. After a port has been served, its
arbiter has nothing to give and its sender nothing to send: the model's bound of 80 acts is enough for an OTT of at most 64
entries (R18, R84, R86, R127). -/
def Obligations.ServeLeavesNothingToDo : Prop :=
  (∀ (s : State) (p : PortId), s.ott.length ≤ 64 →
    (s.serve p).arbitrate? p = none ∧ (s.serve p).send? p = none)
  ∧ (∀ (s : State) (p : PortId) (older : List Entry) (e : Entry) (younger : List Entry),
      s.ott = older ++ e :: younger → (∀ x ∈ older, x.waitsFor p = false) → e.waitsFor p = true →
      (s.port p).state.inService = true → (s.port p).egress.length < 8 →
      ∃ u, s.arbitrate? p = some u ∧ (u.port p).egress = (s.port p).egress ++ [e.tag]
        ∧ u.ott = s.ott.map (fun x => if x.tag = e.tag then x.setCopy p .queued none else x)
        ∧ ((s.port p).state ≠ .parked → u = { s with ports := u.ports, ott := u.ott }))
  ∧ (∀ (s : State) (p : PortId), (s.port p).state = .waking → (s.ott.map (·.tag)).Nodup →
      ((s.serve p).port p).egress = (s.port p).egress ++ (s.claims p).take (8 - (s.port p).egress.length))
  ∧ ∀ (s : State) (p : PortId) (t : Tag) (rest : List Tag) (i : SlotId) (e : Entry) (c : Copy),
      (s.port p).state = .active → (s.port p).egress = t :: rest → (s.port p).LowestFree i → s.entry? t = some e →
      e.copyAt p = some c →
      ∃ u, s.send? p = some u
        ∧ u.port p = { s.port p with
            egress := rest, slots := (s.port p).slots.set i.val (.inFlight t (s.port p).responseTimeout) i.isLt,
            copiesSent := satInc (s.port p).copiesSent }
        ∧ (∀ q, q ≠ p → u.port q = s.port q)
        ∧ u.wire = s.wire ++ [.downstream p e.kind i c.target e.length e.writeData]
        ∧ u.entry? t = some (e.setCopy p .sent (some i))
        ∧ (s.claims p = [] → AttemptEvent.placesRose p ∈ u.mail.attempts) ∧ (s.claims p ≠ [] → u.mail = s.mail)
        ∧ u = { s with ott := u.ott, ports := u.ports, mail := u.mail, wire := u.wire }

/-! ## Plans -/

/-- CLEAR_WINDOW in IDLE makes the named staged entry EMPTY and its counter 0 and replies DONE; an index above 31 is
answered BAD_ARGUMENT with nothing changed; it does what a LOAD_WINDOW with the state EMPTY does at that index (R142). -/
def Obligations.ClearWindowClears : Prop :=
  ∀ (s : State) (t : Tag) (b : Byte), s.Takes t [0x21, b] → s.ps.op = .idle →
    (31 < b.toNat → exec .clearWindow s = .next (s.inHand.reply t .badArgument []))
    ∧ ∀ i : WindowIx, b.toNat = i.val →
        (∃ u, exec .clearWindow s = .next u
          ∧ u.ps.stagedBank.windows = s.ps.stagedBank.windows.set i.val .empty i.isLt
          ∧ u.ps.stagedBank.hits = s.ps.stagedBank.hits.set i.val 0 i.isLt
          ∧ u.ps.stagedBank.pages = s.ps.stagedBank.pages ∧ u.ps.activeBank = s.ps.activeBank
          ∧ u.ps = (s.ps.setStaged u.ps.stagedBank)
          ∧ u.ulc = (s.reply t .done []).ulc
          ∧ u = { s.inHand with ps := u.ps, ulc := u.ulc })
        ∧ ∀ (s' : State) (record : List Byte), record.length = 32 → record[0]? = some 0 →
            s' = { s with cu := { s.cu with taking := some ⟨t, 0x20 :: b :: record⟩ } } →
            exec .loadWindow s' = exec .clearWindow s

/-- LOAD_WINDOW in IDLE replaces the named staged entry, with its counter at 0, if its record gives a well-formed entry, and
is refused whole otherwise; LOAD_PAGES replaces its run of staged page entries, or none (R38, R141, R143). The entry is the one
that the record's fields give, none for an unlisted code (R14); it is well formed exactly if it is EMPTY or meets the conditions
of R38 and those of its mode, with the range limit (R63, R68, R72, R76, R78). -/
def Obligations.LoadsReachTheStagedBank : Prop :=
  WindowEntry.empty.wellFormed = true ∧ (∀ w : Window, (WindowEntry.loaded w).wellFormed = true ↔ w.Conditions)
  ∧ (∀ record : List Byte, record.length = 32 → RecordCarries record (parseWindow record))
  ∧ ∀ (s : State) (t : Tag), s.ps.op = .idle →
    (∀ (b : Byte) (record : List Byte), record.length = 32 → s.Takes t (0x20 :: b :: record) →
      (∀ (i : WindowIx) (e : WindowEntry), b.toNat = i.val → parseWindow record = some e → e.wellFormed = true →
        exec .loadWindow s = .next (({ s.inHand with
          ps := s.ps.setStaged { s.ps.stagedBank with
            windows := s.ps.stagedBank.windows.set i.val e i.isLt
            hits := s.ps.stagedBank.hits.set i.val 0 i.isLt } } : State).reply t .done []))
      ∧ (31 < b.toNat ∨ parseWindow record = none ∨ (∃ e, parseWindow record = some e ∧ e.wellFormed = false) →
          exec .loadWindow s = .next (s.inHand.reply t .badArgument [])))
    ∧ ∀ (start count : Byte) (records : List Byte), records.length = 4 * count.toNat →
        s.Takes t (0x22 :: start :: count :: records) →
        (1 ≤ count.toNat → count.toNat ≤ 16 → start.toNat + count.toNat ≤ 256 →
          ∃ u, exec .loadPages s = .next u
            ∧ (∀ i : PageIx, u.ps.stagedBank.pages.get i =
                if start.toNat ≤ i.val ∧ i.val < start.toNat + count.toNat then
                  parsePage ((records.drop (4 * (i.val - start.toNat))).take 4)
                else s.ps.stagedBank.pages.get i)
            ∧ u.ps.stagedBank.windows = s.ps.stagedBank.windows ∧ u.ps.stagedBank.hits = s.ps.stagedBank.hits
            ∧ u.ps = s.ps.setStaged u.ps.stagedBank ∧ u.ulc = (s.reply t .done []).ulc
            ∧ u = { s.inHand with ps := u.ps, ulc := u.ulc })
        ∧ (count.toNat = 0 ∨ 16 < count.toNat ∨ 256 < start.toNat + count.toNat →
            exec .loadPages s = .next (s.inHand.reply t .badArgument []))

/-- COPY_PLAN and CLEAR_PLAN in IDLE start at window 0 with their reply held; each COPY_STEP or CLEAR_STEP reaches one
staged window, with its counter, or one staged page entry, and the last ends the operation and reports to the Control Unit
if a reply is owed (R144 to R146, R162). -/
def Obligations.CopyAndClearSteps : Prop :=
  ∀ (s : State) (t : Tag) (k : Fin 288) (owed : Bool),
    (s.Takes t [0x23] → s.ps.op = .idle →
      exec .copyPlan s = .next { s with
        ps := { s.ps with op := .copying 0 true t }, cu := ⟨none, s.cu.held ++ [⟨t, .copyPlan⟩]⟩ })
    ∧ (s.Takes t [0x24] → s.ps.op = .idle →
        exec .clearPlan s = .next { s with
          ps := { s.ps with op := .clearing 0 true t }, cu := ⟨none, s.cu.held ++ [⟨t, .clearPlan⟩]⟩ })
    ∧ ∀ (copy : Bool), s.ps.op = (if copy then .copying k owed t else .clearing k owed t) →
        ∃ u, exec (if copy then .copyStep else .clearStep) s = .next u
          ∧ (∀ i : WindowIx,
              u.ps.stagedBank.windows.get i =
                (if i.val = k.val then (if copy then s.ps.activeBank.windows.get i else .empty)
                 else s.ps.stagedBank.windows.get i)
              ∧ u.ps.stagedBank.hits.get i = (if i.val = k.val then 0 else s.ps.stagedBank.hits.get i))
          ∧ (∀ i : PageIx,
              u.ps.stagedBank.pages.get i =
                (if i.val + 32 = k.val then (if copy then s.ps.activeBank.pages.get i else .absent)
                 else s.ps.stagedBank.pages.get i))
          ∧ u.ps.activeBank = s.ps.activeBank ∧ u.ps.active = s.ps.active ∧ u.ps.generation = s.ps.generation
          ∧ (∀ j : Fin 288, j.val = k.val + 1 → u.ps.op = (if copy then .copying j owed t else .clearing j owed t)
              ∧ u.mail = s.mail)
          ∧ (k.val = 287 → u.ps.op = .idle
              ∧ u.mail = { s.mail with ends := s.mail.ends ++ (if owed then [⟨t, .done, []⟩] else []) })
          ∧ u = { s with ps := u.ps, mail := u.mail }

/-- A COPY PLAN that no other event interrupts ends after its 288 steps: the staged bank is an exact copy of the active
bank's entries, its counters are 0, and the part is IDLE with the end reported (R144, R145). -/
def Obligations.CopyRunMakesAnExactCopy : Prop :=
  ∀ (s : State) (t : Tag) (owed : Bool) (rest : List Instr),
    s.ps.op = .copying 0 owed t → s.pending = List.replicate 288 .copyStep ++ rest →
    ∃ u : State, Sys2Proof.core.run 288 s = .next u
      ∧ u.pending = rest ∧ u.ps.op = .idle
      ∧ u.ps.stagedBank.windows = s.ps.activeBank.windows ∧ u.ps.stagedBank.pages = s.ps.activeBank.pages
      ∧ (∀ i, u.ps.stagedBank.hits.get i = 0)
      ∧ u.ps.activeBank = s.ps.activeBank ∧ u.ps.active = s.ps.active
      ∧ u.mail.ends = s.mail.ends ++ (if owed then [⟨t, .done, []⟩] else [])

/-- SWITCH_PLAN_DRAIN and SWITCH_PLAN_FORCE in IDLE: with the OTT empty the banks change roles in the same event, the
generation advances, the gate is OPEN, SWITCH_DONE is reported and the reply carries bank and generation; otherwise the gate
is HELD and the reply held, with the drain timer started for DRAIN and an abort requested for FORCE (R147, R148, R151). -/
def Obligations.SwitchPlanTaken : Prop :=
  ∀ (s : State) (t : Tag) (force : Bool), s.Takes t [0x25, if force then 1 else 0] → s.ps.op = .idle →
    let c : Instr := if force then .switchPlanForce else .switchPlanDrain
    (s.ott = [] → s.underReset = false →
      ∃ u, exec c s = .next u
        ∧ u.ps = { s.ps with active := s.ps.active.other, generation := s.ps.generation + 1 }
        ∧ u.iq = { s.iq with gate := .opened }
        ∧ u.mail.occurrences = s.mail.occurrences ++ [.switchDone] ∧ AttemptEvent.gateOpened ∈ u.mail.attempts
        ∧ u.ulc = (s.reply t .done [if s.ps.active = .a then 1 else 0, s.ps.generation + 1]).ulc
        ∧ u = { s.inHand with ps := u.ps, iq := u.iq, ulc := u.ulc, mail := u.mail })
    ∧ (s.ott ≠ [] →
        exec c s = .next { s with
          iq := { s.iq with gate := .held }
          ps := { s.ps with
            op := .draining (if force then .force else .drain) false (if force then none else some s.ps.drainTimeout) true t }
          cu := ⟨none, s.cu.held ++ [⟨t, .switchPlan⟩]⟩
          mail := { s.mail with aborts := s.mail.aborts ++ (if force then [.planStore] else []) } })

/-- OTT_EMPTY_REPORT in DRAINING, with the OTT empty, makes the swap and reports the end of the switch, DONE_FORCED and
SWITCH_FORCED if it had escalated; outside DRAINING it has no effect, nor in DRAINING with an entry standing. HELD_REPLY_RELEASE then places the reply of the item
it names, and drops a report for a tag that is no longer in the list (R149, R151, R162). That an empty report with an entry
standing ends nothing (log 10), and that an abort which the Plan Store has requested is taken, and answered by a report of its
own, before the gate opens (log 24), are the model's readings. A swap that a carrier waits for also brings the link up
(LossTakenByEachBlock). -/
def Obligations.DrainEndsAndReplies : Prop :=
  ∀ s : State,
    (s.mail.emptyReports ≠ 0 → (∀ m e d o x, s.ps.op ≠ .draining m e d o x) →
      exec .ottEmptyReport s = .next { s with mail := { s.mail with emptyReports := s.mail.emptyReports - 1 } })
    ∧ (∀ m escalated d owed t, s.mail.emptyReports ≠ 0 → s.ps.op = .draining m escalated d owed t → s.ott ≠ [] →
        exec .ottEmptyReport s = .next { s with mail := { s.mail with emptyReports := s.mail.emptyReports - 1 } })
    ∧ (∀ m escalated d owed t, s.mail.emptyReports ≠ 0 → s.ps.op = .draining m escalated d owed t → s.ott = [] →
        s.underReset = false → (s.ulc.state ≠ .ready ∨ s.pins.carrier = false ∨ s.mail.loss.any = true) →
        ∃ u, exec .ottEmptyReport s = .next u
          ∧ u.ps = { s.ps with active := s.ps.active.other, generation := s.ps.generation + 1, op := .idle }
          ∧ u.iq = { s.iq with gate := .opened } ∧ AttemptEvent.gateOpened ∈ u.mail.attempts
          ∧ u.mail.occurrences = s.mail.occurrences ++ (if escalated then [.switchDone, .switchForced] else [.switchDone])
          ∧ u.mail.ends = s.mail.ends ++ (if owed then
              [⟨t, if escalated then .doneForced else .done, [if s.ps.active = .a then 1 else 0, s.ps.generation + 1]⟩]
              else [])
          ∧ u.mail.aborts = s.mail.aborts.filter (· != .planStore)
          ∧ u.mail.emptyReports = s.mail.emptyReports - 1 + s.mail.aborts.count .planStore
          ∧ u = { s with ps := u.ps, iq := u.iq, mail := u.mail })
    ∧ (∀ k e rest, takeAt k s.mail.ends = some (e, rest) →
        ((∃ h ∈ s.cu.held, h.tag = e.tag) →
          exec (.heldReplyRelease k) s = .next (({ s with
            mail := { s.mail with ends := rest }
            cu := { s.cu with held := s.cu.held.filter fun h => h.tag != e.tag } } : State).reply e.tag e.status e.contents))
        ∧ ((∀ h ∈ s.cu.held, h.tag ≠ e.tag) →
            exec (.heldReplyRelease k) s = .next { s with mail := { s.mail with ends := rest } }))

/-! ## The Control Unit -/

/-- The six queries reply DONE with the state as it stands, byte by byte, and change nothing else (R163 to R168); in UP the
credit count and the IQ occupancy of READ STATUS add up to 16 and the occupancy is at most 15 (R163). CLEAR_COUNTERS clears the
counters of its scope and nothing else (R169). The ticks of a timer whose expiry is due are the command's operand (log 9). -/
def Obligations.QueriesAndCounters : Prop :=
  ∀ (s : State) (t : Tag) (scope : Byte),
    (s.Takes t [0x10] →
      exec .readStatus s = .next (s.inHand.reply t .done
        ([s.ulc.state.code, BitVec.ofNat 8 s.ulc.credits, BitVec.ofNat 8 s.ulc.awaiting, BitVec.ofNat 8 s.iq.fifo.length,
          BitVec.ofNat 8 s.ott.length, s.ps.active.code, s.ps.generation, s.ps.op.code, s.iq.gate.code,
          BitVec.ofNat 8 s.tb.exponent.val, (s.port 0).state.code, (s.port 1).state.code, (s.port 2).state.code,
          (s.port 3).state.code, (s.port 4).state.code, (s.port 5).state.code, (s.port 6).state.code,
          (s.port 7).state.code]))
      ∧ (s.CreditsBalance → s.iq.fifo.length ≤ 15 ∧ (s.ulc.state = .up → s.ulc.credits + s.iq.fifo.length = 16)))
    ∧ ([UlcState.down, .ready, .up].map (·.code) = [0, 1, 2] ∧ [BankId.a, .b].map (·.code) = [0, 1]
        ∧ [Gate.opened, .held].map (·.code) = [0, 1]
        ∧ [PortState.disabled, .active, .parked, .waking, .quarantined].map (·.code) = [0, 1, 2, 3, 4]
        ∧ [ResetCause.powerOn, .pin, .command].map (·.code) = [0, 1, 2] ∧ PlanOp.idle.code = 0
        ∧ (∀ k o x, (PlanOp.copying k o x).code = 1 ∧ (PlanOp.clearing k o x).code = 2)
        ∧ ∀ m e d o x, (PlanOp.draining m e d o x).code = 3)
    ∧ (∀ (sel : Byte) (b : Byte), s.Takes t [0x11, sel, b] →
        (1 < sel.toNat ∨ 31 < b.toNat → exec .readWindow s = .next (s.inHand.reply t .badArgument []))
        ∧ ∀ (i : WindowIx) (k : BankId), b.toNat = i.val →
            (sel = 0 ∧ k = s.ps.active) ∨ (sel = 1 ∧ k = s.ps.active.other) →
            exec .readWindow s = .next (s.inHand.reply t .done
              (k.code :: ((s.ps.bank k).windows.get i).record ++ leBytes 4 ((s.ps.bank k).hits.get i).toNat)))
    ∧ (∀ (sel start count : Byte), s.Takes t [0x12, sel, start, count] →
        (1 < sel.toNat ∨ count = 0 ∨ 16 < count.toNat ∨ 256 < start.toNat + count.toNat →
          exec .readPage s = .next (s.inHand.reply t .badArgument []))
        ∧ ∀ (k : BankId), (sel = 0 ∧ k = s.ps.active) ∨ (sel = 1 ∧ k = s.ps.active.other) →
            1 ≤ count.toNat → count.toNat ≤ 16 → start.toNat + count.toNat ≤ 256 →
            ∃ records, exec .readPage s = .next (s.inHand.reply t .done (k.code :: records))
              ∧ records.length = 4 * count.toNat
              ∧ ∀ i : PageIx, start.toNat ≤ i.val → i.val < start.toNat + count.toNat →
                  (records.drop (4 * (i.val - start.toNat))).take 4 = ((s.ps.bank k).pages.get i).record)
    ∧ (∀ (b : Byte) (due : List (BitVec 16)), s.Takes t [0x13, b] →
        (7 < b.toNat → exec (.readPort due) s = .next (s.inHand.reply t .badArgument []))
        ∧ ∀ p : PortId, b.toNat = p.val →
            let q := s.port p
            let ticks : Nat → Nat → Nat := fun k n => if n = 0 then max 1 (due.getD k 1).toNat else n
            ∃ contents, contents.length = 92 ∧ exec (.readPort due) s = .next (s.inHand.reply t .done contents)
              ∧ contents =
                [q.state.code, (match q.cause with | none => 0 | some .secondStrike => 1 | some .linkLoss => 2),
                  if s.pins.link.get p then 1 else 0, if q.autoEnable then 1 else 0]
                ++ leBytes 2 q.responseTimeout ++ leBytes 2 q.wakeTimeout ++ leBytes 2 q.idlePark
                ++ [BitVec.ofNat 8 q.egress.length, BitVec.ofNat 8 (s.claims p).length]
                ++ (match q.idle with | none => [0, 0, 0] | some n => 1 :: leBytes 2 (ticks 0 n))
                ++ (match q.wake with | none => [0, 0, 0] | some n => 1 :: leBytes 2 (ticks 1 n))
                ++ leBytes 4 q.copiesSent.toNat ++ leBytes 2 q.timeouts.toNat ++ leBytes 2 q.strays.toNat
                ++ leBytes 2 q.targetErrors.toNat
                ++ (List.finRange 16).flatMap fun i =>
                    match q.slots.get i with
                    | .free => [0, 0, 0, 0]
                    | .inFlight x d => [1, x.setWidth 8] ++ leBytes 2 (ticks (2 + i.val) d)
                    | .orphan d => [2, 0] ++ leBytes 2 (ticks (2 + i.val) d))
    ∧ (s.Takes t [0x14] →
        ∃ contents, contents.length = 27 ∧ exec .readEvents s = .next (s.inHand.reply t .done contents)
          ∧ contents =
            leBytes 2 s.eu.pending.toNat ++ [s.eu.strikes, s.eu.quarantines, s.eu.strayPorts]
            ++ leBytes 2 (s.eu.enables ||| 0x203).toNat
            ++ (match s.eu.faultRecord with
                | none => List.replicate 12 0
                | some r =>
                  [1, (match r.kind with | .miss => 0 | .protect => 1 | .notMapped => 2),
                    (match r.request with | .read => 0 | .write => 1), r.tag.setWidth 8]
                  ++ leBytes 5 r.addr.toNat
                  ++ [(match r.window with | some i => BitVec.ofNat 8 i.val | none => 0xFF), r.generation, r.repeats])
            ++ (match s.eu.linkFaultRecord with
                | none => List.replicate 5 0
                | some r =>
                  [1, (match r.kind with | .malformedUpstream => 0 | .overrun => 1 | .tagClash => 2 | .malformedTarget => 3),
                    (match r.port with | some p => BitVec.ofNat 8 p.val | none => 0xFF), r.tag.getD 0xFF, r.repeats])
            ++ [s.eu.holdoffSetting, if s.eu.holdoff.isSome then 1 else 0, if s.eu.alert then 1 else 0])
    ∧ (s.Takes t [0x15] → exec .readResetCause s = .next (s.inHand.reply t .done
        [s.rs.lastCause.code, (match s.rs.previousCause with | none => 0xFF | some c => c.code), s.rs.resetCount]))
    ∧ (s.Takes t [0x16, scope] →
      (2 < scope.toNat → exec .clearCounters s = .next (s.inHand.reply t .badArgument []))
      ∧ (scope.toNat ≤ 2 →
          ∃ u, exec .clearCounters s = .next u
            ∧ (∀ k i, (u.ps.bank k).hits.get i = if scope = 1 then (s.ps.bank k).hits.get i else 0)
            ∧ (∀ k, (u.ps.bank k).windows = (s.ps.bank k).windows ∧ (u.ps.bank k).pages = (s.ps.bank k).pages)
            ∧ (∀ p, u.port p = if scope = 0 then s.port p
                else { s.port p with copiesSent := 0, timeouts := 0, strays := 0, targetErrors := 0 })
            ∧ u.ps.active = s.ps.active ∧ u.ps.generation = s.ps.generation ∧ u.ps.op = s.ps.op
            ∧ u.ps.drainTimeout = s.ps.drainTimeout ∧ u.ulc = (s.reply t .done []).ulc
            ∧ u = { s.inHand with ps := u.ps, ports := u.ports, ulc := u.ulc }))

/-- A control request of the wrong length is answered BAD_ARGUMENT by its command and changes nothing; so are a RESET of
another scope, a SWITCH PLAN of another mode and a port command for a port above 7; one of the six plan commands with the right length is
answered BUSY while an operation is in progress; an identifier of no command is answered UNKNOWN_COMMAND (R102, R140, R147,
R159, R170). A request that names no scope or mode is taken by either row (log 19). -/
def Obligations.RequestsRefused : Prop :=
  ∀ (s : State) (t : Tag) (id : Byte) (args : List Byte) (due : List (BitVec 16)) (order : Order) (sel : PlanSel)
    (credit : CreditPath) (answers : FullOrder), s.Takes t (id :: args) →
    (∀ (c : Instr) (n : Nat),
      (c, id, n) ∈ ([(.readStatus, 0x10, 0), (.readWindow, 0x11, 2), (.readPage, 0x12, 3), (.readPort due, 0x13, 1),
        (.readEvents, 0x14, 0), (.readResetCause, 0x15, 0), (.clearCounters, 0x16, 1), (.loadWindow, 0x20, 33),
        (.clearWindow, 0x21, 1), (.copyPlan, 0x23, 0), (.clearPlan, 0x24, 0), (.switchPlanDrain, 0x25, 1),
        (.switchPlanForce, 0x25, 1), (.setPlanTiming, 0x26, 2), (.portEnable, 0x30, 1), (.portDisable order, 0x31, 1),
        (.parkPort, 0x32, 1), (.setPort, 0x33, 7), (.setEventEnables, 0x40, 2), (.clearEvents, 0x41, 4),
        (.setHoldoff, 0x42, 1), (.setTimebase, 0x50, 1), (.resetTraffic, 0x01, 1), (.resetFull sel credit answers, 0x01, 1)]
        : List (Instr × Byte × Nat)) →
      args.length ≠ n → exec c s = .next (s.inHand.reply t .badArgument []))
    ∧ (id = 0x22 → (args.length < 2 ∨ ∃ b, args[1]? = some b ∧ args.length ≠ 2 + 4 * b.toNat) →
        exec .loadPages s = .next (s.inHand.reply t .badArgument []))
    ∧ (s.ps.op ≠ .idle →
        (∀ (c : Instr) (n : Nat),
          (c, id, n) ∈ ([(.loadWindow, 0x20, 33), (.clearWindow, 0x21, 1), (.copyPlan, 0x23, 0), (.clearPlan, 0x24, 0)]
            : List (Instr × Byte × Nat)) →
          args.length = n → exec c s = .next (s.inHand.reply t .busy []))
        ∧ (id = 0x25 → args = [0] → exec .switchPlanDrain s = .next (s.inHand.reply t .busy []))
        ∧ (id = 0x25 → args = [1] → exec .switchPlanForce s = .next (s.inHand.reply t .busy []))
        ∧ (∀ mode, id = 0x25 → args = [mode] → 1 < mode.toNat →
            exec .switchPlanDrain s = .next (s.inHand.reply t .busy [])
            ∧ exec .switchPlanForce s = .next (s.inHand.reply t .busy []))
        ∧ (∀ start count rest, id = 0x22 → args = start :: count :: rest → rest.length = 4 * count.toNat →
            exec .loadPages s = .next (s.inHand.reply t .busy [])))
    ∧ (∀ scope, id = 0x01 → args = [scope] → 1 < scope.toNat →
        exec .resetTraffic s = .next (s.inHand.reply t .badArgument [])
        ∧ exec (.resetFull sel credit answers) s = .next (s.inHand.reply t .badArgument []))
    ∧ (∀ port rest, args = port :: rest → 7 < port.toNat →
        (id = 0x30 → rest = [] → exec .portEnable s = .next (s.inHand.reply t .badArgument []))
        ∧ (id = 0x31 → rest = [] → exec (.portDisable order) s = .next (s.inHand.reply t .badArgument []))
        ∧ (id = 0x32 → rest = [] → exec .parkPort s = .next (s.inHand.reply t .badArgument []))
        ∧ (id = 0x33 → rest.length = 6 → exec .setPort s = .next (s.inHand.reply t .badArgument [])))
    ∧ (∀ mode, id = 0x25 → args = [mode] → 1 < mode.toNat → s.ps.op = .idle →
        exec .switchPlanDrain s = .next (s.inHand.reply t .badArgument [])
        ∧ exec .switchPlanForce s = .next (s.inHand.reply t .badArgument []))
    ∧ (commandOf (id :: args) = none → exec .unknownCommand s = .next (s.inHand.reply t .unknownCommand []))
    ∧ (id.toNat ∉ [0x01, 0x10, 0x11, 0x12, 0x13, 0x14, 0x15, 0x16, 0x20, 0x21, 0x22, 0x23, 0x24, 0x25, 0x26, 0x30, 0x31, 0x32,
          0x33, 0x40, 0x41, 0x42, 0x50] ↔ commandOf (id :: args) = none)

/-- RESET_TRAFFIC places DONE, asks for an abort and returns every WAKING port to PARKED, and touches nothing else: a port where no
copy waits returns in this step, and one where some do has its return still to take, with the abort that removes them
(AbortAnswersInOrder; R107, R108, log 27).
RESET_FULL places DONE first, then answers every held reply and every request of the FIFO ABORTED, a READ with a READ RESPONSE, a
WRITE with a WRITE RESPONSE and a CONTROL request, as every held one, with a CONTROL REPLY, those of the FIFO in FIFO order, returns
the FIFO's credits, abandons the plan operation, asks for an abort and keeps the sample of PLAN_SEL (R34, R156, R171, R172). PLAN_SEL's
level, the order of the answers and of the credits, and how many of the answers, the last ones, are placed with those of the OTT's
abort (AbortAnswersInOrder), are the command's operands (log 4, log 12, log 13). That the DONE of a RESET_TRAFFIC is
placed in this step, ahead of the answer of an entry that completes before the abort, is the model's choice (log 28). -/
def Obligations.ResetsByCommand : Prop :=
  ∀ (s : State) (t : Tag),
    let kindOf : Request → ResponseKind := fun r =>
      match r.body with
      | .memory .read _ _ _ => .read
      | .memory .write _ _ _ => .write
      | .control _ => .control
    (s.Takes t [0x01, 0x00] →
      ∃ u, exec .resetTraffic s = .next u
        ∧ u.ulc = (s.reply t .done []).ulc
        ∧ u.mail.aborts = s.mail.aborts ++ [.resetTraffic]
        ∧ (∀ p, u.port p = if (s.port p).state = .waking ∧ (s.port p).egress = [] ∧ s.claims p = [] then
              { s.port p with state := .parked, wake := none } else s.port p)
        ∧ (∀ p, u.port p ≠ s.port p → AttemptEvent.portChanged p ∈ u.mail.attempts)
        ∧ (∀ p, p ∈ u.mail.returns ↔ p ∈ s.mail.returns
            ∨ ((s.port p).state = .waking ∧ ((s.port p).egress ≠ [] ∨ s.claims p ≠ [])))
        ∧ u = { s.inHand with ulc := u.ulc, ports := u.ports, mail := u.mail })
    ∧ (∀ (sel : PlanSel) (credit : CreditPath) (order : FullOrder), s.Takes t [0x01, 0x01] →
        let held : List (ResponseKind × Tag) := s.cu.held.map fun h => (.control, h.tag)
        let fifo : List (ResponseKind × Tag) := s.iq.fifo.map fun r => (kindOf r, r.tag)
        ∃ (u : State) (now later : List (ResponseKind × Tag)), exec (.resetFull sel credit order) s = .next u
          ∧ (s.ulc.state = .up →
              u.ulc.queue = s.ulc.queue ++ [⟨.control, t, .done, s.eu.summary, []⟩]
                ++ now.map (fun r => ⟨r.1, r.2, .aborted, if r.1 = .control then s.eu.summary else 0, []⟩)
              ∧ u.mail.answers = s.mail.answers ++ later.map (fun r => ⟨r.1, r.2⟩)
              ∧ List.Perm (now ++ later) (held ++ fifo) ∧ List.Sublist fifo (now ++ later)
              ∧ later.length = min order.late (held.length + fifo.length))
          ∧ (s.ulc.state ≠ .up → u.mail.answers = s.mail.answers)
          ∧ u.iq.fifo = [] ∧ u.iq.tags = s.iq.tags ∧ u.iq.cond = .noHead ∧ u.cu = ⟨none, []⟩
          ∧ u.ps = { s.ps with op := .idle }
          ∧ (s.ulc.state = .up → credit = .atOnce → u.ulc.credits = s.ulc.credits + s.iq.fifo.length)
          ∧ (credit = .later → u.ulc.credits = s.ulc.credits ∧ u.mail.creditReturns = s.iq.fifo.length)
          ∧ u.mail.aborts = s.mail.aborts ++ [.resetFull] ∧ u.rs = { s.rs with full := .awaitAbort, sample := sel }
          ∧ u.pins = { s.pins with planSel := sel }
          ∧ u = { s with pins := u.pins, ulc := u.ulc, iq := u.iq, ps := u.ps, cu := u.cu, rs := u.rs, mail := u.mail })

/-! ## Records -/

/-- The record of every well-formed window entry has 32 bytes and reads back as that entry, and the record of every page
entry has 4 bytes and reads back as that entry (R14, R15). -/
def Obligations.RecordsReadBack : Prop :=
  (∀ e : WindowEntry, e.wellFormed = true → e.record.length = 32 ∧ parseWindow e.record = some e)
    ∧ ∀ e : PageEntry, e.record.length = 4 ∧ parsePage e.record = e

end Statements
end

