-- ==== Sys2Proof/Laws/State.lean ====
section
/-! SUPPORT. One lemma for each field that a named update leaves alone, so that no proof unfolds the update; and what the update
writes in the field it changes. -/

namespace Sys2Proof.Machine

/-! `setPort` -/

@[simp] theorem State.setPort_pending (s : State) (p : PortId) (x : Port) : (s.setPort p x).pending = s.pending := rfl
@[simp] theorem State.setPort_pins (s : State) (p : PortId) (x : Port) : (s.setPort p x).pins = s.pins := rfl
@[simp] theorem State.setPort_ulc (s : State) (p : PortId) (x : Port) : (s.setPort p x).ulc = s.ulc := rfl
@[simp] theorem State.setPort_iq (s : State) (p : PortId) (x : Port) : (s.setPort p x).iq = s.iq := rfl
@[simp] theorem State.setPort_ps (s : State) (p : PortId) (x : Port) : (s.setPort p x).ps = s.ps := rfl
@[simp] theorem State.setPort_ott (s : State) (p : PortId) (x : Port) : (s.setPort p x).ott = s.ott := rfl
@[simp] theorem State.setPort_cu (s : State) (p : PortId) (x : Port) : (s.setPort p x).cu = s.cu := rfl
@[simp] theorem State.setPort_eu (s : State) (p : PortId) (x : Port) : (s.setPort p x).eu = s.eu := rfl
@[simp] theorem State.setPort_tb (s : State) (p : PortId) (x : Port) : (s.setPort p x).tb = s.tb := rfl
@[simp] theorem State.setPort_rs (s : State) (p : PortId) (x : Port) : (s.setPort p x).rs = s.rs := rfl
@[simp] theorem State.setPort_mail (s : State) (p : PortId) (x : Port) : (s.setPort p x).mail = s.mail := rfl
@[simp] theorem State.setPort_wire (s : State) (p : PortId) (x : Port) : (s.setPort p x).wire = s.wire := rfl

/-! `setEntry` -/

@[simp] theorem State.setEntry_pending (s : State) (e : Entry) : (s.setEntry e).pending = s.pending := rfl
@[simp] theorem State.setEntry_pins (s : State) (e : Entry) : (s.setEntry e).pins = s.pins := rfl
@[simp] theorem State.setEntry_ulc (s : State) (e : Entry) : (s.setEntry e).ulc = s.ulc := rfl
@[simp] theorem State.setEntry_iq (s : State) (e : Entry) : (s.setEntry e).iq = s.iq := rfl
@[simp] theorem State.setEntry_ps (s : State) (e : Entry) : (s.setEntry e).ps = s.ps := rfl
@[simp] theorem State.setEntry_ports (s : State) (e : Entry) : (s.setEntry e).ports = s.ports := rfl
@[simp] theorem State.setEntry_cu (s : State) (e : Entry) : (s.setEntry e).cu = s.cu := rfl
@[simp] theorem State.setEntry_eu (s : State) (e : Entry) : (s.setEntry e).eu = s.eu := rfl
@[simp] theorem State.setEntry_tb (s : State) (e : Entry) : (s.setEntry e).tb = s.tb := rfl
@[simp] theorem State.setEntry_rs (s : State) (e : Entry) : (s.setEntry e).rs = s.rs := rfl
@[simp] theorem State.setEntry_mail (s : State) (e : Entry) : (s.setEntry e).mail = s.mail := rfl
@[simp] theorem State.setEntry_wire (s : State) (e : Entry) : (s.setEntry e).wire = s.wire := rfl

/-! `markCopy` -/

@[simp] theorem State.markCopy_pending (s : State) (t : Tag) (p : PortId) (st : CopyState) (slot : Option SlotId) : (s.markCopy t p st slot).pending = s.pending := rfl
@[simp] theorem State.markCopy_pins (s : State) (t : Tag) (p : PortId) (st : CopyState) (slot : Option SlotId) : (s.markCopy t p st slot).pins = s.pins := rfl
@[simp] theorem State.markCopy_ulc (s : State) (t : Tag) (p : PortId) (st : CopyState) (slot : Option SlotId) : (s.markCopy t p st slot).ulc = s.ulc := rfl
@[simp] theorem State.markCopy_iq (s : State) (t : Tag) (p : PortId) (st : CopyState) (slot : Option SlotId) : (s.markCopy t p st slot).iq = s.iq := rfl
@[simp] theorem State.markCopy_ps (s : State) (t : Tag) (p : PortId) (st : CopyState) (slot : Option SlotId) : (s.markCopy t p st slot).ps = s.ps := rfl
@[simp] theorem State.markCopy_ports (s : State) (t : Tag) (p : PortId) (st : CopyState) (slot : Option SlotId) : (s.markCopy t p st slot).ports = s.ports := rfl
@[simp] theorem State.markCopy_cu (s : State) (t : Tag) (p : PortId) (st : CopyState) (slot : Option SlotId) : (s.markCopy t p st slot).cu = s.cu := rfl
@[simp] theorem State.markCopy_eu (s : State) (t : Tag) (p : PortId) (st : CopyState) (slot : Option SlotId) : (s.markCopy t p st slot).eu = s.eu := rfl
@[simp] theorem State.markCopy_tb (s : State) (t : Tag) (p : PortId) (st : CopyState) (slot : Option SlotId) : (s.markCopy t p st slot).tb = s.tb := rfl
@[simp] theorem State.markCopy_rs (s : State) (t : Tag) (p : PortId) (st : CopyState) (slot : Option SlotId) : (s.markCopy t p st slot).rs = s.rs := rfl
@[simp] theorem State.markCopy_mail (s : State) (t : Tag) (p : PortId) (st : CopyState) (slot : Option SlotId) : (s.markCopy t p st slot).mail = s.mail := rfl
@[simp] theorem State.markCopy_wire (s : State) (t : Tag) (p : PortId) (st : CopyState) (slot : Option SlotId) : (s.markCopy t p st slot).wire = s.wire := rfl

/-! `capture` -/

@[simp] theorem State.capture_pending (s : State) (o : Occurrence) : (s.capture o).pending = s.pending := rfl
@[simp] theorem State.capture_pins (s : State) (o : Occurrence) : (s.capture o).pins = s.pins := rfl
@[simp] theorem State.capture_ulc (s : State) (o : Occurrence) : (s.capture o).ulc = s.ulc := rfl
@[simp] theorem State.capture_iq (s : State) (o : Occurrence) : (s.capture o).iq = s.iq := rfl
@[simp] theorem State.capture_ps (s : State) (o : Occurrence) : (s.capture o).ps = s.ps := rfl
@[simp] theorem State.capture_ott (s : State) (o : Occurrence) : (s.capture o).ott = s.ott := rfl
@[simp] theorem State.capture_ports (s : State) (o : Occurrence) : (s.capture o).ports = s.ports := rfl
@[simp] theorem State.capture_cu (s : State) (o : Occurrence) : (s.capture o).cu = s.cu := rfl
@[simp] theorem State.capture_tb (s : State) (o : Occurrence) : (s.capture o).tb = s.tb := rfl
@[simp] theorem State.capture_rs (s : State) (o : Occurrence) : (s.capture o).rs = s.rs := rfl
@[simp] theorem State.capture_mail (s : State) (o : Occurrence) : (s.capture o).mail = s.mail := rfl
@[simp] theorem State.capture_wire (s : State) (o : Occurrence) : (s.capture o).wire = s.wire := rfl

/-! `attemptDue` -/

@[simp] theorem State.attemptDue_pending (s : State) (e : AttemptEvent) : (s.attemptDue e).pending = s.pending := rfl
@[simp] theorem State.attemptDue_pins (s : State) (e : AttemptEvent) : (s.attemptDue e).pins = s.pins := rfl
@[simp] theorem State.attemptDue_ulc (s : State) (e : AttemptEvent) : (s.attemptDue e).ulc = s.ulc := rfl
@[simp] theorem State.attemptDue_iq (s : State) (e : AttemptEvent) : (s.attemptDue e).iq = s.iq := rfl
@[simp] theorem State.attemptDue_ps (s : State) (e : AttemptEvent) : (s.attemptDue e).ps = s.ps := rfl
@[simp] theorem State.attemptDue_ott (s : State) (e : AttemptEvent) : (s.attemptDue e).ott = s.ott := rfl
@[simp] theorem State.attemptDue_ports (s : State) (e : AttemptEvent) : (s.attemptDue e).ports = s.ports := rfl
@[simp] theorem State.attemptDue_cu (s : State) (e : AttemptEvent) : (s.attemptDue e).cu = s.cu := rfl
@[simp] theorem State.attemptDue_eu (s : State) (e : AttemptEvent) : (s.attemptDue e).eu = s.eu := rfl
@[simp] theorem State.attemptDue_tb (s : State) (e : AttemptEvent) : (s.attemptDue e).tb = s.tb := rfl
@[simp] theorem State.attemptDue_rs (s : State) (e : AttemptEvent) : (s.attemptDue e).rs = s.rs := rfl
@[simp] theorem State.attemptDue_wire (s : State) (e : AttemptEvent) : (s.attemptDue e).wire = s.wire := rfl

/-! `hitReport` -/

@[simp] theorem State.hitReport_pending (s : State) (w : WindowIx) : (s.hitReport w).pending = s.pending := rfl
@[simp] theorem State.hitReport_pins (s : State) (w : WindowIx) : (s.hitReport w).pins = s.pins := rfl
@[simp] theorem State.hitReport_ulc (s : State) (w : WindowIx) : (s.hitReport w).ulc = s.ulc := rfl
@[simp] theorem State.hitReport_iq (s : State) (w : WindowIx) : (s.hitReport w).iq = s.iq := rfl
@[simp] theorem State.hitReport_ps (s : State) (w : WindowIx) : (s.hitReport w).ps = s.ps := rfl
@[simp] theorem State.hitReport_ott (s : State) (w : WindowIx) : (s.hitReport w).ott = s.ott := rfl
@[simp] theorem State.hitReport_ports (s : State) (w : WindowIx) : (s.hitReport w).ports = s.ports := rfl
@[simp] theorem State.hitReport_cu (s : State) (w : WindowIx) : (s.hitReport w).cu = s.cu := rfl
@[simp] theorem State.hitReport_eu (s : State) (w : WindowIx) : (s.hitReport w).eu = s.eu := rfl
@[simp] theorem State.hitReport_tb (s : State) (w : WindowIx) : (s.hitReport w).tb = s.tb := rfl
@[simp] theorem State.hitReport_rs (s : State) (w : WindowIx) : (s.hitReport w).rs = s.rs := rfl
@[simp] theorem State.hitReport_wire (s : State) (w : WindowIx) : (s.hitReport w).wire = s.wire := rfl

/-! `requestAbort` -/

@[simp] theorem State.requestAbort_pending (s : State) (a : AbortSource) : (s.requestAbort a).pending = s.pending := rfl
@[simp] theorem State.requestAbort_pins (s : State) (a : AbortSource) : (s.requestAbort a).pins = s.pins := rfl
@[simp] theorem State.requestAbort_ulc (s : State) (a : AbortSource) : (s.requestAbort a).ulc = s.ulc := rfl
@[simp] theorem State.requestAbort_iq (s : State) (a : AbortSource) : (s.requestAbort a).iq = s.iq := rfl
@[simp] theorem State.requestAbort_ps (s : State) (a : AbortSource) : (s.requestAbort a).ps = s.ps := rfl
@[simp] theorem State.requestAbort_ott (s : State) (a : AbortSource) : (s.requestAbort a).ott = s.ott := rfl
@[simp] theorem State.requestAbort_ports (s : State) (a : AbortSource) : (s.requestAbort a).ports = s.ports := rfl
@[simp] theorem State.requestAbort_cu (s : State) (a : AbortSource) : (s.requestAbort a).cu = s.cu := rfl
@[simp] theorem State.requestAbort_eu (s : State) (a : AbortSource) : (s.requestAbort a).eu = s.eu := rfl
@[simp] theorem State.requestAbort_tb (s : State) (a : AbortSource) : (s.requestAbort a).tb = s.tb := rfl
@[simp] theorem State.requestAbort_rs (s : State) (a : AbortSource) : (s.requestAbort a).rs = s.rs := rfl
@[simp] theorem State.requestAbort_wire (s : State) (a : AbortSource) : (s.requestAbort a).wire = s.wire := rfl

/-! `reportEmpty` -/

@[simp] theorem State.reportEmpty_pending (s : State) : (s.reportEmpty).pending = s.pending := rfl
@[simp] theorem State.reportEmpty_pins (s : State) : (s.reportEmpty).pins = s.pins := rfl
@[simp] theorem State.reportEmpty_ulc (s : State) : (s.reportEmpty).ulc = s.ulc := rfl
@[simp] theorem State.reportEmpty_iq (s : State) : (s.reportEmpty).iq = s.iq := rfl
@[simp] theorem State.reportEmpty_ps (s : State) : (s.reportEmpty).ps = s.ps := rfl
@[simp] theorem State.reportEmpty_ott (s : State) : (s.reportEmpty).ott = s.ott := rfl
@[simp] theorem State.reportEmpty_ports (s : State) : (s.reportEmpty).ports = s.ports := rfl
@[simp] theorem State.reportEmpty_cu (s : State) : (s.reportEmpty).cu = s.cu := rfl
@[simp] theorem State.reportEmpty_eu (s : State) : (s.reportEmpty).eu = s.eu := rfl
@[simp] theorem State.reportEmpty_tb (s : State) : (s.reportEmpty).tb = s.tb := rfl
@[simp] theorem State.reportEmpty_rs (s : State) : (s.reportEmpty).rs = s.rs := rfl
@[simp] theorem State.reportEmpty_wire (s : State) : (s.reportEmpty).wire = s.wire := rfl

/-! `emit` -/

@[simp] theorem State.emit_pending (s : State) (o : Output) : (s.emit o).pending = s.pending := rfl
@[simp] theorem State.emit_pins (s : State) (o : Output) : (s.emit o).pins = s.pins := rfl
@[simp] theorem State.emit_ulc (s : State) (o : Output) : (s.emit o).ulc = s.ulc := rfl
@[simp] theorem State.emit_iq (s : State) (o : Output) : (s.emit o).iq = s.iq := rfl
@[simp] theorem State.emit_ps (s : State) (o : Output) : (s.emit o).ps = s.ps := rfl
@[simp] theorem State.emit_ott (s : State) (o : Output) : (s.emit o).ott = s.ott := rfl
@[simp] theorem State.emit_ports (s : State) (o : Output) : (s.emit o).ports = s.ports := rfl
@[simp] theorem State.emit_cu (s : State) (o : Output) : (s.emit o).cu = s.cu := rfl
@[simp] theorem State.emit_eu (s : State) (o : Output) : (s.emit o).eu = s.eu := rfl
@[simp] theorem State.emit_tb (s : State) (o : Output) : (s.emit o).tb = s.tb := rfl
@[simp] theorem State.emit_rs (s : State) (o : Output) : (s.emit o).rs = s.rs := rfl
@[simp] theorem State.emit_mail (s : State) (o : Output) : (s.emit o).mail = s.mail := rfl

/-! `linkStart` -/

@[simp] theorem State.linkStart_pending (s : State) : (s.linkStart).pending = s.pending := rfl
@[simp] theorem State.linkStart_pins (s : State) : (s.linkStart).pins = s.pins := rfl
@[simp] theorem State.linkStart_iq (s : State) : (s.linkStart).iq = s.iq := rfl
@[simp] theorem State.linkStart_ps (s : State) : (s.linkStart).ps = s.ps := rfl
@[simp] theorem State.linkStart_ott (s : State) : (s.linkStart).ott = s.ott := rfl
@[simp] theorem State.linkStart_ports (s : State) : (s.linkStart).ports = s.ports := rfl
@[simp] theorem State.linkStart_cu (s : State) : (s.linkStart).cu = s.cu := rfl
@[simp] theorem State.linkStart_eu (s : State) : (s.linkStart).eu = s.eu := rfl
@[simp] theorem State.linkStart_tb (s : State) : (s.linkStart).tb = s.tb := rfl
@[simp] theorem State.linkStart_rs (s : State) : (s.linkStart).rs = s.rs := rfl
@[simp] theorem State.linkStart_wire (s : State) : (s.linkStart).wire = s.wire := rfl

/-! `linkLoss` -/

@[simp] theorem State.linkLoss_pending (s : State) : (s.linkLoss).pending = s.pending := rfl
@[simp] theorem State.linkLoss_pins (s : State) : (s.linkLoss).pins = s.pins := rfl
@[simp] theorem State.linkLoss_iq (s : State) : (s.linkLoss).iq = s.iq := rfl
@[simp] theorem State.linkLoss_ps (s : State) : (s.linkLoss).ps = s.ps := rfl
@[simp] theorem State.linkLoss_ott (s : State) : (s.linkLoss).ott = s.ott := rfl
@[simp] theorem State.linkLoss_ports (s : State) : (s.linkLoss).ports = s.ports := rfl
@[simp] theorem State.linkLoss_cu (s : State) : (s.linkLoss).cu = s.cu := rfl
@[simp] theorem State.linkLoss_tb (s : State) : (s.linkLoss).tb = s.tb := rfl
@[simp] theorem State.linkLoss_rs (s : State) : (s.linkLoss).rs = s.rs := rfl
@[simp] theorem State.linkLoss_wire (s : State) : (s.linkLoss).wire = s.wire := rfl

/-! `discardPacket` -/

@[simp] theorem State.discardPacket_pending (s : State) : (s.discardPacket).pending = s.pending := rfl
@[simp] theorem State.discardPacket_pins (s : State) : (s.discardPacket).pins = s.pins := rfl
@[simp] theorem State.discardPacket_iq (s : State) : (s.discardPacket).iq = s.iq := rfl
@[simp] theorem State.discardPacket_ps (s : State) : (s.discardPacket).ps = s.ps := rfl
@[simp] theorem State.discardPacket_ott (s : State) : (s.discardPacket).ott = s.ott := rfl
@[simp] theorem State.discardPacket_ports (s : State) : (s.discardPacket).ports = s.ports := rfl
@[simp] theorem State.discardPacket_cu (s : State) : (s.discardPacket).cu = s.cu := rfl
@[simp] theorem State.discardPacket_eu (s : State) : (s.discardPacket).eu = s.eu := rfl
@[simp] theorem State.discardPacket_tb (s : State) : (s.discardPacket).tb = s.tb := rfl
@[simp] theorem State.discardPacket_rs (s : State) : (s.discardPacket).rs = s.rs := rfl
@[simp] theorem State.discardPacket_mail (s : State) : (s.discardPacket).mail = s.mail := rfl
@[simp] theorem State.discardPacket_wire (s : State) : (s.discardPacket).wire = s.wire := rfl

/-! `releaseTag` -/

@[simp] theorem State.releaseTag_pending (s : State) (t : Tag) : (s.releaseTag t).pending = s.pending := rfl
@[simp] theorem State.releaseTag_pins (s : State) (t : Tag) : (s.releaseTag t).pins = s.pins := rfl
@[simp] theorem State.releaseTag_ulc (s : State) (t : Tag) : (s.releaseTag t).ulc = s.ulc := rfl
@[simp] theorem State.releaseTag_ps (s : State) (t : Tag) : (s.releaseTag t).ps = s.ps := rfl
@[simp] theorem State.releaseTag_ott (s : State) (t : Tag) : (s.releaseTag t).ott = s.ott := rfl
@[simp] theorem State.releaseTag_ports (s : State) (t : Tag) : (s.releaseTag t).ports = s.ports := rfl
@[simp] theorem State.releaseTag_cu (s : State) (t : Tag) : (s.releaseTag t).cu = s.cu := rfl
@[simp] theorem State.releaseTag_eu (s : State) (t : Tag) : (s.releaseTag t).eu = s.eu := rfl
@[simp] theorem State.releaseTag_tb (s : State) (t : Tag) : (s.releaseTag t).tb = s.tb := rfl
@[simp] theorem State.releaseTag_rs (s : State) (t : Tag) : (s.releaseTag t).rs = s.rs := rfl
@[simp] theorem State.releaseTag_mail (s : State) (t : Tag) : (s.releaseTag t).mail = s.mail := rfl
@[simp] theorem State.releaseTag_wire (s : State) (t : Tag) : (s.releaseTag t).wire = s.wire := rfl

/-! `setLink` -/

@[simp] theorem State.setLink_pending (s : State) (p : PortId) (up : Bool) : (s.setLink p up).pending = s.pending := rfl
@[simp] theorem State.setLink_ulc (s : State) (p : PortId) (up : Bool) : (s.setLink p up).ulc = s.ulc := rfl
@[simp] theorem State.setLink_iq (s : State) (p : PortId) (up : Bool) : (s.setLink p up).iq = s.iq := rfl
@[simp] theorem State.setLink_ps (s : State) (p : PortId) (up : Bool) : (s.setLink p up).ps = s.ps := rfl
@[simp] theorem State.setLink_ott (s : State) (p : PortId) (up : Bool) : (s.setLink p up).ott = s.ott := rfl
@[simp] theorem State.setLink_ports (s : State) (p : PortId) (up : Bool) : (s.setLink p up).ports = s.ports := rfl
@[simp] theorem State.setLink_cu (s : State) (p : PortId) (up : Bool) : (s.setLink p up).cu = s.cu := rfl
@[simp] theorem State.setLink_eu (s : State) (p : PortId) (up : Bool) : (s.setLink p up).eu = s.eu := rfl
@[simp] theorem State.setLink_tb (s : State) (p : PortId) (up : Bool) : (s.setLink p up).tb = s.tb := rfl
@[simp] theorem State.setLink_rs (s : State) (p : PortId) (up : Bool) : (s.setLink p up).rs = s.rs := rfl
@[simp] theorem State.setLink_mail (s : State) (p : PortId) (up : Bool) : (s.setLink p up).mail = s.mail := rfl
@[simp] theorem State.setLink_wire (s : State) (p : PortId) (up : Bool) : (s.setLink p up).wire = s.wire := rfl

/-! `setSlot` -/

@[simp] theorem State.setSlot_pending (s : State) (p : PortId) (i : SlotId) (x : Slot) : (s.setSlot p i x).pending = s.pending := rfl
@[simp] theorem State.setSlot_pins (s : State) (p : PortId) (i : SlotId) (x : Slot) : (s.setSlot p i x).pins = s.pins := rfl
@[simp] theorem State.setSlot_ulc (s : State) (p : PortId) (i : SlotId) (x : Slot) : (s.setSlot p i x).ulc = s.ulc := rfl
@[simp] theorem State.setSlot_iq (s : State) (p : PortId) (i : SlotId) (x : Slot) : (s.setSlot p i x).iq = s.iq := rfl
@[simp] theorem State.setSlot_ps (s : State) (p : PortId) (i : SlotId) (x : Slot) : (s.setSlot p i x).ps = s.ps := rfl
@[simp] theorem State.setSlot_ott (s : State) (p : PortId) (i : SlotId) (x : Slot) : (s.setSlot p i x).ott = s.ott := rfl
@[simp] theorem State.setSlot_cu (s : State) (p : PortId) (i : SlotId) (x : Slot) : (s.setSlot p i x).cu = s.cu := rfl
@[simp] theorem State.setSlot_eu (s : State) (p : PortId) (i : SlotId) (x : Slot) : (s.setSlot p i x).eu = s.eu := rfl
@[simp] theorem State.setSlot_tb (s : State) (p : PortId) (i : SlotId) (x : Slot) : (s.setSlot p i x).tb = s.tb := rfl
@[simp] theorem State.setSlot_rs (s : State) (p : PortId) (i : SlotId) (x : Slot) : (s.setSlot p i x).rs = s.rs := rfl
@[simp] theorem State.setSlot_mail (s : State) (p : PortId) (i : SlotId) (x : Slot) : (s.setSlot p i x).mail = s.mail := rfl
@[simp] theorem State.setSlot_wire (s : State) (p : PortId) (i : SlotId) (x : Slot) : (s.setSlot p i x).wire = s.wire := rfl

/-! `countTimeout` -/

@[simp] theorem State.countTimeout_pending (s : State) (p : PortId) : (s.countTimeout p).pending = s.pending := rfl
@[simp] theorem State.countTimeout_pins (s : State) (p : PortId) : (s.countTimeout p).pins = s.pins := rfl
@[simp] theorem State.countTimeout_ulc (s : State) (p : PortId) : (s.countTimeout p).ulc = s.ulc := rfl
@[simp] theorem State.countTimeout_iq (s : State) (p : PortId) : (s.countTimeout p).iq = s.iq := rfl
@[simp] theorem State.countTimeout_ps (s : State) (p : PortId) : (s.countTimeout p).ps = s.ps := rfl
@[simp] theorem State.countTimeout_ott (s : State) (p : PortId) : (s.countTimeout p).ott = s.ott := rfl
@[simp] theorem State.countTimeout_cu (s : State) (p : PortId) : (s.countTimeout p).cu = s.cu := rfl
@[simp] theorem State.countTimeout_eu (s : State) (p : PortId) : (s.countTimeout p).eu = s.eu := rfl
@[simp] theorem State.countTimeout_tb (s : State) (p : PortId) : (s.countTimeout p).tb = s.tb := rfl
@[simp] theorem State.countTimeout_rs (s : State) (p : PortId) : (s.countTimeout p).rs = s.rs := rfl
@[simp] theorem State.countTimeout_mail (s : State) (p : PortId) : (s.countTimeout p).mail = s.mail := rfl
@[simp] theorem State.countTimeout_wire (s : State) (p : PortId) : (s.countTimeout p).wire = s.wire := rfl

/-! `countTargetError` -/

@[simp] theorem State.countTargetError_pending (s : State) (p : PortId) : (s.countTargetError p).pending = s.pending := rfl
@[simp] theorem State.countTargetError_pins (s : State) (p : PortId) : (s.countTargetError p).pins = s.pins := rfl
@[simp] theorem State.countTargetError_ulc (s : State) (p : PortId) : (s.countTargetError p).ulc = s.ulc := rfl
@[simp] theorem State.countTargetError_iq (s : State) (p : PortId) : (s.countTargetError p).iq = s.iq := rfl
@[simp] theorem State.countTargetError_ps (s : State) (p : PortId) : (s.countTargetError p).ps = s.ps := rfl
@[simp] theorem State.countTargetError_ott (s : State) (p : PortId) : (s.countTargetError p).ott = s.ott := rfl
@[simp] theorem State.countTargetError_cu (s : State) (p : PortId) : (s.countTargetError p).cu = s.cu := rfl
@[simp] theorem State.countTargetError_eu (s : State) (p : PortId) : (s.countTargetError p).eu = s.eu := rfl
@[simp] theorem State.countTargetError_tb (s : State) (p : PortId) : (s.countTargetError p).tb = s.tb := rfl
@[simp] theorem State.countTargetError_rs (s : State) (p : PortId) : (s.countTargetError p).rs = s.rs := rfl
@[simp] theorem State.countTargetError_mail (s : State) (p : PortId) : (s.countTargetError p).mail = s.mail := rfl
@[simp] theorem State.countTargetError_wire (s : State) (p : PortId) : (s.countTargetError p).wire = s.wire := rfl

/-! `settleIdle` -/

@[simp] theorem State.settleIdle_pending (s : State) (p : PortId) : (s.settleIdle p).pending = s.pending := rfl
@[simp] theorem State.settleIdle_pins (s : State) (p : PortId) : (s.settleIdle p).pins = s.pins := rfl
@[simp] theorem State.settleIdle_ulc (s : State) (p : PortId) : (s.settleIdle p).ulc = s.ulc := rfl
@[simp] theorem State.settleIdle_iq (s : State) (p : PortId) : (s.settleIdle p).iq = s.iq := rfl
@[simp] theorem State.settleIdle_ps (s : State) (p : PortId) : (s.settleIdle p).ps = s.ps := rfl
@[simp] theorem State.settleIdle_ott (s : State) (p : PortId) : (s.settleIdle p).ott = s.ott := rfl
@[simp] theorem State.settleIdle_cu (s : State) (p : PortId) : (s.settleIdle p).cu = s.cu := rfl
@[simp] theorem State.settleIdle_eu (s : State) (p : PortId) : (s.settleIdle p).eu = s.eu := rfl
@[simp] theorem State.settleIdle_tb (s : State) (p : PortId) : (s.settleIdle p).tb = s.tb := rfl
@[simp] theorem State.settleIdle_rs (s : State) (p : PortId) : (s.settleIdle p).rs = s.rs := rfl
@[simp] theorem State.settleIdle_mail (s : State) (p : PortId) : (s.settleIdle p).mail = s.mail := rfl
@[simp] theorem State.settleIdle_wire (s : State) (p : PortId) : (s.settleIdle p).wire = s.wire := rfl

/-! `clearHits` -/

@[simp] theorem State.clearHits_pending (s : State) : (s.clearHits).pending = s.pending := rfl
@[simp] theorem State.clearHits_pins (s : State) : (s.clearHits).pins = s.pins := rfl
@[simp] theorem State.clearHits_ulc (s : State) : (s.clearHits).ulc = s.ulc := rfl
@[simp] theorem State.clearHits_iq (s : State) : (s.clearHits).iq = s.iq := rfl
@[simp] theorem State.clearHits_ott (s : State) : (s.clearHits).ott = s.ott := rfl
@[simp] theorem State.clearHits_ports (s : State) : (s.clearHits).ports = s.ports := rfl
@[simp] theorem State.clearHits_cu (s : State) : (s.clearHits).cu = s.cu := rfl
@[simp] theorem State.clearHits_eu (s : State) : (s.clearHits).eu = s.eu := rfl
@[simp] theorem State.clearHits_tb (s : State) : (s.clearHits).tb = s.tb := rfl
@[simp] theorem State.clearHits_rs (s : State) : (s.clearHits).rs = s.rs := rfl
@[simp] theorem State.clearHits_mail (s : State) : (s.clearHits).mail = s.mail := rfl
@[simp] theorem State.clearHits_wire (s : State) : (s.clearHits).wire = s.wire := rfl

/-! `clearPortCounters` -/

@[simp] theorem State.clearPortCounters_pending (s : State) : (s.clearPortCounters).pending = s.pending := rfl
@[simp] theorem State.clearPortCounters_pins (s : State) : (s.clearPortCounters).pins = s.pins := rfl
@[simp] theorem State.clearPortCounters_ulc (s : State) : (s.clearPortCounters).ulc = s.ulc := rfl
@[simp] theorem State.clearPortCounters_iq (s : State) : (s.clearPortCounters).iq = s.iq := rfl
@[simp] theorem State.clearPortCounters_ps (s : State) : (s.clearPortCounters).ps = s.ps := rfl
@[simp] theorem State.clearPortCounters_ott (s : State) : (s.clearPortCounters).ott = s.ott := rfl
@[simp] theorem State.clearPortCounters_cu (s : State) : (s.clearPortCounters).cu = s.cu := rfl
@[simp] theorem State.clearPortCounters_eu (s : State) : (s.clearPortCounters).eu = s.eu := rfl
@[simp] theorem State.clearPortCounters_tb (s : State) : (s.clearPortCounters).tb = s.tb := rfl
@[simp] theorem State.clearPortCounters_rs (s : State) : (s.clearPortCounters).rs = s.rs := rfl
@[simp] theorem State.clearPortCounters_mail (s : State) : (s.clearPortCounters).mail = s.mail := rfl
@[simp] theorem State.clearPortCounters_wire (s : State) : (s.clearPortCounters).wire = s.wire := rfl

/-! `startPlanOp` -/

@[simp] theorem State.startPlanOp_pending (s : State) (op : PlanOp) (t : Tag) (c : HeldCommand) : (s.startPlanOp op t c).pending = s.pending := rfl
@[simp] theorem State.startPlanOp_pins (s : State) (op : PlanOp) (t : Tag) (c : HeldCommand) : (s.startPlanOp op t c).pins = s.pins := rfl
@[simp] theorem State.startPlanOp_ulc (s : State) (op : PlanOp) (t : Tag) (c : HeldCommand) : (s.startPlanOp op t c).ulc = s.ulc := rfl
@[simp] theorem State.startPlanOp_iq (s : State) (op : PlanOp) (t : Tag) (c : HeldCommand) : (s.startPlanOp op t c).iq = s.iq := rfl
@[simp] theorem State.startPlanOp_ott (s : State) (op : PlanOp) (t : Tag) (c : HeldCommand) : (s.startPlanOp op t c).ott = s.ott := rfl
@[simp] theorem State.startPlanOp_ports (s : State) (op : PlanOp) (t : Tag) (c : HeldCommand) : (s.startPlanOp op t c).ports = s.ports := rfl
@[simp] theorem State.startPlanOp_eu (s : State) (op : PlanOp) (t : Tag) (c : HeldCommand) : (s.startPlanOp op t c).eu = s.eu := rfl
@[simp] theorem State.startPlanOp_tb (s : State) (op : PlanOp) (t : Tag) (c : HeldCommand) : (s.startPlanOp op t c).tb = s.tb := rfl
@[simp] theorem State.startPlanOp_rs (s : State) (op : PlanOp) (t : Tag) (c : HeldCommand) : (s.startPlanOp op t c).rs = s.rs := rfl
@[simp] theorem State.startPlanOp_mail (s : State) (op : PlanOp) (t : Tag) (c : HeldCommand) : (s.startPlanOp op t c).mail = s.mail := rfl
@[simp] theorem State.startPlanOp_wire (s : State) (op : PlanOp) (t : Tag) (c : HeldCommand) : (s.startPlanOp op t c).wire = s.wire := rfl

/-! `inHand` -/

@[simp] theorem State.inHand_pending (s : State) : (s.inHand).pending = s.pending := rfl
@[simp] theorem State.inHand_pins (s : State) : (s.inHand).pins = s.pins := rfl
@[simp] theorem State.inHand_ulc (s : State) : (s.inHand).ulc = s.ulc := rfl
@[simp] theorem State.inHand_iq (s : State) : (s.inHand).iq = s.iq := rfl
@[simp] theorem State.inHand_ps (s : State) : (s.inHand).ps = s.ps := rfl
@[simp] theorem State.inHand_ott (s : State) : (s.inHand).ott = s.ott := rfl
@[simp] theorem State.inHand_ports (s : State) : (s.inHand).ports = s.ports := rfl
@[simp] theorem State.inHand_eu (s : State) : (s.inHand).eu = s.eu := rfl
@[simp] theorem State.inHand_tb (s : State) : (s.inHand).tb = s.tb := rfl
@[simp] theorem State.inHand_rs (s : State) : (s.inHand).rs = s.rs := rfl
@[simp] theorem State.inHand_mail (s : State) : (s.inHand).mail = s.mail := rfl
@[simp] theorem State.inHand_wire (s : State) : (s.inHand).wire = s.wire := rfl

/-! What the updates write -/

@[simp] theorem State.setPort_ports (s : State) (p : PortId) (x : Port) : (s.setPort p x).ports = s.ports.set p.val x p.isLt := rfl
@[simp] theorem State.capture_eu (s : State) (o : Occurrence) : (s.capture o).eu = s.eu.take o := rfl
@[simp] theorem State.emit_wire (s : State) (o : Output) : (s.emit o).wire = s.wire ++ [o] := rfl
@[simp] theorem State.requestAbort_aborts (s : State) (a : AbortSource) : (s.requestAbort a).mail.aborts = s.mail.aborts ++ [a] := rfl
@[simp] theorem State.reportEmpty_emptyReports (s : State) : s.reportEmpty.mail.emptyReports = s.mail.emptyReports + 1 := rfl
@[simp] theorem State.linkStart_credits (s : State) : s.linkStart.ulc.credits = 16 := rfl
@[simp] theorem State.linkStart_state (s : State) : s.linkStart.ulc.state = .up := rfl
@[simp] theorem State.linkStart_creditReturns (s : State) : s.linkStart.mail.creditReturns = 0 := rfl
@[simp] theorem State.linkStart_loss (s : State) : s.linkStart.mail.loss = s.mail.loss := rfl
@[simp] theorem State.linkLoss_ulc (s : State) : s.linkLoss.ulc = ⟨.ready, 0, 0, [], none⟩ := rfl
@[simp] theorem State.setLink_link (s : State) (p : PortId) (up : Bool) : (s.setLink p up).pins.link = s.pins.link.set p.val up p.isLt := rfl

/-! Reading one port after a write -/

/-- The port written reads as written. -/
@[simp] theorem State.port_setPort (s : State) (p : PortId) (x : Port) : (s.setPort p x).port p = x :=
  Vector.getElem_set_self p.isLt

/-- Every other port reads as before. -/
theorem State.port_setPort_ne (s : State) {p q : PortId} (x : Port) (h : p ≠ q) : (s.setPort p x).port q = s.port q :=
  Vector.getElem_set_ne p.isLt q.isLt fun e => h (Fin.ext e)

/-- A port's strike flag is the Event Unit's. -/
@[simp] theorem State.strikeFlag_setPort (s : State) (p q : PortId) (x : Port) :
    (s.setPort p x).strikeFlag q = s.strikeFlag q := rfl

end Sys2Proof.Machine
end

