-- ==== Sys2Proof/Laws/Frames.lean ====
section
/-! SUPPORT. What the operations of the data path (the ports, the OTT, the response queue) can change: one lemma for each of
them, `Carries`, which says all at once which blocks it leaves alone and what it may do to the ULC and to what is on its way. -/

namespace Sys2Proof.Machine

/-- From `s` to `t` only the data path moved: ports, OTT, response queue and transmitter, output lines, and reports on their
way. The credit count is untouched, credits awaiting return can only be announced, an ULC that is not UP does not change,
and no strike is put on its way. -/
structure State.Carries (s t : State) : Prop where
  pending : t.pending = s.pending
  pins : t.pins = s.pins
  iq : t.iq = s.iq
  ps : t.ps = s.ps
  cu : t.cu = s.cu
  eu : t.eu = s.eu
  tb : t.tb = s.tb
  rs : t.rs = s.rs
  creditReturns : t.mail.creditReturns = s.mail.creditReturns
  hitReports : t.mail.hitReports = s.mail.hitReports
  aborts : t.mail.aborts = s.mail.aborts
  ends : t.mail.ends = s.mail.ends
  answers : t.mail.answers = s.mail.answers
  returns : t.mail.returns = s.mail.returns
  arrivals : t.mail.arrivals = s.mail.arrivals
  loss : t.mail.loss = s.mail.loss
  ulcState : t.ulc.state = s.ulc.state
  credits : t.ulc.credits = s.ulc.credits
  awaiting : t.ulc.awaiting ≤ s.ulc.awaiting
  notUp : s.ulc.state ≠ .up → t.ulc = s.ulc
  strikes : ∀ p, Occurrence.strike p ∈ t.mail.occurrences → Occurrence.strike p ∈ s.mail.occurrences

theorem State.Carries.refl (s : State) : s.Carries s := by constructor <;> simp

theorem State.Carries.trans {s t u : State} (a : s.Carries t) (b : t.Carries u) : s.Carries u where
  pending := b.pending.trans a.pending
  pins := b.pins.trans a.pins
  iq := b.iq.trans a.iq
  ps := b.ps.trans a.ps
  cu := b.cu.trans a.cu
  eu := b.eu.trans a.eu
  tb := b.tb.trans a.tb
  rs := b.rs.trans a.rs
  creditReturns := b.creditReturns.trans a.creditReturns
  hitReports := b.hitReports.trans a.hitReports
  aborts := b.aborts.trans a.aborts
  ends := b.ends.trans a.ends
  answers := b.answers.trans a.answers
  returns := b.returns.trans a.returns
  arrivals := b.arrivals.trans a.arrivals
  loss := b.loss.trans a.loss
  ulcState := b.ulcState.trans a.ulcState
  credits := b.credits.trans a.credits
  awaiting := b.awaiting.trans a.awaiting
  notUp h := (b.notUp (a.ulcState ▸ h)).trans (a.notUp h)
  strikes p h := a.strikes p (b.strikes p h)

/-! ## The transmitter -/

/-- The free transmitter's choice moves no credit and leaves an ULC that is not UP alone. -/
theorem Ulc.kick_frame (u : Ulc) :
    u.kick.state = u.state ∧ u.kick.credits = u.credits ∧ u.kick.awaiting ≤ u.awaiting ∧ u.kick.queue = u.queue
      ∧ (u.state ≠ .up → u.kick = u) := by
  unfold Ulc.kick
  refine ⟨?_, ?_, ?_, ?_, ?_⟩
  all_goals (repeat' split) <;> simp_all

/-- What `n` returned credits do to the counts of an ULC that is UP (R7). -/
theorem Ulc.takeCredits_up (u : Ulc) (n : Nat) (h : u.state = .up) :
    (u.takeCredits n).state = .up ∧ (u.takeCredits n).credits = u.credits + n
      ∧ (u.takeCredits n).awaiting ≤ u.awaiting + n ∧ (u.takeCredits n).queue = u.queue := by
  have k := Ulc.kick_frame { u with credits := u.credits + n, awaiting := u.awaiting + n }
  simp only [Ulc.takeCredits, h, if_true] at *
  exact ⟨k.1, k.2.1, k.2.2.1, k.2.2.2.1⟩

/-- A credit returned to an ULC that is not UP is dropped (R7). -/
theorem Ulc.takeCredits_not_up (u : Ulc) (n : Nat) (h : u.state ≠ .up) : u.takeCredits n = u := by
  simp [Ulc.takeCredits, h]

theorem State.place_carries (s : State) (r : Response) : s.Carries (s.place r) := by
  have k := Ulc.kick_frame { s.ulc with queue := s.ulc.queue ++ [r] }
  unfold State.place
  split
  · constructor <;> simp_all
  · exact .refl s

theorem State.respond_carries (s : State) (k : MemKind) (t : Tag) (st : Status) (d : List Byte) :
    s.Carries (s.respond k t st d) := s.place_carries _

theorem State.reply_carries (s : State) (t : Tag) (st : Status) (c : List Byte) : s.Carries (s.reply t st c) :=
  s.place_carries _

/-! ## Single updates -/

theorem State.setPort_carries (s : State) (p : PortId) (x : Port) : s.Carries (s.setPort p x) := by constructor <;> simp
theorem State.setEntry_carries (s : State) (e : Entry) : s.Carries (s.setEntry e) := by constructor <;> simp
theorem State.markCopy_carries (s : State) (t : Tag) (p : PortId) (st : CopyState) (i : Option SlotId) :
    s.Carries (s.markCopy t p st i) := by constructor <;> simp
theorem State.emit_carries (s : State) (o : Output) : s.Carries (s.emit o) := by constructor <;> simp
theorem State.ott_carries (s : State) (es : List Entry) : s.Carries { s with ott := es } := by constructor <;> simp
theorem State.attemptDue_carries (s : State) (e : AttemptEvent) : s.Carries (s.attemptDue e) := by
  constructor <;> simp [State.attemptDue]
theorem State.reportEmpty_carries (s : State) : s.Carries s.reportEmpty := by constructor <;> simp [State.reportEmpty]
theorem State.settleIdle_carries (s : State) (p : PortId) : s.Carries (s.settleIdle p) := s.setPort_carries _ _
theorem State.setSlot_carries (s : State) (p : PortId) (i : SlotId) (x : Slot) : s.Carries (s.setSlot p i x) :=
  s.setPort_carries _ _
theorem State.countTimeout_carries (s : State) (p : PortId) : s.Carries (s.countTimeout p) := s.setPort_carries _ _
theorem State.countTargetError_carries (s : State) (p : PortId) : s.Carries (s.countTargetError p) := s.setPort_carries _ _

/-- A report carries, if it is no strike. -/
theorem State.report_carries (s : State) (o : Occurrence) (h : ∀ p, o ≠ .strike p) : s.Carries (s.report o) := by
  unfold State.report
  split
  · exact .refl s
  · constructor <;> simp
    intro p hp
    rcases hp with hp | hp
    · exact hp
    · exact absurd hp.symm (h p)

/-! ## Waking, sending and the arbiter -/

theorem State.completeWake_carries (s : State) (p : PortId) : s.Carries (s.completeWake p) :=
  (s.setPort_carries _ _).trans (State.attemptDue_carries _ _)

theorem State.startWake_carries (s : State) (p : PortId) : s.Carries (s.startWake p) := by
  unfold State.startWake
  have h := ((s.setPort_carries p { s.port p with state := .waking, wake := some (s.port p).wakeTimeout }).trans
    (State.emit_carries _ (.wake p))).trans (State.attemptDue_carries _ (.portChanged p))
  simp only
  split
  · exact h.trans (State.completeWake_carries _ p)
  · exact h

theorem State.placeCopy_carries (s : State) (p : PortId) (t : Tag) : s.Carries (s.placeCopy p t) := by
  unfold State.placeCopy
  have h := (s.setPort_carries p { s.port p with egress := (s.port p).egress ++ [t] }).trans
    (State.markCopy_carries _ t p .queued none)
  simp only
  split
  · exact h.trans (State.startWake_carries _ p)
  · exact h

theorem State.sendOn_carries (s : State) (p : PortId) (t : Tag) (rest : List Tag) (i : SlotId) :
    s.Carries (s.sendOn p t rest i) := by
  unfold State.sendOn
  simp only
  split <;> split
  all_goals first
    | exact (((State.setPort_carries _ _ _).trans (State.markCopy_carries _ _ _ _ _)).trans (State.emit_carries _ _)).trans
        (State.attemptDue_carries _ _)
    | exact ((State.setPort_carries _ _ _).trans (State.markCopy_carries _ _ _ _ _)).trans (State.attemptDue_carries _ _)
    | exact ((State.setPort_carries _ _ _).trans (State.markCopy_carries _ _ _ _ _)).trans (State.emit_carries _ _)
    | exact (State.setPort_carries _ _ _).trans (State.markCopy_carries _ _ _ _ _)

theorem State.send_carries {s t : State} {p : PortId} (h : s.send? p = some t) : s.Carries t := by
  unfold State.send? at h
  split at h
  · cases h; exact State.sendOn_carries _ _ _ _ _
  · cases h

theorem State.arbitrate_carries {s t : State} {p : PortId} (h : s.arbitrate? p = some t) : s.Carries t := by
  unfold State.arbitrate? at h
  split at h
  · split at h
    · cases h; exact State.placeCopy_carries _ _ _
    · cases h
  · cases h

theorem State.serveN_carries (n : Nat) (s : State) (p : PortId) : s.Carries (State.serveN n s p) := by
  induction n generalizing s with
  | zero => exact .refl s
  | succ n ih =>
    unfold State.serveN
    split
    · next h => exact (State.arbitrate_carries h).trans (ih _)
    · split
      · next h => exact (State.send_carries h).trans (ih _)
      · exact .refl s

theorem State.serve_carries (s : State) (p : PortId) : s.Carries (s.serve p) :=
  (State.serveN_carries _ s p).trans (State.settleIdle_carries _ p)

theorem State.park_carries (s : State) (p : PortId) : s.Carries (s.park p) :=
  ((s.setPort_carries _ _).trans (State.emit_carries _ _)).trans (State.attemptDue_carries _ _)

theorem State.parkWaking_carries (ps : List PortId) (s : State) : s.Carries (s.parkWaking ps) := by
  induction ps generalizing s with
  | nil => exact .refl s
  | cons p ps ih =>
    unfold State.parkWaking
    refine State.Carries.trans ?_ (ih _)
    split
    · exact (s.setPort_carries _ _).trans (State.attemptDue_carries _ _)
    · exact .refl s

/-! ## Outcomes and leaving service -/

theorem State.complete_carries (s : State) (e : Entry) (st : Status) : s.Carries (s.complete e st) := by
  unfold State.complete
  simp only
  split <;> split
  all_goals first
    | exact (((State.ott_carries _ _).trans (State.respond_carries _ _ _ _ _)).trans
        (State.report_carries _ _ (by simp))).trans (State.reportEmpty_carries _)
    | exact ((State.ott_carries _ _).trans (State.respond_carries _ _ _ _ _)).trans (State.report_carries _ _ (by simp))
    | exact ((State.ott_carries _ _).trans (State.respond_carries _ _ _ _ _)).trans (State.reportEmpty_carries _)
    | exact (State.ott_carries _ _).trans (State.respond_carries _ _ _ _ _)

theorem State.reissue_carries (s : State) (e : Entry) (q : PortId) (i : Nat) (a : Addr) : s.Carries (s.reissue e q i a) := by
  unfold State.reissue
  simp only
  split
  · exact ((State.setEntry_carries _ _).trans (State.placeCopy_carries _ _ _)).trans (State.serve_carries _ _)
  · exact State.setEntry_carries _ _

theorem State.failover_carries (s : State) (e : Entry) (p : PortId) (o : CopyState) : s.Carries (s.failover e p o) := by
  unfold State.failover
  split
  · split
    · exact State.reissue_carries _ _ _ _ _
    · exact State.complete_carries _ _ _
  · exact State.complete_carries _ _ _

theorem State.outcome_carries (s : State) (t : Tag) (p : PortId) (o : CopyState) (d : List Byte) :
    s.Carries (s.outcome t p o d) := by
  unfold State.outcome
  split
  · exact .refl s
  · simp only
    repeat' split
    all_goals first
      | exact State.setEntry_carries _ _
      | exact (State.setEntry_carries _ _).trans (State.complete_carries _ _ _)
      | exact (State.setEntry_carries _ _).trans (State.failover_carries _ _ _ _)

theorem State.runJob_carries (s : State) (p : PortId) (j : Job) : s.Carries (s.runJob p j) := by
  unfold State.runJob
  split
  · exact State.outcome_carries _ _ _ _ _
  · split
    · exact State.outcome_carries _ _ _ _ _
    · exact .refl s
  · exact State.reply_carries _ _ _ _

theorem State.runJobs_carries (js : List Job) (s : State) (p : PortId) : s.Carries (s.runJobs p js) := by
  induction js generalizing s with
  | nil => exact .refl s
  | cons j js ih => exact (State.runJob_carries s p j).trans (ih _)

theorem State.leaveService_carries (s : State) (p : PortId) (st : PortState) (c : Option QuarantineCause) (more : List Job)
    (o : Order) : s.Carries (s.leaveService p st c more o) :=
  ((s.setPort_carries _ _).trans (State.attemptDue_carries _ _)).trans (State.runJobs_carries _ _ _)

theorem State.quarantine_carries (s : State) (p : PortId) (c : QuarantineCause) (more : List Job) (o : Order) :
    s.Carries (s.quarantine p c more o) :=
  (State.report_carries _ _ (by simp)).trans (State.leaveService_carries _ _ _ _ _ _)

/-! ## The abort -/

theorem State.answerAborted_carries (as : List AbortedAnswer) (s : State) : s.Carries (s.answerAborted as) := by
  induction as generalizing s with
  | nil => exact .refl s
  | cons a as ih => exact (State.place_carries _ _).trans (ih _)

/-- A response presented in UP stands at the tail of the response queue (R8). -/
theorem State.place_up (s : State) (r : Response) (h : s.ulc.state = .up) :
    (s.place r).ulc.queue = s.ulc.queue ++ [r] ∧ (s.place r).ulc.state = .up := by
  have k := Ulc.kick_frame { s.ulc with queue := s.ulc.queue ++ [r] }
  unfold State.place
  rw [if_pos h]
  exact ⟨k.2.2.2.1, k.1.trans h⟩

/-- ABORTED answers touch the ULC alone, and in UP they stand at the tail of its queue in their order. -/
theorem State.answerAborted_spec (as : List AbortedAnswer) (s : State) :
    s.answerAborted as = { s with ulc := (s.answerAborted as).ulc }
      ∧ (s.ulc.state = .up → (s.answerAborted as).ulc.queue = s.ulc.queue ++ as.map fun a =>
          ⟨a.kind, a.tag, .aborted, if a.kind = .control then s.eu.summary else 0, []⟩) := by
  induction as generalizing s with
  | nil => simp [State.answerAborted]
  | cons a as ih =>
    let r : Response := ⟨a.kind, a.tag, .aborted, if a.kind = .control then s.eu.summary else 0, []⟩
    obtain ⟨u, e⟩ : ∃ u, s.place r = { s with ulc := u } := by
      unfold State.place; split
      · exact ⟨_, rfl⟩
      · exact ⟨s.ulc, rfl⟩
    have k := ih (s.place r)
    have hu := s.place_up r
    have ha : s.answerAborted (a :: as) = (s.place r).answerAborted as := rfl
    rw [ha]
    rw [e] at k hu ⊢
    refine ⟨k.1, fun h => ?_⟩
    rw [k.2 (hu h).2, (hu h).1, List.map_cons, List.append_assoc]
    rfl

theorem State.abortPort_carries (s : State) (p : PortId) (c : Bool) : s.Carries (s.abortPort p c) := by
  unfold State.abortPort
  simp only
  split
  · exact ((s.setPort_carries _ _).trans (State.settleIdle_carries _ _)).trans (State.attemptDue_carries _ _)
  · exact (s.setPort_carries _ _).trans (State.settleIdle_carries _ _)

theorem State.abortPorts_carries (c : PortId → Bool) (ps : List PortId) (s : State) : s.Carries (s.abortPorts c ps) := by
  induction ps generalizing s with
  | nil => exact .refl s
  | cons p ps ih => exact (State.abortPort_carries _ _ _).trans (ih _)

/-- But for the answers and the returns that waited for it, an abort moves the data path alone. -/
theorem State.abort_carries (s : State) (o : Order) :
    ({ s with mail := { s.mail with answers := [], returns := [] } } : State).Carries (s.abort o) :=
  ((((State.ott_carries _ []).trans (State.answerAborted_carries _ _)).trans (State.abortPorts_carries _ _ _)).trans
    (State.parkWaking_carries _ _)).trans (State.reportEmpty_carries _)

/-- But for the ports that it leaves waiting for the abort, the return to PARKED moves the data path alone. -/
theorem State.returnWaking_carries (s : State) :
    ({ s with mail := { s.mail with returns := s.returnWaking.mail.returns } } : State).Carries s.returnWaking := by
  have h := State.parkWaking_carries (allPorts.filter s.nothingWaits) { s with mail := { s.mail with
    returns := allPorts.filter fun p => s.mail.returns.contains p || ((s.port p).state == .waking && !s.nothingWaits p) } }
  have e := h.returns
  unfold State.returnWaking
  rw [e]
  exact h

/-! ## Ports -/

theorem State.activate_carries (s : State) (p : PortId) : s.Carries (s.activate p) :=
  ((s.setPort_carries _ _).trans (State.attemptDue_carries _ _)).trans (State.settleIdle_carries _ _)

theorem State.linkUp_carries (s : State) (p : PortId) : s.Carries (s.linkUp p) := by
  unfold State.linkUp
  split
  · exact .refl s
  · exact State.emit_carries _ _
  · exact (State.completeWake_carries _ _).trans (State.serve_carries _ _)
  · split
    · exact State.activate_carries _ _
    · exact .refl s
  · exact .refl s

theorem State.linkDown_carries (s : State) (p : PortId) (o : Order) : s.Carries (s.linkDown p o) := by
  unfold State.linkDown
  split <;> first
    | exact State.quarantine_carries _ _ _ _ _
    | exact .refl s

theorem State.strayResponse_carries (s : State) (p : PortId) : s.Carries (s.strayResponse p) :=
  (s.setPort_carries _ _).trans (State.report_carries _ _ (by simp))

theorem State.malformedTarget_carries (s : State) (p : PortId) (t : Option SlotId) : s.Carries (s.malformedTarget p t) :=
  State.report_carries _ _ (by simp)

theorem State.answerCopy_carries (s : State) (p : PortId) (i : SlotId) (t : Tag) (ok : Bool) (d : List Byte) :
    s.Carries (s.answerCopy p i t ok d) := by
  have h : s.Carries (if s.refusesAnswer t ok d = true then (s.setSlot p i .free).malformedTarget p (some i)
      else s.setSlot p i .free) := by
    split
    · exact (State.setSlot_carries _ _ _ _).trans (State.malformedTarget_carries _ _ _)
    · exact State.setSlot_carries _ _ _ _
  unfold State.answerCopy
  simp only
  split
  · exact (h.trans (State.outcome_carries _ _ _ _ _)).trans (State.serve_carries _ _)
  · exact ((h.trans (State.countTargetError_carries _ _)).trans (State.outcome_carries _ _ _ _ _)).trans
      (State.serve_carries _ _)

theorem State.matchResponse_carries (s : State) (p : PortId) (i : SlotId) (ok : Bool) (d : List Byte) :
    s.Carries (s.matchResponse p i ok d) := by
  unfold State.matchResponse
  split
  · split
    · exact State.strayResponse_carries _ _
    · exact (State.setSlot_carries _ _ _ _).trans (State.serve_carries _ _)
    · exact State.answerCopy_carries _ _ _ _ _ _
  · exact State.strayResponse_carries _ _

/-- TARGET_RESPONSE moves the data path alone. -/
theorem execTargetResponse_carries (p : PortId) (f : TargetFrame) (s : State) :
    ∃ t, execTargetResponse p f s = .next t ∧ s.Carries t := by
  refine ⟨_, rfl, ?_⟩
  split
  · exact State.malformedTarget_carries _ _ _
  · exact State.malformedTarget_carries _ _ _
  · exact State.matchResponse_carries _ _ _ _ _
  · exact State.matchResponse_carries _ _ _ _ _

/-! ## Admission -/

theorem State.placeCopies_carries (cs : List Copy) (s : State) (t : Tag) : s.Carries (s.placeCopies t cs) := by
  induction cs generalizing s with
  | nil => exact .refl s
  | cons c cs ih => exact ((State.placeCopy_carries _ _ _).trans (State.serve_carries _ _)).trans (ih _)

theorem State.reportRefused_carries (s : State) (ev : Option FaultKind) (k : MemKind) (t : Tag) (a : Addr)
    (w : Option WindowIx) : s.Carries (s.reportRefused ev k t a w) := by
  unfold State.reportRefused
  split
  · exact State.report_carries _ _ (by simp)
  · exact .refl s

end Sys2Proof.Machine
end

