-- ==== Sys2Proof/Laws/Ops.lean ====
section
/-! SUPPORT. One lemma for each field that a shared operation with a choice in it leaves alone, in the order of
Machine/Ops.lean; the port a write reaches; and small laws of the lists and counters the operations use. -/

namespace Sys2Proof.Machine

/-! `attemptDue` -/

@[simp] theorem State.attemptDue_creditReturns (s : State) (e : AttemptEvent) :
    (s.attemptDue e).mail.creditReturns = s.mail.creditReturns := rfl
@[simp] theorem State.attemptDue_hitReports (s : State) (e : AttemptEvent) :
    (s.attemptDue e).mail.hitReports = s.mail.hitReports := rfl
@[simp] theorem State.attemptDue_occurrences (s : State) (e : AttemptEvent) :
    (s.attemptDue e).mail.occurrences = s.mail.occurrences := rfl
@[simp] theorem State.attemptDue_aborts (s : State) (e : AttemptEvent) :
    (s.attemptDue e).mail.aborts = s.mail.aborts := rfl
@[simp] theorem State.attemptDue_emptyReports (s : State) (e : AttemptEvent) :
    (s.attemptDue e).mail.emptyReports = s.mail.emptyReports := rfl
@[simp] theorem State.attemptDue_ends (s : State) (e : AttemptEvent) :
    (s.attemptDue e).mail.ends = s.mail.ends := rfl
@[simp] theorem State.attemptDue_answers (s : State) (e : AttemptEvent) :
    (s.attemptDue e).mail.answers = s.mail.answers := rfl
@[simp] theorem State.attemptDue_returns (s : State) (e : AttemptEvent) :
    (s.attemptDue e).mail.returns = s.mail.returns := rfl
@[simp] theorem State.attemptDue_arrivals (s : State) (e : AttemptEvent) :
    (s.attemptDue e).mail.arrivals = s.mail.arrivals := rfl
@[simp] theorem State.attemptDue_loss (s : State) (e : AttemptEvent) :
    (s.attemptDue e).mail.loss = s.mail.loss := rfl

/-! `hitReport` -/

@[simp] theorem State.hitReport_creditReturns (s : State) (w : WindowIx) :
    (s.hitReport w).mail.creditReturns = s.mail.creditReturns := rfl
@[simp] theorem State.hitReport_occurrences (s : State) (w : WindowIx) :
    (s.hitReport w).mail.occurrences = s.mail.occurrences := rfl
@[simp] theorem State.hitReport_aborts (s : State) (w : WindowIx) :
    (s.hitReport w).mail.aborts = s.mail.aborts := rfl
@[simp] theorem State.hitReport_emptyReports (s : State) (w : WindowIx) :
    (s.hitReport w).mail.emptyReports = s.mail.emptyReports := rfl
@[simp] theorem State.hitReport_ends (s : State) (w : WindowIx) :
    (s.hitReport w).mail.ends = s.mail.ends := rfl
@[simp] theorem State.hitReport_attempts (s : State) (w : WindowIx) :
    (s.hitReport w).mail.attempts = s.mail.attempts := rfl
@[simp] theorem State.hitReport_answers (s : State) (w : WindowIx) :
    (s.hitReport w).mail.answers = s.mail.answers := rfl
@[simp] theorem State.hitReport_returns (s : State) (w : WindowIx) :
    (s.hitReport w).mail.returns = s.mail.returns := rfl
@[simp] theorem State.hitReport_arrivals (s : State) (w : WindowIx) :
    (s.hitReport w).mail.arrivals = s.mail.arrivals := rfl
@[simp] theorem State.hitReport_loss (s : State) (w : WindowIx) :
    (s.hitReport w).mail.loss = s.mail.loss := rfl

/-! `requestAbort` -/

@[simp] theorem State.requestAbort_creditReturns (s : State) (a : AbortSource) :
    (s.requestAbort a).mail.creditReturns = s.mail.creditReturns := rfl
@[simp] theorem State.requestAbort_hitReports (s : State) (a : AbortSource) :
    (s.requestAbort a).mail.hitReports = s.mail.hitReports := rfl
@[simp] theorem State.requestAbort_occurrences (s : State) (a : AbortSource) :
    (s.requestAbort a).mail.occurrences = s.mail.occurrences := rfl
@[simp] theorem State.requestAbort_emptyReports (s : State) (a : AbortSource) :
    (s.requestAbort a).mail.emptyReports = s.mail.emptyReports := rfl
@[simp] theorem State.requestAbort_ends (s : State) (a : AbortSource) :
    (s.requestAbort a).mail.ends = s.mail.ends := rfl
@[simp] theorem State.requestAbort_attempts (s : State) (a : AbortSource) :
    (s.requestAbort a).mail.attempts = s.mail.attempts := rfl
@[simp] theorem State.requestAbort_answers (s : State) (a : AbortSource) :
    (s.requestAbort a).mail.answers = s.mail.answers := rfl
@[simp] theorem State.requestAbort_returns (s : State) (a : AbortSource) :
    (s.requestAbort a).mail.returns = s.mail.returns := rfl
@[simp] theorem State.requestAbort_arrivals (s : State) (a : AbortSource) :
    (s.requestAbort a).mail.arrivals = s.mail.arrivals := rfl
@[simp] theorem State.requestAbort_loss (s : State) (a : AbortSource) :
    (s.requestAbort a).mail.loss = s.mail.loss := rfl

/-! `reportEmpty` -/

@[simp] theorem State.reportEmpty_creditReturns (s : State) :
    (s.reportEmpty).mail.creditReturns = s.mail.creditReturns := rfl
@[simp] theorem State.reportEmpty_hitReports (s : State) :
    (s.reportEmpty).mail.hitReports = s.mail.hitReports := rfl
@[simp] theorem State.reportEmpty_occurrences (s : State) :
    (s.reportEmpty).mail.occurrences = s.mail.occurrences := rfl
@[simp] theorem State.reportEmpty_aborts (s : State) :
    (s.reportEmpty).mail.aborts = s.mail.aborts := rfl
@[simp] theorem State.reportEmpty_ends (s : State) :
    (s.reportEmpty).mail.ends = s.mail.ends := rfl
@[simp] theorem State.reportEmpty_attempts (s : State) :
    (s.reportEmpty).mail.attempts = s.mail.attempts := rfl
@[simp] theorem State.reportEmpty_answers (s : State) :
    (s.reportEmpty).mail.answers = s.mail.answers := rfl
@[simp] theorem State.reportEmpty_returns (s : State) :
    (s.reportEmpty).mail.returns = s.mail.returns := rfl
@[simp] theorem State.reportEmpty_arrivals (s : State) :
    (s.reportEmpty).mail.arrivals = s.mail.arrivals := rfl
@[simp] theorem State.reportEmpty_loss (s : State) :
    (s.reportEmpty).mail.loss = s.mail.loss := rfl

/-! `linkStart` -/

@[simp] theorem State.linkStart_hitReports (s : State) :
    (s.linkStart).mail.hitReports = s.mail.hitReports := rfl
@[simp] theorem State.linkStart_occurrences (s : State) :
    (s.linkStart).mail.occurrences = s.mail.occurrences := rfl
@[simp] theorem State.linkStart_aborts (s : State) :
    (s.linkStart).mail.aborts = s.mail.aborts := rfl
@[simp] theorem State.linkStart_emptyReports (s : State) :
    (s.linkStart).mail.emptyReports = s.mail.emptyReports := rfl
@[simp] theorem State.linkStart_attempts (s : State) :
    (s.linkStart).mail.attempts = s.mail.attempts := rfl
@[simp] theorem State.linkStart_answers (s : State) :
    (s.linkStart).mail.answers = s.mail.answers := rfl
@[simp] theorem State.linkStart_returns (s : State) :
    (s.linkStart).mail.returns = s.mail.returns := rfl
@[simp] theorem State.linkStart_arrivals (s : State) :
    (s.linkStart).mail.arrivals = s.mail.arrivals := rfl

/-! `place` -/

@[simp] theorem State.place_pending (s : State) (r : Response) :
    (s.place r).pending = s.pending := by unfold State.place; split <;> simp
@[simp] theorem State.place_pins (s : State) (r : Response) :
    (s.place r).pins = s.pins := by unfold State.place; split <;> simp
@[simp] theorem State.place_iq (s : State) (r : Response) :
    (s.place r).iq = s.iq := by unfold State.place; split <;> simp
@[simp] theorem State.place_ps (s : State) (r : Response) :
    (s.place r).ps = s.ps := by unfold State.place; split <;> simp
@[simp] theorem State.place_ott (s : State) (r : Response) :
    (s.place r).ott = s.ott := by unfold State.place; split <;> simp
@[simp] theorem State.place_ports (s : State) (r : Response) :
    (s.place r).ports = s.ports := by unfold State.place; split <;> simp
@[simp] theorem State.place_cu (s : State) (r : Response) :
    (s.place r).cu = s.cu := by unfold State.place; split <;> simp
@[simp] theorem State.place_eu (s : State) (r : Response) :
    (s.place r).eu = s.eu := by unfold State.place; split <;> simp
@[simp] theorem State.place_tb (s : State) (r : Response) :
    (s.place r).tb = s.tb := by unfold State.place; split <;> simp
@[simp] theorem State.place_rs (s : State) (r : Response) :
    (s.place r).rs = s.rs := by unfold State.place; split <;> simp
@[simp] theorem State.place_mail (s : State) (r : Response) :
    (s.place r).mail = s.mail := by unfold State.place; split <;> simp
@[simp] theorem State.place_wire (s : State) (r : Response) :
    (s.place r).wire = s.wire := by unfold State.place; split <;> simp

/-! `respond` -/

@[simp] theorem State.respond_pending (s : State) (k : MemKind) (t : Tag) (st : Status) (d : List Byte) :
    (s.respond k t st d).pending = s.pending := by simp [State.respond]
@[simp] theorem State.respond_pins (s : State) (k : MemKind) (t : Tag) (st : Status) (d : List Byte) :
    (s.respond k t st d).pins = s.pins := by simp [State.respond]
@[simp] theorem State.respond_iq (s : State) (k : MemKind) (t : Tag) (st : Status) (d : List Byte) :
    (s.respond k t st d).iq = s.iq := by simp [State.respond]
@[simp] theorem State.respond_ps (s : State) (k : MemKind) (t : Tag) (st : Status) (d : List Byte) :
    (s.respond k t st d).ps = s.ps := by simp [State.respond]
@[simp] theorem State.respond_ott (s : State) (k : MemKind) (t : Tag) (st : Status) (d : List Byte) :
    (s.respond k t st d).ott = s.ott := by simp [State.respond]
@[simp] theorem State.respond_ports (s : State) (k : MemKind) (t : Tag) (st : Status) (d : List Byte) :
    (s.respond k t st d).ports = s.ports := by simp [State.respond]
@[simp] theorem State.respond_cu (s : State) (k : MemKind) (t : Tag) (st : Status) (d : List Byte) :
    (s.respond k t st d).cu = s.cu := by simp [State.respond]
@[simp] theorem State.respond_eu (s : State) (k : MemKind) (t : Tag) (st : Status) (d : List Byte) :
    (s.respond k t st d).eu = s.eu := by simp [State.respond]
@[simp] theorem State.respond_tb (s : State) (k : MemKind) (t : Tag) (st : Status) (d : List Byte) :
    (s.respond k t st d).tb = s.tb := by simp [State.respond]
@[simp] theorem State.respond_rs (s : State) (k : MemKind) (t : Tag) (st : Status) (d : List Byte) :
    (s.respond k t st d).rs = s.rs := by simp [State.respond]
@[simp] theorem State.respond_mail (s : State) (k : MemKind) (t : Tag) (st : Status) (d : List Byte) :
    (s.respond k t st d).mail = s.mail := by simp [State.respond]
@[simp] theorem State.respond_wire (s : State) (k : MemKind) (t : Tag) (st : Status) (d : List Byte) :
    (s.respond k t st d).wire = s.wire := by simp [State.respond]

/-! `reply` -/

@[simp] theorem State.reply_pending (s : State) (t : Tag) (st : Status) (c : List Byte) :
    (s.reply t st c).pending = s.pending := by simp [State.reply]
@[simp] theorem State.reply_pins (s : State) (t : Tag) (st : Status) (c : List Byte) :
    (s.reply t st c).pins = s.pins := by simp [State.reply]
@[simp] theorem State.reply_iq (s : State) (t : Tag) (st : Status) (c : List Byte) :
    (s.reply t st c).iq = s.iq := by simp [State.reply]
@[simp] theorem State.reply_ps (s : State) (t : Tag) (st : Status) (c : List Byte) :
    (s.reply t st c).ps = s.ps := by simp [State.reply]
@[simp] theorem State.reply_ott (s : State) (t : Tag) (st : Status) (c : List Byte) :
    (s.reply t st c).ott = s.ott := by simp [State.reply]
@[simp] theorem State.reply_ports (s : State) (t : Tag) (st : Status) (c : List Byte) :
    (s.reply t st c).ports = s.ports := by simp [State.reply]
@[simp] theorem State.reply_cu (s : State) (t : Tag) (st : Status) (c : List Byte) :
    (s.reply t st c).cu = s.cu := by simp [State.reply]
@[simp] theorem State.reply_eu (s : State) (t : Tag) (st : Status) (c : List Byte) :
    (s.reply t st c).eu = s.eu := by simp [State.reply]
@[simp] theorem State.reply_tb (s : State) (t : Tag) (st : Status) (c : List Byte) :
    (s.reply t st c).tb = s.tb := by simp [State.reply]
@[simp] theorem State.reply_rs (s : State) (t : Tag) (st : Status) (c : List Byte) :
    (s.reply t st c).rs = s.rs := by simp [State.reply]
@[simp] theorem State.reply_mail (s : State) (t : Tag) (st : Status) (c : List Byte) :
    (s.reply t st c).mail = s.mail := by simp [State.reply]
@[simp] theorem State.reply_wire (s : State) (t : Tag) (st : Status) (c : List Byte) :
    (s.reply t st c).wire = s.wire := by simp [State.reply]

/-! `report` -/

@[simp] theorem State.report_pending (s : State) (o : Occurrence) :
    (s.report o).pending = s.pending := by unfold State.report; split <;> simp
@[simp] theorem State.report_pins (s : State) (o : Occurrence) :
    (s.report o).pins = s.pins := by unfold State.report; split <;> simp
@[simp] theorem State.report_ulc (s : State) (o : Occurrence) :
    (s.report o).ulc = s.ulc := by unfold State.report; split <;> simp
@[simp] theorem State.report_iq (s : State) (o : Occurrence) :
    (s.report o).iq = s.iq := by unfold State.report; split <;> simp
@[simp] theorem State.report_ps (s : State) (o : Occurrence) :
    (s.report o).ps = s.ps := by unfold State.report; split <;> simp
@[simp] theorem State.report_ott (s : State) (o : Occurrence) :
    (s.report o).ott = s.ott := by unfold State.report; split <;> simp
@[simp] theorem State.report_ports (s : State) (o : Occurrence) :
    (s.report o).ports = s.ports := by unfold State.report; split <;> simp
@[simp] theorem State.report_cu (s : State) (o : Occurrence) :
    (s.report o).cu = s.cu := by unfold State.report; split <;> simp
@[simp] theorem State.report_eu (s : State) (o : Occurrence) :
    (s.report o).eu = s.eu := by unfold State.report; split <;> simp
@[simp] theorem State.report_tb (s : State) (o : Occurrence) :
    (s.report o).tb = s.tb := by unfold State.report; split <;> simp
@[simp] theorem State.report_rs (s : State) (o : Occurrence) :
    (s.report o).rs = s.rs := by unfold State.report; split <;> simp
@[simp] theorem State.report_wire (s : State) (o : Occurrence) :
    (s.report o).wire = s.wire := by unfold State.report; split <;> simp
@[simp] theorem State.report_creditReturns (s : State) (o : Occurrence) :
    (s.report o).mail.creditReturns = s.mail.creditReturns := by unfold State.report; split <;> simp
@[simp] theorem State.report_hitReports (s : State) (o : Occurrence) :
    (s.report o).mail.hitReports = s.mail.hitReports := by unfold State.report; split <;> simp
@[simp] theorem State.report_aborts (s : State) (o : Occurrence) :
    (s.report o).mail.aborts = s.mail.aborts := by unfold State.report; split <;> simp
@[simp] theorem State.report_emptyReports (s : State) (o : Occurrence) :
    (s.report o).mail.emptyReports = s.mail.emptyReports := by unfold State.report; split <;> simp
@[simp] theorem State.report_ends (s : State) (o : Occurrence) :
    (s.report o).mail.ends = s.mail.ends := by unfold State.report; split <;> simp
@[simp] theorem State.report_attempts (s : State) (o : Occurrence) :
    (s.report o).mail.attempts = s.mail.attempts := by unfold State.report; split <;> simp
@[simp] theorem State.report_answers (s : State) (o : Occurrence) :
    (s.report o).mail.answers = s.mail.answers := by unfold State.report; split <;> simp
@[simp] theorem State.report_returns (s : State) (o : Occurrence) :
    (s.report o).mail.returns = s.mail.returns := by unfold State.report; split <;> simp
@[simp] theorem State.report_arrivals (s : State) (o : Occurrence) :
    (s.report o).mail.arrivals = s.mail.arrivals := by unfold State.report; split <;> simp
@[simp] theorem State.report_loss (s : State) (o : Occurrence) :
    (s.report o).mail.loss = s.mail.loss := by unfold State.report; split <;> simp

/-! `returnCredits` -/

@[simp] theorem State.returnCredits_pending (s : State) (path : CreditPath) (n : Nat) :
    (s.returnCredits path n).pending = s.pending := by unfold State.returnCredits; split <;> simp
@[simp] theorem State.returnCredits_pins (s : State) (path : CreditPath) (n : Nat) :
    (s.returnCredits path n).pins = s.pins := by unfold State.returnCredits; split <;> simp
@[simp] theorem State.returnCredits_iq (s : State) (path : CreditPath) (n : Nat) :
    (s.returnCredits path n).iq = s.iq := by unfold State.returnCredits; split <;> simp
@[simp] theorem State.returnCredits_ps (s : State) (path : CreditPath) (n : Nat) :
    (s.returnCredits path n).ps = s.ps := by unfold State.returnCredits; split <;> simp
@[simp] theorem State.returnCredits_ott (s : State) (path : CreditPath) (n : Nat) :
    (s.returnCredits path n).ott = s.ott := by unfold State.returnCredits; split <;> simp
@[simp] theorem State.returnCredits_ports (s : State) (path : CreditPath) (n : Nat) :
    (s.returnCredits path n).ports = s.ports := by unfold State.returnCredits; split <;> simp
@[simp] theorem State.returnCredits_cu (s : State) (path : CreditPath) (n : Nat) :
    (s.returnCredits path n).cu = s.cu := by unfold State.returnCredits; split <;> simp
@[simp] theorem State.returnCredits_eu (s : State) (path : CreditPath) (n : Nat) :
    (s.returnCredits path n).eu = s.eu := by unfold State.returnCredits; split <;> simp
@[simp] theorem State.returnCredits_tb (s : State) (path : CreditPath) (n : Nat) :
    (s.returnCredits path n).tb = s.tb := by unfold State.returnCredits; split <;> simp
@[simp] theorem State.returnCredits_rs (s : State) (path : CreditPath) (n : Nat) :
    (s.returnCredits path n).rs = s.rs := by unfold State.returnCredits; split <;> simp
@[simp] theorem State.returnCredits_wire (s : State) (path : CreditPath) (n : Nat) :
    (s.returnCredits path n).wire = s.wire := by unfold State.returnCredits; split <;> simp
@[simp] theorem State.returnCredits_hitReports (s : State) (path : CreditPath) (n : Nat) :
    (s.returnCredits path n).mail.hitReports = s.mail.hitReports := by unfold State.returnCredits; split <;> simp
@[simp] theorem State.returnCredits_occurrences (s : State) (path : CreditPath) (n : Nat) :
    (s.returnCredits path n).mail.occurrences = s.mail.occurrences := by unfold State.returnCredits; split <;> simp
@[simp] theorem State.returnCredits_aborts (s : State) (path : CreditPath) (n : Nat) :
    (s.returnCredits path n).mail.aborts = s.mail.aborts := by unfold State.returnCredits; split <;> simp
@[simp] theorem State.returnCredits_emptyReports (s : State) (path : CreditPath) (n : Nat) :
    (s.returnCredits path n).mail.emptyReports = s.mail.emptyReports := by unfold State.returnCredits; split <;> simp
@[simp] theorem State.returnCredits_ends (s : State) (path : CreditPath) (n : Nat) :
    (s.returnCredits path n).mail.ends = s.mail.ends := by unfold State.returnCredits; split <;> simp
@[simp] theorem State.returnCredits_attempts (s : State) (path : CreditPath) (n : Nat) :
    (s.returnCredits path n).mail.attempts = s.mail.attempts := by unfold State.returnCredits; split <;> simp
@[simp] theorem State.returnCredits_answers (s : State) (path : CreditPath) (n : Nat) :
    (s.returnCredits path n).mail.answers = s.mail.answers := by unfold State.returnCredits; split <;> simp
@[simp] theorem State.returnCredits_returns (s : State) (path : CreditPath) (n : Nat) :
    (s.returnCredits path n).mail.returns = s.mail.returns := by unfold State.returnCredits; split <;> simp
@[simp] theorem State.returnCredits_arrivals (s : State) (path : CreditPath) (n : Nat) :
    (s.returnCredits path n).mail.arrivals = s.mail.arrivals := by unfold State.returnCredits; split <;> simp
@[simp] theorem State.returnCredits_loss (s : State) (path : CreditPath) (n : Nat) :
    (s.returnCredits path n).mail.loss = s.mail.loss := by unfold State.returnCredits; split <;> simp

/-! `settleLink` -/

@[simp] theorem State.settleLink_pending (s : State) :
    (s.settleLink).pending = s.pending := by unfold State.settleLink; split <;> simp
@[simp] theorem State.settleLink_pins (s : State) :
    (s.settleLink).pins = s.pins := by unfold State.settleLink; split <;> simp
@[simp] theorem State.settleLink_iq (s : State) :
    (s.settleLink).iq = s.iq := by unfold State.settleLink; split <;> simp
@[simp] theorem State.settleLink_ps (s : State) :
    (s.settleLink).ps = s.ps := by unfold State.settleLink; split <;> simp
@[simp] theorem State.settleLink_ott (s : State) :
    (s.settleLink).ott = s.ott := by unfold State.settleLink; split <;> simp
@[simp] theorem State.settleLink_ports (s : State) :
    (s.settleLink).ports = s.ports := by unfold State.settleLink; split <;> simp
@[simp] theorem State.settleLink_cu (s : State) :
    (s.settleLink).cu = s.cu := by unfold State.settleLink; split <;> simp
@[simp] theorem State.settleLink_eu (s : State) :
    (s.settleLink).eu = s.eu := by unfold State.settleLink; split <;> simp
@[simp] theorem State.settleLink_tb (s : State) :
    (s.settleLink).tb = s.tb := by unfold State.settleLink; split <;> simp
@[simp] theorem State.settleLink_rs (s : State) :
    (s.settleLink).rs = s.rs := by unfold State.settleLink; split <;> simp
@[simp] theorem State.settleLink_wire (s : State) :
    (s.settleLink).wire = s.wire := by unfold State.settleLink; split <;> simp
@[simp] theorem State.settleLink_hitReports (s : State) :
    (s.settleLink).mail.hitReports = s.mail.hitReports := by unfold State.settleLink; split <;> simp
@[simp] theorem State.settleLink_occurrences (s : State) :
    (s.settleLink).mail.occurrences = s.mail.occurrences := by unfold State.settleLink; split <;> simp
@[simp] theorem State.settleLink_aborts (s : State) :
    (s.settleLink).mail.aborts = s.mail.aborts := by unfold State.settleLink; split <;> simp
@[simp] theorem State.settleLink_emptyReports (s : State) :
    (s.settleLink).mail.emptyReports = s.mail.emptyReports := by unfold State.settleLink; split <;> simp
@[simp] theorem State.settleLink_attempts (s : State) :
    (s.settleLink).mail.attempts = s.mail.attempts := by unfold State.settleLink; split <;> simp
@[simp] theorem State.settleLink_answers (s : State) :
    (s.settleLink).mail.answers = s.mail.answers := by unfold State.settleLink; split <;> simp
@[simp] theorem State.settleLink_returns (s : State) :
    (s.settleLink).mail.returns = s.mail.returns := by unfold State.settleLink; split <;> simp
@[simp] theorem State.settleLink_arrivals (s : State) :
    (s.settleLink).mail.arrivals = s.mail.arrivals := by unfold State.settleLink; split <;> simp
@[simp] theorem State.settleLink_loss (s : State) :
    (s.settleLink).mail.loss = s.mail.loss := by unfold State.settleLink; split <;> simp

/-! `openGate` -/

@[simp] theorem State.openGate_pending (s : State) :
    (s.openGate).pending = s.pending := rfl
@[simp] theorem State.openGate_pins (s : State) :
    (s.openGate).pins = s.pins := rfl
@[simp] theorem State.openGate_ulc (s : State) :
    (s.openGate).ulc = s.ulc := rfl
@[simp] theorem State.openGate_ps (s : State) :
    (s.openGate).ps = s.ps := rfl
@[simp] theorem State.openGate_ott (s : State) :
    (s.openGate).ott = s.ott := rfl
@[simp] theorem State.openGate_ports (s : State) :
    (s.openGate).ports = s.ports := rfl
@[simp] theorem State.openGate_cu (s : State) :
    (s.openGate).cu = s.cu := rfl
@[simp] theorem State.openGate_eu (s : State) :
    (s.openGate).eu = s.eu := rfl
@[simp] theorem State.openGate_tb (s : State) :
    (s.openGate).tb = s.tb := rfl
@[simp] theorem State.openGate_rs (s : State) :
    (s.openGate).rs = s.rs := rfl
@[simp] theorem State.openGate_wire (s : State) :
    (s.openGate).wire = s.wire := rfl
@[simp] theorem State.openGate_creditReturns (s : State) :
    (s.openGate).mail.creditReturns = s.mail.creditReturns := rfl
@[simp] theorem State.openGate_hitReports (s : State) :
    (s.openGate).mail.hitReports = s.mail.hitReports := rfl
@[simp] theorem State.openGate_occurrences (s : State) :
    (s.openGate).mail.occurrences = s.mail.occurrences := rfl
@[simp] theorem State.openGate_ends (s : State) :
    (s.openGate).mail.ends = s.mail.ends := rfl
@[simp] theorem State.openGate_attempts (s : State) :
    (s.openGate).mail.attempts = s.mail.attempts := rfl
@[simp] theorem State.openGate_answers (s : State) :
    (s.openGate).mail.answers = s.mail.answers := rfl
@[simp] theorem State.openGate_returns (s : State) :
    (s.openGate).mail.returns = s.mail.returns := rfl
@[simp] theorem State.openGate_arrivals (s : State) :
    (s.openGate).mail.arrivals = s.mail.arrivals := rfl
@[simp] theorem State.openGate_loss (s : State) :
    (s.openGate).mail.loss = s.mail.loss := rfl

/-! `newHead` -/

@[simp] theorem State.newHead_pending (s : State) :
    (s.newHead).pending = s.pending := by unfold State.newHead; (repeat' split) <;> simp
@[simp] theorem State.newHead_pins (s : State) :
    (s.newHead).pins = s.pins := by unfold State.newHead; (repeat' split) <;> simp
@[simp] theorem State.newHead_ulc (s : State) :
    (s.newHead).ulc = s.ulc := by unfold State.newHead; (repeat' split) <;> simp
@[simp] theorem State.newHead_ps (s : State) :
    (s.newHead).ps = s.ps := by unfold State.newHead; (repeat' split) <;> simp
@[simp] theorem State.newHead_ott (s : State) :
    (s.newHead).ott = s.ott := by unfold State.newHead; (repeat' split) <;> simp
@[simp] theorem State.newHead_ports (s : State) :
    (s.newHead).ports = s.ports := by unfold State.newHead; (repeat' split) <;> simp
@[simp] theorem State.newHead_cu (s : State) :
    (s.newHead).cu = s.cu := by unfold State.newHead; (repeat' split) <;> simp
@[simp] theorem State.newHead_eu (s : State) :
    (s.newHead).eu = s.eu := by unfold State.newHead; (repeat' split) <;> simp
@[simp] theorem State.newHead_tb (s : State) :
    (s.newHead).tb = s.tb := by unfold State.newHead; (repeat' split) <;> simp
@[simp] theorem State.newHead_rs (s : State) :
    (s.newHead).rs = s.rs := by unfold State.newHead; (repeat' split) <;> simp
@[simp] theorem State.newHead_wire (s : State) :
    (s.newHead).wire = s.wire := by unfold State.newHead; (repeat' split) <;> simp
@[simp] theorem State.newHead_creditReturns (s : State) :
    (s.newHead).mail.creditReturns = s.mail.creditReturns := by unfold State.newHead; (repeat' split) <;> simp
@[simp] theorem State.newHead_hitReports (s : State) :
    (s.newHead).mail.hitReports = s.mail.hitReports := by unfold State.newHead; (repeat' split) <;> simp
@[simp] theorem State.newHead_occurrences (s : State) :
    (s.newHead).mail.occurrences = s.mail.occurrences := by unfold State.newHead; (repeat' split) <;> simp
@[simp] theorem State.newHead_aborts (s : State) :
    (s.newHead).mail.aborts = s.mail.aborts := by unfold State.newHead; (repeat' split) <;> simp
@[simp] theorem State.newHead_emptyReports (s : State) :
    (s.newHead).mail.emptyReports = s.mail.emptyReports := by unfold State.newHead; (repeat' split) <;> simp
@[simp] theorem State.newHead_ends (s : State) :
    (s.newHead).mail.ends = s.mail.ends := by unfold State.newHead; (repeat' split) <;> simp
@[simp] theorem State.newHead_answers (s : State) :
    (s.newHead).mail.answers = s.mail.answers := by unfold State.newHead; (repeat' split) <;> simp
@[simp] theorem State.newHead_returns (s : State) :
    (s.newHead).mail.returns = s.mail.returns := by unfold State.newHead; (repeat' split) <;> simp
@[simp] theorem State.newHead_arrivals (s : State) :
    (s.newHead).mail.arrivals = s.mail.arrivals := by unfold State.newHead; (repeat' split) <;> simp
@[simp] theorem State.newHead_loss (s : State) :
    (s.newHead).mail.loss = s.mail.loss := by unfold State.newHead; (repeat' split) <;> simp

/-! `leaveHead` -/

@[simp] theorem State.leaveHead_pending (s : State) (rest : List Request) (credit : CreditPath) :
    (s.leaveHead rest credit).pending = s.pending := by simp [State.leaveHead]
@[simp] theorem State.leaveHead_pins (s : State) (rest : List Request) (credit : CreditPath) :
    (s.leaveHead rest credit).pins = s.pins := by simp [State.leaveHead]
@[simp] theorem State.leaveHead_ps (s : State) (rest : List Request) (credit : CreditPath) :
    (s.leaveHead rest credit).ps = s.ps := by simp [State.leaveHead]
@[simp] theorem State.leaveHead_ott (s : State) (rest : List Request) (credit : CreditPath) :
    (s.leaveHead rest credit).ott = s.ott := by simp [State.leaveHead]
@[simp] theorem State.leaveHead_ports (s : State) (rest : List Request) (credit : CreditPath) :
    (s.leaveHead rest credit).ports = s.ports := by simp [State.leaveHead]
@[simp] theorem State.leaveHead_cu (s : State) (rest : List Request) (credit : CreditPath) :
    (s.leaveHead rest credit).cu = s.cu := by simp [State.leaveHead]
@[simp] theorem State.leaveHead_eu (s : State) (rest : List Request) (credit : CreditPath) :
    (s.leaveHead rest credit).eu = s.eu := by simp [State.leaveHead]
@[simp] theorem State.leaveHead_tb (s : State) (rest : List Request) (credit : CreditPath) :
    (s.leaveHead rest credit).tb = s.tb := by simp [State.leaveHead]
@[simp] theorem State.leaveHead_rs (s : State) (rest : List Request) (credit : CreditPath) :
    (s.leaveHead rest credit).rs = s.rs := by simp [State.leaveHead]
@[simp] theorem State.leaveHead_wire (s : State) (rest : List Request) (credit : CreditPath) :
    (s.leaveHead rest credit).wire = s.wire := by simp [State.leaveHead]
@[simp] theorem State.leaveHead_hitReports (s : State) (rest : List Request) (credit : CreditPath) :
    (s.leaveHead rest credit).mail.hitReports = s.mail.hitReports := by simp [State.leaveHead]
@[simp] theorem State.leaveHead_occurrences (s : State) (rest : List Request) (credit : CreditPath) :
    (s.leaveHead rest credit).mail.occurrences = s.mail.occurrences := by simp [State.leaveHead]
@[simp] theorem State.leaveHead_aborts (s : State) (rest : List Request) (credit : CreditPath) :
    (s.leaveHead rest credit).mail.aborts = s.mail.aborts := by simp [State.leaveHead]
@[simp] theorem State.leaveHead_emptyReports (s : State) (rest : List Request) (credit : CreditPath) :
    (s.leaveHead rest credit).mail.emptyReports = s.mail.emptyReports := by simp [State.leaveHead]
@[simp] theorem State.leaveHead_ends (s : State) (rest : List Request) (credit : CreditPath) :
    (s.leaveHead rest credit).mail.ends = s.mail.ends := by simp [State.leaveHead]
@[simp] theorem State.leaveHead_attempts (s : State) (rest : List Request) (credit : CreditPath) :
    (s.leaveHead rest credit).mail.attempts = s.mail.attempts := by simp [State.leaveHead]
@[simp] theorem State.leaveHead_answers (s : State) (rest : List Request) (credit : CreditPath) :
    (s.leaveHead rest credit).mail.answers = s.mail.answers := by simp [State.leaveHead]
@[simp] theorem State.leaveHead_returns (s : State) (rest : List Request) (credit : CreditPath) :
    (s.leaveHead rest credit).mail.returns = s.mail.returns := by simp [State.leaveHead]
@[simp] theorem State.leaveHead_arrivals (s : State) (rest : List Request) (credit : CreditPath) :
    (s.leaveHead rest credit).mail.arrivals = s.mail.arrivals := by simp [State.leaveHead]
@[simp] theorem State.leaveHead_loss (s : State) (rest : List Request) (credit : CreditPath) :
    (s.leaveHead rest credit).mail.loss = s.mail.loss := by simp [State.leaveHead]

/-! `reportHit` -/

@[simp] theorem State.reportHit_pending (s : State) (w : Option WindowIx) :
    (s.reportHit w).pending = s.pending := by unfold State.reportHit; split <;> simp
@[simp] theorem State.reportHit_pins (s : State) (w : Option WindowIx) :
    (s.reportHit w).pins = s.pins := by unfold State.reportHit; split <;> simp
@[simp] theorem State.reportHit_ulc (s : State) (w : Option WindowIx) :
    (s.reportHit w).ulc = s.ulc := by unfold State.reportHit; split <;> simp
@[simp] theorem State.reportHit_iq (s : State) (w : Option WindowIx) :
    (s.reportHit w).iq = s.iq := by unfold State.reportHit; split <;> simp
@[simp] theorem State.reportHit_ps (s : State) (w : Option WindowIx) :
    (s.reportHit w).ps = s.ps := by unfold State.reportHit; split <;> simp
@[simp] theorem State.reportHit_ott (s : State) (w : Option WindowIx) :
    (s.reportHit w).ott = s.ott := by unfold State.reportHit; split <;> simp
@[simp] theorem State.reportHit_ports (s : State) (w : Option WindowIx) :
    (s.reportHit w).ports = s.ports := by unfold State.reportHit; split <;> simp
@[simp] theorem State.reportHit_cu (s : State) (w : Option WindowIx) :
    (s.reportHit w).cu = s.cu := by unfold State.reportHit; split <;> simp
@[simp] theorem State.reportHit_eu (s : State) (w : Option WindowIx) :
    (s.reportHit w).eu = s.eu := by unfold State.reportHit; split <;> simp
@[simp] theorem State.reportHit_tb (s : State) (w : Option WindowIx) :
    (s.reportHit w).tb = s.tb := by unfold State.reportHit; split <;> simp
@[simp] theorem State.reportHit_rs (s : State) (w : Option WindowIx) :
    (s.reportHit w).rs = s.rs := by unfold State.reportHit; split <;> simp
@[simp] theorem State.reportHit_wire (s : State) (w : Option WindowIx) :
    (s.reportHit w).wire = s.wire := by unfold State.reportHit; split <;> simp
@[simp] theorem State.reportHit_creditReturns (s : State) (w : Option WindowIx) :
    (s.reportHit w).mail.creditReturns = s.mail.creditReturns := by unfold State.reportHit; split <;> simp
@[simp] theorem State.reportHit_occurrences (s : State) (w : Option WindowIx) :
    (s.reportHit w).mail.occurrences = s.mail.occurrences := by unfold State.reportHit; split <;> simp
@[simp] theorem State.reportHit_aborts (s : State) (w : Option WindowIx) :
    (s.reportHit w).mail.aborts = s.mail.aborts := by unfold State.reportHit; split <;> simp
@[simp] theorem State.reportHit_emptyReports (s : State) (w : Option WindowIx) :
    (s.reportHit w).mail.emptyReports = s.mail.emptyReports := by unfold State.reportHit; split <;> simp
@[simp] theorem State.reportHit_ends (s : State) (w : Option WindowIx) :
    (s.reportHit w).mail.ends = s.mail.ends := by unfold State.reportHit; split <;> simp
@[simp] theorem State.reportHit_attempts (s : State) (w : Option WindowIx) :
    (s.reportHit w).mail.attempts = s.mail.attempts := by unfold State.reportHit; split <;> simp
@[simp] theorem State.reportHit_answers (s : State) (w : Option WindowIx) :
    (s.reportHit w).mail.answers = s.mail.answers := by unfold State.reportHit; split <;> simp
@[simp] theorem State.reportHit_returns (s : State) (w : Option WindowIx) :
    (s.reportHit w).mail.returns = s.mail.returns := by unfold State.reportHit; split <;> simp
@[simp] theorem State.reportHit_arrivals (s : State) (w : Option WindowIx) :
    (s.reportHit w).mail.arrivals = s.mail.arrivals := by unfold State.reportHit; split <;> simp
@[simp] theorem State.reportHit_loss (s : State) (w : Option WindowIx) :
    (s.reportHit w).mail.loss = s.mail.loss := by unfold State.reportHit; split <;> simp

/-! `reportRefused` -/

@[simp] theorem State.reportRefused_pending (s : State) (ev : Option FaultKind) (k : MemKind) (t : Tag) (a : Addr) (w : Option WindowIx) :
    (s.reportRefused ev k t a w).pending = s.pending := by unfold State.reportRefused; split <;> simp
@[simp] theorem State.reportRefused_pins (s : State) (ev : Option FaultKind) (k : MemKind) (t : Tag) (a : Addr) (w : Option WindowIx) :
    (s.reportRefused ev k t a w).pins = s.pins := by unfold State.reportRefused; split <;> simp
@[simp] theorem State.reportRefused_ulc (s : State) (ev : Option FaultKind) (k : MemKind) (t : Tag) (a : Addr) (w : Option WindowIx) :
    (s.reportRefused ev k t a w).ulc = s.ulc := by unfold State.reportRefused; split <;> simp
@[simp] theorem State.reportRefused_iq (s : State) (ev : Option FaultKind) (k : MemKind) (t : Tag) (a : Addr) (w : Option WindowIx) :
    (s.reportRefused ev k t a w).iq = s.iq := by unfold State.reportRefused; split <;> simp
@[simp] theorem State.reportRefused_ps (s : State) (ev : Option FaultKind) (k : MemKind) (t : Tag) (a : Addr) (w : Option WindowIx) :
    (s.reportRefused ev k t a w).ps = s.ps := by unfold State.reportRefused; split <;> simp
@[simp] theorem State.reportRefused_ott (s : State) (ev : Option FaultKind) (k : MemKind) (t : Tag) (a : Addr) (w : Option WindowIx) :
    (s.reportRefused ev k t a w).ott = s.ott := by unfold State.reportRefused; split <;> simp
@[simp] theorem State.reportRefused_ports (s : State) (ev : Option FaultKind) (k : MemKind) (t : Tag) (a : Addr) (w : Option WindowIx) :
    (s.reportRefused ev k t a w).ports = s.ports := by unfold State.reportRefused; split <;> simp
@[simp] theorem State.reportRefused_cu (s : State) (ev : Option FaultKind) (k : MemKind) (t : Tag) (a : Addr) (w : Option WindowIx) :
    (s.reportRefused ev k t a w).cu = s.cu := by unfold State.reportRefused; split <;> simp
@[simp] theorem State.reportRefused_eu (s : State) (ev : Option FaultKind) (k : MemKind) (t : Tag) (a : Addr) (w : Option WindowIx) :
    (s.reportRefused ev k t a w).eu = s.eu := by unfold State.reportRefused; split <;> simp
@[simp] theorem State.reportRefused_tb (s : State) (ev : Option FaultKind) (k : MemKind) (t : Tag) (a : Addr) (w : Option WindowIx) :
    (s.reportRefused ev k t a w).tb = s.tb := by unfold State.reportRefused; split <;> simp
@[simp] theorem State.reportRefused_rs (s : State) (ev : Option FaultKind) (k : MemKind) (t : Tag) (a : Addr) (w : Option WindowIx) :
    (s.reportRefused ev k t a w).rs = s.rs := by unfold State.reportRefused; split <;> simp
@[simp] theorem State.reportRefused_wire (s : State) (ev : Option FaultKind) (k : MemKind) (t : Tag) (a : Addr) (w : Option WindowIx) :
    (s.reportRefused ev k t a w).wire = s.wire := by unfold State.reportRefused; split <;> simp
@[simp] theorem State.reportRefused_creditReturns (s : State) (ev : Option FaultKind) (k : MemKind) (t : Tag) (a : Addr) (w : Option WindowIx) :
    (s.reportRefused ev k t a w).mail.creditReturns = s.mail.creditReturns := by unfold State.reportRefused; split <;> simp
@[simp] theorem State.reportRefused_hitReports (s : State) (ev : Option FaultKind) (k : MemKind) (t : Tag) (a : Addr) (w : Option WindowIx) :
    (s.reportRefused ev k t a w).mail.hitReports = s.mail.hitReports := by unfold State.reportRefused; split <;> simp
@[simp] theorem State.reportRefused_aborts (s : State) (ev : Option FaultKind) (k : MemKind) (t : Tag) (a : Addr) (w : Option WindowIx) :
    (s.reportRefused ev k t a w).mail.aborts = s.mail.aborts := by unfold State.reportRefused; split <;> simp
@[simp] theorem State.reportRefused_emptyReports (s : State) (ev : Option FaultKind) (k : MemKind) (t : Tag) (a : Addr) (w : Option WindowIx) :
    (s.reportRefused ev k t a w).mail.emptyReports = s.mail.emptyReports := by unfold State.reportRefused; split <;> simp
@[simp] theorem State.reportRefused_ends (s : State) (ev : Option FaultKind) (k : MemKind) (t : Tag) (a : Addr) (w : Option WindowIx) :
    (s.reportRefused ev k t a w).mail.ends = s.mail.ends := by unfold State.reportRefused; split <;> simp
@[simp] theorem State.reportRefused_attempts (s : State) (ev : Option FaultKind) (k : MemKind) (t : Tag) (a : Addr) (w : Option WindowIx) :
    (s.reportRefused ev k t a w).mail.attempts = s.mail.attempts := by unfold State.reportRefused; split <;> simp
@[simp] theorem State.reportRefused_answers (s : State) (ev : Option FaultKind) (k : MemKind) (t : Tag) (a : Addr) (w : Option WindowIx) :
    (s.reportRefused ev k t a w).mail.answers = s.mail.answers := by unfold State.reportRefused; split <;> simp
@[simp] theorem State.reportRefused_returns (s : State) (ev : Option FaultKind) (k : MemKind) (t : Tag) (a : Addr) (w : Option WindowIx) :
    (s.reportRefused ev k t a w).mail.returns = s.mail.returns := by unfold State.reportRefused; split <;> simp
@[simp] theorem State.reportRefused_arrivals (s : State) (ev : Option FaultKind) (k : MemKind) (t : Tag) (a : Addr) (w : Option WindowIx) :
    (s.reportRefused ev k t a w).mail.arrivals = s.mail.arrivals := by unfold State.reportRefused; split <;> simp
@[simp] theorem State.reportRefused_loss (s : State) (ev : Option FaultKind) (k : MemKind) (t : Tag) (a : Addr) (w : Option WindowIx) :
    (s.reportRefused ev k t a w).mail.loss = s.mail.loss := by unfold State.reportRefused; split <;> simp

/-! `completeWake` -/

@[simp] theorem State.completeWake_pending (s : State) (p : PortId) :
    (s.completeWake p).pending = s.pending := by simp [State.completeWake]
@[simp] theorem State.completeWake_pins (s : State) (p : PortId) :
    (s.completeWake p).pins = s.pins := by simp [State.completeWake]
@[simp] theorem State.completeWake_ulc (s : State) (p : PortId) :
    (s.completeWake p).ulc = s.ulc := by simp [State.completeWake]
@[simp] theorem State.completeWake_iq (s : State) (p : PortId) :
    (s.completeWake p).iq = s.iq := by simp [State.completeWake]
@[simp] theorem State.completeWake_ps (s : State) (p : PortId) :
    (s.completeWake p).ps = s.ps := by simp [State.completeWake]
@[simp] theorem State.completeWake_ott (s : State) (p : PortId) :
    (s.completeWake p).ott = s.ott := by simp [State.completeWake]
@[simp] theorem State.completeWake_cu (s : State) (p : PortId) :
    (s.completeWake p).cu = s.cu := by simp [State.completeWake]
@[simp] theorem State.completeWake_eu (s : State) (p : PortId) :
    (s.completeWake p).eu = s.eu := by simp [State.completeWake]
@[simp] theorem State.completeWake_tb (s : State) (p : PortId) :
    (s.completeWake p).tb = s.tb := by simp [State.completeWake]
@[simp] theorem State.completeWake_rs (s : State) (p : PortId) :
    (s.completeWake p).rs = s.rs := by simp [State.completeWake]
@[simp] theorem State.completeWake_wire (s : State) (p : PortId) :
    (s.completeWake p).wire = s.wire := by simp [State.completeWake]
@[simp] theorem State.completeWake_creditReturns (s : State) (p : PortId) :
    (s.completeWake p).mail.creditReturns = s.mail.creditReturns := by simp [State.completeWake]
@[simp] theorem State.completeWake_hitReports (s : State) (p : PortId) :
    (s.completeWake p).mail.hitReports = s.mail.hitReports := by simp [State.completeWake]
@[simp] theorem State.completeWake_occurrences (s : State) (p : PortId) :
    (s.completeWake p).mail.occurrences = s.mail.occurrences := by simp [State.completeWake]
@[simp] theorem State.completeWake_aborts (s : State) (p : PortId) :
    (s.completeWake p).mail.aborts = s.mail.aborts := by simp [State.completeWake]
@[simp] theorem State.completeWake_emptyReports (s : State) (p : PortId) :
    (s.completeWake p).mail.emptyReports = s.mail.emptyReports := by simp [State.completeWake]
@[simp] theorem State.completeWake_ends (s : State) (p : PortId) :
    (s.completeWake p).mail.ends = s.mail.ends := by simp [State.completeWake]
@[simp] theorem State.completeWake_answers (s : State) (p : PortId) :
    (s.completeWake p).mail.answers = s.mail.answers := by simp [State.completeWake]
@[simp] theorem State.completeWake_returns (s : State) (p : PortId) :
    (s.completeWake p).mail.returns = s.mail.returns := by simp [State.completeWake]
@[simp] theorem State.completeWake_arrivals (s : State) (p : PortId) :
    (s.completeWake p).mail.arrivals = s.mail.arrivals := by simp [State.completeWake]
@[simp] theorem State.completeWake_loss (s : State) (p : PortId) :
    (s.completeWake p).mail.loss = s.mail.loss := by simp [State.completeWake]

/-! `startWake` -/

@[simp] theorem State.startWake_pending (s : State) (p : PortId) :
    (s.startWake p).pending = s.pending := by simp only [State.startWake]; split <;> simp
@[simp] theorem State.startWake_pins (s : State) (p : PortId) :
    (s.startWake p).pins = s.pins := by simp only [State.startWake]; split <;> simp
@[simp] theorem State.startWake_ulc (s : State) (p : PortId) :
    (s.startWake p).ulc = s.ulc := by simp only [State.startWake]; split <;> simp
@[simp] theorem State.startWake_iq (s : State) (p : PortId) :
    (s.startWake p).iq = s.iq := by simp only [State.startWake]; split <;> simp
@[simp] theorem State.startWake_ps (s : State) (p : PortId) :
    (s.startWake p).ps = s.ps := by simp only [State.startWake]; split <;> simp
@[simp] theorem State.startWake_ott (s : State) (p : PortId) :
    (s.startWake p).ott = s.ott := by simp only [State.startWake]; split <;> simp
@[simp] theorem State.startWake_cu (s : State) (p : PortId) :
    (s.startWake p).cu = s.cu := by simp only [State.startWake]; split <;> simp
@[simp] theorem State.startWake_eu (s : State) (p : PortId) :
    (s.startWake p).eu = s.eu := by simp only [State.startWake]; split <;> simp
@[simp] theorem State.startWake_tb (s : State) (p : PortId) :
    (s.startWake p).tb = s.tb := by simp only [State.startWake]; split <;> simp
@[simp] theorem State.startWake_rs (s : State) (p : PortId) :
    (s.startWake p).rs = s.rs := by simp only [State.startWake]; split <;> simp
@[simp] theorem State.startWake_creditReturns (s : State) (p : PortId) :
    (s.startWake p).mail.creditReturns = s.mail.creditReturns := by simp only [State.startWake]; split <;> simp
@[simp] theorem State.startWake_hitReports (s : State) (p : PortId) :
    (s.startWake p).mail.hitReports = s.mail.hitReports := by simp only [State.startWake]; split <;> simp
@[simp] theorem State.startWake_occurrences (s : State) (p : PortId) :
    (s.startWake p).mail.occurrences = s.mail.occurrences := by simp only [State.startWake]; split <;> simp
@[simp] theorem State.startWake_aborts (s : State) (p : PortId) :
    (s.startWake p).mail.aborts = s.mail.aborts := by simp only [State.startWake]; split <;> simp
@[simp] theorem State.startWake_emptyReports (s : State) (p : PortId) :
    (s.startWake p).mail.emptyReports = s.mail.emptyReports := by simp only [State.startWake]; split <;> simp
@[simp] theorem State.startWake_ends (s : State) (p : PortId) :
    (s.startWake p).mail.ends = s.mail.ends := by simp only [State.startWake]; split <;> simp
@[simp] theorem State.startWake_answers (s : State) (p : PortId) :
    (s.startWake p).mail.answers = s.mail.answers := by simp only [State.startWake]; split <;> simp
@[simp] theorem State.startWake_returns (s : State) (p : PortId) :
    (s.startWake p).mail.returns = s.mail.returns := by simp only [State.startWake]; split <;> simp
@[simp] theorem State.startWake_arrivals (s : State) (p : PortId) :
    (s.startWake p).mail.arrivals = s.mail.arrivals := by simp only [State.startWake]; split <;> simp
@[simp] theorem State.startWake_loss (s : State) (p : PortId) :
    (s.startWake p).mail.loss = s.mail.loss := by simp only [State.startWake]; split <;> simp

/-! `placeCopy` -/

@[simp] theorem State.placeCopy_pending (s : State) (p : PortId) (t : Tag) :
    (s.placeCopy p t).pending = s.pending := by simp only [State.placeCopy]; split <;> simp
@[simp] theorem State.placeCopy_pins (s : State) (p : PortId) (t : Tag) :
    (s.placeCopy p t).pins = s.pins := by simp only [State.placeCopy]; split <;> simp
@[simp] theorem State.placeCopy_ulc (s : State) (p : PortId) (t : Tag) :
    (s.placeCopy p t).ulc = s.ulc := by simp only [State.placeCopy]; split <;> simp
@[simp] theorem State.placeCopy_iq (s : State) (p : PortId) (t : Tag) :
    (s.placeCopy p t).iq = s.iq := by simp only [State.placeCopy]; split <;> simp
@[simp] theorem State.placeCopy_ps (s : State) (p : PortId) (t : Tag) :
    (s.placeCopy p t).ps = s.ps := by simp only [State.placeCopy]; split <;> simp
@[simp] theorem State.placeCopy_cu (s : State) (p : PortId) (t : Tag) :
    (s.placeCopy p t).cu = s.cu := by simp only [State.placeCopy]; split <;> simp
@[simp] theorem State.placeCopy_eu (s : State) (p : PortId) (t : Tag) :
    (s.placeCopy p t).eu = s.eu := by simp only [State.placeCopy]; split <;> simp
@[simp] theorem State.placeCopy_tb (s : State) (p : PortId) (t : Tag) :
    (s.placeCopy p t).tb = s.tb := by simp only [State.placeCopy]; split <;> simp
@[simp] theorem State.placeCopy_rs (s : State) (p : PortId) (t : Tag) :
    (s.placeCopy p t).rs = s.rs := by simp only [State.placeCopy]; split <;> simp
@[simp] theorem State.placeCopy_creditReturns (s : State) (p : PortId) (t : Tag) :
    (s.placeCopy p t).mail.creditReturns = s.mail.creditReturns := by simp only [State.placeCopy]; split <;> simp
@[simp] theorem State.placeCopy_hitReports (s : State) (p : PortId) (t : Tag) :
    (s.placeCopy p t).mail.hitReports = s.mail.hitReports := by simp only [State.placeCopy]; split <;> simp
@[simp] theorem State.placeCopy_occurrences (s : State) (p : PortId) (t : Tag) :
    (s.placeCopy p t).mail.occurrences = s.mail.occurrences := by simp only [State.placeCopy]; split <;> simp
@[simp] theorem State.placeCopy_aborts (s : State) (p : PortId) (t : Tag) :
    (s.placeCopy p t).mail.aborts = s.mail.aborts := by simp only [State.placeCopy]; split <;> simp
@[simp] theorem State.placeCopy_emptyReports (s : State) (p : PortId) (t : Tag) :
    (s.placeCopy p t).mail.emptyReports = s.mail.emptyReports := by simp only [State.placeCopy]; split <;> simp
@[simp] theorem State.placeCopy_ends (s : State) (p : PortId) (t : Tag) :
    (s.placeCopy p t).mail.ends = s.mail.ends := by simp only [State.placeCopy]; split <;> simp
@[simp] theorem State.placeCopy_answers (s : State) (p : PortId) (t : Tag) :
    (s.placeCopy p t).mail.answers = s.mail.answers := by simp only [State.placeCopy]; split <;> simp
@[simp] theorem State.placeCopy_returns (s : State) (p : PortId) (t : Tag) :
    (s.placeCopy p t).mail.returns = s.mail.returns := by simp only [State.placeCopy]; split <;> simp
@[simp] theorem State.placeCopy_arrivals (s : State) (p : PortId) (t : Tag) :
    (s.placeCopy p t).mail.arrivals = s.mail.arrivals := by simp only [State.placeCopy]; split <;> simp
@[simp] theorem State.placeCopy_loss (s : State) (p : PortId) (t : Tag) :
    (s.placeCopy p t).mail.loss = s.mail.loss := by simp only [State.placeCopy]; split <;> simp

/-! `park` -/

@[simp] theorem State.park_pending (s : State) (p : PortId) :
    (s.park p).pending = s.pending := by simp [State.park]
@[simp] theorem State.park_pins (s : State) (p : PortId) :
    (s.park p).pins = s.pins := by simp [State.park]
@[simp] theorem State.park_ulc (s : State) (p : PortId) :
    (s.park p).ulc = s.ulc := by simp [State.park]
@[simp] theorem State.park_iq (s : State) (p : PortId) :
    (s.park p).iq = s.iq := by simp [State.park]
@[simp] theorem State.park_ps (s : State) (p : PortId) :
    (s.park p).ps = s.ps := by simp [State.park]
@[simp] theorem State.park_ott (s : State) (p : PortId) :
    (s.park p).ott = s.ott := by simp [State.park]
@[simp] theorem State.park_cu (s : State) (p : PortId) :
    (s.park p).cu = s.cu := by simp [State.park]
@[simp] theorem State.park_eu (s : State) (p : PortId) :
    (s.park p).eu = s.eu := by simp [State.park]
@[simp] theorem State.park_tb (s : State) (p : PortId) :
    (s.park p).tb = s.tb := by simp [State.park]
@[simp] theorem State.park_rs (s : State) (p : PortId) :
    (s.park p).rs = s.rs := by simp [State.park]
@[simp] theorem State.park_creditReturns (s : State) (p : PortId) :
    (s.park p).mail.creditReturns = s.mail.creditReturns := by simp [State.park]
@[simp] theorem State.park_hitReports (s : State) (p : PortId) :
    (s.park p).mail.hitReports = s.mail.hitReports := by simp [State.park]
@[simp] theorem State.park_occurrences (s : State) (p : PortId) :
    (s.park p).mail.occurrences = s.mail.occurrences := by simp [State.park]
@[simp] theorem State.park_aborts (s : State) (p : PortId) :
    (s.park p).mail.aborts = s.mail.aborts := by simp [State.park]
@[simp] theorem State.park_emptyReports (s : State) (p : PortId) :
    (s.park p).mail.emptyReports = s.mail.emptyReports := by simp [State.park]
@[simp] theorem State.park_ends (s : State) (p : PortId) :
    (s.park p).mail.ends = s.mail.ends := by simp [State.park]
@[simp] theorem State.park_answers (s : State) (p : PortId) :
    (s.park p).mail.answers = s.mail.answers := by simp [State.park]
@[simp] theorem State.park_returns (s : State) (p : PortId) :
    (s.park p).mail.returns = s.mail.returns := by simp [State.park]
@[simp] theorem State.park_arrivals (s : State) (p : PortId) :
    (s.park p).mail.arrivals = s.mail.arrivals := by simp [State.park]
@[simp] theorem State.park_loss (s : State) (p : PortId) :
    (s.park p).mail.loss = s.mail.loss := by simp [State.park]

/-! `activate` -/

@[simp] theorem State.activate_pending (s : State) (p : PortId) :
    (s.activate p).pending = s.pending := by simp [State.activate]
@[simp] theorem State.activate_pins (s : State) (p : PortId) :
    (s.activate p).pins = s.pins := by simp [State.activate]
@[simp] theorem State.activate_ulc (s : State) (p : PortId) :
    (s.activate p).ulc = s.ulc := by simp [State.activate]
@[simp] theorem State.activate_iq (s : State) (p : PortId) :
    (s.activate p).iq = s.iq := by simp [State.activate]
@[simp] theorem State.activate_ps (s : State) (p : PortId) :
    (s.activate p).ps = s.ps := by simp [State.activate]
@[simp] theorem State.activate_ott (s : State) (p : PortId) :
    (s.activate p).ott = s.ott := by simp [State.activate]
@[simp] theorem State.activate_cu (s : State) (p : PortId) :
    (s.activate p).cu = s.cu := by simp [State.activate]
@[simp] theorem State.activate_eu (s : State) (p : PortId) :
    (s.activate p).eu = s.eu := by simp [State.activate]
@[simp] theorem State.activate_tb (s : State) (p : PortId) :
    (s.activate p).tb = s.tb := by simp [State.activate]
@[simp] theorem State.activate_rs (s : State) (p : PortId) :
    (s.activate p).rs = s.rs := by simp [State.activate]
@[simp] theorem State.activate_wire (s : State) (p : PortId) :
    (s.activate p).wire = s.wire := by simp [State.activate]
@[simp] theorem State.activate_creditReturns (s : State) (p : PortId) :
    (s.activate p).mail.creditReturns = s.mail.creditReturns := by simp [State.activate]
@[simp] theorem State.activate_hitReports (s : State) (p : PortId) :
    (s.activate p).mail.hitReports = s.mail.hitReports := by simp [State.activate]
@[simp] theorem State.activate_occurrences (s : State) (p : PortId) :
    (s.activate p).mail.occurrences = s.mail.occurrences := by simp [State.activate]
@[simp] theorem State.activate_aborts (s : State) (p : PortId) :
    (s.activate p).mail.aborts = s.mail.aborts := by simp [State.activate]
@[simp] theorem State.activate_emptyReports (s : State) (p : PortId) :
    (s.activate p).mail.emptyReports = s.mail.emptyReports := by simp [State.activate]
@[simp] theorem State.activate_ends (s : State) (p : PortId) :
    (s.activate p).mail.ends = s.mail.ends := by simp [State.activate]
@[simp] theorem State.activate_answers (s : State) (p : PortId) :
    (s.activate p).mail.answers = s.mail.answers := by simp [State.activate]
@[simp] theorem State.activate_returns (s : State) (p : PortId) :
    (s.activate p).mail.returns = s.mail.returns := by simp [State.activate]
@[simp] theorem State.activate_arrivals (s : State) (p : PortId) :
    (s.activate p).mail.arrivals = s.mail.arrivals := by simp [State.activate]
@[simp] theorem State.activate_loss (s : State) (p : PortId) :
    (s.activate p).mail.loss = s.mail.loss := by simp [State.activate]

/-! `exchange` -/

@[simp] theorem State.exchange_pending (s : State) :
    (s.exchange).pending = s.pending := by simp [State.exchange]
@[simp] theorem State.exchange_pins (s : State) :
    (s.exchange).pins = s.pins := by simp [State.exchange]
@[simp] theorem State.exchange_ulc (s : State) :
    (s.exchange).ulc = s.ulc := by simp [State.exchange]
@[simp] theorem State.exchange_ott (s : State) :
    (s.exchange).ott = s.ott := by simp [State.exchange]
@[simp] theorem State.exchange_ports (s : State) :
    (s.exchange).ports = s.ports := by simp [State.exchange]
@[simp] theorem State.exchange_cu (s : State) :
    (s.exchange).cu = s.cu := by simp [State.exchange]
@[simp] theorem State.exchange_eu (s : State) :
    (s.exchange).eu = s.eu := by simp [State.exchange]
@[simp] theorem State.exchange_tb (s : State) :
    (s.exchange).tb = s.tb := by simp [State.exchange]
@[simp] theorem State.exchange_rs (s : State) :
    (s.exchange).rs = s.rs := by simp [State.exchange]
@[simp] theorem State.exchange_wire (s : State) :
    (s.exchange).wire = s.wire := by simp [State.exchange]
@[simp] theorem State.exchange_creditReturns (s : State) :
    (s.exchange).mail.creditReturns = s.mail.creditReturns := by simp [State.exchange]
@[simp] theorem State.exchange_hitReports (s : State) :
    (s.exchange).mail.hitReports = s.mail.hitReports := by simp [State.exchange]
@[simp] theorem State.exchange_occurrences (s : State) :
    (s.exchange).mail.occurrences = s.mail.occurrences := by simp [State.exchange]
@[simp] theorem State.exchange_ends (s : State) :
    (s.exchange).mail.ends = s.mail.ends := by simp [State.exchange]
@[simp] theorem State.exchange_answers (s : State) :
    (s.exchange).mail.answers = s.mail.answers := by simp [State.exchange]
@[simp] theorem State.exchange_returns (s : State) :
    (s.exchange).mail.returns = s.mail.returns := by simp [State.exchange]
@[simp] theorem State.exchange_arrivals (s : State) :
    (s.exchange).mail.arrivals = s.mail.arrivals := by simp [State.exchange]
@[simp] theorem State.exchange_loss (s : State) :
    (s.exchange).mail.loss = s.mail.loss := by simp [State.exchange]

/-! `swap` -/

@[simp] theorem State.swap_pending (s : State) (e : Bool) :
    (s.swap e).pending = s.pending := by simp only [State.swap]; split <;> simp
@[simp] theorem State.swap_pins (s : State) (e : Bool) :
    (s.swap e).pins = s.pins := by simp only [State.swap]; split <;> simp
@[simp] theorem State.swap_ulc (s : State) (e : Bool) :
    (s.swap e).ulc = s.ulc := by simp only [State.swap]; split <;> simp
@[simp] theorem State.swap_ott (s : State) (e : Bool) :
    (s.swap e).ott = s.ott := by simp only [State.swap]; split <;> simp
@[simp] theorem State.swap_ports (s : State) (e : Bool) :
    (s.swap e).ports = s.ports := by simp only [State.swap]; split <;> simp
@[simp] theorem State.swap_cu (s : State) (e : Bool) :
    (s.swap e).cu = s.cu := by simp only [State.swap]; split <;> simp
@[simp] theorem State.swap_eu (s : State) (e : Bool) :
    (s.swap e).eu = s.eu := by simp only [State.swap]; split <;> simp
@[simp] theorem State.swap_tb (s : State) (e : Bool) :
    (s.swap e).tb = s.tb := by simp only [State.swap]; split <;> simp
@[simp] theorem State.swap_rs (s : State) (e : Bool) :
    (s.swap e).rs = s.rs := by simp only [State.swap]; split <;> simp
@[simp] theorem State.swap_wire (s : State) (e : Bool) :
    (s.swap e).wire = s.wire := by simp only [State.swap]; split <;> simp
@[simp] theorem State.swap_creditReturns (s : State) (e : Bool) :
    (s.swap e).mail.creditReturns = s.mail.creditReturns := by simp only [State.swap]; split <;> simp
@[simp] theorem State.swap_hitReports (s : State) (e : Bool) :
    (s.swap e).mail.hitReports = s.mail.hitReports := by simp only [State.swap]; split <;> simp
@[simp] theorem State.swap_ends (s : State) (e : Bool) :
    (s.swap e).mail.ends = s.mail.ends := by simp only [State.swap]; split <;> simp
@[simp] theorem State.swap_answers (s : State) (e : Bool) :
    (s.swap e).mail.answers = s.mail.answers := by simp only [State.swap]; split <;> simp
@[simp] theorem State.swap_returns (s : State) (e : Bool) :
    (s.swap e).mail.returns = s.mail.returns := by simp only [State.swap]; split <;> simp
@[simp] theorem State.swap_arrivals (s : State) (e : Bool) :
    (s.swap e).mail.arrivals = s.mail.arrivals := by simp only [State.swap]; split <;> simp
@[simp] theorem State.swap_loss (s : State) (e : Bool) :
    (s.swap e).mail.loss = s.mail.loss := by simp only [State.swap]; split <;> simp

/-! `reportEnd` -/

@[simp] theorem State.reportEnd_pending (s : State) (b : Bool) (t : Tag) (st : Status) (c : List Byte) :
    (s.reportEnd b t st c).pending = s.pending := by unfold State.reportEnd; split <;> simp
@[simp] theorem State.reportEnd_pins (s : State) (b : Bool) (t : Tag) (st : Status) (c : List Byte) :
    (s.reportEnd b t st c).pins = s.pins := by unfold State.reportEnd; split <;> simp
@[simp] theorem State.reportEnd_ulc (s : State) (b : Bool) (t : Tag) (st : Status) (c : List Byte) :
    (s.reportEnd b t st c).ulc = s.ulc := by unfold State.reportEnd; split <;> simp
@[simp] theorem State.reportEnd_iq (s : State) (b : Bool) (t : Tag) (st : Status) (c : List Byte) :
    (s.reportEnd b t st c).iq = s.iq := by unfold State.reportEnd; split <;> simp
@[simp] theorem State.reportEnd_ps (s : State) (b : Bool) (t : Tag) (st : Status) (c : List Byte) :
    (s.reportEnd b t st c).ps = s.ps := by unfold State.reportEnd; split <;> simp
@[simp] theorem State.reportEnd_ott (s : State) (b : Bool) (t : Tag) (st : Status) (c : List Byte) :
    (s.reportEnd b t st c).ott = s.ott := by unfold State.reportEnd; split <;> simp
@[simp] theorem State.reportEnd_ports (s : State) (b : Bool) (t : Tag) (st : Status) (c : List Byte) :
    (s.reportEnd b t st c).ports = s.ports := by unfold State.reportEnd; split <;> simp
@[simp] theorem State.reportEnd_cu (s : State) (b : Bool) (t : Tag) (st : Status) (c : List Byte) :
    (s.reportEnd b t st c).cu = s.cu := by unfold State.reportEnd; split <;> simp
@[simp] theorem State.reportEnd_eu (s : State) (b : Bool) (t : Tag) (st : Status) (c : List Byte) :
    (s.reportEnd b t st c).eu = s.eu := by unfold State.reportEnd; split <;> simp
@[simp] theorem State.reportEnd_tb (s : State) (b : Bool) (t : Tag) (st : Status) (c : List Byte) :
    (s.reportEnd b t st c).tb = s.tb := by unfold State.reportEnd; split <;> simp
@[simp] theorem State.reportEnd_rs (s : State) (b : Bool) (t : Tag) (st : Status) (c : List Byte) :
    (s.reportEnd b t st c).rs = s.rs := by unfold State.reportEnd; split <;> simp
@[simp] theorem State.reportEnd_wire (s : State) (b : Bool) (t : Tag) (st : Status) (c : List Byte) :
    (s.reportEnd b t st c).wire = s.wire := by unfold State.reportEnd; split <;> simp
@[simp] theorem State.reportEnd_creditReturns (s : State) (b : Bool) (t : Tag) (st : Status) (c : List Byte) :
    (s.reportEnd b t st c).mail.creditReturns = s.mail.creditReturns := by unfold State.reportEnd; split <;> simp
@[simp] theorem State.reportEnd_hitReports (s : State) (b : Bool) (t : Tag) (st : Status) (c : List Byte) :
    (s.reportEnd b t st c).mail.hitReports = s.mail.hitReports := by unfold State.reportEnd; split <;> simp
@[simp] theorem State.reportEnd_occurrences (s : State) (b : Bool) (t : Tag) (st : Status) (c : List Byte) :
    (s.reportEnd b t st c).mail.occurrences = s.mail.occurrences := by unfold State.reportEnd; split <;> simp
@[simp] theorem State.reportEnd_aborts (s : State) (b : Bool) (t : Tag) (st : Status) (c : List Byte) :
    (s.reportEnd b t st c).mail.aborts = s.mail.aborts := by unfold State.reportEnd; split <;> simp
@[simp] theorem State.reportEnd_emptyReports (s : State) (b : Bool) (t : Tag) (st : Status) (c : List Byte) :
    (s.reportEnd b t st c).mail.emptyReports = s.mail.emptyReports := by unfold State.reportEnd; split <;> simp
@[simp] theorem State.reportEnd_attempts (s : State) (b : Bool) (t : Tag) (st : Status) (c : List Byte) :
    (s.reportEnd b t st c).mail.attempts = s.mail.attempts := by unfold State.reportEnd; split <;> simp
@[simp] theorem State.reportEnd_answers (s : State) (b : Bool) (t : Tag) (st : Status) (c : List Byte) :
    (s.reportEnd b t st c).mail.answers = s.mail.answers := by unfold State.reportEnd; split <;> simp
@[simp] theorem State.reportEnd_returns (s : State) (b : Bool) (t : Tag) (st : Status) (c : List Byte) :
    (s.reportEnd b t st c).mail.returns = s.mail.returns := by unfold State.reportEnd; split <;> simp
@[simp] theorem State.reportEnd_arrivals (s : State) (b : Bool) (t : Tag) (st : Status) (c : List Byte) :
    (s.reportEnd b t st c).mail.arrivals = s.mail.arrivals := by unfold State.reportEnd; split <;> simp
@[simp] theorem State.reportEnd_loss (s : State) (b : Bool) (t : Tag) (st : Status) (c : List Byte) :
    (s.reportEnd b t st c).mail.loss = s.mail.loss := by unfold State.reportEnd; split <;> simp

/-! `clearAutoEnable` -/

@[simp] theorem State.clearAutoEnable_pending (s : State) (p : PortId) :
    (s.clearAutoEnable p).pending = s.pending := by unfold State.clearAutoEnable; split <;> simp
@[simp] theorem State.clearAutoEnable_pins (s : State) (p : PortId) :
    (s.clearAutoEnable p).pins = s.pins := by unfold State.clearAutoEnable; split <;> simp
@[simp] theorem State.clearAutoEnable_ulc (s : State) (p : PortId) :
    (s.clearAutoEnable p).ulc = s.ulc := by unfold State.clearAutoEnable; split <;> simp
@[simp] theorem State.clearAutoEnable_iq (s : State) (p : PortId) :
    (s.clearAutoEnable p).iq = s.iq := by unfold State.clearAutoEnable; split <;> simp
@[simp] theorem State.clearAutoEnable_ps (s : State) (p : PortId) :
    (s.clearAutoEnable p).ps = s.ps := by unfold State.clearAutoEnable; split <;> simp
@[simp] theorem State.clearAutoEnable_ott (s : State) (p : PortId) :
    (s.clearAutoEnable p).ott = s.ott := by unfold State.clearAutoEnable; split <;> simp
@[simp] theorem State.clearAutoEnable_cu (s : State) (p : PortId) :
    (s.clearAutoEnable p).cu = s.cu := by unfold State.clearAutoEnable; split <;> simp
@[simp] theorem State.clearAutoEnable_eu (s : State) (p : PortId) :
    (s.clearAutoEnable p).eu = s.eu := by unfold State.clearAutoEnable; split <;> simp
@[simp] theorem State.clearAutoEnable_tb (s : State) (p : PortId) :
    (s.clearAutoEnable p).tb = s.tb := by unfold State.clearAutoEnable; split <;> simp
@[simp] theorem State.clearAutoEnable_rs (s : State) (p : PortId) :
    (s.clearAutoEnable p).rs = s.rs := by unfold State.clearAutoEnable; split <;> simp
@[simp] theorem State.clearAutoEnable_mail (s : State) (p : PortId) :
    (s.clearAutoEnable p).mail = s.mail := by unfold State.clearAutoEnable; split <;> simp
@[simp] theorem State.clearAutoEnable_wire (s : State) (p : PortId) :
    (s.clearAutoEnable p).wire = s.wire := by unfold State.clearAutoEnable; split <;> simp

/-! `upstreamFault` -/

@[simp] theorem State.upstreamFault_pending (s : State) (k : LinkFaultKind) (t : Option Tag) :
    (s.upstreamFault k t).pending = s.pending := by simp [State.upstreamFault]
@[simp] theorem State.upstreamFault_pins (s : State) (k : LinkFaultKind) (t : Option Tag) :
    (s.upstreamFault k t).pins = s.pins := by simp [State.upstreamFault]
@[simp] theorem State.upstreamFault_ulc (s : State) (k : LinkFaultKind) (t : Option Tag) :
    (s.upstreamFault k t).ulc = s.ulc := by simp [State.upstreamFault]
@[simp] theorem State.upstreamFault_iq (s : State) (k : LinkFaultKind) (t : Option Tag) :
    (s.upstreamFault k t).iq = s.iq := by simp [State.upstreamFault]
@[simp] theorem State.upstreamFault_ps (s : State) (k : LinkFaultKind) (t : Option Tag) :
    (s.upstreamFault k t).ps = s.ps := by simp [State.upstreamFault]
@[simp] theorem State.upstreamFault_ott (s : State) (k : LinkFaultKind) (t : Option Tag) :
    (s.upstreamFault k t).ott = s.ott := by simp [State.upstreamFault]
@[simp] theorem State.upstreamFault_ports (s : State) (k : LinkFaultKind) (t : Option Tag) :
    (s.upstreamFault k t).ports = s.ports := by simp [State.upstreamFault]
@[simp] theorem State.upstreamFault_cu (s : State) (k : LinkFaultKind) (t : Option Tag) :
    (s.upstreamFault k t).cu = s.cu := by simp [State.upstreamFault]
@[simp] theorem State.upstreamFault_eu (s : State) (k : LinkFaultKind) (t : Option Tag) :
    (s.upstreamFault k t).eu = s.eu := by simp [State.upstreamFault]
@[simp] theorem State.upstreamFault_tb (s : State) (k : LinkFaultKind) (t : Option Tag) :
    (s.upstreamFault k t).tb = s.tb := by simp [State.upstreamFault]
@[simp] theorem State.upstreamFault_rs (s : State) (k : LinkFaultKind) (t : Option Tag) :
    (s.upstreamFault k t).rs = s.rs := by simp [State.upstreamFault]
@[simp] theorem State.upstreamFault_wire (s : State) (k : LinkFaultKind) (t : Option Tag) :
    (s.upstreamFault k t).wire = s.wire := by simp [State.upstreamFault]
@[simp] theorem State.upstreamFault_creditReturns (s : State) (k : LinkFaultKind) (t : Option Tag) :
    (s.upstreamFault k t).mail.creditReturns = s.mail.creditReturns := by simp [State.upstreamFault]
@[simp] theorem State.upstreamFault_hitReports (s : State) (k : LinkFaultKind) (t : Option Tag) :
    (s.upstreamFault k t).mail.hitReports = s.mail.hitReports := by simp [State.upstreamFault]
@[simp] theorem State.upstreamFault_aborts (s : State) (k : LinkFaultKind) (t : Option Tag) :
    (s.upstreamFault k t).mail.aborts = s.mail.aborts := by simp [State.upstreamFault]
@[simp] theorem State.upstreamFault_emptyReports (s : State) (k : LinkFaultKind) (t : Option Tag) :
    (s.upstreamFault k t).mail.emptyReports = s.mail.emptyReports := by simp [State.upstreamFault]
@[simp] theorem State.upstreamFault_ends (s : State) (k : LinkFaultKind) (t : Option Tag) :
    (s.upstreamFault k t).mail.ends = s.mail.ends := by simp [State.upstreamFault]
@[simp] theorem State.upstreamFault_attempts (s : State) (k : LinkFaultKind) (t : Option Tag) :
    (s.upstreamFault k t).mail.attempts = s.mail.attempts := by simp [State.upstreamFault]
@[simp] theorem State.upstreamFault_answers (s : State) (k : LinkFaultKind) (t : Option Tag) :
    (s.upstreamFault k t).mail.answers = s.mail.answers := by simp [State.upstreamFault]
@[simp] theorem State.upstreamFault_returns (s : State) (k : LinkFaultKind) (t : Option Tag) :
    (s.upstreamFault k t).mail.returns = s.mail.returns := by simp [State.upstreamFault]
@[simp] theorem State.upstreamFault_arrivals (s : State) (k : LinkFaultKind) (t : Option Tag) :
    (s.upstreamFault k t).mail.arrivals = s.mail.arrivals := by simp [State.upstreamFault]
@[simp] theorem State.upstreamFault_loss (s : State) (k : LinkFaultKind) (t : Option Tag) :
    (s.upstreamFault k t).mail.loss = s.mail.loss := by simp [State.upstreamFault]

/-! `malformedTarget` -/

@[simp] theorem State.malformedTarget_pending (s : State) (p : PortId) (t : Option SlotId) :
    (s.malformedTarget p t).pending = s.pending := by simp [State.malformedTarget]
@[simp] theorem State.malformedTarget_pins (s : State) (p : PortId) (t : Option SlotId) :
    (s.malformedTarget p t).pins = s.pins := by simp [State.malformedTarget]
@[simp] theorem State.malformedTarget_ulc (s : State) (p : PortId) (t : Option SlotId) :
    (s.malformedTarget p t).ulc = s.ulc := by simp [State.malformedTarget]
@[simp] theorem State.malformedTarget_iq (s : State) (p : PortId) (t : Option SlotId) :
    (s.malformedTarget p t).iq = s.iq := by simp [State.malformedTarget]
@[simp] theorem State.malformedTarget_ps (s : State) (p : PortId) (t : Option SlotId) :
    (s.malformedTarget p t).ps = s.ps := by simp [State.malformedTarget]
@[simp] theorem State.malformedTarget_ott (s : State) (p : PortId) (t : Option SlotId) :
    (s.malformedTarget p t).ott = s.ott := by simp [State.malformedTarget]
@[simp] theorem State.malformedTarget_ports (s : State) (p : PortId) (t : Option SlotId) :
    (s.malformedTarget p t).ports = s.ports := by simp [State.malformedTarget]
@[simp] theorem State.malformedTarget_cu (s : State) (p : PortId) (t : Option SlotId) :
    (s.malformedTarget p t).cu = s.cu := by simp [State.malformedTarget]
@[simp] theorem State.malformedTarget_eu (s : State) (p : PortId) (t : Option SlotId) :
    (s.malformedTarget p t).eu = s.eu := by simp [State.malformedTarget]
@[simp] theorem State.malformedTarget_tb (s : State) (p : PortId) (t : Option SlotId) :
    (s.malformedTarget p t).tb = s.tb := by simp [State.malformedTarget]
@[simp] theorem State.malformedTarget_rs (s : State) (p : PortId) (t : Option SlotId) :
    (s.malformedTarget p t).rs = s.rs := by simp [State.malformedTarget]
@[simp] theorem State.malformedTarget_wire (s : State) (p : PortId) (t : Option SlotId) :
    (s.malformedTarget p t).wire = s.wire := by simp [State.malformedTarget]
@[simp] theorem State.malformedTarget_creditReturns (s : State) (p : PortId) (t : Option SlotId) :
    (s.malformedTarget p t).mail.creditReturns = s.mail.creditReturns := by simp [State.malformedTarget]
@[simp] theorem State.malformedTarget_hitReports (s : State) (p : PortId) (t : Option SlotId) :
    (s.malformedTarget p t).mail.hitReports = s.mail.hitReports := by simp [State.malformedTarget]
@[simp] theorem State.malformedTarget_aborts (s : State) (p : PortId) (t : Option SlotId) :
    (s.malformedTarget p t).mail.aborts = s.mail.aborts := by simp [State.malformedTarget]
@[simp] theorem State.malformedTarget_emptyReports (s : State) (p : PortId) (t : Option SlotId) :
    (s.malformedTarget p t).mail.emptyReports = s.mail.emptyReports := by simp [State.malformedTarget]
@[simp] theorem State.malformedTarget_ends (s : State) (p : PortId) (t : Option SlotId) :
    (s.malformedTarget p t).mail.ends = s.mail.ends := by simp [State.malformedTarget]
@[simp] theorem State.malformedTarget_attempts (s : State) (p : PortId) (t : Option SlotId) :
    (s.malformedTarget p t).mail.attempts = s.mail.attempts := by simp [State.malformedTarget]
@[simp] theorem State.malformedTarget_answers (s : State) (p : PortId) (t : Option SlotId) :
    (s.malformedTarget p t).mail.answers = s.mail.answers := by simp [State.malformedTarget]
@[simp] theorem State.malformedTarget_returns (s : State) (p : PortId) (t : Option SlotId) :
    (s.malformedTarget p t).mail.returns = s.mail.returns := by simp [State.malformedTarget]
@[simp] theorem State.malformedTarget_arrivals (s : State) (p : PortId) (t : Option SlotId) :
    (s.malformedTarget p t).mail.arrivals = s.mail.arrivals := by simp [State.malformedTarget]
@[simp] theorem State.malformedTarget_loss (s : State) (p : PortId) (t : Option SlotId) :
    (s.malformedTarget p t).mail.loss = s.mail.loss := by simp [State.malformedTarget]

/-! `startValues` -/

@[simp] theorem State.startValues_pending (s : State) :
    (s.startValues).pending = s.pending := rfl
@[simp] theorem State.startValues_pins (s : State) :
    (s.startValues).pins = s.pins := rfl
@[simp] theorem State.startValues_ulc (s : State) :
    (s.startValues).ulc = s.ulc := rfl
@[simp] theorem State.startValues_ott (s : State) :
    (s.startValues).ott = s.ott := rfl
@[simp] theorem State.startValues_cu (s : State) :
    (s.startValues).cu = s.cu := rfl
@[simp] theorem State.startValues_rs (s : State) :
    (s.startValues).rs = s.rs := rfl
@[simp] theorem State.startValues_wire (s : State) :
    (s.startValues).wire = s.wire := rfl
@[simp] theorem State.startValues_creditReturns (s : State) :
    (s.startValues).mail.creditReturns = s.mail.creditReturns := rfl
@[simp] theorem State.startValues_hitReports (s : State) :
    (s.startValues).mail.hitReports = s.mail.hitReports := rfl
@[simp] theorem State.startValues_occurrences (s : State) :
    (s.startValues).mail.occurrences = s.mail.occurrences := rfl
@[simp] theorem State.startValues_ends (s : State) :
    (s.startValues).mail.ends = s.mail.ends := rfl
@[simp] theorem State.startValues_attempts (s : State) :
    (s.startValues).mail.attempts = s.mail.attempts := rfl
@[simp] theorem State.startValues_answers (s : State) :
    (s.startValues).mail.answers = s.mail.answers := rfl
@[simp] theorem State.startValues_returns (s : State) :
    (s.startValues).mail.returns = s.mail.returns := rfl
@[simp] theorem State.startValues_arrivals (s : State) :
    (s.startValues).mail.arrivals = s.mail.arrivals := rfl
@[simp] theorem State.startValues_loss (s : State) :
    (s.startValues).mail.loss = s.mail.loss := rfl

/-! `loadStartPlan` -/

@[simp] theorem State.loadStartPlan_pending (s : State) :
    (s.loadStartPlan).pending = s.pending := by unfold State.loadStartPlan; (repeat' split) <;> simp
@[simp] theorem State.loadStartPlan_pins (s : State) :
    (s.loadStartPlan).pins = s.pins := by unfold State.loadStartPlan; (repeat' split) <;> simp
@[simp] theorem State.loadStartPlan_ulc (s : State) :
    (s.loadStartPlan).ulc = s.ulc := by unfold State.loadStartPlan; (repeat' split) <;> simp
@[simp] theorem State.loadStartPlan_iq (s : State) :
    (s.loadStartPlan).iq = s.iq := by unfold State.loadStartPlan; (repeat' split) <;> simp
@[simp] theorem State.loadStartPlan_ott (s : State) :
    (s.loadStartPlan).ott = s.ott := by unfold State.loadStartPlan; (repeat' split) <;> simp
@[simp] theorem State.loadStartPlan_cu (s : State) :
    (s.loadStartPlan).cu = s.cu := by unfold State.loadStartPlan; (repeat' split) <;> simp
@[simp] theorem State.loadStartPlan_eu (s : State) :
    (s.loadStartPlan).eu = s.eu := by unfold State.loadStartPlan; (repeat' split) <;> simp
@[simp] theorem State.loadStartPlan_tb (s : State) :
    (s.loadStartPlan).tb = s.tb := by unfold State.loadStartPlan; (repeat' split) <;> simp
@[simp] theorem State.loadStartPlan_rs (s : State) :
    (s.loadStartPlan).rs = s.rs := by unfold State.loadStartPlan; (repeat' split) <;> simp
@[simp] theorem State.loadStartPlan_wire (s : State) :
    (s.loadStartPlan).wire = s.wire := by unfold State.loadStartPlan; (repeat' split) <;> simp
@[simp] theorem State.loadStartPlan_creditReturns (s : State) :
    (s.loadStartPlan).mail.creditReturns = s.mail.creditReturns := by unfold State.loadStartPlan; (repeat' split) <;> simp
@[simp] theorem State.loadStartPlan_hitReports (s : State) :
    (s.loadStartPlan).mail.hitReports = s.mail.hitReports := by unfold State.loadStartPlan; (repeat' split) <;> simp
@[simp] theorem State.loadStartPlan_occurrences (s : State) :
    (s.loadStartPlan).mail.occurrences = s.mail.occurrences := by unfold State.loadStartPlan; (repeat' split) <;> simp
@[simp] theorem State.loadStartPlan_aborts (s : State) :
    (s.loadStartPlan).mail.aborts = s.mail.aborts := by unfold State.loadStartPlan; (repeat' split) <;> simp
@[simp] theorem State.loadStartPlan_emptyReports (s : State) :
    (s.loadStartPlan).mail.emptyReports = s.mail.emptyReports := by unfold State.loadStartPlan; (repeat' split) <;> simp
@[simp] theorem State.loadStartPlan_ends (s : State) :
    (s.loadStartPlan).mail.ends = s.mail.ends := by unfold State.loadStartPlan; (repeat' split) <;> simp
@[simp] theorem State.loadStartPlan_answers (s : State) :
    (s.loadStartPlan).mail.answers = s.mail.answers := by unfold State.loadStartPlan; (repeat' split) <;> simp
@[simp] theorem State.loadStartPlan_returns (s : State) :
    (s.loadStartPlan).mail.returns = s.mail.returns := by unfold State.loadStartPlan; (repeat' split) <;> simp
@[simp] theorem State.loadStartPlan_arrivals (s : State) :
    (s.loadStartPlan).mail.arrivals = s.mail.arrivals := by unfold State.loadStartPlan; (repeat' split) <;> simp
@[simp] theorem State.loadStartPlan_loss (s : State) :
    (s.loadStartPlan).mail.loss = s.mail.loss := by unfold State.loadStartPlan; (repeat' split) <;> simp

/-! `ulcStart` -/

@[simp] theorem State.ulcStart_pending (s : State) :
    (s.ulcStart).pending = s.pending := by unfold State.ulcStart; (repeat' split) <;> simp
@[simp] theorem State.ulcStart_pins (s : State) :
    (s.ulcStart).pins = s.pins := by unfold State.ulcStart; (repeat' split) <;> simp
@[simp] theorem State.ulcStart_iq (s : State) :
    (s.ulcStart).iq = s.iq := by unfold State.ulcStart; (repeat' split) <;> simp
@[simp] theorem State.ulcStart_ps (s : State) :
    (s.ulcStart).ps = s.ps := by unfold State.ulcStart; (repeat' split) <;> simp
@[simp] theorem State.ulcStart_ott (s : State) :
    (s.ulcStart).ott = s.ott := by unfold State.ulcStart; (repeat' split) <;> simp
@[simp] theorem State.ulcStart_ports (s : State) :
    (s.ulcStart).ports = s.ports := by unfold State.ulcStart; (repeat' split) <;> simp
@[simp] theorem State.ulcStart_cu (s : State) :
    (s.ulcStart).cu = s.cu := by unfold State.ulcStart; (repeat' split) <;> simp
@[simp] theorem State.ulcStart_eu (s : State) :
    (s.ulcStart).eu = s.eu := by unfold State.ulcStart; (repeat' split) <;> simp
@[simp] theorem State.ulcStart_tb (s : State) :
    (s.ulcStart).tb = s.tb := by unfold State.ulcStart; (repeat' split) <;> simp
@[simp] theorem State.ulcStart_rs (s : State) :
    (s.ulcStart).rs = s.rs := by unfold State.ulcStart; (repeat' split) <;> simp
@[simp] theorem State.ulcStart_wire (s : State) :
    (s.ulcStart).wire = s.wire := by unfold State.ulcStart; (repeat' split) <;> simp
@[simp] theorem State.ulcStart_hitReports (s : State) :
    (s.ulcStart).mail.hitReports = s.mail.hitReports := by unfold State.ulcStart; (repeat' split) <;> simp
@[simp] theorem State.ulcStart_occurrences (s : State) :
    (s.ulcStart).mail.occurrences = s.mail.occurrences := by unfold State.ulcStart; (repeat' split) <;> simp
@[simp] theorem State.ulcStart_aborts (s : State) :
    (s.ulcStart).mail.aborts = s.mail.aborts := by unfold State.ulcStart; (repeat' split) <;> simp
@[simp] theorem State.ulcStart_emptyReports (s : State) :
    (s.ulcStart).mail.emptyReports = s.mail.emptyReports := by unfold State.ulcStart; (repeat' split) <;> simp
@[simp] theorem State.ulcStart_attempts (s : State) :
    (s.ulcStart).mail.attempts = s.mail.attempts := by unfold State.ulcStart; (repeat' split) <;> simp
@[simp] theorem State.ulcStart_answers (s : State) :
    (s.ulcStart).mail.answers = s.mail.answers := by unfold State.ulcStart; (repeat' split) <;> simp
@[simp] theorem State.ulcStart_returns (s : State) :
    (s.ulcStart).mail.returns = s.mail.returns := by unfold State.ulcStart; (repeat' split) <;> simp
@[simp] theorem State.ulcStart_arrivals (s : State) :
    (s.ulcStart).mail.arrivals = s.mail.arrivals := by unfold State.ulcStart; (repeat' split) <;> simp
@[simp] theorem State.ulcStart_loss (s : State) :
    (s.ulcStart).mail.loss = s.mail.loss := by unfold State.ulcStart; (repeat' split) <;> simp

/-! `parkWaking` -/

@[simp] theorem State.parkWaking_pending (s : State) (ps : List PortId) :
    (s.parkWaking ps).pending = s.pending := by
  induction ps generalizing s with
  | nil => rfl
  | cons p ps ih => rw [State.parkWaking, ih]; split <;> simp
@[simp] theorem State.parkWaking_pins (s : State) (ps : List PortId) :
    (s.parkWaking ps).pins = s.pins := by
  induction ps generalizing s with
  | nil => rfl
  | cons p ps ih => rw [State.parkWaking, ih]; split <;> simp
@[simp] theorem State.parkWaking_ulc (s : State) (ps : List PortId) :
    (s.parkWaking ps).ulc = s.ulc := by
  induction ps generalizing s with
  | nil => rfl
  | cons p ps ih => rw [State.parkWaking, ih]; split <;> simp
@[simp] theorem State.parkWaking_iq (s : State) (ps : List PortId) :
    (s.parkWaking ps).iq = s.iq := by
  induction ps generalizing s with
  | nil => rfl
  | cons p ps ih => rw [State.parkWaking, ih]; split <;> simp
@[simp] theorem State.parkWaking_ps (s : State) (ps : List PortId) :
    (s.parkWaking ps).ps = s.ps := by
  induction ps generalizing s with
  | nil => rfl
  | cons p ps ih => rw [State.parkWaking, ih]; split <;> simp
@[simp] theorem State.parkWaking_ott (s : State) (ps : List PortId) :
    (s.parkWaking ps).ott = s.ott := by
  induction ps generalizing s with
  | nil => rfl
  | cons p ps ih => rw [State.parkWaking, ih]; split <;> simp
@[simp] theorem State.parkWaking_cu (s : State) (ps : List PortId) :
    (s.parkWaking ps).cu = s.cu := by
  induction ps generalizing s with
  | nil => rfl
  | cons p ps ih => rw [State.parkWaking, ih]; split <;> simp
@[simp] theorem State.parkWaking_eu (s : State) (ps : List PortId) :
    (s.parkWaking ps).eu = s.eu := by
  induction ps generalizing s with
  | nil => rfl
  | cons p ps ih => rw [State.parkWaking, ih]; split <;> simp
@[simp] theorem State.parkWaking_tb (s : State) (ps : List PortId) :
    (s.parkWaking ps).tb = s.tb := by
  induction ps generalizing s with
  | nil => rfl
  | cons p ps ih => rw [State.parkWaking, ih]; split <;> simp
@[simp] theorem State.parkWaking_rs (s : State) (ps : List PortId) :
    (s.parkWaking ps).rs = s.rs := by
  induction ps generalizing s with
  | nil => rfl
  | cons p ps ih => rw [State.parkWaking, ih]; split <;> simp
@[simp] theorem State.parkWaking_wire (s : State) (ps : List PortId) :
    (s.parkWaking ps).wire = s.wire := by
  induction ps generalizing s with
  | nil => rfl
  | cons p ps ih => rw [State.parkWaking, ih]; split <;> simp
@[simp] theorem State.parkWaking_creditReturns (s : State) (ps : List PortId) :
    (s.parkWaking ps).mail.creditReturns = s.mail.creditReturns := by
  induction ps generalizing s with
  | nil => rfl
  | cons p ps ih => rw [State.parkWaking, ih]; split <;> simp
@[simp] theorem State.parkWaking_hitReports (s : State) (ps : List PortId) :
    (s.parkWaking ps).mail.hitReports = s.mail.hitReports := by
  induction ps generalizing s with
  | nil => rfl
  | cons p ps ih => rw [State.parkWaking, ih]; split <;> simp
@[simp] theorem State.parkWaking_occurrences (s : State) (ps : List PortId) :
    (s.parkWaking ps).mail.occurrences = s.mail.occurrences := by
  induction ps generalizing s with
  | nil => rfl
  | cons p ps ih => rw [State.parkWaking, ih]; split <;> simp
@[simp] theorem State.parkWaking_aborts (s : State) (ps : List PortId) :
    (s.parkWaking ps).mail.aborts = s.mail.aborts := by
  induction ps generalizing s with
  | nil => rfl
  | cons p ps ih => rw [State.parkWaking, ih]; split <;> simp
@[simp] theorem State.parkWaking_emptyReports (s : State) (ps : List PortId) :
    (s.parkWaking ps).mail.emptyReports = s.mail.emptyReports := by
  induction ps generalizing s with
  | nil => rfl
  | cons p ps ih => rw [State.parkWaking, ih]; split <;> simp
@[simp] theorem State.parkWaking_ends (s : State) (ps : List PortId) :
    (s.parkWaking ps).mail.ends = s.mail.ends := by
  induction ps generalizing s with
  | nil => rfl
  | cons p ps ih => rw [State.parkWaking, ih]; split <;> simp
@[simp] theorem State.parkWaking_answers (s : State) (ps : List PortId) :
    (s.parkWaking ps).mail.answers = s.mail.answers := by
  induction ps generalizing s with
  | nil => rfl
  | cons p ps ih => rw [State.parkWaking, ih]; split <;> simp
@[simp] theorem State.parkWaking_returns (s : State) (ps : List PortId) :
    (s.parkWaking ps).mail.returns = s.mail.returns := by
  induction ps generalizing s with
  | nil => rfl
  | cons p ps ih => rw [State.parkWaking, ih]; split <;> simp
@[simp] theorem State.parkWaking_arrivals (s : State) (ps : List PortId) :
    (s.parkWaking ps).mail.arrivals = s.mail.arrivals := by
  induction ps generalizing s with
  | nil => rfl
  | cons p ps ih => rw [State.parkWaking, ih]; split <;> simp
@[simp] theorem State.parkWaking_loss (s : State) (ps : List PortId) :
    (s.parkWaking ps).mail.loss = s.mail.loss := by
  induction ps generalizing s with
  | nil => rfl
  | cons p ps ih => rw [State.parkWaking, ih]; split <;> simp


/-! ## Lists, vectors and counters -/

/-- A vector read after a write. -/
theorem get_set {α : Type} {n : Nat} (v : Vector α n) (i j : Fin n) (x : α) :
    (v.set i.val x i.isLt).get j = if i = j then x else v.get j := by
  simp only [Vector.get_eq_getElem, Vector.getElem_set, Fin.ext_iff]

/-- A vector of one value read. -/
@[simp] theorem get_replicate {α : Type} {n : Nat} (x : α) (i : Fin n) : (Vector.replicate n x).get i = x := by
  simp [Vector.get_eq_getElem]

/-- A mapped vector read. -/
@[simp] theorem get_map {α β : Type} {n : Nat} (f : α → β) (v : Vector α n) (i : Fin n) : (v.map f).get i = f (v.get i) := by
  simp [Vector.get_eq_getElem]

/-- A port read after a write to a port. -/
theorem State.port_setPort_if (s : State) (p q : PortId) (x : Port) :
    (s.setPort p x).port q = if p = q then x else s.port q := get_set _ _ _ _

/-- Ports that stand alike read alike. -/
theorem State.port_congr {s t : State} (h : t.ports = s.ports) (p : PortId) : t.port p = s.port p := by
  simp [State.port, h]

/-- Claims follow from the OTT. -/
theorem State.claims_congr {s t : State} (h : t.ott = s.ott) (p : PortId) : t.claims p = s.claims p := by
  simp [State.claims, h]

/-- An item taken from a list by its position. -/
theorem takeAt_eq_some {α : Type} {k : Nat} {xs rest : List α} {x : α} :
    takeAt k xs = some (x, rest) ↔ xs[k]? = some x ∧ rest = xs.eraseIdx k := by
  unfold takeAt
  cases h : xs[k]? <;> simp [eq_comm]

/-- A saturating counter rises by one up to its maximum (00_scope.md, conventions). -/
theorem satInc_toNat {n : Nat} (c : BitVec n) (h : 0 < n) : (satInc c).toNat = min (2 ^ n - 1) (c.toNat + 1) := by
  unfold satInc
  have := c.isLt
  split
  · next h => subst h; simp [BitVec.toNat_allOnes]
  · next h =>
    have h2 : c.toNat ≠ 2 ^ n - 1 := fun hh => h (BitVec.eq_of_toNat_eq (by rw [hh, BitVec.toNat_allOnes]))
    have h1 : (1 : BitVec n).toNat = 1 := by simp; omega
    rw [BitVec.toNat_add, h1, Nat.mod_eq_of_lt] <;> omega

/-! ## Taking a control request -/

/-- The Control Unit carries out the request it takes, with that request no longer awaiting it. -/
theorem State.takeRequest_takes {s : State} {t : Tag} {payload : List Byte} (h : s.Takes t payload)
    {accepts : List Byte → Bool} (ha : accepts payload = true) (carry : State → Tag → List Byte → State) :
    s.takeRequest accepts carry = carry s.inHand t payload := by
  have e : ({ s.mail with arrivals := [] } : Mail) = s.mail := by rw [← h.2.2]
  unfold State.takeRequest
  rw [h.1]
  simp only
  rw [if_pos ⟨h.2.1, ha⟩, e, h.2.2]
  rfl

end Sys2Proof.Machine
end

