-- ==== Sys2Proof/Laws/Ports.lean ====
section
/-! SUPPORT. What the operations of the ports and of the OTT do, one lemma for each: serving a port (`ServesOnly`), completing
an entry, a port that leaves service and what happens elsewhere meanwhile (`LeavesPort`), the return to PARKED and the abort, and the orders that commands choose. -/

namespace Sys2Proof.Machine

/-! ## Responses and entries -/

/-- What a response does to the ULC follows from the ULC alone. -/
theorem place_ulc_congr {a b : State} (h : a.ulc = b.ulc) (r : Response) : (a.place r).ulc = (b.place r).ulc := by
  unfold State.place; rw [h]; split <;> simp [h]

/-- An entry found by its tag has that tag. -/
theorem entry_has_tag {s : State} {t : Tag} {e : Entry} (h : s.entry? t = some e) : e.tag = t := by
  have := List.find?_some h
  simpa using this

/-- What an answer does to the ULC follows from the ULC alone. -/
theorem respond_ulc_congr {s s' : State} (h : s'.ulc = s.ulc) (k t st d) : (s'.respond k t st d).ulc =
    (s.respond k t st d).ulc := place_ulc_congr h _

/-! ## What serving a port may change -/

structure ServesOnly (p : PortId) (s t : State) : Prop where
  ulc : t.ulc = s.ulc
  tags : t.ott.map (·.tag) = s.ott.map (·.tag)
  occ : t.mail.occurrences = s.mail.occurrences
  hit : t.mail.hitReports = s.mail.hitReports
  cr : t.mail.creditReturns = s.mail.creditReturns
  empt : t.mail.emptyReports = s.mail.emptyReports
  att : ∀ e, e ∈ s.mail.attempts → e ∈ t.mail.attempts
  other : ∀ q, q ≠ p → t.port q = s.port q
  same :
    t.port p = { s.port p with
      state := (t.port p).state, egress := (t.port p).egress, slots := (t.port p).slots, idle := (t.port p).idle,
      wake := (t.port p).wake, copiesSent := (t.port p).copiesSent }
  active : (s.port p).state = .active → (t.port p).state = .active
  only : s.OnlyDataPath t

/-- Nothing done. -/
theorem ServesOnly.refl (p) (s : State) : ServesOnly p s s := ⟨rfl, rfl, rfl, rfl, rfl, rfl, fun _ h => h,
    fun _ _ => rfl, rfl, id, rfl⟩

/-- The data path moved twice. -/
theorem onlyDataPath_trans {s t u : State} (h1 : s.OnlyDataPath t) (h2 : t.OnlyDataPath u) : s.OnlyDataPath u := by
  unfold State.OnlyDataPath at *
  rw [h2, h1]

/-- One act after another. -/
theorem ServesOnly.trans {p} {s t u : State} (a : ServesOnly p s t) (b : ServesOnly p t u) : ServesOnly p s u where
  ulc := b.ulc.trans a.ulc
  tags := b.tags.trans a.tags
  occ := b.occ.trans a.occ
  hit := b.hit.trans a.hit
  cr := b.cr.trans a.cr
  empt := b.empt.trans a.empt
  att e h := b.att e (a.att e h)
  other q h := (b.other q h).trans (a.other q h)
  same := by rw [b.same, a.same]
  active h := b.active (a.active h)
  only := onlyDataPath_trans a.only b.only

/-- An attempt event that has set out is on its way. -/
theorem attemptDue_mem (s : State) (e : AttemptEvent) : e ∈ (s.attemptDue e).mail.attempts := by
  simp [State.attemptDue]; split <;> simp_all
/-- What is on its way stays on its way. -/
theorem attemptDue_mono (s : State) (e x : AttemptEvent) (h : x ∈ s.mail.attempts) : x ∈
    (s.attemptDue e).mail.attempts := by
  simp [State.attemptDue]; split <;> simp_all

/-- Every field outside the data path equal. -/
theorem onlyDataPath_of {s t : State} (h1 : t.pending = s.pending) (h2 : t.pins = s.pins) (h4 : t.iq = s.iq)
    (h5 : t.ps = s.ps) (h8 : t.cu = s.cu) (h9 : t.eu = s.eu) (h10 : t.tb = s.tb)
    (h11 : t.rs = s.rs) : s.OnlyDataPath t := by
  unfold State.OnlyDataPath; cases t; simp_all

/-- What `Carries` allows is within the data path. -/
theorem onlyDataPath_of_carries {s t : State} (c : s.Carries t) : s.OnlyDataPath t := onlyDataPath_of c.pending c.pins
    c.iq c.ps c.cu c.eu c.tb c.rs

theorem servesOnly_setPort (p) (s : State) (x : Port)
    (h : x = { s.port p with
      state := x.state, egress := x.egress, slots := x.slots, idle := x.idle, wake := x.wake,
          copiesSent := x.copiesSent })
    (ha : (s.port p).state = .active → x.state = .active) : ServesOnly p s (s.setPort p x) where
  ulc := rfl
  tags := rfl
  occ := rfl
  hit := rfl
  cr := rfl
  empt := rfl
  att e h := h
  other q hq := State.port_setPort_ne _ _ hq.symm
  same := by rw [State.port_setPort]; exact h
  active h := by rw [State.port_setPort]; exact ha h
  only := rfl

theorem servesOnly_attempt (p) (s : State) (e) : ServesOnly p s (s.attemptDue e) :=
  ⟨rfl, rfl, rfl, rfl, rfl, rfl, fun x h => attemptDue_mono s e x h, fun _ _ => rfl, rfl, id, rfl⟩
theorem servesOnly_emit (p) (s : State) (o) : ServesOnly p s (s.emit o) :=
  ⟨rfl, rfl, rfl, rfl, rfl, rfl, fun _ h => h, fun _ _ => rfl, rfl, id, rfl⟩
theorem servesOnly_mark (p) (s : State) (t q st sl) : ServesOnly p s (s.markCopy t q st sl) :=
  ⟨rfl, by simp [State.markCopy, Function.comp_def]; intro e he; split <;> rfl, rfl, rfl, rfl, rfl, fun x h => h,
      fun _ _ => rfl, rfl, id, rfl⟩
theorem servesOnly_settle (p) (s : State) : ServesOnly p s (s.settleIdle p) := servesOnly_setPort _ _ _ rfl (fun h => h)
theorem servesOnly_completeWake (p) (s : State) : ServesOnly p s (s.completeWake p) := (servesOnly_setPort p s _ rfl
    (fun _ => rfl)).trans (servesOnly_attempt _ _ _)
theorem servesOnly_startWake (p) (s : State) (h : (s.port p).state = .parked) : ServesOnly p s (s.startWake p) := by
  unfold State.startWake
  have hh : ServesOnly p s (((s.setPort p { s.port p with state := .waking, wake := some (s.port p).wakeTimeout }).emit
    (.wake p)).attemptDue (.portChanged p)) :=
    ((servesOnly_setPort p s { s.port p with state := .waking, wake := some (s.port p).wakeTimeout } rfl
        (by rw [h]; intro h; cases h)).trans (servesOnly_emit _ _ _)).trans (servesOnly_attempt _ _ _)
  simp only
  split
  · exact hh.trans (servesOnly_completeWake _ _)
  · exact hh
theorem servesOnly_place (p) (s : State) (t) : ServesOnly p s (s.placeCopy p t) := by
  unfold State.placeCopy
  have hh : ServesOnly p s ((s.setPort p { s.port p with egress := (s.port p).egress ++ [t] }).markCopy t p .queued
      none) :=
    (servesOnly_setPort p s { s.port p with egress := (s.port p).egress ++ [t] } rfl (fun h => h)).trans
        (servesOnly_mark _ _ _ _ _ _)
  simp only
  split
  · next h => exact hh.trans (servesOnly_startWake _ _ (by
      have : ((s.setPort p { s.port p with egress := (s.port p).egress ++ [t] }).markCopy t p .queued none).port p = _
          := State.port_setPort s p _
      rw [this]; exact h))
  · exact hh
theorem servesOnly_sendOn (p) (s : State) (t rest i) : ServesOnly p s (s.sendOn p t rest i) := by
  unfold State.sendOn
  have hh : ServesOnly p s ((s.setPort p { s.port p with
    egress := rest
    slots := (s.port p).slots.set i.val (.inFlight t (s.port p).responseTimeout) i.isLt
    copiesSent := satInc (s.port p).copiesSent }).markCopy t p .sent (some i)) := (servesOnly_setPort p s { s.port p with
    egress := rest
    slots := (s.port p).slots.set i.val (.inFlight t (s.port p).responseTimeout) i.isLt
    copiesSent := satInc (s.port p).copiesSent } rfl (fun h => h)).trans (servesOnly_mark _ _ _ _ _ _)
  simp only
  split <;> split <;> first
   | exact (hh.trans (servesOnly_emit _ _ _)).trans (servesOnly_attempt _ _ _)
   | exact (hh.trans (servesOnly_emit _ _ _))
   | exact (hh.trans (servesOnly_attempt _ _ _))
   | exact hh
theorem servesOnly_send {p} {s t : State} (h : s.send? p = some t) : ServesOnly p s t := by
  unfold State.send? at h
  split at h
  · cases h; exact servesOnly_sendOn _ _ _ _ _
  · cases h
theorem servesOnly_arb {p} {s t : State} (h : s.arbitrate? p = some t) : ServesOnly p s t := by
  unfold State.arbitrate? at h
  split at h
  · split at h
    · cases h; exact servesOnly_place _ _ _
    · cases h
  · cases h
theorem servesOnly_serveN (p) (n : Nat) (s : State) : ServesOnly p s (State.serveN n s p) := by
  induction n generalizing s with
  | zero => exact .refl p s
  | succ n ih =>
    unfold State.serveN
    split
    · next h => exact (servesOnly_arb h).trans (ih _)
    · split
      · next h => exact (servesOnly_send h).trans (ih _)
      · exact .refl p s
/-- Serving a port, as a whole: what it leaves alone. -/
theorem servesOnly_serve (p) (s : State) : ServesOnly p s (s.serve p) := (servesOnly_serveN p _ s).trans
    (servesOnly_settle p _)

theorem serveN_idle (n : Nat) (s : State) (p : PortId) (h1 : (s.port p).egress = [])
    (h2 : s.claims p = []) : State.serveN n s p = s := by
  cases n with
  | zero => rfl
  | succ n =>
    unfold State.serveN
    have a : s.arbitrate? p = none := by
      unfold State.arbitrate?; rw [h2]; split <;> rfl
    have b : s.send? p = none := by
      unfold State.send?; rw [h1]; split <;> simp_all
    rw [a, b]

/-- A port with nothing queued and no claim on it is served by its idle timer alone. -/
theorem serve_idle (s : State) (p : PortId) (h1 : (s.port p).egress = [])
    (h2 : s.claims p = []) : s.serve p = s.settleIdle p := by
  unfold State.serve; rw [serveN_idle _ _ _ h1 h2]

/-- The port whose idle timer was brought to its conditions. -/
theorem settleIdle_port (s : State) (p : PortId) :
    (s.settleIdle p).port p = { s.port p with
      idle := if (s.port p).idles (s.strikeFlag p) then some ((s.port p).idle.getD
          (s.port p).idlePark) else none } := State.port_setPort _ _ _

/-! ## Completion -/

/-- The completion of an entry: its response, its departure, and DEGRADED for OK_DEGRADED (R118, R119, R123). -/
theorem complete_does (s : State) (e : Entry) (st : Status) :
    (s.complete e st).ulc = (s.respond e.kind e.tag st (e.responseData st)).ulc
    ∧ (∀ x ∈ (s.complete e st).ott, x.tag ≠ e.tag)
    ∧ (s.complete e st).ports = s.ports
    ∧ (st ≠ .okDegraded → (s.complete e st).mail.occurrences = s.mail.occurrences)
    ∧ (st = .okDegraded → s.underReset = false → (s.complete e st).mail.occurrences = s.mail.occurrences ++ [.degraded])
    ∧ (s.complete e st).mail.attempts = s.mail.attempts
    ∧ (s.complete e st).wire = s.wire
    ∧ (∀ x, x ∈ (s.complete e st).ott → x ∈ s.ott) := by
  have hur : ∀ y : State, y.rs = s.rs → y.underReset = s.underReset := fun y hy => by simp [State.underReset, hy]
  have hrep : s.underReset = false → ∀ y : State, y.rs = s.rs → (y.report .degraded).mail.occurrences =
      y.mail.occurrences ++ [.degraded] := by
    intro hu y hy; simp [State.report, hur y hy, hu]
  unfold State.complete
  refine ⟨?_, ?_, ?_, ?_, ?_, ?_, ?_, ?_⟩
  · simp only
    have : ∀ y : State, y.ulc = s.ulc → (y.respond e.kind e.tag st (e.responseData st)).ulc =
        (s.respond e.kind e.tag st (e.responseData st)).ulc := fun y hy => place_ulc_congr hy _
    repeat' split
    all_goals try simp
    all_goals exact this _ rfl
  · simp only
    repeat' split
    all_goals first | rfl | simp
  · simp only
    repeat' split
    all_goals first | rfl | simp
  · intro h; simp only [h, if_false]
    repeat' split
    all_goals first | rfl | simp
  · intro h hu; have hrep := hrep hu; simp only [h, if_true]
    repeat' split
    all_goals refine (hrep _ ?_).trans ?_ <;> first | rfl | simp
  · simp only
    repeat' split
    all_goals first | rfl | simp
  · simp only
    repeat' split
    all_goals first | rfl | simp
  · simp only
    repeat' split
    all_goals first | (simp; done) | (simp; intro x hx _; exact hx)

/-- The outcome of the copy of a SINGLE entry completes it (R117). -/
theorem outcome_single_completes (s : State) (t : Tag) (p : PortId) (o : CopyState) (d : List Byte) (e : Entry)
    (h : s.entry? t = some e) (hc : e.modeClass = .single) :
    ∃ e' : Entry, e'.tag = t ∧ e'.kind = e.kind ∧ (o = .ok → e.kind = .read → e'.readData = some d) ∧ (¬
        (e.kind = .read ∧ o = .ok) → e'.readData = e.readData) ∧ s.outcome t p o d =
        (s.setEntry e').complete e' o.status := by
  have ht := entry_has_tag h
  subst ht
  refine ⟨if e.kind = .read ∧ o = .ok then { e.setCopy p o none with readData := some d } else e.setCopy p o none, ?_,
      ?_, ?_, ?_, ?_⟩
  · split <;> rfl
  · split <;> rfl
  · intro h1 h2; rw [if_pos ⟨h2, h1⟩]
  · intro h1; rw [if_neg h1]; rfl
  · unfold State.outcome
    simp only [h]
    have : (if e.kind = .read ∧ o = .ok then { e.setCopy p o none with readData := some d } else e.setCopy p o none :
        Entry).modeClass = .single := by
      split <;> exact hc
    rw [this]

/-- The outcome of the copy of a SINGLE entry, as a whole (R117, R119). -/
theorem outcome_single_does (s : State) (t : Tag) (p : PortId) (o : CopyState) (d : List Byte) (e : Entry)
    (h : s.entry? t = some e) (hc : e.modeClass = .single) :
    (s.outcome t p o d).ulc = (s.respond e.kind t o.status (if e.kind = .read ∧ o = .ok then d else if e.kind = .read ∧
        o.status = .ok then e.readData.getD [] else [])).ulc
    ∧ (∀ x ∈ (s.outcome t p o d).ott, x.tag ≠ t)
    ∧ (s.outcome t p o d).ports = s.ports
    ∧ (s.outcome t p o d).mail.occurrences = s.mail.occurrences
    ∧ (s.outcome t p o d).mail.attempts = s.mail.attempts
    ∧ (s.outcome t p o d).wire = s.wire
    ∧ (∀ x, (∀ y ∈ s.ott, y.tag ≠ x) → ∀ y ∈ (s.outcome t p o d).ott, y.tag ≠ x) := by
  have hd : o.status ≠ .okDegraded := by cases o <;> decide
  obtain ⟨e', h1, h2, h3, h4, h5⟩ := outcome_single_completes s t p o d e h hc
  rw [h5]
  have k := complete_does (s.setEntry e') e' o.status
  rw [h1, h2] at k
  refine ⟨?_, k.2.1, k.2.2.1, k.2.2.2.1 hd, k.2.2.2.2.2.1, k.2.2.2.2.2.2.1, ?_⟩
  · rw [k.1]
    have : e'.responseData o.status = (if e.kind = .read ∧ o = .ok then d else if e.kind = .read ∧ o.status = .ok then
        e.readData.getD [] else []) := by
      unfold Entry.responseData
      rw [h2]
      by_cases hk : e.kind = .read ∧ o = .ok
      · rw [h3 hk.2 hk.1, if_pos hk, if_pos ⟨hk.1, by rw [hk.2]; rfl⟩]; rfl
      · rw [h4 hk, if_neg hk]
    rw [this]; exact respond_ulc_congr (s := s) (s' := s.setEntry e') rfl _ _ _ _
  · intro x hx y hy
    have := k.2.2.2.2.2.2.2 y hy
    simp only [State.setEntry, List.mem_map] at this
    obtain ⟨z, hz, rfl⟩ := this
    split
    · next hzt => rw [← hzt]; exact hx z hz
    · exact hx z hz

/-! ## What stands apart from a port out of service -/

/-- What may happen elsewhere while port `p` is out of service: its record stays, nothing goes out on its low-power and
wake lines, and what is on its way stays so. -/
structure LeavesPort (p : PortId) (s t : State) : Prop where
  port : t.port p = s.port p
  wire : ∃ w, t.wire = s.wire ++ w ∧ Output.lowPower p ∉ w ∧ Output.wake p ∉ w
  att : ∀ e, e ∈ s.mail.attempts → e ∈ t.mail.attempts
  occ : ∀ o, o ∈ s.mail.occurrences → o ∈ t.mail.occurrences

theorem LeavesPort.refl (p) (s : State) : LeavesPort p s s := ⟨rfl, ⟨[], by simp, by simp, by simp⟩, fun _ h => h,
    fun _ h => h⟩
theorem LeavesPort.trans {p} {s t u : State} (a : LeavesPort p s t) (b : LeavesPort p t u) : LeavesPort p s u := by
  obtain ⟨w, h1, h2, h3⟩ := a.wire
  obtain ⟨x, k1, k2, k3⟩ := b.wire
  exact ⟨b.port.trans a.port, ⟨w ++ x, by rw [k1, h1, List.append_assoc], by simp [h2, k2], by simp [h3, k3]⟩,
      fun e h => b.att e (a.att e h), fun e h => b.occ e (a.occ e h)⟩

theorem leavesPort_of {p} {s t : State} (h1 : t.ports = s.ports) (h2 : t.wire = s.wire) (h3 : ∀ e,
    e ∈ s.mail.attempts → e ∈ t.mail.attempts) (h4 : ∀ o, o ∈ s.mail.occurrences → o ∈ t.mail.occurrences) : LeavesPort
    p s t :=
  ⟨State.port_congr h1 p, ⟨[], by simp [h2], by simp, by simp⟩, h3, h4⟩

theorem leavesPort_setPort {p q} (h : q ≠ p) (s : State) (x) : LeavesPort p s (s.setPort q x) :=
  ⟨State.port_setPort_ne _ _ h, ⟨[], by simp, by simp, by simp⟩, fun _ h => h, fun _ h => h⟩
theorem leavesPort_emit {p} (s : State) (o) (h1 : o ≠ .lowPower p) (h2 : o ≠ .wake p) : LeavesPort p s (s.emit o) :=
  ⟨rfl, ⟨[o], rfl, by simpa using h1.symm, by simpa using h2.symm⟩, fun _ h => h, fun _ h => h⟩
theorem leavesPort_attempt {p} (s : State) (e) : LeavesPort p s (s.attemptDue e) := leavesPort_of rfl rfl
    (fun x h => attemptDue_mono s e x h) (fun _ h => h)
theorem leavesPort_mark {p} (s : State) (t q st sl) : LeavesPort p s (s.markCopy t q st sl) := leavesPort_of rfl rfl
    (fun _ h => h) (fun _ h => h)
theorem leavesPort_completeWake {p q} (h : q ≠ p) (s : State) : LeavesPort p s (s.completeWake q) :=
    (leavesPort_setPort h s _).trans (leavesPort_attempt _ _)
theorem leavesPort_startWake {p q} (h : q ≠ p) (s : State) : LeavesPort p s (s.startWake q) := by
  unfold State.startWake
  have hh : LeavesPort p s (((s.setPort q { s.port q with state := .waking, wake := some (s.port q).wakeTimeout }).emit
    (.wake q)).attemptDue (.portChanged q)) := ((leavesPort_setPort h s _).trans (leavesPort_emit _ _ (by simp)
        (by simpa using h))).trans (leavesPort_attempt _ _)
  simp only
  split
  · exact hh.trans (leavesPort_completeWake h _)
  · exact hh
theorem leavesPort_place {p q} (h : q ≠ p) (s : State) (t) : LeavesPort p s (s.placeCopy q t) := by
  unfold State.placeCopy
  have hh : LeavesPort p s ((s.setPort q { s.port q with egress := (s.port q).egress ++ [t] }).markCopy t q .queued
      none) := (leavesPort_setPort h s _).trans (leavesPort_mark _ _ _ _ _)
  simp only
  split
  · exact hh.trans (leavesPort_startWake h _)
  · exact hh
theorem leavesPort_sendOn {p q} (h : q ≠ p) (s : State) (t rest i) : LeavesPort p s (s.sendOn q t rest i) := by
  unfold State.sendOn
  have hh : LeavesPort p s ((s.setPort q { s.port q with
    egress := rest
    slots := (s.port q).slots.set i.val (.inFlight t (s.port q).responseTimeout) i.isLt
    copiesSent := satInc (s.port q).copiesSent }).markCopy t q .sent (some i)) := (leavesPort_setPort h s _).trans
        (leavesPort_mark _ _ _ _ _)
  simp only
  split <;> split <;> first
   | exact (hh.trans (leavesPort_emit _ _ (by simp [Entry.downstream]) (by simp [Entry.downstream]))).trans
       (leavesPort_attempt _ _)
   | exact (hh.trans (leavesPort_emit _ _ (by simp [Entry.downstream]) (by simp [Entry.downstream])))
   | exact (hh.trans (leavesPort_attempt _ _))
   | exact hh
theorem leavesPort_serveN {p q} (h : q ≠ p) (n : Nat) (s : State) : LeavesPort p s (State.serveN n s q) := by
  induction n generalizing s with
  | zero => exact .refl p s
  | succ n ih =>
    unfold State.serveN
    split
    · next hh =>
      unfold State.arbitrate? at hh
      split at hh
      · split at hh
        · cases hh; exact (leavesPort_place h _ _).trans (ih _)
        · cases hh
      · cases hh
    · split
      · next hh =>
        unfold State.send? at hh
        split at hh
        · cases hh; exact (leavesPort_sendOn h _ _ _ _).trans (ih _)
        · cases hh
      · exact .refl p s
theorem leavesPort_serve {p q} (h : q ≠ p) (s : State) : LeavesPort p s (s.serve q) := (leavesPort_serveN h _ s).trans
    (leavesPort_setPort h _ _)
theorem leavesPort_complete {p} (s : State) (e st) : LeavesPort p s (s.complete e st) := by
  have k := complete_does s e st
  refine leavesPort_of k.2.2.1 k.2.2.2.2.2.2.1 (by rw [k.2.2.2.2.2.1]; exact fun _ h => h) ?_
  intro o ho
  by_cases h : st = .okDegraded
  · cases hu : s.underReset
    · rw [k.2.2.2.2.1 h hu]; simp [ho]
    · unfold State.complete; simp only [h, if_true, State.report]
      have : ∀ y : State, y.rs = s.rs → y.underReset = true := fun y hy => by rw [← hu]; simp [State.underReset, hy]
      split <;> (try (simp; rw [if_pos (this _ (by simp))]; simpa using ho))
  · rw [k.2.2.2.1 h]; exact ho
theorem leavesPort_setEntry {p} (s : State) (e) : LeavesPort p s (s.setEntry e) := leavesPort_of rfl rfl
    (fun _ h => h) (fun _ h => h)
/-- The next member of a failover is in service (R125). -/
theorem nextMember_serves {s : State} {w i q j} (h : s.nextMember w i = some (q, j)) :
    (s.port q).state.inService = true := by
  have := List.find?_some h
  exact this
theorem leavesPort_failover {p} (s : State) (hp : (s.port p).state.inService = false) (e q o) : LeavesPort p s
    (s.failover e q o) := by
  unfold State.failover
  split
  · split
    · next hn =>
      have hs := nextMember_serves hn
      have hne : ∀ x, (s.port x).state.inService = true → x ≠ p := by rintro x hx rfl; rw [hp] at hx; cases hx
      unfold State.reissue
      simp only
      split
      · exact ((leavesPort_setEntry _ _).trans (leavesPort_place (hne _ hs) _ _)).trans (leavesPort_serve (hne _ hs) _)
      · exact leavesPort_setEntry _ _
    · exact leavesPort_complete _ _ _
  · exact leavesPort_complete _ _ _
theorem leavesPort_outcome {p} (s : State) (hp : (s.port p).state.inService = false) (t q o d) : LeavesPort p s
    (s.outcome t q o d) := by
  unfold State.outcome
  split
  · exact .refl p s
  · simp only
    repeat' split
    all_goals first
      | exact leavesPort_setEntry _ _
      | exact (leavesPort_setEntry _ _).trans (leavesPort_complete _ _ _)
      | exact (leavesPort_setEntry _ _).trans (leavesPort_failover (State.setEntry _ _) hp _ _ _)
theorem leavesPort_job {p} (s : State) (hp : (s.port p).state.inService = false) (q j) : LeavesPort p s
    (s.runJob q j) := by
  unfold State.runJob
  split
  · exact leavesPort_outcome _ hp _ _ _ _
  · split
    · exact leavesPort_outcome _ hp _ _ _ _
    · exact .refl p s
  · exact leavesPort_of (by simp) (by simp) (by simp) (by simp)
theorem leavesPort_jobs {p} (js : List Job) (s : State) (hp : (s.port p).state.inService = false) (q) : LeavesPort p s
    (s.runJobs q js) := by
  induction js generalizing s with
  | nil => exact .refl p s
  | cons j js ih =>
    have h1 := leavesPort_job s hp q j
    exact h1.trans (ih _ (by rw [h1.port]; exact hp))

/-- A port that leaves service: its record, its attempt event, its silent lines, and the reports kept (R94, R104). -/
theorem leaveService_does (s : State) (p st c more order) (hst : st.inService = false) :
   (s.leaveService p st c more order).port p = (s.port p).outOfService st c
   ∧ AttemptEvent.portChanged p ∈ (s.leaveService p st c more order).mail.attempts
   ∧ (∃ w, (s.leaveService p st c more order).wire = s.wire ++ w ∧ Output.lowPower p ∉ w ∧ Output.wake p ∉ w)
   ∧ (∀ o, o ∈ s.mail.occurrences → o ∈ (s.leaveService p st c more order).mail.occurrences) := by
  unfold State.leaveService
  set s1 := (s.setPort p ((s.port p).outOfService st c)).attemptDue (.portChanged p) with hs1
  have hp : s1.port p = (s.port p).outOfService st c := by rw [hs1, State.port_congr (State.attemptDue_ports _ _),
      State.port_setPort]
  have q := leavesPort_jobs (permute order (more ++ s.leavingJobs p)) s1 (by rw [hp]; exact hst) p
  refine ⟨by rw [q.port, hp], q.att _ (attemptDue_mem _ _), ?_, fun o ho => q.occ o ho⟩
  obtain ⟨w, h1, h2, h3⟩ := q.wire
  exact ⟨w, h1, h2, h3⟩

/-- A quarantine: the record, the attempt event, the silent lines, and the report (R94). -/
theorem quarantine_does (s : State) (p c more order) :
   (s.quarantine p c more order).port p = (s.port p).outOfService .quarantined (some c)
   ∧ AttemptEvent.portChanged p ∈ (s.quarantine p c more order).mail.attempts
   ∧ (∃ w, (s.quarantine p c more order).wire = s.wire ++ w ∧ Output.lowPower p ∉ w ∧ Output.wake p ∉ w)
   ∧ (s.underReset = false → Occurrence.quarantine p ∈ (s.quarantine p c more order).mail.occurrences) := by
  have h := leaveService_does (s.report (.quarantine p)) p .quarantined (some c) more order rfl
  have hp : (s.report (.quarantine p)).port p = s.port p := State.port_congr (by simp) p
  rw [hp] at h
  refine ⟨h.1, h.2.1, ?_, ?_⟩
  · have := h.2.2.1; rw [State.report_wire] at this; exact this
  · intro hu; apply h.2.2.2; simp [State.report, hu]

/-! ## The return to PARKED and the abort -/

theorem mem_allPorts (p : PortId) : p ∈ allPorts := by revert p; decide

/-- Of the ports of the list, the WAKING ones become PARKED with the wake timer stopped; no other port changes (R108). -/
theorem parkWaking_port (ps : List PortId) (s : State) (p : PortId) :
    (s.parkWaking ps).port p =
      if p ∈ ps ∧ (s.port p).state = .waking then { s.port p with state := .parked, wake := none } else s.port p := by
  induction ps generalizing s with
  | nil => simp [State.parkWaking]
  | cons q qs ih =>
    rw [State.parkWaking, ih]
    by_cases hq : q = p
    · subst hq
      by_cases h : (s.port q).state = .waking
      · simp [h, State.port_congr (State.attemptDue_ports _ _), State.port_setPort]
      · simp [h]
    · have e : (if (s.port q).state = .waking then
          (s.setPort q { s.port q with state := .parked, wake := none }).attemptDue (.portChanged q) else s).port p = s.port p := by
        split
        · rw [State.port_congr (State.attemptDue_ports _ _), State.port_setPort_ne _ _ hq]
        · rfl
      simp [e, Ne.symm hq]

/-- Attempt events on their way stay, and every port that returns is reported to the IQ (R108). -/
theorem parkWaking_attempts (ps : List PortId) (s : State) :
    (∀ e ∈ s.mail.attempts, e ∈ (s.parkWaking ps).mail.attempts)
      ∧ ∀ p ∈ ps, (s.port p).state = .waking → AttemptEvent.portChanged p ∈ (s.parkWaking ps).mail.attempts := by
  induction ps generalizing s with
  | nil => exact ⟨fun _ h => h, fun _ h => nomatch h⟩
  | cons q qs ih =>
    rw [State.parkWaking]
    by_cases h : (s.port q).state = .waking
    · simp only [h, if_true]
      have k := ih ((s.setPort q { s.port q with state := .parked, wake := none }).attemptDue (.portChanged q))
      refine ⟨fun e he => k.1 e (attemptDue_mono _ _ _ he), fun p hp hw => ?_⟩
      by_cases hq : q = p
      · subst hq; exact k.1 _ (attemptDue_mem _ _)
      · refine k.2 p (by simpa [Ne.symm hq] using hp) ?_
        rw [State.port_congr (State.attemptDue_ports _ _), State.port_setPort_ne _ _ hq]
        exact hw
    · simp only [h, if_false]
      refine ⟨(ih s).1, fun p hp hw => (ih s).2 p ?_ hw⟩
      have hne : p ≠ q := fun e => h (e ▸ hw)
      simpa [hne] using hp

/-- Nothing waits for the port exactly when its FIFO is empty and no copy has a claim on it. -/
theorem nothingWaits_iff (s : State) (p : PortId) :
    s.nothingWaits p = true ↔ (s.port p).egress = [] ∧ s.claims p = [] := by
  simp [State.nothingWaits]

/-- The WAKING ports for which nothing waits become PARKED; no other port changes (R107, R108). -/
theorem returnWaking_port (s : State) (p : PortId) :
    s.returnWaking.port p =
      if (s.port p).state = .waking ∧ (s.port p).egress = [] ∧ s.claims p = [] then
        { s.port p with state := .parked, wake := none } else s.port p := by
  unfold State.returnWaking
  simp only
  rw [parkWaking_port]
  have e : ∀ m, ({ s with mail := m } : State).port p = s.port p := fun _ => rfl
  simp only [e, List.mem_filter, mem_allPorts, true_and, nothingWaits_iff, and_comm]

/-- The ports left waiting for the abort: those that waited before, and the WAKING ones for which a copy waits (log 27). -/
theorem mem_returnWaking_returns (s : State) (p : PortId) :
    p ∈ s.returnWaking.mail.returns ↔
      p ∈ s.mail.returns ∨ ((s.port p).state = .waking ∧ ((s.port p).egress ≠ [] ∨ s.claims p ≠ [])) := by
  unfold State.returnWaking
  simp only [State.parkWaking_returns, List.mem_filter, mem_allPorts, true_and]
  simp [State.nothingWaits]

/-- A port that returns at once is reported to the IQ (R108). -/
theorem returnWaking_attempts (s : State) (p : PortId) (h : s.returnWaking.port p ≠ s.port p) :
    AttemptEvent.portChanged p ∈ s.returnWaking.mail.attempts := by
  rw [returnWaking_port] at h
  split at h
  · next c =>
    refine (parkWaking_attempts _ _).2 p ?_ c.1
    simp [mem_allPorts, nothingWaits_iff, c.2]
  · exact absurd rfl h

/-- What an abort leaves of a port: nothing queued, IN_FLIGHT slots ORPHAN, the idle timer brought to its conditions; it stays
in its state (R107). -/
theorem abortPort_port (s : State) (p q : PortId) (c : Bool) :
    (s.abortPort p c).port q = if q = p then { (s.port p).aborted with idle := ((s.abortPort p c).port p).idle } else s.port q := by
  have e : (s.abortPort p c).port = ((s.setPort p (s.port p).aborted).settleIdle p).port := by
    unfold State.abortPort; simp only; split
    · exact funext fun x => State.port_congr (State.attemptDue_ports _ _) x
    · rfl
  rw [e]
  by_cases h : q = p
  · subst h
    rw [if_pos rfl, settleIdle_port, State.port_setPort]
  · rw [if_neg h]
    unfold State.settleIdle
    rw [State.port_setPort_ne _ _ (Ne.symm h), State.port_setPort_ne _ _ (Ne.symm h)]

/-- The same for the ports of a list. -/
theorem abortPorts_port (c : PortId → Bool) (ps : List PortId) (hn : ps.Nodup) (s : State) (p : PortId) (hp : p ∈ ps) :
    (s.abortPorts c ps).port p = { (s.port p).aborted with idle := ((s.abortPorts c ps).port p).idle } := by
  induction ps generalizing s with
  | nil => exact nomatch hp
  | cons q qs ih =>
    obtain ⟨hq, hn⟩ := List.nodup_cons.mp hn
    have out : ∀ (l : List PortId) (t : State), p ∉ l → (t.abortPorts c l).port p = t.port p := by
      intro l
      induction l with
      | nil => exact fun _ _ => rfl
      | cons a l il =>
        intro t h
        rw [State.abortPorts, il _ (fun k => h (.tail _ k)), abortPort_port, if_neg (by rintro rfl; exact h List.mem_cons_self)]
    rw [State.abortPorts]
    by_cases h : p = q
    · subst h
      rw [out qs _ hq, abortPort_port, if_pos rfl]
    · rw [ih hn _ (by simpa [h] using hp), abortPort_port, if_neg h]

/-- After an abort nothing is queued at any port, and a port that had its return to PARKED still to take and was WAKING is PARKED;
no other port's state changes (R107, R108, log 27). -/
theorem abort_port (s : State) (order : Order) (p : PortId) :
    ∃ idle, (s.abort order).port p =
      if p ∈ s.mail.returns ∧ (s.port p).state = .waking then
        { (s.port p).aborted with state := .parked, wake := none, idle := idle }
      else { (s.port p).aborted with idle := idle } := by
  have e : ∀ x : State, x.ports = s.ports → ∀ as, (x.answerAborted as).port p = s.port p := fun x h as =>
    State.port_congr ((congrArg State.ports (State.answerAborted_spec as x).1).trans h) p
  unfold State.abort
  simp only
  rw [State.port_congr (State.reportEmpty_ports _) p, parkWaking_port, abortPorts_port _ _ (by decide) _ p (mem_allPorts p),
    e]
  · exact ⟨_, rfl⟩
  · rfl

/-! ## Orders -/

/-- An item taken leaves the others. -/
theorem takeAt_perm {α : Type} {i : Nat} {xs rest : List α} {x : α} (h : takeAt i xs = some (x, rest)) :
    (x :: rest).Perm xs := by
  obtain ⟨h1, rfl⟩ := takeAt_eq_some.mp h
  obtain ⟨hi, rfl⟩ := List.getElem?_eq_some_iff.mp h1
  exact (List.getElem_cons_eraseIdx_perm hi)

/-- A chosen order keeps the items. -/
theorem permute_perm {α : Type} (o : Order) (xs : List α) : (permute o xs).Perm xs := by
  induction o generalizing xs with
  | nil => simp [permute]
  | cons k ks ih =>
    rw [permute]
    split
    · next h => exact ((ih _).cons _).trans (takeAt_perm h)
    · exact .refl _

/-- Two lists in one: the items are those of both, each list in its own order. -/
theorem interleave_spec {α : Type} (o : Order) (xs ys : List α) :
    (interleave o xs ys).Perm (xs ++ ys) ∧ xs.Sublist (interleave o xs ys) ∧ ys.Sublist (interleave o xs ys) := by
  induction o generalizing xs ys with
  | nil => cases xs <;> cases ys <;> simp [interleave]
  | cons k ks ih =>
    cases xs with
    | nil => cases ys <;> simp [interleave]
    | cons x xs =>
      cases ys with
      | nil => simp [interleave]
      | cons y ys =>
        simp only [interleave]
        split
        · have h := ih xs (y :: ys)
          exact ⟨h.1.cons x, h.2.1.cons_cons x, h.2.2.cons x⟩
        · have h := ih (x :: xs) ys
          exact ⟨(h.1.cons y).trans List.perm_middle.symm, h.2.1.cons y, h.2.2.cons_cons y⟩

/-- With nothing in the second list the first keeps its order. -/
@[simp] theorem interleave_nil {α : Type} (o : Order) (xs : List α) : interleave o xs [] = xs := by
  cases o <;> cases xs <;> simp [interleave]

end Sys2Proof.Machine
end

