-- ==== Sys2Proof/Laws/Serve.lean ====
section
/-! SUPPORT. What a port does with its copies: the arbiter, the sender, a wake, and a copy that is placed (`State.Places`; R18,
R30, R84, R86, R99, R127). -/

namespace Sys2Proof.Machine

/-- A vector read at an index, as an element. -/
theorem vget {α n} (v : Vector α n) (i : Fin n) : v.get i = v[i.val] := rfl

/-! ## Slots -/

/-- The first slot of which a test holds, if it fails for all below. -/
theorem find_allSlots (f : SlotId → Bool) (i : SlotId) (h : f i = true) (hl : ∀ j, j < i → f j = false) :
    allSlots.find? f = some i := by
  have e : allSlots = List.finRange 16 := by decide
  rw [e, List.find?_eq_some_iff_append]
  refine ⟨h, (List.finRange 16).take i.val, (List.finRange 16).drop (i.val + 1), ?_, ?_⟩
  · have hi : i.val < (List.finRange 16).length := by simp
    conv => lhs; rw [← List.take_append_drop i.val (List.finRange 16)]
    rw [List.drop_eq_getElem_cons hi]
    simp
  · intro a ha
    obtain ⟨k, hk, rfl⟩ := List.mem_take_iff_getElem.mp ha
    have hk2 : k < i.val := by omega
    rw [hl _ (by simp [Fin.lt_def]; exact hk2)]; rfl

/-- The sender finds the lowest FREE slot (R86). -/
theorem lowestFree_freeSlot (q : Port) (i : SlotId) (h : q.LowestFree i) : q.freeSlot = some i := by
  unfold Port.freeSlot
  refine find_allSlots _ i (by simp [h.1]) ?_
  intro j hj; simpa using h.2 j hj

/-- With no slot FREE the sender finds none. -/
theorem noneFree_freeSlot (q : Port) (h : ∀ i, q.slots.get i ≠ .free) : q.freeSlot = none := by
  unfold Port.freeSlot
  rw [List.find?_eq_none]; intro i _; simpa using h i

/-! ## When nothing is done -/

/-- Serving changes nothing where neither the arbiter nor the sender can act. -/
theorem serveN_stands (n : Nat) (s : State) (p : PortId) (h1 : s.arbitrate? p = none) (h2 : s.send? p = none) :
    State.serveN n s p = s := by
  cases n with
  | zero => rfl
  | succ n => unfold State.serveN; rw [h1, h2]

/-- The arbiter does nothing with no claim on the port. -/
theorem arbitrate_noClaim (s : State) (p) (h : s.claims p = []) : s.arbitrate? p = none := by
  unfold State.arbitrate?; rw [h]; split <;> rfl

/-- A port that is not ACTIVE sends nothing (R86). -/
theorem send_notActive (s : State) (p) (h : (s.port p).state ≠ .active) : s.send? p = none := by
  unfold State.send?; split <;> simp_all

/-- An empty FIFO sends nothing. -/
theorem send_empty (s : State) (p) (h : (s.port p).egress = []) : s.send? p = none := by
  unfold State.send?; split <;> simp_all

/-- A port with no slot FREE sends nothing. -/
theorem send_noSlot (s : State) (p) (h : ∀ i, (s.port p).slots.get i ≠ .free) : s.send? p = none := by
  unfold State.send?; rw [noneFree_freeSlot _ h]; split <;> simp_all

/-- An ACTIVE port sends the head of its FIFO on its lowest FREE slot (R86). -/
theorem send_sends (s : State) (p t rest i) (h1 : (s.port p).state = .active) (h2 : (s.port p).egress = t :: rest) (h3
    : (s.port p).LowestFree i) : s.send? p = some (s.sendOn p t rest i) := by
  unfold State.send?; rw [h1, h2, lowestFree_freeSlot _ _ h3]

/-! ## Entries and claims after a copy is marked -/

/-- The entry of a tag after a copy has been marked. -/
theorem entry_markCopy (s : State) (t p st sl x) : (s.markCopy t p st sl).entry? x = if x = t then (s.entry? x).map
    (·.setCopy p st sl) else s.entry? x := by
  simp only [State.entry?, State.markCopy]
  induction s.ott with
  | nil => simp
  | cons e es ih =>
    simp only [List.map_cons, List.find?_cons]
    have hte : (if e.tag = t then e.setCopy p st sl else e).tag = e.tag := by split <;> rfl
    rw [hte, ih]
    by_cases hx : e.tag = x
    · subst hx; simp
      by_cases ht : e.tag = t <;> simp [ht]
    · have : (e.tag == x) = false := by simpa using hx
      simp [this]

/-- Marking a copy with a state other than REISSUE_WAIT makes no claim. -/
theorem claims_markCopy_nil (s : State) (t p q st sl) (hst : st ≠ .reissueWait) (h : s.claims q = []) : (s.markCopy t
    p st sl).claims q = [] := by
  simp only [State.claims, List.map_eq_nil_iff, List.filter_eq_nil_iff, State.markCopy, List.mem_map] at *
  rintro x ⟨y, hy, rfl⟩
  have := h y hy
  split
  · simp only [Entry.waitsFor, Entry.setCopy, List.any_eq_true, List.mem_map] at *
    rintro ⟨c, ⟨d, hd, rfl⟩, hc⟩
    split at hc
    · simp [hst] at hc
    · exact this ⟨d, hd, hc⟩
  · exact this

/-! ## Sending (R86) -/

/-- The port that has sent. -/
theorem sendOn_port (s : State) (p t rest i) : (s.sendOn p t rest i).port p = { s.port p with
    egress := rest
    slots := (s.port p).slots.set i.val (.inFlight t (s.port p).responseTimeout) i.isLt
    copiesSent := satInc (s.port p).copiesSent } := by
  unfold State.sendOn
  simp only
  split <;> split <;> exact State.port_setPort s p _

/-- The entries after a copy has been sent. -/
theorem sendOn_ott (s : State) (p t rest i) : (s.sendOn p t rest i).ott = (s.markCopy t p .sent (some i)).ott := by
  unfold State.sendOn
  simp only
  split <;> split <;> rfl

theorem entry_congr {a b : State} (h : a.ott = b.ott) (x) : a.entry? x = b.entry? x := by simp [State.entry?, h]

theorem claims_congr {a b : State} (h : a.ott = b.ott) (x) : a.claims x = b.claims x := by simp [State.claims, h]

/-- The downstream request that goes out. -/
theorem sendOn_wire (s : State) (p t rest i e c) (he : s.entry? t = some e) (hc : e.copyAt p = some c) :
   (s.sendOn p t rest i).wire = s.wire ++ [.downstream p e.kind i c.target e.length e.writeData] := by
  unfold State.sendOn
  simp only [he]
  have : e.downstream p i = .downstream p e.kind i c.target e.length e.writeData := by simp [Entry.downstream, hc]
  split <;> simp [State.emit, this]

/-- Sending makes no claim. -/
theorem sendOn_claims_nil (s : State) (p t rest i q) (h : s.claims q = []) : (s.sendOn p t rest i).claims q = [] := by
  rw [claims_congr (sendOn_ott s p t rest i)]; exact claims_markCopy_nil _ _ _ _ _ _ (by decide) h

/-! ## The output lines only grow -/

/-- Placing a copy adds to the lines. -/
theorem placeCopy_wire (s : State) (p t) : ∃ m, (s.placeCopy p t).wire = s.wire ++ m := by
  unfold State.placeCopy State.startWake
  simp only
  split
  · split <;> exact ⟨[.wake p], rfl⟩
  · exact ⟨[], by simp⟩

theorem sendOn_wire_grows (s : State) (p t rest i) : ∃ m, (s.sendOn p t rest i).wire = s.wire ++ m := by
  unfold State.sendOn
  simp only
  split <;> split <;> first | exact ⟨[_], rfl⟩ | exact ⟨[], by simp⟩

theorem serveN_wire (n) (s : State) (p) : ∃ m, (State.serveN n s p).wire = s.wire ++ m := by
  induction n generalizing s with
  | zero => exact ⟨[], by simp [State.serveN]⟩
  | succ n ih =>
    unfold State.serveN
    split
    · next s1 h =>
      have : ∃ m, s1.wire = s.wire ++ m := by
        unfold State.arbitrate? at h
        split at h
        · split at h
          · cases h; exact placeCopy_wire _ _ _
          · cases h
        · cases h
      obtain ⟨m, hm⟩ := this
      obtain ⟨k, hk⟩ := ih s1
      exact ⟨m ++ k, by rw [hk, hm, List.append_assoc]⟩
    · split
      · next s1 h =>
        have : ∃ m, s1.wire = s.wire ++ m := by
          unfold State.send? at h
          split at h
          · cases h; exact sendOn_wire_grows _ _ _ _ _
          · cases h
        obtain ⟨m, hm⟩ := this
        obtain ⟨k, hk⟩ := ih s1
        exact ⟨m ++ k, by rw [hk, hm, List.append_assoc]⟩
      · exact ⟨[], by simp⟩

theorem serve_wire (s : State) (p) : ∃ m, (s.serve p).wire = s.wire ++ m := serveN_wire 80 s p

/-! ## Serving a port -/

/-- A port with no claim and nothing to send only brings its idle timer to its conditions. -/
theorem serve_quiet (s : State) (p) (h1 : s.claims p = []) (h2 : s.send? p = none) : s.serve p = s.settleIdle p := by
  unfold State.serve; rw [serveN_stands _ _ _ (arbitrate_noClaim _ _ h1) h2]

/-- A port that can send sends first when no claim waits. -/
theorem serve_sends (s : State) (p t rest i) (h1 : (s.port p).state = .active) (h2 : (s.port p).egress = t :: rest)
    (h3 : (s.port p).LowestFree i) (hcl : s.claims p = []) :
   s.serve p = (State.serveN 79 (s.sendOn p t rest i) p).settleIdle p := by
  unfold State.serve
  conv => lhs; rw [State.serveN]
  rw [arbitrate_noClaim _ _ hcl, send_sends s p t rest i h1 h2 h3]

/-- A port with one copy and a FREE slot sends it and is done. -/
theorem serve_one (s : State) (p t i) (h1 : (s.port p).state = .active) (h2 : (s.port p).egress = [t]) (h3 : (s.port
    p).LowestFree i) (hcl : s.claims p = []) :
   s.serve p = (s.sendOn p t [] i).settleIdle p := by
  rw [serve_sends s p t [] i h1 h2 h3 hcl, serveN_stands]
  · exact arbitrate_noClaim _ _ (sendOn_claims_nil _ _ _ _ _ _ hcl)
  · exact send_empty _ _ (by rw [sendOn_port])

/-- A slot in use keeps the idle timer stopped (R96). -/
theorem idles_slot (q : Port) (b) (i : SlotId) (h : q.slots.get i ≠ .free) : q.idles b = false := by
  unfold Port.idles
  have : (q.slots.toList.all (· == .free)) = false := by
    rw [List.all_eq_false]
    refine ⟨q.slots.get i, ?_, by simpa using h⟩
    rw [vget]; simp
  rw [this]; simp

/-- A queued copy keeps the idle timer stopped (R96). -/
theorem idles_egress (q : Port) (b) (h : q.egress ≠ []) : q.idles b = false := by
  unfold Port.idles; cases he : q.egress <;> simp_all

/-- Outside ACTIVE the idle timer is stopped (R96). -/
theorem idles_state (q : Port) (b) (h : q.state ≠ .active) : q.idles b = false := by
  unfold Port.idles; have : (q.state == .active) = false := by simpa using h
  rw [this]; simp

/-! ## Placing a copy (R30, R83, R99) -/

/-- The entries after a copy has been placed. -/
theorem placeCopy_ott (s : State) (p t) : (s.placeCopy p t).ott = (s.markCopy t p .queued none).ott := by
  unfold State.placeCopy State.startWake
  simp only
  split
  · split <;> rfl
  · rfl

/-- A vector read where it was written. -/
theorem get_set_self {α n} (v : Vector α n) (i : Fin n) (x : α) : (v.set i.val x i.isLt).get i = x := by
  simp [vget]

/-- A copy placed at a port that is not PARKED. -/
theorem placeCopy_notParked (s : State) (p t) (h : (s.port p).state ≠ .parked) :
   s.placeCopy p t = (s.setPort p { s.port p with egress := (s.port p).egress ++ [t] }).markCopy t p .queued none :=
       by
  unfold State.placeCopy; simp only [h, if_false]

/-- A copy placed at a PARKED port starts a wake. -/
theorem placeCopy_parked (s : State) (p t) (h : (s.port p).state = .parked) :
   s.placeCopy p t = ((s.setPort p { s.port p with egress := (s.port p).egress ++ [t] }).markCopy t p .queued
       none).startWake p := by
  unfold State.placeCopy; simp only [h, if_true]

/-- The port with the copy at the tail of its FIFO. -/
theorem placed_port (s : State) (p t) : ((s.setPort p { s.port p with egress := (s.port p).egress ++ [t] }).markCopy t
    p .queued none).port p = { s.port p with egress := (s.port p).egress ++ [t] } := State.port_setPort _ _ _

/-- A wake with the link DOWN: WAKING, its timer started, its request out, its change reported (R99). -/
theorem startWake_down (s : State) (p) (h : s.pins.link.get p = false) : (s.startWake p).port p =
    { s.port p with state := .waking, wake := some (s.port p).wakeTimeout }
   ∧ (s.startWake p).wire = s.wire ++ [.wake p] ∧ (s.startWake p).ott = s.ott ∧ AttemptEvent.portChanged p ∈
       (s.startWake p).mail.attempts := by
  unfold State.startWake; simp only [h, if_false, Bool.false_eq_true]
  refine ⟨?_, rfl, rfl, attemptDue_mem _ _⟩
  rw [State.port_congr (State.attemptDue_ports _ _)]
  exact State.port_setPort _ _ _

/-- A wake with the link UP completes at once (R99). -/
theorem startWake_up (s : State) (p) (h : s.pins.link.get p = true) : (s.startWake p).port p =
    { s.port p with state := .active, wake := none }
   ∧ (s.startWake p).wire = s.wire ++ [.wake p] ∧ (s.startWake p).ott = s.ott ∧ AttemptEvent.portChanged p ∈
       (s.startWake p).mail.attempts := by
  unfold State.startWake; simp only [h, if_true]
  refine ⟨?_, rfl, rfl, attemptDue_mem _ _⟩
  unfold State.completeWake
  rw [State.port_congr (State.attemptDue_ports _ _), State.port_setPort, State.port_congr (State.attemptDue_ports _
      _)]
  show { (State.setPort s p _).port p with state := PortState.active, wake := none } = _
  rw [State.port_setPort]

theorem settleIdle_wire (s : State) (p) : (s.settleIdle p).wire = s.wire := rfl

/-- Placing a copy and serving its port does what `State.Places` says, and the entry records the copy as QUEUED or SENT.
-/
theorem placeCopy_places (s : State) (p : PortId) (t : Tag) (e : Entry) (c : Copy) (he : s.entry? t = some e) (hc :
    e.copyAt p = some c)
    (hcl : (s.markCopy t p .queued none).claims p = []) :
    s.Places ((s.placeCopy p t).serve p) p t (fun i => .downstream p e.kind i c.target e.length e.writeData)
    ∧ ((s.port p).state = .waking → ((s.placeCopy p t).serve p).entry? t = some (e.setCopy p .queued none))
    ∧ (∀ i, (s.port p).LowestFree i → (s.port p).egress = [] → (s.port p).state = .active → ((s.placeCopy p t).serve
        p).entry? t = some ((e.setCopy p .queued none).setCopy p .sent (some i))) := by
  set m := (s.setPort p { s.port p with egress := (s.port p).egress ++ [t] }).markCopy t p .queued none with hm
  have hmp : m.port p = { s.port p with egress := (s.port p).egress ++ [t] } := placed_port s p t
  have hmc : m.claims p = [] := hcl
  have hmw : m.wire = s.wire := rfl
  have hml : m.pins = s.pins := rfl
  have hme : m.entry? t = some (e.setCopy p .queued none) := by
    have : m.entry? t = (s.markCopy t p .queued none).entry? t := rfl
    rw [this, entry_markCopy, if_pos rfl, he]; rfl
  have hc2 : ∃ c2, (e.setCopy p .queued none).copyAt p = some c2 ∧ c2.target = c.target := by
    unfold Entry.copyAt at hc ⊢
    refine ⟨{ c with state := .queued, slot := none }, ?_, rfl⟩
    have hcp : c.port = p := by simpa using List.find?_some hc
    unfold Entry.setCopy; simp only
    generalize e.copies = cs at hc ⊢
    induction cs with
    | nil => simp at hc
    | cons d ds ih =>
      simp only [List.map_cons, List.find?_cons] at hc ⊢
      by_cases hd : d.port = p
      · simp only [hd, beq_self_eq_true] at hc
        simp only [Option.some.injEq] at hc
        subst hc
        simp [hd]
      · have h1 : (d.port == p) = false := by simpa using hd
        simp only [h1, if_neg hd] at hc ⊢
        exact ih hc
  obtain ⟨c2, hc2, hct⟩ := hc2
  have sendCase : ∀ (x : State) (i : SlotId), x.ott = m.ott → (x.port p).state = .active → (x.port p).egress = [t] →
      (x.port p).LowestFree i → (x.port p).slots = (s.port p).slots →
      (x.serve p).port p =
          { x.port p with egress := [], slots := (x.port p).slots.set i.val (.inFlight t (x.port p).responseTimeout) i.isLt, copiesSent := satInc (x.port p).copiesSent, idle := none }
      ∧ (x.serve p).wire = x.wire ++ [.downstream p e.kind i c.target e.length e.writeData]
      ∧ (x.serve p).entry? t = some ((e.setCopy p .queued none).setCopy p .sent (some i))
      ∧ (∀ a, a ∈ x.mail.attempts → a ∈ (x.serve p).mail.attempts) := by
    intro x i hx h1 h2 h3 h4
    have hxc : x.claims p = [] := by rw [claims_congr hx]; exact hmc
    have hxe : x.entry? t = some (e.setCopy p .queued none) := by rw [entry_congr hx]; exact hme
    refine ⟨?_, ?_, ?_, (servesOnly_serve p x).att⟩
    · rw [serve_one x p t i h1 h2 h3 hxc, settleIdle_port, sendOn_port]
      rw [idles_slot _ _ i (by rw [get_set_self]; simp)]
      rfl
    · rw [serve_one x p t i h1 h2 h3 hxc, settleIdle_wire, sendOn_wire x p t [] i _ c2 hxe hc2, hct]; rfl
    · rw [serve_one x p t i h1 h2 h3 hxc]
      have : ((x.sendOn p t [] i).settleIdle p).entry? t = (x.markCopy t p .sent (some i)).entry? t := entry_congr
          (sendOn_ott x p t [] i) t
      rw [this, entry_markCopy, if_pos rfl, hxe]; rfl
  have quietCase : ∀ (x : State), x.ott = m.ott → (x.port p).egress ≠ [] → x.send? p = none →
      (x.serve p).port p = { x.port p with idle := none } ∧ (x.serve p).wire = x.wire ∧ (x.serve p).entry? t = some
          (e.setCopy p .queued none)
      ∧ (x.serve p).mail = x.mail := by
    intro x hx h1 h2
    have hxc : x.claims p = [] := by rw [claims_congr hx]; exact hmc
    rw [serve_quiet x p hxc h2]
    refine ⟨?_, rfl, ?_, rfl⟩
    · rw [settleIdle_port, idles_egress _ _ h1]; rfl
    · have : (x.settleIdle p).entry? t = m.entry? t := entry_congr (a := x.settleIdle p) (b := m) hx t
      rw [this]; exact hme
  have dr : ∀ (l : List Output), (s.wire ++ l).drop s.wire.length = l := fun l => by simp
  refine ⟨⟨?_, ?_, ?_, ?_⟩, ?_, ?_⟩
  · intro hw
    rw [placeCopy_notParked s p t (by rw [hw]; decide), ← hm]
    have k := quietCase m rfl (by rw [hmp]; simp) (send_notActive _ _
        (by rw [hmp]; show (s.port p).state ≠ _; rw [hw]; decide))
    rw [k.1, hmp]
  · intro ha hf
    rw [placeCopy_notParked s p t (by rw [ha]; decide), ← hm]
    have k := quietCase m rfl (by rw [hmp]; simp) (send_noSlot _ _ (by rw [hmp]; exact hf))
    rw [k.1, hmp]
  · intro hp hl
    rw [placeCopy_parked s p t hp, ← hm]
    obtain ⟨w1, w2, w3, w4⟩ := startWake_down m p hl
    have k := quietCase (m.startWake p) w3 (by rw [w1, hmp]; simp) (send_notActive _ _ (by rw [w1]; simp))
    refine ⟨by rw [k.1, w1, hmp], ?_, by rw [k.2.2.2]; exact w4⟩
    show _ ∈ List.drop _ _
    rw [k.2.1, w2, hmw, dr]; simp
  · intro i hi heg sending
    refine ⟨?_, ?_⟩
    · intro ha
      rw [placeCopy_notParked s p t (by rw [ha]; decide), ← hm]
      have k := sendCase m i rfl (by rw [hmp]; exact ha)
          (by rw [hmp]; show (s.port p).egress ++ [t] = [t]; rw [heg]; rfl) (by rw [hmp]; exact hi) (by rw [hmp])
      refine ⟨?_, ?_⟩
      · rw [k.1, hmp]; simp [sending, heg]
      · show _ ∈ List.drop _ _
        rw [k.2.1, hmw, dr]; simp
    · intro hp hl
      rw [placeCopy_parked s p t hp, ← hm]
      obtain ⟨w1, w2, w3, w4⟩ := startWake_up m p hl
      have k := sendCase (m.startWake p) i w3 (by rw [w1])
          (by rw [w1, hmp]; show (s.port p).egress ++ [t] = [t]; rw [heg]; rfl) (by rw [w1, hmp]; exact hi)
          (by rw [w1, hmp])
      refine ⟨?_, ?_, ?_, k.2.2.2 _ w4⟩
      · rw [k.1, w1, hmp]; simp [sending, heg]
      · show _ ∈ List.drop _ _
        rw [k.2.1, w2, hmw, List.append_assoc, dr]; simp
      · show _ ∈ List.drop _ _
        rw [k.2.1, w2, hmw, List.append_assoc, dr]; simp
  · intro hw
    rw [placeCopy_notParked s p t (by rw [hw]; decide), ← hm]
    exact (quietCase m rfl (by rw [hmp]; simp) (send_notActive _ _
        (by rw [hmp]; show (s.port p).state ≠ _; rw [hw]; decide))).2.2.1
  · intro i hi heg ha
    rw [placeCopy_notParked s p t (by rw [ha]; decide), ← hm]
    exact (sendCase m i rfl (by rw [hmp]; exact ha) (by rw [hmp]; show (s.port p).egress ++ [t] = [t]; rw [heg]; rfl)
        (by rw [hmp]; exact hi) (by rw [hmp])).2.2.1

/-! ## The arbiter at a WAKING port (R84, R127) -/

/-- The oldest claim marked QUEUED leaves the others. -/
theorem claims_markCopy_head (s : State) (p : PortId) (t ts) (h : s.claims p = t :: ts) (hn : (s.ott.map
    (·.tag)).Nodup) : (s.markCopy t p .queued none).claims p = ts := by
  have hw : ∀ e : Entry, (e.setCopy p .queued none).waitsFor p = false := by
      intro e
      simp only [Entry.waitsFor, Entry.setCopy, List.any_eq_false, List.mem_map]
      rintro c ⟨d, hd, rfl⟩
      split
      · simp
      · next h => simp [h]
  have rest : ∀ es : List Entry, (∀ e ∈ es, e.tag ≠ t) → (es.map fun e => if e.tag = t then e.setCopy p .queued none
      else e) = es := by
    intro es hes
    conv => rhs; rw [← List.map_id es]
    apply List.map_congr_left
    intro e he; rw [if_neg (hes e he)]; rfl
  simp only [State.claims, State.markCopy] at *
  generalize s.ott = es at *
  induction es with
  | nil => cases h
  | cons e es ih =>
    simp only [List.map_cons, List.nodup_cons] at hn
    simp only [List.filter_cons] at h
    simp only [List.map_cons, List.filter_cons]
    cases hwe : e.waitsFor p
    · simp only [hwe, Bool.false_eq_true, if_false] at h
      have : (if e.tag = t then e.setCopy p .queued none else e).waitsFor p = false := by split; exact hw e; exact hwe
      simp only [this, Bool.false_eq_true, if_false]
      exact ih h hn.2
    · simp only [hwe, if_true, List.map_cons, List.cons.injEq] at h
      obtain ⟨h1, h2⟩ := h
      have : (if e.tag = t then e.setCopy p .queued none else e).waitsFor p = false := by rw [if_pos h1]; exact hw e
      simp only [this, Bool.false_eq_true, if_false]
      rw [rest es (by intro y hy hh; exact hn.1 (h1 ▸ hh ▸ List.mem_map_of_mem hy))]
      exact h2

/-- Marking a copy keeps the tags of the OTT. -/
theorem tags_markCopy (s : State) (p : PortId) (t st sl) : (s.markCopy t p st sl).ott.map (·.tag) = s.ott.map (·.tag)
    := by
  simp only [State.markCopy, List.map_map]
  apply List.map_congr_left
  intro e _; simp only [Function.comp]; split <;> rfl

/-- A WAKING port gives its free places to its claims, oldest first. -/
theorem serveN_waking (n : Nat) : ∀ (s : State) (p : PortId), (s.port p).state = .waking → (s.ott.map (·.tag)).Nodup →
    8 - (s.port p).egress.length ≤ n →
   (State.serveN n s p).port p =
       { s.port p with egress := (s.port p).egress ++ (s.claims p).take (8 - (s.port p).egress.length) } := by
  induction n with
  | zero =>
    intro s p h1 h2 h3
    have : 8 - (s.port p).egress.length = 0 := by omega
    simp [State.serveN, this]
  | succ n ih =>
    intro s p h1 h2 h3
    unfold State.serveN
    have hsend : s.send? p = none := send_notActive _ _ (by rw [h1]; decide)
    by_cases hl : (s.port p).egress.length < 8
    · cases hc : s.claims p with
      | nil => rw [arbitrate_noClaim _ _ hc, hsend]; simp
      | cons t ts =>
        have ha : s.arbitrate? p = some (s.placeCopy p t) := by
          unfold State.arbitrate?; rw [if_pos ⟨by rw [h1]; rfl, hl⟩, hc]
        rw [ha]
        simp only
        have hpe := placeCopy_notParked s p t (by rw [h1]; decide)
        have hp := placed_port s p t
        rw [← hpe] at hp
        have hcl : (s.placeCopy p t).claims p = ts := by rw [hpe]; exact claims_markCopy_head s p t ts hc h2
        have ht : ((s.placeCopy p t).ott.map (·.tag)).Nodup := by
            rw [hpe]; rw [show ((s.setPort p { s.port p with egress := (s.port p).egress ++ [t] }).markCopy t p
                .queued none).ott.map (·.tag) = s.ott.map (·.tag) from tags_markCopy _ _ _ _ _]; exact h2
        rw [ih (s.placeCopy p t) p (by rw [hp]; exact h1) ht (by rw [hp]; simp; omega), hp, hcl]
        have : 8 - (s.port p).egress.length = (8 - ((s.port p).egress ++ [t]).length) + 1 := by simp; omega
        rw [this, List.take_succ_cons]
        simp
    · have ha : s.arbitrate? p = none := by unfold State.arbitrate?; rw [if_neg (fun h => hl h.2)]
      rw [ha, hsend]
      have : 8 - (s.port p).egress.length = 0 := by omega
      simp [this]

/-! ## Sending all that waits (R86, R100) -/

/-- The copy of an entry at a port after a copy of it has changed. -/
theorem copyAt_setCopy (e : Entry) (p q st sl) :
    (e.setCopy p st sl).copyAt q = (e.copyAt q).map fun c => if c.port = p then { c with state := st, slot := sl } else
        c := by
  unfold Entry.copyAt Entry.setCopy
  simp only
  rw [List.find?_map]
  congr 2
  funext c
  simp only [Function.comp]
  split <;> rfl

/-- Sending a copy keeps what the entries ask for. -/
theorem entry_sendOn (s : State) (p t rest i x e c) (he : s.entry? x = some e) (hc : e.copyAt p = some c) :
    ∃ e' c', (s.sendOn p t rest i).entry? x = some e' ∧ e'.copyAt p = some c' ∧ e'.kind = e.kind ∧ e'.length = e.length
      ∧ e'.writeData = e.writeData ∧ c'.target = c.target := by
  rw [entry_congr (sendOn_ott s p t rest i), entry_markCopy]
  split
  · refine ⟨e.setCopy p .sent (some i), if c.port = p then { c with state := .sent, slot := some i } else c,
      ?_, ?_, rfl, rfl, rfl, ?_⟩
    · rw [he]; rfl
    · rw [copyAt_setCopy, hc]; rfl
    · split <;> rfl
  · exact ⟨e, c, he, hc, rfl, rfl, rfl, rfl⟩

/-- An ACTIVE port with no claim on it and its slots FREE from `k` on sends all that waits, in order, slot by slot
    (R86). -/
theorem serveN_sendsAll (p : PortId) : ∀ (waiting : List Tag) (n k : Nat) (s : State), (s.port p).state = .active →
    (s.port p).egress = waiting → s.claims p = [] → (∀ i : SlotId, (s.port p).slots.get i = .free ↔ k ≤ i.val) →
    k + waiting.length ≤ 16 → waiting.length ≤ n → (∀ x ∈ waiting, ∃ e c, s.entry? x = some e ∧ e.copyAt p = some c) →
    ((State.serveN n s p).port p).egress = []
      ∧ (∀ i : SlotId, i.val < k → ((State.serveN n s p).port p).slots.get i = (s.port p).slots.get i)
      ∧ ∃ sent, (State.serveN n s p).wire = s.wire ++ sent ∧ sent.length = waiting.length
        ∧ ∀ (i : SlotId) (x : Tag), k ≤ i.val → waiting[i.val - k]? = some x →
            ((State.serveN n s p).port p).slots.get i = .inFlight x (s.port p).responseTimeout
            ∧ ∀ e c, s.entry? x = some e → e.copyAt p = some c →
                sent[i.val - k]? = some (.downstream p e.kind i c.target e.length e.writeData) := by
  intro waiting
  induction waiting with
  | nil =>
    intro n k s h1 h2 h3 _ _ _ _
    rw [serveN_stands n s p (arbitrate_noClaim s p h3) (send_empty s p h2)]
    exact ⟨h2, fun _ _ => rfl, [], by simp, rfl, fun i x _ h => by simp at h⟩
  | cons t ts ih =>
    intro n k s h1 h2 h3 h4 h5 h6 h7
    simp only [List.length_cons] at h5 h6
    obtain ⟨m, rfl⟩ : ∃ m, n = m + 1 := ⟨n - 1, by omega⟩
    let j : SlotId := ⟨k, by omega⟩
    have hlow : (s.port p).LowestFree j := ⟨(h4 j).mpr (Nat.le_refl _), fun i hi hf => by
      have := (h4 i).mp hf; exact absurd (show i.val < k from hi) (by omega)⟩
    have hsend := send_sends s p t ts j h1 h2 hlow
    obtain ⟨e, c, he, hc⟩ := h7 t (by simp)
    have hstep : State.serveN (m + 1) s p = State.serveN m (s.sendOn p t ts j) p := by
      conv => lhs; unfold State.serveN
      rw [arbitrate_noClaim s p h3, hsend]
    rw [hstep]
    have hport := sendOn_port s p t ts j
    obtain ⟨k1, k2, sent, k3, k4, k5⟩ := ih m (k + 1) (s.sendOn p t ts j) (by rw [hport]; exact h1) (by rw [hport])
      (sendOn_claims_nil s p t ts j p h3) (by
        intro i
        rw [hport]
        simp only [get_set]
        by_cases hij : j = i
        · subst hij; simp [j]
        · have : i.val ≠ k := fun h => hij (Fin.ext h.symm)
          simp only [hij, if_false, h4]; omega)
      (by omega) (by omega) (by
        intro x hx
        obtain ⟨e, c, he, hc⟩ := h7 x (List.mem_cons_of_mem _ hx)
        obtain ⟨e', c', a, b, _⟩ := entry_sendOn s p t ts j x e c he hc
        exact ⟨e', c', a, b⟩)
    have hw := sendOn_wire s p t ts j e c he hc
    refine ⟨k1, ?_, .downstream p e.kind j c.target e.length e.writeData :: sent, ?_, by simp [k4], ?_⟩
    · intro i hi
      rw [k2 i (by omega), hport]
      simp only [get_set]
      rw [if_neg (by rintro rfl; exact absurd hi (by simp [j]))]
    · rw [k3, hw]; simp
    · intro i x hi hx
      by_cases hik : i.val = k
      · have hij : i = j := Fin.ext hik
        subst hij
        have hx' : t = x := by rw [hik, Nat.sub_self] at hx; simpa using hx
        subst hx'
        refine ⟨?_, ?_⟩
        · rw [k2 j (by simp [j]), hport]; simp only [get_set_self]
        · intro e' c' he' hc'
          rw [he] at he'; cases he'
          rw [hc] at hc'; cases hc'
          simp [j]
      · have e1 : i.val - k = (i.val - (k + 1)) + 1 := by omega
        rw [e1, List.getElem?_cons_succ] at hx
        obtain ⟨a, b⟩ := k5 i x (by omega) hx
        refine ⟨by rw [a, hport], ?_⟩
        intro e' c' he' hc'
        obtain ⟨e2, c2, q1, q2, q3, q4, q5, q6⟩ := entry_sendOn s p t ts j x e' c' he' hc'
        rw [e1, List.getElem?_cons_succ, b e2 c2 q1 q2, q3, q4, q5, q6]

end Sys2Proof.Machine
end

