-- ==== Sys2Proof/Laws/Leave.lean ====
section
/-! SUPPORT. What becomes of entries when copies fail: which entries stand, what the response queue gains, which claims remain, and
what a port that leaves service lets go (`State.LetsGo`; R94, R104, R117, R128). -/

namespace Sys2Proof.Machine

/-! ## Completion -/

/-- The entries that stand after a completion. -/
theorem complete_ott (s : State) (e st) : (s.complete e st).ott = s.ott.filter fun x => x.tag != e.tag := by
  unfold State.complete
  simp only
  repeat' split
  all_goals simp

/-- A copy in another state waits for no reissue. -/
theorem setCopy_waitsFor (e : Entry) (p : PortId) (o : CopyState) (ho : o ≠ .reissueWait) : (e.setCopy p o
    none).waitsFor p = false := by
  simp only [Entry.waitsFor, Entry.setCopy, List.any_eq_false, List.mem_map]
  rintro c ⟨d, hd, rfl⟩
  split
  · simp [ho]
  · next h => simp [h]

/-- A slot IN_FLIGHT is among the tags in flight. -/
theorem inFlight_mem (q : Port) (i : SlotId) (x d) (h : q.slots.get i = .inFlight x d) : x ∈ q.inFlightTags := by
  unfold Port.inFlightTags
  rw [List.mem_filterMap]
  refine ⟨.inFlight x d, ?_, rfl⟩
  rw [← h, vget]
  exact Vector.mem_toList_iff.mpr (Vector.getElem_mem _)

/-! ## The mode and kind of an entry stand -/

/-- The mode class and kind of the entry of a tag, if it stands. -/
def modeKind (s : State) (x : Tag) : Option (ModeClass × MemKind) := (s.entry? x).map fun e => (e.modeClass, e.kind)

/-- Every entry that stood stands, with its mode class and kind. -/
def KeepsModes (s u : State) : Prop := ∀ x, modeKind u x = modeKind s x

theorem KeepsModes.refl (s) : KeepsModes s s := fun _ => rfl

theorem KeepsModes.trans {s t u} (a : KeepsModes s t) (b : KeepsModes t u) : KeepsModes s u := fun x => (b x).trans (a
    x)

theorem keepsModes_ott {s u : State} (h : u.ott = s.ott) : KeepsModes s u := fun x =>
    by simp [modeKind, State.entry?, h]

theorem find_map_tag (f : Entry → Entry) (h : ∀ e, (f e).tag = e.tag) (es : List Entry) (x : Tag) :
    (es.map f).find? (fun e => e.tag == x) = (es.find? (fun e => e.tag == x)).map f := by
  rw [List.find?_map]; congr 2; funext e; simp [h]

theorem keepsModes_mark (s : State) (t p st sl) : KeepsModes s (s.markCopy t p st sl) := by
  intro x
  unfold modeKind State.entry? State.markCopy
  rw [find_map_tag _ (by intro e; split <;> rfl)]
  cases s.ott.find? (fun e => e.tag == x) <;> simp
  split <;> exact ⟨rfl, rfl⟩

theorem keepsModes_startWake (s : State) (p) : KeepsModes s (s.startWake p) := keepsModes_ott
    (by unfold State.startWake; simp only; split <;> rfl)

theorem keepsModes_place (s : State) (p t) : KeepsModes s (s.placeCopy p t) := by
  unfold State.placeCopy
  simp only
  split
  · exact ((keepsModes_ott rfl : KeepsModes s (s.setPort p _)).trans (keepsModes_mark _ _ _ _ _)).trans
        (keepsModes_startWake _ _)
  · exact (keepsModes_ott rfl : KeepsModes s (s.setPort p _)).trans (keepsModes_mark _ _ _ _ _)

theorem keepsModes_send (s : State) (p t rest i) : KeepsModes s (s.sendOn p t rest i) := by
  unfold State.sendOn
  simp only
  have h : KeepsModes s ((s.setPort p { s.port p with
    egress := rest
    slots := (s.port p).slots.set i.val (.inFlight t (s.port p).responseTimeout) i.isLt
    copiesSent := satInc (s.port p).copiesSent }).markCopy t p .sent (some i)) := (keepsModes_ott rfl : KeepsModes s
        (s.setPort p _)).trans (keepsModes_mark _ _ _ _ _)
  split <;> split <;> exact h.trans (keepsModes_ott rfl)

theorem keepsModes_serveN (n) (s : State) (p) : KeepsModes s (State.serveN n s p) := by
  induction n generalizing s with
  | zero => exact .refl s
  | succ n ih =>
    unfold State.serveN
    split
    · next hh =>
      unfold State.arbitrate? at hh
      split at hh
      · split at hh
        · cases hh; exact (keepsModes_place _ _ _).trans (ih _)
        · cases hh
      · cases hh
    · split
      · next hh =>
        unfold State.send? at hh
        split at hh
        · cases hh; exact (keepsModes_send _ _ _ _ _).trans (ih _)
        · cases hh
      · exact .refl s

theorem keepsModes_serve (s : State) (p) : KeepsModes s (s.serve p) := (keepsModes_serveN _ s p).trans (keepsModes_ott
    rfl)

/-- for every tag other than e.tag -/
theorem modeKind_setEntry (s : State) (e : Entry) (x) (h : x ≠ e.tag) : modeKind (s.setEntry e) x = modeKind s x := by
  unfold modeKind State.entry? State.setEntry
  rw [find_map_tag _ (by intro y; split <;> simp_all)]
  cases hf : s.ott.find? (fun e => e.tag == x) <;> simp
  have : _ := List.find?_some hf
  simp at this
  rw [if_neg (by rw [this]; exact h)]; exact ⟨rfl, rfl⟩

theorem modeKind_complete (s : State) (e : Entry) (st) (x) (h : x ≠ e.tag) : modeKind (s.complete e st) x = modeKind s
    x := by
  have ho : (s.complete e st).ott = s.ott.filter (fun x => x.tag != e.tag) := by
    unfold State.complete; simp only; (repeat' split) <;> first | rfl | simp
  unfold modeKind State.entry?
  rw [ho, List.find?_filter]
  congr 2
  funext y
  by_cases hy : y.tag = x
  · simp [hy, h]
  · simp [hy]

theorem modeKind_failover (s : State) (e : Entry) (p o x) (h : x ≠ e.tag) : modeKind (s.failover e p o) x = modeKind s
    x := by
  unfold State.failover
  split
  · split
    · unfold State.reissue
      simp only
      split
      · rw [keepsModes_serve, keepsModes_place, modeKind_setEntry _ _ _ (by exact h)]
      · rw [modeKind_setEntry _ _ _ (by exact h)]
    · exact modeKind_complete _ _ _ _ h
  · exact modeKind_complete _ _ _ _ h

/-- An outcome leaves the entries of other tags standing. -/
theorem modeKind_outcome (s : State) (t p o d x) (h : x ≠ t) : modeKind (s.outcome t p o d) x = modeKind s x := by
  unfold State.outcome
  split
  · rfl
  · next e0 he =>
    have ht := entry_has_tag he
    have ht2 : (if e0.kind = .read ∧ o = .ok then { e0.setCopy p o none with readData := some d } else e0.setCopy p o
        none : Entry).tag = t := by
      split <;> exact ht
    simp only
    generalize (if e0.kind = .read ∧ o = .ok then { e0.setCopy p o none with readData := some d } else e0.setCopy p o
        none : Entry) = e at ht2 ⊢
    have hs := modeKind_setEntry s e x (by rw [ht2]; exact h)
    have h' : x ≠ e.tag := by rw [ht2]; exact h
    repeat' split
    all_goals first
      | exact hs
      | exact (modeKind_complete _ _ _ _ h').trans hs
      | exact (modeKind_failover _ _ _ _ _ h').trans hs

theorem modeKind_none {s : State} {x} (h : ∀ y ∈ s.ott, y.tag ≠ x) : modeKind s x = none := by
  unfold modeKind State.entry?
  rw [List.find?_eq_none.mpr (by simpa using h)]; rfl

theorem modeKind_of_none {s : State} {x} (h : modeKind s x = none) : ∀ y ∈ s.ott, y.tag ≠ x := by
  unfold modeKind State.entry? at h
  simp at h; exact h

/-! ## The response queue only grows -/

/-- The ULC keeps its state and its queue is added to at the tail. -/
def Appends (s u : State) : Prop := u.ulc.state = s.ulc.state ∧ ∃ m, u.ulc.queue = s.ulc.queue ++ m

theorem Appends.refl (s) : Appends s s := ⟨rfl, [], by simp⟩

theorem Appends.trans {s t u} (a : Appends s t) (b : Appends t u) : Appends s u := by
  obtain ⟨a1, m, a2⟩ := a; obtain ⟨b1, n, b2⟩ := b
  exact ⟨b1.trans a1, m ++ n, by rw [b2, a2, List.append_assoc]⟩

theorem appends_of {s u : State} (h : u.ulc = s.ulc) : Appends s u := ⟨by rw [h], [], by rw [h]; simp⟩

theorem appends_place (s : State) (r) : Appends s (s.place r) := by
  unfold State.place
  split
  · have := Ulc.kick_frame { s.ulc with queue := s.ulc.queue ++ [r] }
    exact ⟨this.1, [r], this.2.2.2.1⟩
  · exact .refl s

theorem appends_complete (s : State) (e st) : Appends s (s.complete e st) := by
  have k := (complete_does s e st).1
  have := appends_place s ⟨e.kind.response, e.tag, st, 0, e.responseData st⟩
  unfold Appends at *
  rw [k]; exact this

theorem appends_failover (s : State) (e : Entry) (p o) : Appends s (s.failover e p o) := by
  unfold State.failover
  split
  · split
    · unfold State.reissue
      simp only
      split
      · exact appends_of (by rw [(servesOnly_serve _ _).ulc, (servesOnly_place _ _ _).ulc]; rfl)
      · exact appends_of rfl
    · exact appends_complete _ _ _
  · exact appends_complete _ _ _

theorem appends_outcome (s : State) (t p o d) : Appends s (s.outcome t p o d) := by
  unfold State.outcome
  split
  · exact .refl s
  · simp only
    repeat' split
    all_goals first
      | exact appends_of rfl
      | exact (appends_of rfl : Appends s (State.setEntry s _)).trans (appends_complete _ _ _)
      | exact (appends_of rfl : Appends s (State.setEntry s _)).trans (appends_failover _ _ _ _)

theorem appends_job (s : State) (p j) : Appends s (s.runJob p j) := by
  unfold State.runJob
  split
  · exact appends_outcome _ _ _ _ _
  · split
    · exact appends_outcome _ _ _ _ _
    · exact .refl s
  · exact appends_place _ _

theorem appends_jobs (js : List Job) (s : State) (p) : Appends s (s.runJobs p js) := by
  induction js generalizing s with
  | nil => exact .refl s
  | cons j js ih => exact (appends_job s p j).trans (ih _)

/-! ## What a SINGLE entry is answered (R117) -/

/-- The outcome of the copy of a SINGLE entry answers it, and it leaves the OTT. -/
theorem outcome_single_answers (s : State) (x p o k) (h : modeKind s x = some (.single, k)) (ho : o ≠ .ok) (hst :
    o.status ≠ .ok) :
   modeKind (s.outcome x p o []) x = none ∧ (s.ulc.state = .up → (s.outcome x p o []).ulc.queue = s.ulc.queue ++
       [⟨k.response, x, o.status, 0, []⟩]) := by
  unfold modeKind at h
  cases he : s.entry? x with
  | none => rw [he] at h; cases h
  | some e =>
    rw [he] at h
    simp only [Option.map_some, Option.some.injEq, Prod.mk.injEq] at h
    obtain ⟨hm, rfl⟩ := h
    have k := outcome_single_does s x p o [] e he hm
    refine ⟨modeKind_none k.2.1, fun hu => ?_⟩
    rw [k.1]
    have : (if e.kind = .read ∧ o = .ok then ([] : List Byte) else if e.kind = .read ∧ o.status = .ok then
        e.readData.getD [] else []) = [] := by
      rw [if_neg (fun h => ho h.2), if_neg (fun h => hst h.2)]
    rw [this]
    unfold State.respond State.place
    rw [if_pos hu]
    exact (Ulc.kick_frame _).2.2.2.1

/-- No job brings an entry back. -/
theorem modeKind_gone (p x) (js : List Job) : ∀ (s : State), modeKind s x = none → modeKind (s.runJobs p js) x = none
    := by
  have step : ∀ (s : State) (j : Job), modeKind s x = none → modeKind (s.runJob p j) x = none := by
    intro s j h
    have hn : s.entry? x = none := by unfold modeKind at h; simpa using h
    have out : ∀ t o d, modeKind (s.outcome t p o d) x = none := by
      intro t o d
      by_cases hx : x = t
      · subst hx; unfold State.outcome; rw [hn]; exact h
      · rw [modeKind_outcome _ _ _ _ _ _ hx]; exact h
    unfold State.runJob
    split
    · exact out _ _ _
    · split
      · exact out _ _ _
      · exact h
    · rw [keepsModes_ott (s := s) (by simp)]; exact h
  induction js with
  | nil => intro s h; exact h
  | cons j js ih => intro s h; rw [State.runJobs]; exact ih _ (step s j h)

/-- A SINGLE entry among jobs that all give it one state: it stands untouched, or it is answered so. -/
theorem runJobs_single (p x k o) (ho : o ≠ .ok) (hst : o.status ≠ .ok) (js : List Job) : ∀ (s : State), modeKind s x =
    some (.single, k) →
   (∀ j ∈ js, ∀ o', j = .fail x o' → o' = o) → (o = .portDown ∨ ∀ j ∈ js, j ≠ .failClaim) →
   (modeKind (s.runJobs p js) x = some (.single, k) ∧ (∀ j ∈ js, j ≠ .fail x o))
   ∨ (modeKind (s.runJobs p js) x = none ∧ (s.ulc.state = .up → ∃ m, (s.runJobs p js).ulc.queue = s.ulc.queue ++ m ∧
       (⟨k.response, x, o.status, 0, []⟩ : Response) ∈ m)) := by
  induction js with
  | nil => intro s h _ _; left; exact ⟨h, by simp⟩
  | cons j js ih =>
    intro s h h1 h2
    rw [State.runJobs]
    have step : (modeKind (s.runJob p j) x = some (.single, k) ∧ j ≠ .fail x o) ∨ (modeKind (s.runJob p j) x = none ∧
        (s.ulc.state = .up → (s.runJob p j).ulc.queue = s.ulc.queue ++ [⟨k.response, x, o.status, 0, []⟩])) := by
      cases j with
      | fail t o' =>
        by_cases hx : x = t
        · subst hx
          have := h1 _ (by simp) o' rfl
          subst this
          right; exact outcome_single_answers s x p o' k h ho hst
        · left
          refine ⟨(modeKind_outcome s t p o' [] x hx).trans h, ?_⟩
          intro hh; cases hh; exact hx rfl
      | failClaim =>
        have hpd : o = .portDown := by
          rcases h2 with h2 | h2
          · exact h2
          · exact absurd rfl (h2 .failClaim (by simp))
        subst hpd
        simp only [State.runJob]
        split
        · next t _ _ =>
          by_cases hx : x = t
          · subst hx; right; exact outcome_single_answers s x p .portDown k h ho hst
          · left; exact ⟨(modeKind_outcome s t p .portDown [] x hx).trans h, by simp⟩
        · left; exact ⟨h, by simp⟩
      | reply t st => left; exact ⟨(keepsModes_ott (s := s) (u := s.reply t st []) (by simp) x).trans h, by simp⟩
    rcases step with ⟨a, a2⟩ | ⟨a, b⟩
    · have h1' : ∀ j ∈ js, ∀ o', j = .fail x o' → o' = o := fun j hj => h1 j (List.mem_cons_of_mem _ hj)
      have h2' : o = .portDown ∨ ∀ j ∈ js, j ≠ .failClaim := by
        rcases h2 with h2 | h2
        · exact .inl h2
        · exact .inr fun j hj => h2 j (List.mem_cons_of_mem _ hj)
      rcases ih _ a h1' h2' with ⟨c1, c2⟩ | ⟨c1, c2⟩
      · left; refine ⟨c1, ?_⟩
        intro y hy; rcases List.mem_cons.mp hy with rfl | hy
        · exact a2
        · exact c2 y hy
      · right; refine ⟨c1, fun hu => ?_⟩
        obtain ⟨st, m, hm⟩ := appends_job s p j
        obtain ⟨n, hn, hr⟩ := c2 (by rw [st]; exact hu)
        exact ⟨m ++ n, by rw [hn, hm, List.append_assoc], List.mem_append_right _ hr⟩
    · right
      refine ⟨modeKind_gone p x js _ a, fun hu => ?_⟩
      obtain ⟨_, m, hm⟩ := appends_jobs js (s.runJob p j) p
      exact ⟨[⟨k.response, x, o.status, 0, []⟩] ++ m, by rw [hm, b hu, List.append_assoc], by simp⟩

/-! ## The copies of an entry at a port -/

/-- Every copy at a port of the entry of a tag is in a state that a test allows. -/
def CopiesAt (p : PortId) (x : Tag) (Ψ : CopyState → Prop) (s : State) : Prop := ∀ e ∈ s.ott, e.tag = x → ∀ c ∈
    e.copies, c.port = p → Ψ c.state
section
variable {p : PortId} {x : Tag} {Ψ : CopyState → Prop}

theorem copiesAt_congr {s u : State} (h : u.ott = s.ott) (a : CopiesAt p x Ψ s) : CopiesAt p x Ψ u :=
    by unfold CopiesAt; rw [h]; exact a

theorem copiesAt_mark {s : State} {q t st sl} (h : q ≠ p ∨ Ψ st) (a : CopiesAt p x Ψ s) : CopiesAt p x Ψ (s.markCopy t
    q st sl) := by
  intro e he ht c hc hp
  simp only [State.markCopy, List.mem_map] at he
  obtain ⟨y, hy, rfl⟩ := he
  split at hc
  · next hh =>
    rw [if_pos hh] at ht
    simp only [Entry.setCopy, List.mem_map] at hc
    obtain ⟨d, hd, rfl⟩ := hc
    split
    · next hdq =>
      rw [if_pos hdq] at hp
      rcases h with h | h
      · exact absurd (hdq.symm.trans hp) h
      · exact h
    · next hdq => rw [if_neg hdq] at hp; exact a y hy ht d hd hp
  · next hh => rw [if_neg hh] at ht; exact a y hy ht c hc hp

theorem copiesAt_place {s : State} {q t} (h : q ≠ p ∨ Ψ .queued) (a : CopiesAt p x Ψ s) : CopiesAt p x Ψ (s.placeCopy
    q t) :=
  copiesAt_congr (placeCopy_ott s q t) (copiesAt_mark h a)

theorem copiesAt_send {s : State} {q t r i} (h : q ≠ p ∨ Ψ .sent) (a : CopiesAt p x Ψ s) : CopiesAt p x Ψ (s.sendOn q
    t r i) :=
  copiesAt_congr (sendOn_ott s q t r i) (copiesAt_mark h a)

theorem copiesAt_serveN (n) {s : State} {q} (h : q ≠ p) (a : CopiesAt p x Ψ s) : CopiesAt p x Ψ (State.serveN n s q)
    := by
  induction n generalizing s with
  | zero => exact a
  | succ n ih =>
    unfold State.serveN
    split
    · next hh =>
      unfold State.arbitrate? at hh
      split at hh
      · split at hh
        · cases hh; exact ih (copiesAt_place (.inl h) a)
        · cases hh
      · cases hh
    · split
      · next hh =>
        unfold State.send? at hh
        split at hh
        · cases hh; exact ih (copiesAt_send (.inl h) a)
        · cases hh
      · exact a

theorem copiesAt_serve {s : State} {q} (h : q ≠ p) (a : CopiesAt p x Ψ s) : CopiesAt p x Ψ (s.serve q) :=
    copiesAt_serveN 80 h a

theorem copiesAt_complete {s : State} {e st} (a : CopiesAt p x Ψ s) : CopiesAt p x Ψ (s.complete e st) := by
  intro y hy
  rw [complete_ott] at hy
  exact a y (List.mem_filter.mp hy).1

theorem copiesAt_setEntry {s : State} {e : Entry} (h : e.tag = x → ∀ c ∈ e.copies, c.port = p → Ψ c.state) (a :
    CopiesAt p x Ψ s) : CopiesAt p x Ψ (s.setEntry e) := by
  intro y hy ht
  simp only [State.setEntry, List.mem_map] at hy
  obtain ⟨z, hz, rfl⟩ := hy
  split at ht
  · next hh => rw [if_pos hh]; exact h ht
  · next hh => rw [if_neg hh]; exact a z hz ht

theorem copiesAt_failover {s : State} {e : Entry} {p' o} (hp : (s.port p).state.inService = false) (h : e.tag = x → ∀
    c ∈ e.copies, c.port = p → Ψ c.state) (a : CopiesAt p x Ψ s) : CopiesAt p x Ψ (s.failover e p' o) := by
  unfold State.failover
  split
  · split
    · next q j hn =>
      have hs := nextMember_serves hn
      have hne : q ≠ p := by rintro rfl; rw [hp] at hs; cases hs
      have h2 : ∀ cs : Copy, cs.port = q → ({ e with copies := e.copies ++ [cs] } : Entry).tag = x → ∀ c ∈
          ({ e with copies := e.copies ++ [cs] } : Entry).copies, c.port = p → Ψ c.state := by
        intro cs hcs ht c hc hcp
        simp only [List.mem_append, List.mem_singleton] at hc
        rcases hc with hc | rfl
        · exact h ht c hc hcp
        · exact absurd (hcs.symm.trans hcp) hne
      unfold State.reissue
      simp only
      split
      · exact copiesAt_serve hne (copiesAt_place (.inl hne) (copiesAt_setEntry (h2 _ rfl) a))
      · exact copiesAt_setEntry (h2 _ rfl) a
    · exact copiesAt_complete a
  · exact copiesAt_complete a

theorem copiesAt_outcome_weak {s : State} {t o d} (hp : (s.port p).state.inService = false) (h : t ≠ x ∨ Ψ o) (a : t ≠
    x → CopiesAt p x Ψ s)
   (ha : t = x → ∀ e ∈ s.ott, e.tag = x → s.entry? x ≠ none) : CopiesAt p x Ψ (s.outcome t p o d) := by
  unfold State.outcome
  split
  · next hn =>
    by_cases ht : t = x
    · subst ht
      intro e he hte
      exact absurd hn (ha rfl e he hte)
    · exact a ht
  · next e0 he =>
    have ht0 := entry_has_tag he
    simp only
    have hge : ∀ e : Entry, e = (if e0.kind = .read ∧ o = .ok then { e0.setCopy p o none with readData := some d }
        else e0.setCopy p o none) → e.tag = t ∧ ∀ c ∈ e.copies, c.port = p → c.state = o := by
      rintro e rfl
      refine ⟨by split <;> exact ht0, ?_⟩
      have hcp : (if e0.kind = .read ∧ o = .ok then { e0.setCopy p o none with readData := some d } else e0.setCopy p
          o none : Entry).copies = (e0.setCopy p o none).copies := by split <;> rfl
      rw [hcp]
      intro c hc hcp
      simp only [Entry.setCopy, List.mem_map] at hc
      obtain ⟨y, hy, rfl⟩ := hc
      split
      · rfl
      · next hh => rw [if_neg hh] at hcp; exact absurd hcp hh
    generalize (if e0.kind = .read ∧ o = .ok then { e0.setCopy p o none with readData := some d } else e0.setCopy p o
        none : Entry) = e at hge
    obtain ⟨g1, g2⟩ := hge e rfl
    have hex : e.tag = x → ∀ c ∈ e.copies, c.port = p → Ψ c.state := by
      intro hx c hc hcp
      rw [g2 c hc hcp]
      rcases h with h | h
      · exact absurd (g1.symm.trans hx) h
      · exact h
    have hs : CopiesAt p x Ψ (s.setEntry e) := by
      by_cases ht : t = x
      · intro y hy hty
        simp only [State.setEntry, List.mem_map] at hy
        obtain ⟨z, hz, rfl⟩ := hy
        split at hty
        · next hh => rw [if_pos hh]; exact hex hty
        · next hh => exact absurd (hty.trans (ht.symm.trans g1.symm)) hh
      · exact copiesAt_setEntry hex (a ht)
    repeat' split
    all_goals first
      | exact hs
      | exact copiesAt_complete hs
      | exact copiesAt_failover (s := s.setEntry e) hp hex hs
end

theorem entry_ne_none {s : State} {x : Tag} {e : Entry} (he : e ∈ s.ott) (ht : e.tag = x) : s.entry? x ≠ none := by
  intro h
  have := List.find?_eq_none.mp h e he
  simp [ht] at this

/-- An outcome at a port out of service keeps the test, where the new state passes it. -/
theorem copiesAt_outcome {p x Ψ} {s : State} {t o d} (hp : (s.port p).state.inService = false) (h : t ≠ x ∨ Ψ o) (a :
    CopiesAt p x Ψ s) : CopiesAt p x Ψ (s.outcome t p o d) :=
  copiesAt_outcome_weak hp h (fun _ => a) (fun _ _ he ht => entry_ne_none he ht)

/-- An outcome gives the copies at the port their new state. -/
theorem copiesAt_outcome_self {p x Ψ} {s : State} {o d} (hp : (s.port p).state.inService = false) (h : Ψ o) : CopiesAt
    p x Ψ (s.outcome x p o d) :=
  copiesAt_outcome_weak hp (.inr h) (fun h => absurd rfl h) (fun _ _ he ht => entry_ne_none he ht)

theorem copiesAt_job {p x Ψ} {s : State} {j : Job} (hp : (s.port p).state.inService = false) (h : ∀ o, j = .fail x o →
    Ψ o) (h2 : Ψ .portDown ∨ x ∉ s.claims p) (a : CopiesAt p x Ψ s) : CopiesAt p x Ψ (s.runJob p j) := by
  cases j with
  | fail t o =>
    refine copiesAt_outcome hp ?_ a
    by_cases ht : t = x
    · subst ht; exact .inr (h o rfl)
    · exact .inl ht
  | failClaim =>
    simp only [State.runJob]
    split
    · next t ts hcl =>
      refine copiesAt_outcome hp ?_ a
      rcases h2 with h2 | h2
      · exact .inr h2
      · left; rintro rfl; rw [hcl] at h2; simp at h2
    · exact a
  | reply t st => exact copiesAt_congr (by simp [State.runJob]) a

/-- x does not wait at p, as a fact about its copies -/
theorem not_claim_iff {s : State} {p x} : x ∉ s.claims p ↔ CopiesAt p x (· ≠ .reissueWait) s := by
  unfold State.claims CopiesAt
  simp only [List.mem_map, List.mem_filter, not_exists, not_and]
  constructor
  · intro h e he ht c hc hp hs
    exact h e ⟨he, by simp only [Entry.waitsFor, List.any_eq_true]; exact ⟨c, hc, by simp [hp, hs]⟩⟩ ht
  · rintro h e ⟨he, hw⟩ ht
    simp only [Entry.waitsFor, List.any_eq_true] at hw
    obtain ⟨c, hc, hcc⟩ := hw
    simp at hcc
    exact h e he ht c hc hcc.1 hcc.2

/-- A job leaves a port out of service as it is. -/
theorem runJob_outOfService {s : State} {p : PortId} (hp : (s.port p).state.inService = false) (j) :
    ((s.runJob p j).port p).state.inService = false := by
  rw [(leavesPort_job s hp p j).port]; exact hp

/-- Jobs that give final states make no claim on a port out of service. -/
theorem runJobs_noClaim {p x} (js : List Job) : ∀ s : State, (s.port p).state.inService = false → (∀ j ∈ js, ∀ o, j =
    .fail x o → o ≠ .reissueWait) → x ∉ s.claims p → x ∉ (s.runJobs p js).claims p := by
  induction js with
  | nil => intro s _ _ h; exact h
  | cons j js ih =>
    intro s hp hj h
    rw [State.runJobs]
    refine ih _ (runJob_outOfService hp j) (fun y hy => hj y (List.mem_cons_of_mem _ hy)) ?_
    rw [not_claim_iff] at h ⊢
    exact copiesAt_job hp (fun o ho => hj j (by simp) o ho) (.inl (by decide)) h

/-- Where every job that names a tag fails it with PORT_DOWN, its copies at the port are PORT_DOWN. -/
theorem runJobs_portDown {p x} (js : List Job) : ∀ s : State, (s.port p).state.inService = false → (∀ j ∈ js, ∀ o, j =
    .fail x o → o = .portDown) →
   (CopiesAt p x (· = .portDown) s ∨ .fail x .portDown ∈ js) → CopiesAt p x (· = .portDown) (s.runJobs p js) := by
  induction js with
  | nil => intro s _ _ h; rcases h with h | h; exact h; cases h
  | cons j js ih =>
    intro s hp hj h
    rw [State.runJobs]
    have hj' : ∀ y ∈ js, ∀ o, y = .fail x o → o = .portDown := fun y hy => hj y (List.mem_cons_of_mem _ hy)
    rcases h with h | h
    · exact ih _ (runJob_outOfService hp j) hj' (.inl (copiesAt_job hp (fun o ho => hj j (by simp) o ho)
          (.inl rfl) h))
    · rcases List.mem_cons.mp h with h | h
      · refine ih _ (runJob_outOfService hp j) hj' (.inl ?_)
        rw [← h]; exact copiesAt_outcome_self hp rfl
      · exact ih _ (runJob_outOfService hp j) hj' (.inr h)

/-! ## The claims on a port that leaves service (R128) -/

/-- How many reissues wait for a port. -/
def claimCount (p : PortId) (s : State) : Nat := (s.claims p).length

theorem claimCount_eq (p) (s : State) : claimCount p s = (s.ott.filter fun e => e.waitsFor p).length :=
    by simp [claimCount, State.claims]

theorem claimCount_congr {p} {s u : State} (h : u.ott = s.ott) : claimCount p u = claimCount p s :=
    by simp [claimCount_eq, h]

theorem claimCount_setEntry {p} (s : State) (e : Entry) (hw : e.waitsFor p = false) : claimCount p (s.setEntry e) ≤
    claimCount p s ∧ (e.tag ∈ s.claims p → claimCount p (s.setEntry e) < claimCount p s) := by
  have key : ∀ es : List Entry,
      ((es.map fun y => if y.tag = e.tag then e else y).filter fun e => e.waitsFor p).length ≤ (es.filter fun e =>
          e.waitsFor p).length ∧
      ((∃ y ∈ es, y.waitsFor p = true ∧ y.tag = e.tag) → ((es.map fun y => if y.tag = e.tag then e else y).filter fun
          e => e.waitsFor p).length < (es.filter fun e => e.waitsFor p).length) := by
    intro es
    induction es with
    | nil => simp
    | cons y es ih =>
      simp only [List.map_cons, List.filter_cons]
      by_cases ht : y.tag = e.tag
      · simp only [ht, if_true, hw]
        cases hwe : y.waitsFor p
        · simp only [Bool.false_eq_true, if_false]
          refine ⟨ih.1, ?_⟩
          rintro ⟨x, hx, h1, h2⟩
          rcases List.mem_cons.mp hx with rfl | hx
          · rw [hwe] at h1; cases h1
          · exact ih.2 ⟨x, hx, h1, h2⟩
        · simp only [Bool.false_eq_true, if_false, if_true, List.length_cons]
          exact ⟨by have := ih.1; omega, fun _ => by have := ih.1; omega⟩
      · simp only [ht, if_false]
        have h2 : (∃ x ∈ y :: es, x.waitsFor p = true ∧ x.tag = e.tag) → ∃ x ∈ es, x.waitsFor p = true ∧ x.tag = e.tag
            := by
          rintro ⟨x, hx, h1, h2⟩
          rcases List.mem_cons.mp hx with rfl | hx
          · exact absurd h2 ht
          · exact ⟨x, hx, h1, h2⟩
        cases y.waitsFor p <;> simp only [Bool.false_eq_true, if_false, if_true, List.length_cons]
        · exact ⟨ih.1, fun h => ih.2 (h2 h)⟩
        · exact ⟨by have := ih.1; omega, fun h => by have := ih.2 (h2 h); omega⟩
  have k := key s.ott
  simp only [claimCount_eq]
  refine ⟨k.1, fun h => k.2 ?_⟩
  simp only [State.claims, List.mem_map, List.mem_filter] at h
  obtain ⟨y, ⟨h1, h2⟩, h3⟩ := h
  exact ⟨y, h1, h2, h3⟩

theorem claimCount_mark {p q} (h : q ≠ p) (s : State) (t st sl) : claimCount p (s.markCopy t q st sl) = claimCount p s
    := by
  simp only [claimCount_eq, State.markCopy]
  induction s.ott with
  | nil => rfl
  | cons e es ih =>
    simp only [List.map_cons, List.filter_cons]
    have : (if e.tag = t then e.setCopy q st sl else e).waitsFor p = e.waitsFor p := by
      split
      · unfold Entry.waitsFor Entry.setCopy
        simp only [List.any_map]
        congr 1; funext c
        simp only [Function.comp]
        split
        · next hc => have : (c.port == p) = false := by rw [hc]; simpa using h
                     simp [this]
        · rfl
      · rfl
    rw [this]
    cases e.waitsFor p <;> simp [ih]

theorem claimCount_place {p q} (h : q ≠ p) (s : State) (t) : claimCount p (s.placeCopy q t) = claimCount p s :=
    (claimCount_congr (placeCopy_ott s q t)).trans (claimCount_mark h _ _ _ _)

theorem claimCount_sendOn {p q} (h : q ≠ p) (s : State) (t r i) : claimCount p (s.sendOn q t r i) = claimCount p s :=
    (claimCount_congr (sendOn_ott s q t r i)).trans (claimCount_mark h _ _ _ _)

theorem claimCount_serveN {p q} (h : q ≠ p) (n) (s : State) : claimCount p (State.serveN n s q) = claimCount p s := by
  induction n generalizing s with
  | zero => rfl
  | succ n ih =>
    unfold State.serveN
    split
    · next hh =>
      unfold State.arbitrate? at hh
      split at hh
      · split at hh
        · cases hh; rw [ih, claimCount_place h]
        · cases hh
      · cases hh
    · split
      · next hh =>
        unfold State.send? at hh
        split at hh
        · cases hh; rw [ih, claimCount_sendOn h]
        · cases hh
      · rfl

theorem claimCount_serve {p q} (h : q ≠ p) (s : State) : claimCount p (s.serve q) = claimCount p s :=
    claimCount_serveN h 80 s

theorem claimCount_complete {p} (s : State) (e st) : claimCount p (s.complete e st) ≤ claimCount p s := by
  simp only [claimCount_eq, complete_ott]
  exact ((List.filter_sublist (l := s.ott)).filter _).length_le

/-- An outcome at a port out of service makes no claim on it, and takes the claim of its own entry. -/
theorem claimCount_outcome {p} (s : State) (t o d) (hp : (s.port p).state.inService = false) (ho : o ≠ .reissueWait) :
    claimCount p (s.outcome t p o d) ≤ claimCount p s ∧ (t ∈ s.claims p → claimCount p (s.outcome t p o d) <
    claimCount p s) := by
  unfold State.outcome
  split
  · next hn =>
    refine ⟨le_refl _, ?_⟩
    intro h
    simp only [State.claims, List.mem_map, List.mem_filter] at h
    obtain ⟨y, ⟨h1, h2⟩, h3⟩ := h
    exact absurd hn (entry_ne_none h1 h3)
  · next e0 he =>
    have ht0 := entry_has_tag he
    simp only
    have hge : ∀ e : Entry, e = (if e0.kind = .read ∧ o = .ok then { e0.setCopy p o none with readData := some d }
        else e0.setCopy p o none) → e.tag = t ∧ e.waitsFor p = false := by
      rintro e rfl
      refine ⟨by split <;> exact ht0, ?_⟩
      have := setCopy_waitsFor e0 p o ho
      split
      · exact this
      · exact this
    generalize (if e0.kind = .read ∧ o = .ok then { e0.setCopy p o none with readData := some d } else e0.setCopy p o
        none : Entry) = e at hge
    obtain ⟨g1, g2⟩ := hge e rfl
    have k := claimCount_setEntry s e g2
    rw [g1] at k
    have hc : ∀ e' st, claimCount p ((s.setEntry e).complete e' st) ≤ claimCount p (s.setEntry e) := fun e' st =>
        claimCount_complete _ _ _
    have hf : ∀ p' o', claimCount p ((s.setEntry e).failover e p' o') ≤ claimCount p (s.setEntry e) := by
      intro p' o'
      unfold State.failover
      split
      · split
        · next q j hn =>
          have hs := nextMember_serves hn
          have hne : q ≠ p := by
            rintro rfl
            have : ((s.setEntry e).port q).state.inService = false := hp
            rw [this] at hs; cases hs
          have hw : ∀ c : Copy, c.port = q → ({ e with copies := e.copies ++ [c] } : Entry).waitsFor p = false := by
            intro c hcq
            unfold Entry.waitsFor at g2 ⊢
            have : (c.port == p) = false := by rw [hcq]; simpa using hne
            rw [List.any_append, g2]; simp [this]
          unfold State.reissue
          simp only
          split
          · rw [claimCount_serve hne, claimCount_place hne]; exact (claimCount_setEntry _ _ (hw _ rfl)).1
          · exact (claimCount_setEntry _ _ (hw _ rfl)).1
        · exact hc _ _
      · exact hc _ _
    have fin : ∀ u : State, claimCount p u ≤ claimCount p (s.setEntry e) → claimCount p u ≤ claimCount p s ∧ (t ∈
        s.claims p → claimCount p u < claimCount p s) := fun u hu => ⟨le_trans hu k.1, fun h => lt_of_le_of_lt hu (k.2
        h)⟩
    repeat' split
    all_goals first
      | exact fin _ (le_refl _)
      | exact fin _ (hc _ _)
      | exact fin _ (hf _ _)

theorem claimCount_job {p} (s : State) (j : Job) (hp : (s.port p).state.inService = false) (ho : ∀ t o, j = .fail t o
    → o ≠ .reissueWait) : claimCount p (s.runJob p j) ≤ claimCount p s ∧ (j = .failClaim → claimCount p (s.runJob p j)
    ≤ claimCount p s - 1) := by
  cases j with
  | fail t o => exact ⟨(claimCount_outcome s t o [] hp (ho t o rfl)).1, fun h => by cases h⟩
  | failClaim =>
    simp only [State.runJob]
    split
    · next t ts hcl =>
      have := claimCount_outcome s t .portDown [] hp (by decide)
      have h2 := this.2 (by rw [hcl]; simp)
      exact ⟨this.1, fun _ => by omega⟩
    · next hcl => have : claimCount p s = 0 := by simp [claimCount, hcl]
                  exact ⟨le_refl _, fun _ => by omega⟩
  | reply t st => exact ⟨le_of_eq (claimCount_congr (by simp [State.runJob])), fun h => by cases h⟩

/-- Each job that gives up a claim takes one. -/
theorem claimCount_jobs {p} (js : List Job) : ∀ s : State, (s.port p).state.inService = false → (∀ j ∈ js, ∀ t o, j =
    .fail t o → o ≠ .reissueWait) → claimCount p (s.runJobs p js) ≤ claimCount p s - js.countP (· matches .failClaim)
    := by
  induction js with
  | nil => intro s _ _; simp [State.runJobs]
  | cons j js ih =>
    intro s hp ho
    rw [State.runJobs]
    have h1 := ih _ (runJob_outOfService hp j) (fun y hy => ho y (List.mem_cons_of_mem _ hy))
    have h2 := claimCount_job s j hp (ho j (by simp))
    rw [List.countP_cons]
    cases j with
    | failClaim => have := h2.2 rfl; simp; omega
    | fail t o => have := h2.1; simp; omega
    | reply t st => have := h2.1; simp; omega

/-- The tags in flight are those of the slots IN_FLIGHT. -/
theorem mem_inFlightTags (q : Port) (x : Tag) : x ∈ q.inFlightTags ↔ ∃ i d, q.slots.get i = .inFlight x d := by
  constructor
  · intro h
    unfold Port.inFlightTags at h
    obtain ⟨y, hy, hxy⟩ := List.mem_filterMap.mp h
    rw [Vector.mem_toList_iff, Vector.mem_iff_getElem] at hy
    obtain ⟨k, hk, rfl⟩ := hy
    refine ⟨⟨k, hk⟩, ?_⟩
    split at hxy
    · next t d hh => cases hxy; exact ⟨d, by rw [vget]; exact hh⟩
    · cases hxy
    · cases hxy
  · rintro ⟨i, d, h⟩; exact inFlight_mem q i x d h

/-- As `runJobs_single`, for an entry that has no claim on the port. -/
theorem runJobs_single_noClaim (p x k o) (ho : o ≠ .ok) (hst : o.status ≠ .ok) (hr : o ≠ .reissueWait) (js : List Job)
    : ∀ (s : State), (s.port p).state.inService = false → x ∉ s.claims p → modeKind s x = some (.single, k) →
   (∀ j ∈ js, ∀ o', j = .fail x o' → o' = o) →
   (modeKind (s.runJobs p js) x = some (.single, k) ∧ (∀ j ∈ js, j ≠ .fail x o))
   ∨ (modeKind (s.runJobs p js) x = none ∧ (s.ulc.state = .up → ∃ m, (s.runJobs p js).ulc.queue = s.ulc.queue ++ m ∧
       (⟨k.response, x, o.status, 0, []⟩ : Response) ∈ m)) := by
  induction js with
  | nil => intro s _ _ h _; left; exact ⟨h, by simp⟩
  | cons j js ih =>
    intro s hp hcl h h1
    rw [State.runJobs]
    have step : (modeKind (s.runJob p j) x = some (.single, k) ∧ j ≠ .fail x o) ∨ (modeKind (s.runJob p j) x = none ∧
        (s.ulc.state = .up → (s.runJob p j).ulc.queue = s.ulc.queue ++ [⟨k.response, x, o.status, 0, []⟩])) := by
      cases j with
      | fail t o' =>
        by_cases hx : x = t
        · subst hx
          have := h1 _ (by simp) o' rfl
          subst this
          right; exact outcome_single_answers s x p o' k h ho hst
        · left
          refine ⟨(modeKind_outcome s t p o' [] x hx).trans h, ?_⟩
          intro hh; cases hh; exact hx rfl
      | failClaim =>
        simp only [State.runJob]
        split
        · next t _ hh =>
          have hx : x ≠ t := by rintro rfl; exact hcl (by rw [hh]; simp)
          left; exact ⟨(modeKind_outcome s t p .portDown [] x hx).trans h, by simp⟩
        · left; exact ⟨h, by simp⟩
      | reply t st => left; exact ⟨(keepsModes_ott (s := s) (u := s.reply t st []) (by simp) x).trans h, by simp⟩
    have hp' := runJob_outOfService hp j
    have hcl' : x ∉ (s.runJob p j).claims p := by
      have := runJobs_noClaim (p := p) (x := x) [j] s hp (by
        intro y hy o' hh
        rw [List.mem_singleton] at hy; subst hy
        rw [h1 y (by simp) o' hh]; exact hr) hcl
      simpa [State.runJobs] using this
    rcases step with ⟨a, a2⟩ | ⟨a, b⟩
    · have h1' : ∀ j ∈ js, ∀ o', j = .fail x o' → o' = o := fun j hj => h1 j (List.mem_cons_of_mem _ hj)
      rcases ih _ hp' hcl' a h1' with ⟨c1, c2⟩ | ⟨c1, c2⟩
      · left; refine ⟨c1, ?_⟩
        intro y hy; rcases List.mem_cons.mp hy with rfl | hy
        · exact a2
        · exact c2 y hy
      · right; refine ⟨c1, fun hu => ?_⟩
        obtain ⟨st, m, hm⟩ := appends_job s p j
        obtain ⟨n, hn, hr⟩ := c2 (by rw [st]; exact hu)
        exact ⟨m ++ n, by rw [hn, hm, List.append_assoc], List.mem_append_right _ hr⟩
    · right
      refine ⟨modeKind_gone p x js _ a, fun hu => ?_⟩
      obtain ⟨_, m, hm⟩ := appends_jobs js (s.runJob p j) p
      exact ⟨[⟨k.response, x, o.status, 0, []⟩] ++ m, by rw [hm, b hu, List.append_assoc], by simp⟩

/-! ## A port leaves service (R94, R104) -/

/-- A port that leaves service does what `State.LetsGo` says; a SINGLE entry that fails of itself is answered TIMEOUT.
-/
theorem leaveService_letsGo (s : State) (p st c more order) (hst : st.inService = false) (but : Option Tag)
    (hmore : ∀ j ∈ more, (∃ t, but = some t ∧ j = .fail t .timeout) ∨ ∃ t st, j = .reply t st) :
    s.LetsGo (s.leaveService p st c more order) p but
    ∧ (∀ t e, but = some t → .fail t .timeout ∈ more → s.entry? t = some e → e.modeClass = .single → t ∉ (s.port
        p).egress → t ∉ s.claims p → (∀ j d, (s.port p).slots.get j ≠ .inFlight t d) →
         (∀ x ∈ (s.leaveService p st c more order).ott, x.tag ≠ t)
              ∧ (s.ulc.state = .up → ⟨e.kind.response, t, .timeout, 0, []⟩ ∈ (s.leaveService p st c more
                  order).ulc.queue.drop s.ulc.queue.length)) := by
  unfold State.leaveService
  set s1 := (s.setPort p ((s.port p).outOfService st c)).attemptDue (.portChanged p) with hs1
  have hp : (s1.port p).state.inService = false := by
    have : s1.port p = (s.port p).outOfService st c := by
        rw [hs1, State.port_congr (State.attemptDue_ports _ _), State.port_setPort]
    rw [this]; exact hst
  have ho1 : s1.ott = s.ott := rfl
  have hu1 : s1.ulc = s.ulc := rfl
  set js := permute order (more ++ s.leavingJobs p) with hjs
  have hperm : js.Perm (more ++ s.leavingJobs p) := permute_perm _ _
  have hmem : ∀ j, j ∈ js ↔ j ∈ more ∨ (∃ t, t ∈ (s.port p).egress ∧ j = .fail t .portDown) ∨ (∃ t, t ∈ (s.port
      p).inFlightTags ∧ j = .fail t .portDown) ∨ (j = .failClaim ∧ s.claims p ≠ []) := by
    intro j
    rw [hperm.mem_iff]
    unfold State.leavingJobs
    simp only [List.mem_append, List.mem_map, List.mem_replicate]
    constructor
    · rintro (h | (⟨t, h, rfl⟩ | ⟨t, h, rfl⟩) | ⟨h1, h2⟩)
      · exact .inl h
      · exact .inr (.inl ⟨t, h, rfl⟩)
      · exact .inr (.inr (.inl ⟨t, h, rfl⟩))
      · exact .inr (.inr (.inr ⟨h2, by intro h; rw [h] at h1; exact h1 rfl⟩))
    · rintro (h | ⟨t, h, rfl⟩ | ⟨t, h, rfl⟩ | ⟨rfl, h⟩)
      · exact .inl h
      · exact .inr (.inl (.inl ⟨t, h, rfl⟩))
      · exact .inr (.inl (.inr ⟨t, h, rfl⟩))
      · exact .inr (.inr ⟨by simpa using h, rfl⟩)
  have hfail : ∀ j ∈ js, ∀ x o, j = .fail x o → o = .portDown ∨ (but = some x ∧ o = .timeout) := by
    rintro j hj x o rfl
    rcases (hmem _).mp hj with h | ⟨t, h, hh⟩ | ⟨t, h, hh⟩ | ⟨hh, h⟩
    · rcases hmore _ h with ⟨t, hb, hh⟩ | ⟨t, st, hh⟩
      · cases hh; exact .inr ⟨hb, rfl⟩
      · cases hh
    · cases hh; exact .inl rfl
    · cases hh; exact .inl rfl
    · cases hh
  have ent : ∀ x, s1.entry? x = s.entry? x := fun x => rfl
  refine ⟨⟨?_, ?_⟩, ?_⟩
  · intro x hx hheld
    have hin : Job.fail x .portDown ∈ js := by
      rw [hmem]
      rcases hheld with h | h
      · exact .inr (.inl ⟨x, h, rfl⟩)
      · exact .inr (.inr (.inl ⟨x, (mem_inFlightTags _ _).mpr h, rfl⟩))
    have hall : ∀ j ∈ js, ∀ o, j = .fail x o → o = .portDown := by
      intro j hj o hh
      rcases hfail j hj x o hh with h | ⟨h, _⟩
      · exact h
      · exact absurd h.symm hx
    refine ⟨runJobs_portDown js s1 hp hall (.inr hin), ?_⟩
    intro e he hm
    have hk : modeKind s1 x = some (.single, e.kind) := by unfold modeKind; rw [ent, he]; simp [hm]
    rcases runJobs_single p x e.kind .portDown (by decide) (by decide) js s1 hk hall (.inl rfl) with ⟨_, h⟩ | ⟨h1, h2⟩
    · exact absurd rfl (h _ hin)
    · refine ⟨modeKind_of_none h1, fun hu => ?_⟩
      obtain ⟨m, hm1, hm2⟩ := h2 (by rw [hu1]; exact hu)
      rw [hm1, hu1, List.drop_left]; exact hm2
  · have h := claimCount_jobs js s1 hp (by
      intro j hj t o hh
      rcases hfail j hj t o hh with h | ⟨_, h⟩ <;> rw [h] <;> decide)
    have hc : js.countP (· matches .failClaim) = more.countP (· matches .failClaim) + (s.claims p).length := by
      rw [hperm.countP_eq, List.countP_append]
      congr 1
      unfold State.leavingJobs
      simp [List.countP_append, List.countP_map, List.countP_replicate, Function.comp_def]
    have hn : claimCount p s1 = (s.claims p).length := rfl
    have : claimCount p (s1.runJobs p js) = 0 := by omega
    exact List.length_eq_zero_iff.mp this
  · intro t e hb hin he hm h1 h2 h3
    have hin' : Job.fail t .timeout ∈ js := (hmem _).mpr (.inl hin)
    have hk : modeKind s1 t = some (.single, e.kind) := by unfold modeKind; rw [ent, he]; simp [hm]
    have hall : ∀ j ∈ js, ∀ o', j = .fail t o' → o' = .timeout := by
      rintro j hj o' rfl
      rcases (hmem _).mp hj with h | ⟨x, h, hh⟩ | ⟨x, h, hh⟩ | ⟨hh, h⟩
      · rcases hmore _ h with ⟨x, hb, hh⟩ | ⟨x, st, hh⟩
        · cases hh; rfl
        · cases hh
      · cases hh; exact absurd h h1
      · cases hh
        obtain ⟨i, d, h⟩ := (mem_inFlightTags _ _).mp h
        exact absurd h (h3 i d)
      · cases hh
    rcases runJobs_single_noClaim p t e.kind .timeout (by decide) (by decide) (by decide) js s1 hp h2 hk hall with ⟨_,
        h⟩ | ⟨h1, h2⟩
    · exact absurd rfl (h _ hin')
    · refine ⟨modeKind_of_none h1, fun hu => ?_⟩
      obtain ⟨m, hm1, hm2⟩ := h2 (by rw [hu1]; exact hu)
      rw [hm1, hu1, List.drop_left]; exact hm2

/-! ## The acts of a port that leaves service -/

/-- A job of a port that leaves service as an act of `State.FailsInTurn`. -/
def Job.act : Job → Option (Tag × CopyState)
  | .fail t o => some (t, o)
  | .failClaim => none
  | .reply _ _ => none

/-- Jobs that place no reply are acts, one after another. -/
theorem runJobs_acts {p} (js : List Job) : ∀ s : State, (∀ j ∈ js, ∀ t st, j ≠ .reply t st) →
    s.runJobs p js = (js.map Job.act).foldl (fun a act =>
        match act with
        | some (x, o) => a.outcome x p o []
        | none =>
          match a.claims p with
          | x :: _ => a.outcome x p .portDown []
          | [] => a) s := by
  induction js with
  | nil => intro s _; rfl
  | cons j js ih =>
    intro s h
    rw [State.runJobs, List.map_cons, List.foldl_cons, ih _ (fun y hy => h y (List.mem_cons_of_mem _ hy))]
    congr 1
    cases j with
    | fail t o => rfl
    | failClaim => rfl
    | reply t st => exact absurd rfl (h _ (by simp) t st)

/-- Jobs in two parts. -/
theorem runJobs_append (p) (xs ys : List Job) : ∀ s : State, s.runJobs p (xs ++ ys) = (s.runJobs p xs).runJobs p ys := by
  induction xs with
  | nil => intro s; rfl
  | cons j xs ih => intro s; exact ih _

/-- What a port lets go, as acts (R94, R104, R128). -/
theorem leavingJobs_acts (s : State) (p) : (s.leavingJobs p).map Job.act = s.letGoActs p (s.port p).slots := by
  unfold State.leavingJobs State.letGoActs
  simp only [List.map_append, List.map_map, List.map_replicate]
  refine congrArg₂ (· ++ ·) (congrArg₂ (· ++ ·) rfl ?_) rfl
  unfold Port.inFlightTags
  rw [List.map_filterMap]
  congr 1
  funext x
  cases x <;> rfl

/-- No reply is among what a port lets go. -/
theorem leavingJobs_noReply (s : State) (p) : ∀ j ∈ s.leavingJobs p, ∀ t st, j ≠ .reply t st := by
  intro j h t st
  unfold State.leavingJobs at h
  simp only [List.mem_append, List.mem_map, List.mem_replicate] at h
  rcases h with (⟨_, _, rfl⟩ | ⟨_, _, rfl⟩) | ⟨_, rfl⟩ <;> simp

/-- A port that leaves service with no reply to place fails what it held, act by act (R94, R128). -/
theorem leaveService_failsInTurn (s : State) (p st c more order) (hm : ∀ j ∈ more, ∀ t st, j ≠ .reply t st) :
    ((s.setPort p ((s.port p).outOfService st c)).attemptDue (.portChanged p)).FailsInTurn
      (s.leaveService p st c more order) p (more.map Job.act ++ s.letGoActs p (s.port p).slots) := by
  refine ⟨(permute order (more ++ s.leavingJobs p)).map Job.act, ?_, runJobs_acts _ _ fun j hj => ?_⟩
  · rw [← leavingJobs_acts, ← List.map_append]
    exact (permute_perm _ _).map Job.act
  · rcases List.mem_append.mp ((permute_perm order (more ++ s.leavingJobs p)).mem_iff.mp hj) with h | h
    · exact hm j h
    · exact leavingJobs_noReply s p j h

/-- A port that leaves service with one reply to place fails some of what it held, places the reply, and fails the rest (R102,
R104). -/
theorem leaveService_reply (s : State) (p st c t r order) :
    ∃ (mid : State) (before after : List (Option (Tag × CopyState))),
      (before ++ after).Perm (s.letGoActs p (s.port p).slots)
      ∧ ((s.setPort p ((s.port p).outOfService st c)).attemptDue (.portChanged p)).FailsInTurn mid p before
      ∧ (mid.reply t r []).FailsInTurn (s.leaveService p st c [.reply t r] order) p after := by
  have hp := permute_perm order ([Job.reply t r] ++ s.leavingJobs p)
  obtain ⟨xs, ys, hxy⟩ := List.append_of_mem (hp.mem_iff.mpr (List.mem_append_left _ (List.mem_singleton.mpr rfl)))
  unfold State.leaveService
  rw [hxy] at hp ⊢
  have hpp : (xs ++ ys).Perm (s.leavingJobs p) := (List.perm_middle.symm.trans hp).cons_inv
  have hn := fun j hj => leavingJobs_noReply s p j (hpp.mem_iff.mp hj)
  refine ⟨_, xs.map Job.act, ys.map Job.act, ?_, ⟨_, .refl _, (runJobs_acts xs _ fun j h => hn j (by simp [h]))⟩, _, .refl _, ?_⟩
  · rw [← List.map_append, ← leavingJobs_acts]
    exact hpp.map _
  · rw [runJobs_append]
    exact runJobs_acts ys _ fun j h => hn j (by simp [h])

/-- Every copy at the port of an entry with no claim there, which fails with TIMEOUT, stands as TIMEOUT. -/
theorem runJobs_timeout {p x} (js : List Job) : ∀ s : State, (s.port p).state.inService = false → x ∉ s.claims p →
   (∀ j ∈ js, ∀ o, j = .fail x o → o = .timeout) →
   (CopiesAt p x (· = .timeout) s ∨ .fail x .timeout ∈ js) → CopiesAt p x (· = .timeout) (s.runJobs p js) := by
  induction js with
  | nil => intro s _ _ _ h; rcases h with h | h; exact h; cases h
  | cons j js ih =>
    intro s hp hcl hj h
    rw [State.runJobs]
    have hj' : ∀ y ∈ js, ∀ o, y = .fail x o → o = .timeout := fun y hy => hj y (List.mem_cons_of_mem _ hy)
    have hone : ∀ y ∈ [j], ∀ o, y = .fail x o → o ≠ .reissueWait := by
      intro y hy o ho
      rw [List.mem_singleton] at hy
      rw [hj j (by simp) o (hy ▸ ho)]
      decide
    have hcl' : x ∉ (s.runJob p j).claims p := by
      have := runJobs_noClaim (p := p) (x := x) [j] s hp hone hcl
      simpa [State.runJobs] using this
    rcases h with h | h
    · exact ih _ (runJob_outOfService hp j) hcl' hj'
        (.inl (copiesAt_job hp (fun o ho => hj j (by simp) o ho) (.inr hcl) h))
    · rcases List.mem_cons.mp h with h | h
      · refine ih _ (runJob_outOfService hp j) hcl' hj' (.inl ?_)
        rw [← h]; exact copiesAt_outcome_self hp rfl
      · exact ih _ (runJob_outOfService hp j) hcl' hj' (.inr h)

/-- The copy whose deadline expired stands as TIMEOUT after the quarantine (R87, R94). -/
theorem leaveService_timeout (s : State) (p st c more order) (hst : st.inService = false) (x)
    (hm : more = [.fail x .timeout]) (h1 : x ∉ (s.port p).egress) (h2 : x ∉ s.claims p)
    (h3 : ∀ j d, (s.port p).slots.get j ≠ .inFlight x d) :
    CopiesAt p x (· = .timeout) (s.leaveService p st c more order) := by
  unfold State.leaveService
  have hp : (((s.setPort p ((s.port p).outOfService st c)).attemptDue (.portChanged p)).port p).state.inService
      = false := by
    rw [State.port_congr (State.attemptDue_ports _ _), State.port_setPort]; exact hst
  have hmem := fun j => (permute_perm order (more ++ s.leavingJobs p)).mem_iff (a := j)
  refine runJobs_timeout _ _ hp h2 ?_ (.inr ((hmem _).mpr (by simp [hm])))
  rintro j hj o rfl
  rcases List.mem_append.mp ((hmem _).mp hj) with h | h
  · rw [hm] at h; simp at h; exact h
  · unfold State.leavingJobs at h
    simp only [List.mem_append, List.mem_map, List.mem_replicate] at h
    rcases h with (⟨y, hy, hh⟩ | ⟨y, hy, hh⟩) | ⟨_, hh⟩
    · cases hh; exact absurd hy h1
    · cases hh; obtain ⟨i, d, hh⟩ := (mem_inFlightTags _ _).mp hy; exact absurd hh (h3 i d)
    · cases hh

end Sys2Proof.Machine
end

