-- ==== Sys2Proof/Laws/Link.lean ====
section
/-! SUPPORT. What the operations of the upstream link can do: a carrier that waits for the last block, the gate as it opens, and
the packets that are taken behind a request in hand. -/

namespace Sys2Proof.Machine

/-! ## A carrier in READY (R1, R2, log 26) -/

/-- LINK START is sent when nothing is waited for any more. -/
theorem settleLink_starts (s : State) (h : s.ulc.state = .ready) (hc : s.pins.carrier = true) (hl : s.mail.loss.any = false)
    (hd : s.ps.op.drains = false) : s.settleLink = s.linkStart := by
  simp [State.settleLink, State.lossDone, h, hc, hl, hd]

/-- Nothing changes while the ULC is not READY, no carrier is there, a block has the loss to take, or a drain is in progress. -/
theorem settleLink_waits (s : State)
    (h : s.ulc.state ≠ .ready ∨ s.pins.carrier = false ∨ s.mail.loss.any = true ∨ s.ps.op.drains = true) :
    s.settleLink = s := by
  unfold State.settleLink State.lossDone
  rw [if_neg]
  rintro ⟨h1, h2, h3⟩
  simp_all

/-- A link loss taken by the Plan Store leaves the operation what it was. -/
@[simp] theorem oweNothing_drains (op : PlanOp) : op.oweNothing.drains = op.drains := by cases op <;> rfl

/-! ## The gate as it opens (R22, log 24) -/

@[simp] theorem openGate_iq (s : State) : s.openGate.iq = { s.iq with gate := .opened } := rfl
@[simp] theorem openGate_aborts (s : State) : s.openGate.mail.aborts = s.mail.aborts.filter (· != .planStore) := rfl
@[simp] theorem openGate_emptyReports (s : State) :
    s.openGate.mail.emptyReports = s.mail.emptyReports + s.mail.aborts.count .planStore := rfl

/-- No abort that the Plan Store has requested is on its way past the opening. -/
theorem openGate_no_abort (s : State) : AbortSource.planStore ∉ s.openGate.mail.aborts := by simp

/-! ## Packets taken behind a request in hand (R24, log 6) -/

/-- A packet that arrives in DOWN or READY changes nothing (R1). -/
theorem arrive_notUp (s : State) (frame : List Byte) (h : s.ulc.state ≠ .up) : s.arrive frame = s := by
  simp [State.arrive, h]

/-- A packet reaches only the ULC, the IQ and what is on its way, and no mode of the ULC changes. -/
theorem arrive_frame (s : State) (frame : List Byte) :
    s.arrive frame = { s with ulc := (s.arrive frame).ulc, iq := (s.arrive frame).iq, mail := (s.arrive frame).mail }
      ∧ (s.arrive frame).ulc.state = s.ulc.state ∧ (s.arrive frame).ulc.queue = s.ulc.queue
      ∧ (s.arrive frame).mail.arrivals = s.mail.arrivals := by
  have hk (u : Ulc) : u.kick.state = u.state ∧ u.kick.queue = u.queue := by
    unfold Ulc.kick; repeat' split
    all_goals exact ⟨rfl, rfl⟩
  have ht (u : Ulc) (n : Nat) : (u.takeCredits n).state = u.state ∧ (u.takeCredits n).queue = u.queue := by
    unfold Ulc.takeCredits; split
    · exact ⟨(hk _).1, (hk _).2⟩
    · exact ⟨rfl, rfl⟩
  have hr (x : State) (o : Occurrence) : x.report o = { x with mail := (x.report o).mail }
      ∧ (x.report o).mail.arrivals = x.mail.arrivals := by
    unfold State.report; split <;> exact ⟨rfl, rfl⟩
  have hn (x : State) : x.newHead = { x with iq := x.newHead.iq, mail := x.newHead.mail }
      ∧ x.newHead.mail.arrivals = x.mail.arrivals := by
    unfold State.newHead; repeat' split
    all_goals exact ⟨rfl, rfl⟩
  unfold State.arrive
  split
  · exact ⟨rfl, rfl, rfl, rfl⟩
  split
  · obtain ⟨a, b⟩ := hr s (.linkFault .overrun none ((frameTag frame).map fun t => t.setWidth 8))
    unfold State.upstreamFault; rw [a]; exact ⟨rfl, rfl, rfl, b⟩
  split
  · obtain ⟨a, b⟩ := hr s.discardPacket (.linkFault .malformedUpstream none ((frameTag frame).map fun t => t.setWidth 8))
    unfold State.upstreamFault; rw [a]
    exact ⟨rfl, (ht _ _).1, (ht _ _).2, b⟩
  · next r _ =>
    split
    · obtain ⟨a, b⟩ := hr s.discardPacket (.linkFault .tagClash none (some (r.tag.setWidth 8)))
      unfold State.upstreamFault
      simp only [Option.map_some]
      rw [a]
      exact ⟨rfl, (ht _ _).1, (ht _ _).2, b⟩
    · unfold State.enqueue
      split
      · obtain ⟨a, b⟩ := hn { s with
          ulc := { s.ulc with credits := s.ulc.credits - 1 }
          iq := { s.iq with fifo := s.iq.fifo ++ [r], tags := r.tag :: s.iq.tags } }
        rw [a]
        exact ⟨rfl, rfl, rfl, b⟩
      · exact ⟨rfl, rfl, rfl, rfl⟩

/-- Packets taken one after another reach no more than one does. -/
theorem arrivals_frame (frames : List (List Byte)) (s : State) :
    let t := frames.foldl State.arrive s
    t = { s with ulc := t.ulc, iq := t.iq, mail := t.mail } ∧ t.ulc.state = s.ulc.state ∧ t.ulc.queue = s.ulc.queue
      ∧ t.mail.arrivals = s.mail.arrivals := by
  induction frames generalizing s with
  | nil => exact ⟨rfl, rfl, rfl, rfl⟩
  | cons f fs ih =>
    obtain ⟨a1, a2, a3, a4⟩ := arrive_frame s f
    obtain ⟨b1, b2, b3, b4⟩ := ih (s.arrive f)
    refine ⟨?_, b2.trans a2, b3.trans a3, b4.trans a4⟩
    simp only [List.foldl_cons] at b1 ⊢
    rw [b1, a1]

end Sys2Proof.Machine
end

