-- ==== Sys2Proof/Laws/Plans.lean ====
section
/-! SUPPORT. What the operations of the Plan Store do: banks read after a write, the steps of a copy and a clear, and the masked
address and its unit. -/

namespace Sys2Proof.Machine

/-! ## Banks -/

/-- A bank read after a write to a bank. -/
theorem bank_setBank (ps : PlanStore) (i j : BankId) (x : Bank) :
    (ps.setBank i x).bank j = if i = j then x else ps.bank j := by
  cases i <;> cases j <;> rfl

/-- A write to a bank changes only the banks. -/
theorem setBank_frame (ps : PlanStore) (i : BankId) (x : Bank) :
    (ps.setBank i x).active = ps.active ∧ (ps.setBank i x).generation = ps.generation ∧ (ps.setBank i x).op = ps.op
      ∧ (ps.setBank i x).drainTimeout = ps.drainTimeout := by
  cases i <;> exact ⟨rfl, rfl, rfl, rfl⟩

/-- A write to the staged bank reads back, and changes nothing but that bank. -/
theorem setStaged_frame (ps : PlanStore) (x : Bank) :
    (ps.setStaged x).stagedBank = x ∧ (ps.setStaged x).activeBank = ps.activeBank ∧ (ps.setStaged x).active = ps.active
      ∧ (ps.setStaged x).generation = ps.generation := by
  obtain ⟨a, b, act, g, op, d⟩ := ps
  cases act <;> exact ⟨rfl, rfl, rfl, rfl⟩

/-- The plan operation is apart from the banks. -/
theorem banks_of_op (ps : PlanStore) (op : PlanOp) :
    ({ ps with op := op } : PlanStore).stagedBank = ps.stagedBank
      ∧ ({ ps with op := op } : PlanStore).activeBank = ps.activeBank := by
  obtain ⟨a, b, act, g, op, d⟩ := ps
  cases act <;> exact ⟨rfl, rfl⟩

/-! ## Steps of a copy and of a clear (R144, R146) -/

/-- A COPY_STEP reaches one window, with its counter, or one page entry. -/
theorem copyEntry_does (active staged : Bank) (k : Fin 288) :
    (∀ i : WindowIx,
      (copyEntry active staged k).windows.get i =
        (if i.val = k.val then active.windows.get i else staged.windows.get i)
      ∧ (copyEntry active staged k).hits.get i = (if i.val = k.val then 0 else staged.hits.get i))
    ∧ ∀ i : PageIx,
      (copyEntry active staged k).pages.get i = if i.val + 32 = k.val then active.pages.get i else staged.pages.get i := by
  unfold copyEntry
  split
  · next h =>
    refine ⟨fun i => ⟨?_, ?_⟩, fun i => ?_⟩
    · refine (get_set staged.windows ⟨k.val, h⟩ i _).trans ?_
      by_cases hi : i.val = k.val
      · rw [if_pos (Fin.ext hi.symm), if_pos hi]; congr 1; exact Fin.ext hi.symm
      · rw [if_neg (fun hh => hi (by rw [← hh])), if_neg hi]
    · refine (get_set staged.hits ⟨k.val, h⟩ i _).trans ?_
      by_cases hi : i.val = k.val
      · rw [if_pos (Fin.ext hi.symm), if_pos hi]
      · rw [if_neg (fun hh => hi (by rw [← hh])), if_neg hi]
    · rw [if_neg (by omega)]; rfl
  · next h =>
    refine ⟨fun i => ⟨?_, ?_⟩, fun i => ?_⟩
    · rw [if_neg (by omega)]; rfl
    · rw [if_neg (by omega)]; rfl
    · refine (get_set staged.pages ⟨k.val - 32, by omega⟩ i _).trans ?_
      by_cases hi : i.val + 32 = k.val
      · rw [if_pos (Fin.ext (by simp; omega)), if_pos hi]; congr 1; exact Fin.ext (by simp; omega)
      · rw [if_neg (fun hh => hi (by rw [← hh]; simp; omega)), if_neg hi]

/-- A CLEAR_STEP is a COPY_STEP from a cleared bank. -/
theorem copyEntry_cleared (staged : Bank) (k : Fin 288) : copyEntry .cleared staged k = clearEntry staged k := by
  unfold copyEntry clearEntry Bank.cleared
  simp

/-! ## Masked addresses (R39) -/

/-- Bit by bit, the unit of an address with a mask's bits cleared. -/
theorem shifted_mask (a : Addr) (m : UnitNo) :
    BitVec.setWidth 24 ((a &&& ~~~((m.setWidth 36) <<< 12)) >>> 12) = BitVec.setWidth 24 (a >>> 12) &&& ~~~m := by
  ext i hi
  simp [hi, show 12 + i < 36 from by omega, show i < 36 from by omega]

/-- The unit of the masked address. -/
theorem unitOf_maskedAddr (w : Window) (a : Addr) : unitOf (w.maskedAddr a) = unitOf a &&& ~~~(w.mask.getD 0) :=
  shifted_mask a _

/-- The unit number is the address divided by 4 KiB. -/
theorem unitOf_toNat (a : Addr) : (unitOf a).toNat = a.toNat / 4096 := by
  have := a.isLt
  simp [unitOf, Nat.shiftRight_eq_div_pow]
  omega

/-- A mask leaves address bits 0 to 11 as they are. -/
theorem low_maskedAddr (w : Window) (a : Addr) : w.maskedAddr a &&& 0xFFF = a &&& 0xFFF := by
  unfold Window.maskedAddr
  generalize w.mask.getD 0 = m
  ext i hi
  by_cases h : i < 12
  · simp [h]
  · have : (0xFFF : BitVec 36).getLsbD i = false := by
      rw [show (0xFFF : BitVec 36) = (BitVec.allOnes 12).setWidth 36 from by decide, BitVec.getLsbD_setWidth,
        BitVec.getLsbD_allOnes, decide_eq_false h, Bool.and_false]
    simp_all

/-- The low 12 bits as a number. -/
theorem low_toNat (a : Addr) : (a &&& 0xFFF).toNat = a.toNat % 4096 := by
  rw [BitVec.toNat_and]
  exact Nat.and_two_pow_sub_one_eq_mod _ 12

end Sys2Proof.Machine
end

