-- ==== Sys2Proof/WellFormed.lean ====
section
/-! DEFINITION. Which commands are well formed. Port, slot and tag ranges hold by type; frames may be any bytes, since
the part itself checks them (R6, R18). The checks of a plan's window entries (R38) are the part's own and stand in
Machine/Operands.lean. -/

namespace Sys2Proof

/-- A target frame that is too short to give a tag gives no status and no data either (R18). -/
def TargetFrame.wellFormed (f : TargetFrame) : Bool :=
  f.tag.isSome || (f.status == .other && f.data.isEmpty)

/-- The ticks shown for a timer whose expiry is due are 1 or more, as R166 says of every running timer (log 9). -/
def dueTicksWellFormed (due : List (BitVec 16)) : Bool :=
  due.all (· != 0)

/-- A command is well formed. -/
def Instr.wellFormed : Instr → Bool
  | .targetResponse _ f => f.wellFormed
  | .readPort due => dueTicksWellFormed due
  | .powerOn | .resetNAssert | .startUp _ | .startUpComplete | .carrierGained | .carrierLost | .linkLossIq
  | .linkLossPlanStore | .linkLossControlUnit | .linkLossPorts | .packetArrival _ | .packetDiscardNotUp _
  | .creditReturn | .transmitDone | .headAttempt _ _ | .hitReport _ | .eventOccurrence _ | .deadlineExpiry _ _ _
  | .idleTimeout _ | .wakeTimeout _ _ | .targetLinkUp _ | .targetLinkDown _ _ | .tickBoundary | .holdoffExpiry
  | .drainTimeout | .ottAbort _ | .ottEmptyReport | .copyStep | .clearStep | .heldReplyRelease _ | .resetTraffic
  | .resetFull _ _ _ | .readStatus | .readWindow | .readPage | .readEvents | .readResetCause | .clearCounters
  | .loadWindow | .clearWindow | .loadPages | .copyPlan | .clearPlan | .switchPlanDrain | .switchPlanForce
  | .setPlanTiming | .portEnable | .portDisable _ | .parkPort | .setPort | .setEventEnables | .clearEvents
  | .setHoldoff | .setTimebase | .unknownCommand => true

end Sys2Proof
end

