-- ==== Sys2Proof/Tests/Slice0.lean ====
section
/-! SUPPORT. Tests: ill-formed terms that the checks refuse, the spec's worked figures, one small step of each kind of command,
and for every statement with hypotheses a state and operands that meet them. -/

namespace Sys2Proof.Tests

-- Each theorem evaluates a whole state: one at a time, or they ask for more memory than the sandbox has.
set_option Elab.async false

open Sys2Proof Sys2Proof.Machine

/-! ## States to test on -/

/-- The part in operation: link UP with 16 credits and a free transmitter, every target link UP, every port ACTIVE. -/
def up : State :=
  { State.reset with
    rs := { State.reset.rs with held := none }
    pins := { resetN := false, planSel := .empty, carrier := true, link := .replicate 8 true }
    ulc := { state := .up, credits := 16, awaiting := 0, queue := [], tx := none }
    ports := .replicate 8 { Port.startUp with state := .active } }

/-- The part in operation, its Control Unit about to take a request. -/
def taking (payload : List Byte) : State :=
  { up with cu := ⟨some ⟨9, payload⟩, []⟩, iq := { up.iq with tags := [9] } }

/-- The part in operation with one port's record changed. -/
def withPort (p : PortId) (f : Port → Port) : State := up.setPort p (f (up.port p))

/-- The part in operation with an active bank of these windows at indices 0, 1, … . -/
def withWindows (ws : List Window) : State :=
  { up with ps := { up.ps with bankA := ws.zipIdx.foldl (fun b w => b.setWindow ⟨w.2 % 32, Nat.mod_lt _ (by decide)⟩
                                                          (.loaded w.1)) .cleared } }

/-- A request at the head of the FIFO with its attempt on its way. -/
def atHead (s : State) (r : Request) : State :=
  { s with
    iq := { s.iq with fifo := [r], tags := [r.tag], cond := .fresh }
    ulc := { s.ulc with credits := 15 }
    mail := { s.mail with attempts := [.newHead] } }

/-- An entry of one copy. -/
def entry (t : Tag) (k : MemKind) (p : PortId) (st : CopyState) : Entry :=
  { tag := t, kind := k, length := 4, window := 0, generation := 0, modeClass := .single,
    copies := [⟨p, 0x100, none, st, none⟩], skipped := [], readData := none, writeData := [] }

/-- The part in operation with these entries in the OTT. -/
def withOtt (s : State) (es : List Entry) : State := { s with ott := es, iq := { s.iq with tags := es.map (·.tag) } }

/-- The state after a command. -/
def next (c : Instr) (s : State) : State :=
  match exec c s with
  | .next t => t
  | .fault _ => s
  | .refused _ => s

/-- A DIRECT window over a range of units. -/
def direct (base limit : UnitNo) (p : PortId) (t : UnitNo) : Window :=
  { base := base, limit := limit, mask := none, readPolicy := .allow, writePolicy := .allow, mode := .direct p t none }

/-- A part whose odd ports are out of service. -/
def halfUp : State :=
  ((((up.setPort 1 .startUp).setPort 3 .startUp).setPort 5 .startUp).setPort 7 .startUp)

/-- A head whose attempt event is on its way. -/
theorem attemptsHead_atHead (s : State) (r : Request) (h1 : s.cu.taking = none) (h2 : s.startHold = false) :
    (atHead s r).AttemptsHead 0 := ⟨h1, h2, .newHead, [], rfl, rfl⟩

/-- The Control Unit takes the request that `taking` gives it. -/
theorem taking_takes (payload : List Byte) : (taking payload).Takes 9 payload := ⟨rfl, rfl, rfl⟩

/-! ## Well-formedness -/

theorem test_illformed_target_frame : (Instr.targetResponse 0 ⟨none, .ok, []⟩).wellFormed = false := by decide
theorem test_illformed_target_frame_data : (Instr.targetResponse 0 ⟨none, .other, [1]⟩).wellFormed = false := by decide
theorem test_illformed_due_ticks : (Instr.readPort [1, 0]).wellFormed = false := by decide
theorem test_wellformed_command : (Instr.readPort [1]).wellFormed = true := by decide

/-- Each condition of R38, R63, R68, R72, R76 and R78 refuses a window that breaks it; the figures are the spec's. -/
theorem test_illformed_windows :
    [ direct 2 1 0 0,
      { direct 0x10 0x1F 0 0 with mask := some 0x10 },
      { direct 0 0xFF 0 0 with mode := .direct 3 0 (some 3) },
      direct 0 0xFFFFFF 0 1,
      { direct 1 4 0 0 with mode := .paged 0 1 },
      { direct 0 2 0 0 with mode := .paged 0 1 },
      { direct 0 7 0 0 with mode := .paged 0 1 },
      { direct 0 7 0 0 with mode := .paged 255 2 },
      { direct 0 0xF 0 0 with mode := .interleaved [0, 1, 2] .b256 0 },
      { direct 0 0xF 0 0 with mode := .interleaved [0, 0] .b256 0 },
      { direct 0 0xF 0 0 with mode := .interleaved [0, 1, 2, 3, 4, 5, 6, 7] .k16 0 },
      { direct 0 0xF 0 0 with mode := .mirrored [1] 0 },
      { direct 0 0xF 0 0 with mode := .mirrored [0, 1, 2, 3, 4] 0 },
      { direct 0 0xF 0 0 with mode := .mirrored [1, 1] 0 },
      { direct 0 0xFFFF 0 0 with mode := .mirrored [0, 1] 0xFF1000 } ].all (fun w => !w.wellFormed) = true := by
  decide +kernel

theorem test_wellformed_windows :
    [ direct 0 0xFFFFFF 0 0,
      direct 0 0xFF 0 0xFFFF00,
      { direct 0 7 0 0 with mode := .paged 254 2 },
      { direct 0 0xF 0 0 with mode := .interleaved [0, 1, 2, 3, 4, 5, 6, 7] .k4 0 },
      { direct 0 0xFFFF 0 0 with mode := .mirrored [0, 1] 0xFF0000 } ].all (fun w => w.wellFormed) = true := by
  decide +kernel

/-! ## Words -/

/-- The table gives no row bits. -/
theorem test_no_word_decodes : decodeTableWord 8 0 = none ∧ up.withFetchWord 8 0 = up := ⟨rfl, rfl⟩

/-- A READ of 64 bytes at 0_0000_2040h with tag 8, byte by byte (R11). -/
theorem test_read_header :
    parseFrame [0x01, 0x08, 0x40, 0x00, 0x40, 0x20, 0x00, 0x00, 0x00, 0, 0, 0]
      = some ⟨8, .memory .read 0x2040 64 []⟩ := by decide

/-- Bits marked reserved are ignored: 7:6 of the tag byte and 7:4 of byte 8 (R11, log 16). -/
theorem test_read_header_reserved_bits :
    parseFrame [0x01, 0xC8, 0x40, 0x00, 0x40, 0x20, 0x00, 0x00, 0xF3, 1, 2, 3]
      = some ⟨8, .memory .read 0x300002040 64 []⟩ := by decide

/-- A WRITE whose data are not as long as its length says is malformed (R6). -/
theorem test_short_write : parseFrame [0x02, 5, 2, 0, 0, 0, 0, 0, 0, 0, 0, 0, 0xAA] = none := by decide

/-- A reply with an event summary (R12, R13). -/
theorem test_reply_bytes :
    (⟨.control, 9, .busy, 1, []⟩ : Response).bytes = [0x83, 9, 0x40, 1, 0, 0, 0, 0] := by decide

/-- The record of a mirrored window with a mask, and what it reads back as (R14). -/
theorem test_window_record :
    let w : Window := { direct 0x100 0x1FF 0 0 with
      mask := some 0xF00000, writePolicy := .discard, mode := .mirrored [2, 5] 0x1000 }
    (WindowEntry.loaded w).record
        = [1, 3, 0x20, 1, 0, 1, 0, 0xFF, 1, 0, 0, 0, 0xF0, 0, 0x10, 0, 2, 0, 2, 5] ++ List.replicate 12 0
      ∧ parseWindow (WindowEntry.loaded w).record = some (.loaded w) := by decide

theorem test_page_record :
    (PageEntry.present 3 0x20001).record = [0x31, 1, 0, 2] ∧ parsePage [0x31, 1, 0, 2] = .present 3 0x20001
      ∧ parsePage [0xF0, 1, 2, 3] = .absent := by decide

/-! ## The spec's worked windows (03) -/

/-- The entries of the worked table of 03; entry 4 is EMPTY there and entry 5 stands here as a window that matches nothing new. -/
def worked : Bank :=
  ((((Bank.cleared.setWindow 0 (.loaded { direct 0 0xF 0 0 with writePolicy := .refuse })).setWindow 1
    (.loaded { direct 0x100 0x1FF 1 0 with mask := some 0xF00000 })).setWindow 2 (.loaded (direct 0 0xFFFFF 2 0))).setWindow 3
    (.loaded { direct 0x100000 0x1000FF 3 0 with writePolicy := .discard })).setWindow 5
    (.loaded (direct 0x100100 0x1001FF 4 0))

theorem test_worked_lookups :
    [0x2040, 0x3000, 0x400000, 0x300158000, 0x100120000, 0x100004000, 0x400000000].map
        (fun a : Addr => (worked.lookup a).map (·.1.val))
      = [some 0, some 0, some 2, some 1, some 1, some 3, none] := by decide +kernel

theorem test_worked_decisions :
    let s : State := { up with ps := { up.ps with bankA := worked } }
    s.decideMemory .write 0x3000 16 = .answer .accessProtected (some 0) (some .protect)
      ∧ s.decideMemory .write 0x300158000 256 = .takeIn 1 .single [⟨1, 0x58000, none, .queued, none⟩] []
      ∧ s.decideMemory .write 0x100004000 32 = .answer .ok (some 3) (some .protect)
      ∧ s.decideMemory .read 0x400000000 8 = .answer .noWindow none (some .miss)
      ∧ s.decideMemory .write 0x400000000 0 = .answer .badRequest none none := by decide +kernel

/-- A mask of address bit 16: an address in unit 17h is contained at the offset of unit 07h (R40). -/
theorem test_masked_offset :
    let w : Window := { direct 0 0x2F 0 0 with mask := some 0x10 }
    w.contains 0x17123 = true ∧ w.offset 0x17123 = 0x7123 := by decide

/-- The worked interleave translation of 04, tags 30 to 35. -/
theorem test_worked_interleave :
    let w : Window := { direct 0x4000 0x7FFF 0 0 with mode := .interleaved [2, 5, 6, 7] .k4 0x1000 }
    w.wellFormed = true
      ∧ [0x4000000, 0x4001080, 0x4003FC0, 0x4004000, 0x5ABC740, 0x5ABD740].map (fun a : Addr => up.resolve w .read a)
        = [(2, 0x1000000), (5, 0x1000080), (7, 0x1000FC0), (2, 0x1001000), (2, 0x16AF740), (5, 0x16AF740)].map
            fun c : PortId × Addr => .copies .single [⟨c.1, c.2, none, .queued, none⟩] [] := by decide +kernel

/-- The example of R26: F0h plus 32 crosses a block, E0h plus 32 does not. -/
theorem test_request_checks : badRequest 0x1F0 32 = true ∧ badRequest 0x1E0 32 = false := by decide

/-- R122, line by line. -/
theorem test_merge :
    let e (a b : CopyState) (skipped : List PortId) : Entry :=
      { entry 1 .write 0 a with modeClass := .mirrorWrite, copies := [⟨0, 0, some 0, a, none⟩, ⟨1, 0, some 1, b, none⟩],
                                skipped := skipped }
    [(e .ok .ok []), (e .ok .ok [2]), (e .ok .timeout []), (e .targetError .timeout []), (e .timeout .portDown []),
      (e .portDown .portDown [])].map Entry.mergedStatus
      = [.ok, .okDegraded, .okDegraded, .targetError, .timeout, .portDown] := by decide

/-! ## One step of each kind -/

/-- The first start-up under PASS with T0's link DOWN leaves T0 its auto-enable flag, and link UP makes it ACTIVE (R192, R193). -/
theorem test_start_up_pass :
    let s := next .startUpComplete (next (.startUp .pass) State.reset)
    s.ulc.state = .ready ∧ (s.port 0).autoEnable = true ∧ s.eu.alert = true
      ∧ ((next (.targetLinkUp 0) s).port 0).state = .active := by decide +kernel

theorem test_pin_reset_holds :
    (next .resetNAssert up).rs.held = some .pin ∧ (next .resetNAssert up).ulc.state = .down
      ∧ (next .powerOn up).rs.held = some .powerOn := by decide +kernel

/-- A request takes a credit; answered at the head it leaves with its credit announced and NO_WINDOW placed behind it. -/
theorem test_credit_and_answer :
    let s := next (.packetArrival [0x01, 0x08, 0x40, 0x00, 0x40, 0x20, 0x00, 0x00, 0x00, 0, 0, 0]) up
    let u := next (.headAttempt 0 .atOnce) s
    s.ulc.credits = 15 ∧ s.iq.cond = .fresh
      ∧ u.ulc.credits = 16 ∧ u.ulc.tx = some (.credit 1) ∧ u.ulc.queue.map (·.status) = [.noWindow]
      ∧ (next .transmitDone u).ulc.tx = some .response
      ∧ (next .transmitDone (next .transmitDone u)).iq.tags = [] := by decide +kernel

/-- A write to a mirrored window goes to each member in service and waits for both. -/
theorem test_mirrored_write_admitted :
    let w : Window := { direct 0 0xF 0 0 with mode := .mirrored [2, 5] 0 }
    let s := next (.headAttempt 0 .later) (atHead (withWindows [w]) ⟨3, .memory .write 0x10 2 [1, 2]⟩)
    (s.port 2).slots.get 0 = .inFlight 3 250 ∧ (s.port 5).slots.get 0 = .inFlight 3 250
      ∧ s.wire = [.downstream 2 .write 0 0x10 2 [1, 2], .downstream 5 .write 0 0x10 2 [1, 2]]
      ∧ (next (.targetResponse 2 ⟨some 0, .ok, []⟩) s).ott.length = 1
      ∧ (next (.targetResponse 5 ⟨some 0, .error, []⟩) (next (.targetResponse 2 ⟨some 0, .ok, []⟩) s)).ulc.queue.map (·.status)
          = [.okDegraded] := by decide +kernel

/-- A mirrored read whose first copy times out moves to the next member. -/
theorem test_failover :
    let w : Window := { direct 0 0xF 0 0 with mode := .mirrored [2, 5] 0 }
    let s := next (.headAttempt 0 .later) (atHead (withWindows [w]) ⟨3, .memory .read 0x10 2 []⟩)
    let x := s.setPort 2 { s.port 2 with slots := (s.port 2).slots.set 0 (.inFlight 3 0) }
    let u := next (.deadlineExpiry 2 0 []) x
    u.strikeFlag 2 = true ∧ (u.port 2).state = .active ∧ (u.port 5).slots.get 0 = .inFlight 3 250 ∧ u.ulc.queue = [] := by
  decide +kernel

/-- The Control Unit about to take a RESET TRAFFIC; port 1 is WAKING with a copy queued, port 2 with none, port 3 is PARKED. -/
def wakingPorts : State :=
  (((withOtt (taking [0x01, 0x00]) [entry 1 .read 1 .queued]).setPort 1
    { up.port 1 with state := .waking, wake := some 5, egress := [1] }).setPort 2
    { up.port 2 with state := .waking, wake := some 5 }).setPort 3 { up.port 3 with state := .parked }

/-- A RESET TRAFFIC parks a WAKING port that holds nothing at once, and one that holds a copy with the abort that removes the copy,
so that no PARKED port holds anything that the abort reaches (R107, R108, R171; log 27). -/
theorem test_reset_traffic_parks :
    let t := next .resetTraffic wakingPorts
    let u := next (.ottAbort ⟨0, []⟩) t
    ((t.port 1).state, (t.port 1).egress, t.mail.returns) = (.waking, [1], [1])
      ∧ ((t.port 2).state, (t.port 2).wake) = (.parked, none)
      ∧ ((u.port 1).state, (u.port 1).wake, (u.port 1).egress, u.mail.returns) = (.parked, none, [], [])
      ∧ u.port 3 = wakingPorts.port 3 ∧ u.ott = [] := by decide +kernel

/-- A copy queued at a PARKED port wakes it; the link is UP, so it is ACTIVE at once and sends (R99, R100). -/
theorem test_wake_at_once :
    let s : State := { withWindows [direct 0 0xF 0 0] with ports := .replicate 8 { Port.startUp with state := .parked } }
    let u := next (.headAttempt 0 .later) (atHead s ⟨3, .memory .read 0 1 []⟩)
    (u.port 0).state = .active ∧ u.wire = [.wake 0, .downstream 0 .read 0 0 1 []] := by decide +kernel

/-- Clearing an event starts the holdoff and releases ALERT_N; its expiry asserts it while another is pending (R183, R184). -/
theorem test_holdoff :
    let s : State := { taking [0x41, 1, 0, 0, 0] with eu := { up.eu with pending := 3, alert := true } }
    let u := next .clearEvents s
    u.eu.pending = 2 ∧ u.eu.holdoff = some 16 ∧ u.eu.alert = false
      ∧ (next .holdoffExpiry { u with eu := { u.eu with holdoff := some 0 } }).eu.alert = true := by decide +kernel

/-- A DRAIN with an entry outstanding ends at the OTT's empty report (R147, R149, R151). -/
theorem test_drain :
    let s := next .switchPlanDrain { taking [0x25, 0] with ott := [entry 1 .read 0 .sent] }
    let u := next .ottEmptyReport { s with ott := [], mail := { s.mail with emptyReports := 1 } }
    s.iq.gate = .held ∧ s.ps.op = .draining .drain false (some 1250) true 9 ∧ s.ulc.queue = []
      ∧ u.ps.active = .b ∧ u.ps.generation = 1 ∧ u.iq.gate = .opened
      ∧ (next (.heldReplyRelease 0) u).ulc.queue.map (fun r => (r.tag, r.status, r.contents)) = [(9, .done, [1, 1])] := by
  decide +kernel

/-- A carrier that comes back during a drain waits for the swap, and the link comes up with the gate OPEN (R32, R155). -/
theorem test_link_start_waits_for_the_swap :
    let s := next .switchPlanDrain { taking [0x25, 0] with ott := [entry 1 .read 0 .sent] }
    let lost := next .linkLossPorts (next .linkLossControlUnit (next .linkLossPlanStore (next .linkLossIq
      (next .carrierGained (next .carrierLost s)))))
    let a := next (.ottAbort ⟨0, []⟩) lost
    let u := next .ottEmptyReport a
    lost.ps.op = .draining .drain false (some 1250) false 9 ∧ a.ott = [] ∧ a.mail.loss.any = false ∧ a.ulc.state = .ready
      ∧ u.ulc.state = .up ∧ u.ulc.tx = some .linkStart ∧ u.iq.gate = .opened ∧ u.ps.active = .b := by decide +kernel

/-- An abort that a FORCE requested, overtaken by the report of a completion: it is withdrawn as the gate opens (R148, log 24). -/
theorem test_abort_withdrawn_at_the_swap :
    let s := next .switchPlanForce { taking [0x25, 1] with ott := [entry 1 .read 0 .sent] }
    let u := next .ottEmptyReport { s with ott := [], mail := { s.mail with emptyReports := 1 } }
    s.mail.aborts = [.planStore] ∧ s.iq.gate = .held ∧ u.iq.gate = .opened ∧ u.mail.aborts = []
      ∧ u.mail.emptyReports = 1 := by decide +kernel

/-- A packet that arrives while READ STATUS is in hand is taken behind it, and is not in the occupancy it reports (R163). -/
theorem test_packet_behind_a_request_in_hand :
    let s := next (.packetArrival [0x01, 0x08, 0x40, 0x00, 0x40, 0x20, 0x00, 0x00, 0x00, 0, 0, 0]) (taking [0x10])
    let u := next .readStatus s
    s.iq.fifo = [] ∧ s.ulc.credits = 16 ∧ u.ulc.queue.map (·.contents.take 4) = [[2, 16, 0, 0]]
      ∧ u.iq.fifo.map (·.tag) = [8] ∧ u.ulc.credits = 15 := by decide +kernel

/-- An abort answers the entries in order and leaves ORPHAN slots (R107, R131). -/
theorem test_abort :
    let p : Port → Port := fun q => { q with slots := q.slots.set 3 (.inFlight 1 77) }
    let s : State := { withOtt (withPort 0 p) [entry 1 .read 0 .sent, entry 2 .write 0 .reissueWait] with
      mail := { Mail.none with aborts := [.resetTraffic] } }
    let u := next (.ottAbort ⟨0, []⟩) s
    u.ott = [] ∧ u.mail.attempts = [.placesRose 0] ∧ (u.port 0).slots.get 3 = .orphan 77
      ∧ u.ulc.queue.map (fun r => (r.kind, r.tag, r.status)) = [(.read, 1, .aborted), (.write, 2, .aborted)] := by decide +kernel

/-- RESET FULL answers DONE first (R172). -/
theorem test_reset_full :
    let s : State := { taking [1, 1] with iq := { up.iq with fifo := [⟨4, .memory .read 0 1 []⟩], tags := [9, 4] } }
    let u := next (.resetFull .pass .atOnce ⟨[], 0⟩) s
    u.ulc.queue.map (fun r => (r.tag, r.status)) = [(9, .done), (4, .aborted)] ∧ u.rs.full = .awaitAbort
      ∧ u.rs.sample = .pass ∧ u.mail.answers = [] := by decide +kernel

/-- Answers of a RESET FULL that wait for the OTT's stand behind its first and ahead of its second (R34, R156, R172). -/
theorem test_reset_full_answers_late :
    let s : State := { withOtt (taking [1, 1]) [entry 1 .read 0 .sent, entry 2 .write 0 .sent] with
      cu := ⟨some ⟨9, [1, 1]⟩, [⟨3, .switchPlan⟩]⟩
      iq := { up.iq with fifo := [⟨4, .memory .read 0 1 []⟩, ⟨5, .memory .write 0 1 [7]⟩], tags := [9, 3, 4, 5, 1, 2] } }
    let u := next (.resetFull .pass .atOnce ⟨[0, 1], 2⟩) s
    let a := next (.ottAbort ⟨0, [0, 1, 1]⟩) u
    u.ulc.queue.map (fun r => (r.tag, r.status)) = [(9, .done), (4, .aborted)] ∧ u.mail.answers = [⟨.control, 3⟩, ⟨.write, 5⟩]
      ∧ u.rs.full = .awaitAbort
      ∧ (a.ulc.queue.drop 2).map (fun r => (r.kind, r.tag)) = [(.read, 1), (.control, 3), (.write, 5), (.write, 2)]
      ∧ a.mail.answers = [] ∧ a.rs.full = .ready
      ∧ (next .carrierLost u).mail.answers = [] := by decide +kernel

/-- The last entry of a drain to complete leaves the OTT's report that ends it (R120, R149). -/
theorem test_completion_reports_empty :
    let e : Entry := { entry 1 .read 0 .sent with copies := [⟨0, 0x100, none, .sent, some 0⟩] }
    let s : State := { withOtt (withPort 0 fun q => { q with slots := q.slots.set 0 (.inFlight 1 5) }) [e] with
      iq := { up.iq with gate := .held, tags := [1] }
      ps := { up.ps with op := .draining .drain false none true 9 } }
    let u := next (.targetResponse 0 ⟨some 0, .ok, [1, 2, 3, 4]⟩) s
    u.ott = [] ∧ u.mail.emptyReports = s.mail.emptyReports + 1 ∧ (next .ottEmptyReport u).ps.generation = 1 := by decide +kernel

theorem test_read_status :
    (next .readStatus (taking [0x10])).ulc.queue.map (·.contents)
      = [[2, 16, 0, 0, 0, 0, 0, 0, 0, 3, 1, 1, 1, 1, 1, 1, 1, 1]] := by decide +kernel

theorem test_read_port_length :
    (next (.readPort []) (taking [0x13, 7])).ulc.queue.map (·.contents.length) = [92] := by decide +kernel

theorem test_queries_lengths :
    (next .readWindow (taking [0x11, 0, 31])).ulc.queue.map (·.contents.length) = [37]
      ∧ (next .readPage (taking [0x12, 1, 240, 16])).ulc.queue.map (·.contents.length) = [65]
      ∧ (next .readEvents (taking [0x14])).ulc.queue.map (·.contents.length) = [27]
      ∧ (next .readResetCause (taking [0x15])).ulc.queue.map (·.contents) = [[0, 0xFF, 0]] := by decide +kernel

theorem test_unknown_and_short :
    (next .unknownCommand (taking [0x99])).ulc.queue.map (·.status) = [.unknownCommand]
      ∧ (next .setHoldoff (taking [0x42])).ulc.queue.map (·.status) = [.badArgument]
      ∧ next .setHoldoff (taking [0x10]) = taking [0x10] := by decide +kernel

/-! ## For each statement with hypotheses, a state and operands that meet them -/

theorem test_witness_StepTakesFrontCommand :
    ({ up with pending := [.creditReturn, .tickBoundary] } : State).pending = .creditReturn :: [.tickBoundary]
      ∧ up.pending = [] := ⟨rfl, rfl⟩

/-- For the invariants: states that hold them, with a step to take. -/
theorem test_witness_StepKeepsEventsSound :
    let s : State := { up with pending := [.carrierLost] }
    s.EventsSound ∧ ∃ t, step s = .next t ∧ t.eu.alert = true := by
  refine ⟨?_, _, rfl, by decide +kernel⟩
  unfold State.EventsSound EventUnit.Sound
  refine ⟨by decide, ?_, by decide, by decide, by decide, by decide⟩
  intro r h
  cases h

theorem test_witness_StepKeepsCreditsBalance :
    let s : State := { up with pending := [.packetArrival []] }
    s.CreditsBalance ∧ ∃ t, step s = .next t ∧ t.ulc.tx = some (.credit 1) := by
  refine ⟨?_, _, rfl, by decide +kernel⟩
  unfold State.CreditsBalance
  decide

theorem test_witness_StepKeepsAwaitingGranted :
    let s : State := { up with pending := [.packetArrival []], ulc := { up.ulc with awaiting := 15, tx := some .linkStart } }
    s.AwaitingIsGranted ∧ s.FrontArrivalIsCredited ∧ ∃ t, step s = .next t ∧ t.ulc.awaiting = t.ulc.credits := by
  refine ⟨by unfold State.AwaitingIsGranted; decide, ⟨fun _ _ _ => .inl (by decide), by decide⟩, _, rfl, by decide +kernel⟩

/-- Also with a packet that waits behind a request in hand. -/
theorem test_witness_StepKeepsAwaitingGranted_behind :
    let s : State := { taking [0x10] with
      pending := [.readStatus], ulc := { up.ulc with awaiting := 15, tx := some .linkStart }, mail := { Mail.none with
        arrivals := [[]] } }
    s.AwaitingIsGranted ∧ s.FrontArrivalIsCredited ∧ ∃ t, step s = .next t ∧ t.ulc.awaiting = t.ulc.credits := by
  refine ⟨by unfold State.AwaitingIsGranted; decide, ⟨fun _ _ h => (by cases h), fun _ => by decide⟩, _, rfl,
    by decide +kernel⟩

/-- Also at the other end: no credit at all. -/
theorem test_witness_StepKeepsAwaitingGranted_none :
    let s : State := { up with pending := [.packetArrival []], ulc := { up.ulc with credits := 0 } }
    s.AwaitingIsGranted ∧ s.FrontArrivalIsCredited := by
  exact ⟨by unfold State.AwaitingIsGranted; decide, fun _ _ _ => .inr rfl, by decide⟩

theorem test_witness_StepKeepsPlansSound :
    let s : State := { withWindows [direct 0 0xF 0 0] with pending := [.hitReport 0], mail := { Mail.none with
      hitReports := [⟨.a, 0⟩] } }
    s.PlansSound ∧ ∃ t, step s = .next t ∧ t.ps.bankA.hits.get 0 = 1 := by
  refine ⟨?_, _, rfl, by decide +kernel⟩
  unfold State.PlansSound Bank.Sound
  decide +kernel

theorem test_witness_StepKeepsPortsSound :
    let s : State := { up with pending := [.targetLinkDown 3 []] }
    s.PlansSound ∧ s.PortsSound ∧ ∃ t, step s = .next t ∧ (t.port 3).state = .quarantined := by
  refine ⟨?_, ⟨?_, by decide +kernel, ?_⟩, _, rfl, by decide +kernel⟩
  · unfold State.PlansSound Bank.Sound
    decide +kernel
  · unfold Port.Sound
    decide +kernel
  · intro p h
    cases h

theorem test_witness_StepKeepsTagsHeldOnce :
    let s : State := { atHead up ⟨4, .memory .read 0 1 []⟩ with pending := [.headAttempt 0 .later] }
    s.TagsHeldOnce ∧ ∃ t, step s = .next t ∧ t.ulc.queue.map (·.tag) = [4] := by
  refine ⟨?_, _, rfl, by decide +kernel⟩
  unfold State.TagsHeldOnce
  refine ⟨?_, ?_, ?_, ?_, ?_, ?_, ?_, ?_⟩ <;> decide +kernel

/-- A RESET FULL's answer that waits for its abort. -/
theorem test_witness_StepKeepsTagsHeldOnce_waiting :
    let s : State := { up with
      pending := [.ottAbort ⟨0, []⟩], iq := { up.iq with tags := [4] }
      mail := { Mail.none with aborts := [.resetFull], answers := [⟨.read, 4⟩] } }
    s.TagsHeldOnce ∧ ∃ t, step s = .next t ∧ t.ulc.queue.map (·.tag) = [4] := by
  refine ⟨?_, _, rfl, by decide +kernel⟩
  unfold State.TagsHeldOnce
  refine ⟨?_, ?_, ?_, ?_, ?_, ?_, ?_, ?_⟩ <;> decide +kernel

theorem test_witness_StepKeepsGenerationsCurrent :
    let s : State := { withOtt up [entry 1 .read 0 .sent] with
      pending := [.drainTimeout]
      iq := { up.iq with gate := .held }
      ps := { up.ps with op := .draining .drain false (some 0) true 9 } }
    s.GenerationsCurrent ∧ s.DrainHoldsGate ∧ ∃ t, step s = .next t ∧ t.ps.op = .draining .drain true none true 9 := by
  refine ⟨?_, ?_, _, rfl, by decide +kernel⟩
  · unfold State.GenerationsCurrent
    decide +kernel
  · exact ⟨fun _ _ _ _ _ _ => rfl, fun _ => rfl, fun _ _ _ _ _ _ h => absurd h (by decide)⟩

/-- The three causes of a start-up. -/
theorem test_witness_StartUpRecordsTheCause :
    (State.reset.rs.held = some .powerOn) ∧ ((next .resetNAssert up).rs.held = some .pin)
      ∧ (let s : State := { up with rs := { up.rs with full := .ready, resetCount := 255 } }
         s.rs.held = none ∧ s.rs.full = .ready) := by decide +kernel

/-- START_UP_COMPLETE: both plans, T0's link DOWN and UP, the ULC in DOWN with and without carrier, and in UP. -/
theorem test_witness_StartUpCompleteSetsEveryBlock :
    let s := next (.startUp .pass) State.reset
    let e := next (.startUp .empty) State.reset
    let l : State := { s with pins := { s.pins with link := .replicate 8 true, carrier := true } }
    let u : State := { up with rs := { up.rs with state := .starting, lastCause := .command } }
    s.rs.state = .starting ∧ s.rs.sample = .pass ∧ s.pins.link.get 0 = false ∧ s.ulc.state = .down ∧ s.pins.carrier = false
      ∧ e.rs.state = .starting ∧ e.rs.sample = .empty
      ∧ l.rs.state = .starting ∧ l.pins.link.get 0 = true ∧ l.ulc.state = .down ∧ l.pins.carrier = true
      ∧ u.rs.state = .starting ∧ u.ulc.state ≠ .down := by decide +kernel

theorem test_witness_CarrierChangesLinkState :
    let r : State := { up with ulc := ⟨.ready, 0, 0, [], none⟩, pins := { up.pins with carrier := false } }
    let l : State := { r with mail := { Mail.none with loss := ⟨false, false, false, false, true⟩ } }
    let d : State := { r with ps := { up.ps with op := .draining .drain false none false 9 } }
    d.ulc.state = .ready ∧ d.pins.carrier = false ∧ d.mail.loss.any = false ∧ d.ps.op.drains = true
      ∧ r.ps.op.drains = false ∧ State.reset.ulc.state = .down ∧ up.ulc.state = .up
      ∧ r.ulc.state = .ready ∧ r.pins.carrier = false ∧ r.mail.loss.any = false
      ∧ l.ulc.state = .ready ∧ l.pins.carrier = false ∧ l.mail.loss.any = true := by decide +kernel

/-- A link loss as each block finds it, and as the last block finds it with the carrier back. -/
theorem test_witness_LossTakenByEachBlock :
    let l (x : LossSignals) (a : List AbortSource) : State :=
      { up with ulc := ⟨.ready, 0, 0, [], none⟩, mail := { Mail.none with loss := x, aborts := a } }
    let iq := l ⟨true, false, false, false, false⟩ []
    let all := l ⟨false, true, true, true, true⟩ [.linkLoss]
    let hand : State := { iq with cu := ⟨some ⟨9, [0x10]⟩, []⟩ }
    let swap : State := { l ⟨false, false, false, false, false⟩ [] with
      ps := { up.ps with op := .draining .drain false none false 9 }
      mail := { Mail.none with emptyReports := 1 } }
    iq.mail.loss.iq = true ∧ iq.cu.taking = none ∧ hand.mail.loss.iq = true ∧ hand.cu.taking ≠ none
      ∧ iq.ps.op.drains = false ∧ swap.ps.op.drains = true
      ∧ swap.ulc.state = .ready ∧ swap.pins.carrier = true ∧ swap.mail.loss.any = false
      ∧ swap.ps.op = .draining .drain false none false 9 ∧ swap.ott = [] ∧ swap.mail.emptyReports ≠ 0
      ∧ all.mail.loss.planStore = true ∧ all.mail.loss.controlUnit = true ∧ all.cu.taking = none ∧ all.mail.loss.ports = true
      ∧ iq.ulc.state = .ready ∧ iq.pins.carrier = true
      ∧ (l ⟨false, false, true, false, false⟩ []).mail.loss = ⟨false, false, true, false, false⟩
      ∧ (l ⟨false, false, false, true, false⟩ []).mail.loss = ⟨false, false, false, true, false⟩
      ∧ (l ⟨false, false, false, true, false⟩ []).cu.taking = none
      ∧ (l ⟨false, false, false, false, true⟩ []).mail.loss = ⟨false, false, false, false, true⟩
      ∧ (l ⟨false, true, false, false, false⟩ [.linkLoss]).mail.loss = ⟨false, true, false, false, false⟩
      ∧ (l ⟨false, true, false, false, false⟩ [.linkLoss]).mail.aborts = [.linkLoss]
      ∧ (wakingPorts.port 1).state = .waking ∧ (wakingPorts.port 1).egress ≠ []
      ∧ (wakingPorts.port 2).state = .waking ∧ (wakingPorts.port 2).egress = [] ∧ wakingPorts.claims 2 = [] := by decide +kernel

/-- An overrun, a malformed packet, a tag clash, and arrivals at an empty and a filled FIFO and before start-up. -/
theorem test_witness_PacketArrivalChecks :
    let f : List Byte := [1, 8, 1, 0, 0, 0, 0, 0, 0, 0, 0, 0]
    let r : Request := ⟨8, .memory .read 0 1 []⟩
    let clash : State := { up with iq := { up.iq with tags := [8] } }
    let filled := atHead up ⟨4, .memory .read 0 1 []⟩
    let due : State := { up with rs := { up.rs with full := .awaitAbort } }
    (taking [0x10]).ulc.state = .up ∧ (taking [0x10]).cu.taking ≠ none ∧ (next .readStatus (taking [0x10])).cu.taking = none
      ∧ State.reset.ulc.state ≠ .up ∧ up.ulc.state = .up ∧ up.cu.taking = none ∧ up.underReset = false
      ∧ ({ up with ulc := { up.ulc with credits := 0 } } : State).ulc.credits = 0 ∧ up.ulc.credits ≠ 0
      ∧ parseFrame [2, 5] = none ∧ frameTag [2, 5] = some 5
      ∧ parseFrame f = some r ∧ r.tag ∈ clash.iq.tags ∧ clash.ulc.credits ≠ 0
      ∧ r.tag ∉ up.iq.tags ∧ up.iq.fifo = [] ∧ up.startHold = false
      ∧ r.tag ∉ filled.iq.tags ∧ filled.iq.fifo ≠ [] ∧ filled.ulc.credits ≠ 0 ∧ filled.ulc.state = .up
      ∧ due.iq.fifo = [] ∧ due.startHold = true := by decide +kernel

/-- Lengths at the ends of their ranges. -/
theorem test_witness_FormCheckReadsTheHeader :
    (List.replicate 11 (0 : Byte)).length < 12 ∧ 268 < (List.replicate 269 (0 : Byte)).length
      ∧ ([0, 1] : List Byte)[0]? ≠ some 1 ∧ ([0, 1] : List Byte)[0]? ≠ some 2 ∧ ([0, 1] : List Byte)[0]? ≠ some 3
      ∧ 65535 < 65536
      ∧ (List.replicate 256 (0 : Byte)).length = 256 ∧ (List.replicate 257 (0 : Byte)).length = 257
      ∧ (List.replicate 160 (0 : Byte)).length = 160 ∧ (List.replicate 161 (0 : Byte)).length = 161 := by decide +kernel

theorem test_witness_CreditReturnAndTransmitDone :
    let r : Response := ⟨.write, 3, .ok, 0, []⟩
    let s (p : TxPacket) : State := { up with ulc := { up.ulc with tx := some p, queue := [r] } }
    ({ up with mail := { Mail.none with creditReturns := 1 } } : State).mail.creditReturns ≠ 0
      ∧ (s .linkStart).ulc.state = .up ∧ (s .linkStart).ulc.tx = some .linkStart
      ∧ (s (.credit 16)).ulc.tx = some (.credit 16)
      ∧ (s .response).ulc.tx = some .response ∧ (s .response).ulc.queue = r :: [] := by decide +kernel

theorem test_witness_ReplyJoinsTheQueue :
    State.reset.ulc.state ≠ .up ∧ up.ulc.state = .up ∧ up.ulc.tx = none ∧ up.ulc.awaiting = 0
      ∧ ({ up with ulc := { up.ulc with awaiting := 1 } } : State).ulc.awaiting ≠ 0
      ∧ ({ up with ulc := { up.ulc with tx := some .linkStart } } : State).ulc.tx ≠ none := by decide +kernel

theorem test_witness_HeadControlPassed :
    let s := atHead up ⟨4, .control [0x10]⟩
    let s2 : State := { s with iq := { s.iq with fifo := s.iq.fifo ++ [⟨5, .control [0x14]⟩] } }
    s.AttemptsHead 0 ∧ s.iq.fifo = ⟨4, .control [0x10]⟩ :: []
      ∧ s2.AttemptsHead 0 ∧ s2.iq.fifo = ⟨4, .control [0x10]⟩ :: [⟨5, .control [0x14]⟩] :=
  ⟨attemptsHead_atHead _ _ rfl rfl, rfl, ⟨rfl, rfl, .newHead, [], rfl, rfl⟩, rfl⟩

/-- A HELD gate, and an egress FIFO with no place. -/
theorem test_witness_HeadWaitRecordsNothing :
    let h := atHead { up with iq := { up.iq with gate := .held } } ⟨4, .memory .read 0 1 []⟩
    let f := atHead ((withWindows [direct 0 0xF 0 0]).setPort 0 { up.port 0 with egress := [1, 2, 3, 5, 6, 7, 8, 9] })
      ⟨4, .memory .read 0 1 []⟩
    h.AttemptsHead 0 ∧ h.iq.gate = .held ∧ h.decideMemory .read 0 1 = .wait .gateWait
      ∧ f.AttemptsHead 0 ∧ f.decideMemory .read 0 1 = .wait .spaceWait :=
  ⟨attemptsHead_atHead _ _ rfl rfl, rfl, by decide +kernel, attemptsHead_atHead _ _ rfl rfl, by decide +kernel⟩

theorem test_witness_HeadAnsweredLeaves :
    let s := atHead (withWindows [{ direct 0 0xF 0 0 with readPolicy := .refuse }]) ⟨4, .memory .read 0 1 []⟩
    s.AttemptsHead 0 ∧ s.iq.fifo = ⟨4, .memory .read 0 1 []⟩ :: [] ∧ s.underReset = false
      ∧ s.decideMemory .read 0 1 = .answer .accessProtected (some 0) (some .protect) :=
  ⟨attemptsHead_atHead _ _ rfl rfl, rfl, rfl, by decide +kernel⟩

theorem test_witness_HeadAdmittedBecomesAnEntry :
    let s := atHead (withWindows [direct 0 0xF 0 0]) ⟨4, .memory .read 0x20 1 []⟩
    s.AttemptsHead 0 ∧ s.iq.fifo = ⟨4, .memory .read 0x20 1 []⟩ :: []
      ∧ s.decideMemory .read 0x20 1 = .takeIn 0 .single [⟨0, 0x20, none, .queued, none⟩] []
      ∧ (([⟨0, 0x20, none, .queued, none⟩] : List Copy).map (·.port)).Nodup ∧ (∀ x ∈ s.ott, x.tag ≠ 4) ∧ s.claims 0 = [] :=
  ⟨attemptsHead_atHead _ _ rfl rfl, rfl, by decide +kernel, by decide, by decide, by decide⟩

/-- Every way in which a port takes a copy that is placed there. -/
theorem test_witness_Places :
    let waking := withPort 0 fun q => { q with state := .waking, wake := some 9 }
    let full := withPort 0 fun q => { q with slots := .replicate 16 (.orphan 9) }
    let parked := withPort 0 fun q => { q with state := .parked }
    (waking.port 0).state = .waking ∧ (full.port 0).state = .active ∧ (∀ i, (full.port 0).slots.get i ≠ .free)
      ∧ (parked.port 0).state = .parked ∧ (up.port 0).state = .active ∧ (up.port 0).egress = []
      ∧ (up.port 0).LowestFree 0 ∧ (parked.port 0).LowestFree 0 ∧ (parked.port 0).egress = []
      ∧ parked.pins.link.get 0 = true ∧ (parked.setLink 0 false).pins.link.get 0 = false := by
  unfold Port.LowestFree
  decide +kernel

/-- Both gates, and lengths on both sides of each bound. -/
theorem test_witness_RequestChecks :
    up.iq.gate = .opened ∧ ({ up with iq := { up.iq with gate := .held } } : State).iq.gate = .held
      ∧ badRequest 0 0 = true ∧ badRequest 0 256 = false ∧ badRequest 0 257 = true ∧ badRequest 0xFFFFFFFFF 1 = false
      ∧ badRequest 0xFFFFFFFFF 2 = true := by decide +kernel

theorem test_witness_AttemptFollowsThePolicy :
    let s (r : ReadPolicy) (w : WritePolicy) : State :=
      withWindows [{ direct 0 0xF 0 0 with readPolicy := r, writePolicy := w }]
    let found (r : ReadPolicy) (w : WritePolicy) : Bool :=
      (s r w).ps.activeBank.lookup 0xFFFF == some (0, { direct 0 0xF 0 0 with readPolicy := r, writePolicy := w })
    (s .allow .allow).iq.gate = .opened ∧ badRequest 0xFFFF 1 = false
      ∧ (s .allow .allow).ps.activeBank.lookup 0x10000 = none
      ∧ found .allow .allow = true ∧ found .refuse .refuse = true ∧ found .allow .discard = true := by decide +kernel

theorem test_witness_LookupTakesTheFirstMatch :
    (withWindows [direct 0 0xF 0 0, direct 0 0xFF 1 0]).ps.bankA.lookup 0 = some (0, direct 0 0xF 0 0)
      ∧ (withWindows []).ps.bankA.lookup 0 = none := by decide +kernel

theorem test_witness_MaskComparesTheMaskedUnit :
    let w : Window := { direct 0x100 0x1FF 1 0 with mask := some 0xF00000 }
    (0x300158000 : Addr).toNat % 4096 = (0x158000 : Addr).toNat % 4096
      ∧ unitOf 0x300158000 &&& ~~~(w.mask.getD 0) = unitOf 0x158000 &&& ~~~(w.mask.getD 0) := by decide

theorem test_witness_DirectResolution :
    (halfUp.port 0).state.inService = true ∧ (halfUp.port 1).state.inService = false
      ∧ (direct 0 0xF 1 0).mode = .direct 1 0 none
      ∧ ({ direct 0 0xF 0 0 with mode := .direct 1 0 (some 2) } : Window).mode = .direct 1 0 (some 2)
      ∧ (halfUp.port 2).state.inService = true ∧ (halfUp.port 3).state.inService = false := by decide +kernel

theorem test_witness_PagedResolution :
    let w : Window := { direct 0 7 0 0 with mode := .paged 254 2 }
    let pages : Bank := (Bank.cleared.setPage 254 (.present 0 1)).setPage 255 (.present 1 2)
    let s : State := { halfUp with ps := { up.ps with bankA := pages } }
    w.mode = .paged 254 2 ∧ (255 : PageIx).val = (254 : PageIx).val + w.offset 0x7FFF / 16384
      ∧ halfUp.ps.activeBank.pages.get 255 = .absent
      ∧ s.ps.activeBank.pages.get 254 = .present 0 1 ∧ (s.port 0).state.inService = true
      ∧ s.ps.activeBank.pages.get 255 = .present 1 2 ∧ (s.port 1).state.inService = false := by decide +kernel

theorem test_witness_InterleavedResolution :
    let w : Window := { direct 0 0xF 0 0 with mode := .interleaved [0, 1] .k16 0 }
    let ms : List PortId := [0, 1]
    w.mode = .interleaved [0, 1] .k16 0
      ∧ ms[w.offset 0x3FFF / Stride.k16.bytes % ms.length]? = some 0 ∧ (halfUp.port 0).state.inService = true
      ∧ ms[w.offset 0x4000 / Stride.k16.bytes % ms.length]? = some 1 ∧ (halfUp.port 1).state.inService = false := by
  decide +kernel

theorem test_witness_MirroredResolution :
    let w (ms : List PortId) : Window := { direct 0 0xF 0 0 with mode := .mirrored ms 0 }
    (w [1, 2, 3, 4]).mode = .mirrored [1, 2, 3, 4] 0 ∧ ([1, 2, 3, 4] : List PortId).length ≤ 4
      ∧ (∃ p ∈ ([1, 2, 3, 4] : List PortId), (halfUp.port p).state.inService = true)
      ∧ (w [1, 3]).mode = .mirrored [1, 3] 0 ∧ ∀ p ∈ ([1, 3] : List PortId), (halfUp.port p).state.inService = false := by
  decide +kernel

/-- The last address of a window of each mode. -/
theorem test_witness_TranslationStaysInRange :
    let d := direct 0 0xFFFFFF 0 0
    let p : Window := { direct 0 7 0 0 with mode := .paged 254 2 }
    let i : Window := { direct 0 0xF 0 0 with mode := .interleaved [0, 1, 2, 3, 4, 5, 6, 7] .k4 0xFFFFFE }
    let m : Window := { direct 0 0xFFFF 0 0 with mode := .mirrored [0, 1] 0xFF0000 }
    let s : State := { up with ps := { up.ps with bankA := Bank.cleared.setPage 255 (.present 1 0x3FFFFF) } }
    d.wellFormed = true ∧ d.contains 0xFFFFFFFFF = true
      ∧ s.resolve d .read 0xFFFFFFFFF = .copies .single [⟨0, 0xFFFFFFFFF, none, .queued, none⟩] []
      ∧ p.wellFormed = true ∧ p.contains 0x7FFF = true
      ∧ s.resolve p .read 0x7FFF = .copies .single [⟨1, 0xFFFFFFFFF, none, .queued, none⟩] []
      ∧ i.wellFormed = true ∧ i.contains 0xFFFF = true
      ∧ s.resolve i .read 0xFFFF = .copies .single [⟨7, 0xFFFFFFFFF, none, .queued, none⟩] []
      ∧ m.wellFormed = true ∧ m.contains 0xFFFFFFF = true
      ∧ s.resolve m .read 0xFFFFFFF = .copies .mirrorRead [⟨0, 0xFFFFFFFFF, some 0, .queued, none⟩] [] := by decide +kernel

/-- A report on its way for a LOADED entry, for an EMPTY one, and a counter at its maximum. -/
theorem test_witness_HitReportCounts :
    let s : State := { withWindows [direct 0 0xF 0 0] with mail := { Mail.none with hitReports := [⟨.a, 0⟩, ⟨.b, 31⟩] } }
    takeAt 0 s.mail.hitReports = some (⟨.a, 0⟩, [⟨.b, 31⟩]) ∧ takeAt 1 s.mail.hitReports = some (⟨.b, 31⟩, [⟨.a, 0⟩])
      ∧ (s.ps.bank .a).windows.get 0 = .loaded (direct 0 0xF 0 0) ∧ (s.ps.bank .b).windows.get 31 = .empty
      ∧ (satInc (0xFFFFFFFF : BitVec 32)) = 0xFFFFFFFF := by decide +kernel

/-- Occurrences on their way that are captured and not, and records that are empty and filled. -/
theorem test_witness_OccurrenceIsCaptured :
    let s (o : Occurrence) : State := { up with mail := { Mail.none with occurrences := [o] } }
    let r : FaultRecord := ⟨.miss, .read, 0, 0, none, 0, 255⟩
    takeAt 0 (s (.stray 7)).mail.occurrences = some (.stray 7, []) ∧ (s (.stray 7)).eu.captures (.stray 7) = false
      ∧ takeAt 0 (s .degraded).mail.occurrences = some (.degraded, []) ∧ (s .degraded).eu.captures .degraded = true
      ∧ ({ up.eu with faultRecord := some r } : EventUnit).faultRecord = some r ∧ up.eu.faultRecord = none
      ∧ up.eu.linkFaultRecord = none := by decide +kernel

theorem test_witness_EventSettings :
    (taking [0x40, 0xFF, 0xFF]).Takes 9 [0x40, 0xFF, 0xFF] ∧ (taking [0x42, 0]).Takes 9 [0x42, 0]
      ∧ ({ up with eu := { up.eu with holdoff := some 0 } } : State).eu.holdoff = some 0 :=
  ⟨taking_takes _, taking_takes _, rfl⟩

theorem test_witness_ClearEventsClearsExactly :
    (taking [0x41, 0xFF, 0xFF, 0xFF, 0xFF]).Takes 9 [0x41, 0xFF, 0xFF, 0xFF, 0xFF] := taking_takes _

/-- A copy in flight at port 0, slot 15: answered OK, ERROR, and with a wrong number of bytes; a write answered with data. -/
theorem test_witness_TargetResponseAnswers :
    let s (k : MemKind) : State :=
      withOtt (withPort 0 fun q => { q with slots := q.slots.set 15 (.inFlight 1 0) }) [entry 1 k 0 .sent]
    let waits : State := withOtt (withPort 0 fun q => { q with
      egress := [2], slots := (Vector.replicate 16 (Slot.orphan 9)).set 15 (.inFlight 1 0) })
      [entry 1 .read 0 .sent, entry 2 .write 0 .queued]
    ((s .read).port 0).state = .active ∧ ((s .read).port 0).slots.get 15 = .inFlight 1 0
      ∧ (s .read).entry? 1 = some (entry 1 .read 0 .sent) ∧ (entry 1 .read 0 .sent).modeClass = .single
      ∧ TargetStatus.ok ≠ .other ∧ TargetStatus.error ≠ .other
      ∧ (waits.port 0).egress = [2] ∧ waits.claims 0 = [] ∧ waits.entry? 2 = some (entry 2 .write 0 .queued)
      ∧ (entry 2 .write 0 .queued).copyAt 0 = some ⟨0, 0x100, none, .queued, none⟩
      ∧ (waits.port 0).slots.get 15 = .inFlight 1 0
      ∧ Port.LowestFree { waits.port 0 with slots := (waits.port 0).slots.set 15 .free } 15
      ∧ (s .read).claims 0 = [] ∧ ((s .read).port 0).egress = []
      ∧ (s .read).refusesAnswer 1 true [1, 2, 3, 4] = false ∧ (s .read).refusesAnswer 1 true [1, 2, 3] = true
      ∧ (s .write).entry? 1 = some (entry 1 .write 0 .sent) ∧ (s .write).refusesAnswer 1 false [1] = true
      ∧ (s .write).underReset = false := by
  unfold Port.LowestFree
  decide +kernel

/-- The answer to a mirrored copy is its outcome: a write waits for its other copy, a read is answered (R88, R121, R124). -/
theorem test_mirrored_target_response :
    let sent (e : Entry) : State := withOtt (withPort 0 fun q => { q with slots := q.slots.set 3 (.inFlight 1 9) }) [e]
    let w : Entry := { entry 1 .write 0 .sent with
      modeClass := .mirrorWrite, copies := [⟨0, 0, some 0, .sent, some 3⟩, ⟨1, 0, some 1, .sent, some 0⟩] }
    let r : Entry := { entry 1 .read 0 .sent with modeClass := .mirrorRead, length := 1 }
    let a := next (.targetResponse 0 ⟨some 3, .ok, []⟩) (sent w)
    let b := next (.targetResponse 0 ⟨some 3, .ok, [7]⟩) (sent r)
    ((sent w).port 0).slots.get 3 = .inFlight 1 9 ∧ ((sent r).port 0).slots.get 3 = .inFlight 1 9
      ∧ a.ott.map (fun e => e.copies.map (·.state)) = [[.ok, .sent]] ∧ (a.port 0).slots.get 3 = .free ∧ a.ulc.queue = []
      ∧ b.ott = [] ∧ b.ulc.queue.map (fun x => (x.tag, x.status, x.contents)) = [(1, .ok, [7])] := by decide +kernel

theorem test_witness_TargetResponseDiscarded :
    let s := withPort 0 fun q => { q with slots := q.slots.set 15 (.orphan 9) }
    (up.port 0).slots.get 15 = .free ∧ (halfUp.port 1).state ≠ .active
      ∧ (s.port 0).state = .active ∧ (s.port 0).slots.get 15 = .orphan 9 ∧ (s.port 0).egress = [] ∧ s.claims 0 = [] := by
  decide +kernel

theorem test_witness_DeadlineFirstStrike :
    let o := withPort 0 fun q => { q with slots := q.slots.set 15 (.orphan 0) }
    let f := withOtt (withPort 0 fun q => { q with slots := q.slots.set 0 (.inFlight 1 0) }) [entry 1 .read 0 .sent]
    let mw : Entry := { entry 1 .write 0 .sent with modeClass := .mirrorWrite }
    let m := withOtt (withPort 0 fun q => { q with slots := q.slots.set 0 (.inFlight 1 0) }) [mw]
    let mr : Entry := { entry 1 .read 0 .sent with modeClass := .mirrorRead, copies := [⟨0, 0, some 0, .sent, some 0⟩] }
    let r : State := withOtt ((withWindows [{ direct 0 0xF 0 0 with mode := .mirrored [0, 1] 0 }]).setPort 0
      { up.port 0 with slots := (up.port 0).slots.set 0 (.inFlight 1 0) }) [mr]
    r.entry? 1 = some mr ∧ (r.port 0).slots.get 0 = .inFlight 1 0 ∧ (r.port 0).state = .active ∧ r.strikeFlag 0 = false
      ∧ mr.copyAt 0 = some ⟨0, 0, some 0, .sent, some 0⟩ ∧ r.nextMember mr.window 0 = some (1, 1)
      ∧ (r.port 0).egress = [] ∧ r.claims 0 = [] ∧ 1 ∉ (m.port 0).egress ∧ mw.modeClass = .mirrorWrite
      ∧ m.entry? 1 = some mw ∧ mw.modeClass ≠ .mirrorRead ∧ (m.port 0).slots.get 0 = .inFlight 1 0 ∧ (m.port 0).egress = []
      ∧ m.claims 0 = []
      ∧ (o.port 0).state = .active ∧ o.strikeFlag 0 = false ∧ (o.port 0).slots.get 15 = .orphan 0 ∧ o.eu.holdoff = none
      ∧ (f.port 0).state = .active ∧ f.strikeFlag 0 = false ∧ (f.port 0).slots.get 0 = .inFlight 1 0
      ∧ f.entry? 1 = some (entry 1 .read 0 .sent) := by decide +kernel

theorem test_witness_SecondStrikeQuarantines :
    let struck (s : State) : State := { s with eu := { s.eu with strikes := 0x80 } }
    let o := struck (withPort 7 fun q => { q with slots := q.slots.set 15 (.orphan 0) })
    let f := struck (withOtt (withPort 7 fun q => { q with slots := q.slots.set 0 (.inFlight 1 0) }) [entry 1 .read 7 .sent])
    let w := struck (withPort 7 fun q => { q with state := .waking, wake := some 0 })
    let two := struck (withOtt (withPort 7 fun q => { q with egress := [2], slots := q.slots.set 0 (.inFlight 1 0) })
      [entry 1 .read 7 .sent, entry 2 .write 7 .queued])
    two.entry? 1 = some (entry 1 .read 7 .sent) ∧ 1 ∉ (two.port 7).egress ∧ 1 ∉ two.claims 7
      ∧ (∀ j, j ≠ 0 → (two.port 7).slots.get j = .free) ∧ 2 ∈ (two.port 7).egress
      ∧ two.entry? 2 = some (entry 2 .write 7 .queued) ∧ two.ulc.state = .up
      ∧ o.strikeFlag 7 = true ∧ (o.port 7).slots.get 15 = .orphan 0
      ∧ f.strikeFlag 7 = true ∧ (f.port 7).slots.get 0 = .inFlight 1 0
      ∧ w.strikeFlag 7 = true ∧ (w.port 7).state = .waking ∧ (w.port 7).wake = some 0 ∧ w.underReset = false := by
  decide +kernel

theorem test_witness_TimersParkThePort :
    let i := withPort 0 fun q => { q with idle := some 0, idlePark := 1 }
    let w := withOtt (withPort 0 fun q => { q with state := .waking, wake := some 0, egress := [1] }) [entry 1 .read 0 .queued]
    let mw : Entry := { entry 1 .write 0 .queued with modeClass := .mirrorWrite }
    let m := withOtt (withPort 0 fun q => { q with state := .waking, wake := some 0, egress := [1] }) [mw]
    let rw : Entry := { entry 2 .read 0 .reissueWait with modeClass := .mirrorRead }
    let c := withOtt ((withPort 0 fun q => { q with state := .waking, wake := some 0, egress := [1] }).setLink 0 false)
      [entry 1 .read 0 .queued, rw]
    m.entry? 1 = some mw ∧ mw.modeClass = .mirrorWrite ∧ 1 ∉ m.claims 0 ∧ (m.port 0).egress = [1]
      ∧ c.claims 0 = [2] ∧ c.pins.link.get 0 = false ∧ (c.ott.map (·.tag)).Nodup ∧ (c.port 0).egress = [1]
      ∧ c.entry? 1 = some (entry 1 .read 0 .queued)
      ∧ (i.port 0).state = .active ∧ (i.port 0).idle = some 0
      ∧ (w.port 0).state = .waking ∧ (w.port 0).wake = some 0 ∧ w.strikeFlag 0 = false ∧ w.claims 0 = []
      ∧ (w.port 0).egress = [1] ∧ w.entry? 1 = some (entry 1 .read 0 .queued) := by decide +kernel

theorem test_witness_TargetLinkChanges :
    let down (f : Port → Port) : State := { withPort 0 f with pins := { up.pins with link := .replicate 8 false } }
    let d := down fun q => { q with state := .disabled, autoEnable := true }
    let w := withOtt (down fun q => { q with state := .waking, wake := some 9, egress := [1] }) [entry 1 .read 0 .queued]
    State.reset.pins.link.get 0 = false ∧ State.reset.underReset = true
      ∧ (w.port 0).state = .waking ∧ w.pins.link.get 0 = false ∧ w.underReset = false ∧ (∀ i, (w.port 0).slots.get i = .free)
      ∧ (w.port 0).egress = [1] ∧ w.claims 0 = [] ∧ w.entry? 1 = some (entry 1 .read 0 .queued)
      ∧ (entry 1 .read 0 .queued).copyAt 0 = some ⟨0, 0x100, none, .queued, none⟩
      ∧ (down id).pins.link.get 0 = false ∧ (down id).underReset = false ∧ ((down id).port 0).state = .active
      ∧ ((down fun q => { q with state := .quarantined }).port 0).state = .quarantined
      ∧ ((down fun q => { q with state := .disabled }).port 0).autoEnable = false
      ∧ ((down fun q => { q with state := .parked }).port 0).state = .parked
      ∧ ((down fun q => { q with state := .waking }).port 0).state = .waking
      ∧ (d.port 0).state = .disabled ∧ (d.port 0).autoEnable = true
      ∧ up.pins.link.get 0 = true ∧ (up.port 0).state = .active ∧ (halfUp.port 1).state ≠ .active
      ∧ halfUp.pins.link.get 1 = true := by decide +kernel

/-- Every state of a port that a port command distinguishes, and the ends of SET PORT's ranges. -/
theorem test_witness_PortCommands :
    let s (f : Port → Port) (payload : List Byte) : State := (taking payload).setPort 7 (f (up.port 7))
    (7 : Byte).toNat = (7 : PortId).val
      ∧ (s id [0x30, 7]).Takes 9 [0x30, 7] ∧ ((s id [0x30, 7]).port 7).state.inService = true
      ∧ ((s (fun q => { q with state := .disabled }) [0x30, 7]).port 7).state.inService = false
      ∧ (s id [0x30, 7]).pins.link.get 7 = true ∧ State.reset.pins.link.get 7 = false
      ∧ (s id [0x32, 7]).Takes 9 [0x32, 7] ∧ (s id [0x32, 7]).strikeFlag 7 = false
      ∧ ((s id [0x32, 7]).port 7).holdsNothing = true
      ∧ ((s (fun q => { q with egress := [1] }) [0x32, 7]).port 7).holdsNothing = false
      ∧ ({ taking [0x32, 7] with eu := { up.eu with strikes := 0x80 } } : State).strikeFlag 7 = true
      ∧ ((s (fun q => { q with state := .parked }) [0x32, 7]).port 7).state = .parked
      ∧ ((s (fun q => { q with state := .waking }) [0x32, 7]).port 7).state = .waking
      ∧ (s id [0x33, 7, 1, 0, 0xFF, 0x0F, 0xFF, 0xFF]).Takes 9 [0x33, 7, 1, 0, 0xFF, 0x0F, 0xFF, 0xFF]
      ∧ (s id [0x33, 7, 1, 0, 0, 0x10, 0, 0]).Takes 9 [0x33, 7, 1, 0, 0, 0x10, 0, 0] := by
  refine ⟨by decide, ⟨rfl, rfl, rfl⟩, by decide +kernel, by decide +kernel, by decide +kernel, by decide +kernel, ⟨rfl, rfl, rfl⟩,
    by decide +kernel, by decide +kernel, by decide +kernel, by decide +kernel, by decide +kernel, by decide +kernel,
    ⟨rfl, rfl, rfl⟩, ⟨rfl, rfl, rfl⟩⟩

theorem test_witness_PortDisableTakesOutOfService :
    let s := (withOtt (taking [0x31, 0]) [entry 1 .read 0 .queued, entry 2 .read 0 .sent]).setPort 0
      { up.port 0 with egress := [1], slots := (up.port 0).slots.set 0 (.inFlight 2 5) }
    (0 : Byte).toNat = (0 : PortId).val ∧ s.Takes 9 [0x31, 0] ∧ (s.port 0).state ≠ .disabled ∧ s.ulc.state = .up
      ∧ s.entry? 1 = some (entry 1 .read 0 .queued) ∧ s.entry? 2 = some (entry 2 .read 0 .sent)
      ∧ (s.port 0).egress = [1] ∧ (s.port 0).slots.get 0 = .inFlight 2 5 ∧ State.reset.port 0 = .startUp := by
  refine ⟨rfl, ⟨rfl, rfl, rfl⟩, by decide +kernel, rfl, by decide +kernel, by decide +kernel, by decide +kernel, by decide +kernel,
    by decide +kernel⟩

theorem test_witness_TicksAndTimers :
    let d : State := { up with ps := { up.ps with op := .draining .drain false (some 0) true 9 } }
    State.reset.underReset = true ∧ up.underReset = false ∧ d.ps.op = .draining .drain false (some 0) true 9
      ∧ (taking [0x50, 7]).Takes 9 [0x50, 7] ∧ (7 : Byte).toNat = (7 : Fin 8).val
      ∧ (taking [0x50, 8]).Takes 9 [0x50, 8] ∧ 7 < (8 : Byte).toNat
      ∧ (taking [0x26, 0, 0]).Takes 9 [0x26, 0, 0] ∧ (taking [0x26, 1, 0]).Takes 9 [0x26, 1, 0] := by
  refine ⟨rfl, rfl, rfl, ⟨rfl, rfl, rfl⟩, by decide, ⟨rfl, rfl, rfl⟩, by decide, ⟨rfl, rfl, rfl⟩, ⟨rfl, rfl, rfl⟩⟩

theorem test_witness_AbortAnswersInOrder :
    let s (a : AbortSource) : State :=
      { withOtt up [entry 1 .read 0 .sent] with mail := { Mail.none with aborts := [a] }, rs := { up.rs with full := .awaitAbort } }
    takeAt 0 (s .resetFull).mail.aborts = some (.resetFull, []) ∧ (s .resetFull).ulc.state = .up
      ∧ (s .resetFull).rs.full = .awaitAbort ∧ takeAt 0 (s .linkLoss).mail.aborts = some (.linkLoss, [])
      ∧ ((withPort 0 fun q => { q with egress := [1] }).port 0).egress ≠ []
      ∧ (withOtt up [entry 2 .read 0 .reissueWait]).claims 0 ≠ []
      ∧ 1 ∈ (next .resetTraffic wakingPorts).mail.returns ∧ ((next .resetTraffic wakingPorts).port 1).state = .waking
      ∧ (wakingPorts.port 3).state = .parked := by decide +kernel

/-- A PARKED port that is sound, as AbortAnswersInOrder asks. -/
theorem test_witness_AbortAnswersInOrder_parked :
    (wakingPorts.port 3).Sound (wakingPorts.strikeFlag 3) ∧ (wakingPorts.port 3).state = .parked := by
  refine ⟨⟨?_, ?_, ?_, ?_, ?_, ?_, ?_, ?_, ?_⟩, ?_⟩ <;> decide +kernel

/-- A mirrored write with a copy still open, with all done, and with a skipped member. -/
theorem test_witness_MirroredWriteMerges :
    let e (b : CopyState) (skipped : List PortId) : Entry :=
      { entry 1 .write 0 .sent with
        modeClass := .mirrorWrite, copies := [⟨0, 0, some 0, .sent, none⟩, ⟨1, 0, some 1, b, none⟩], skipped := skipped }
    (withOtt up [e .sent []]).entry? 1 = some (e .sent []) ∧ (e .sent []).kind = .write
      ∧ (∃ c ∈ ((e .sent []).setCopy 0 .ok none).copies, c.state = .queued ∨ c.state = .reissueWait ∨ c.state = .sent)
      ∧ (withOtt up [e .ok []]).entry? 1 = some (e .ok [])
      ∧ (∀ c ∈ ((e .ok []).setCopy 0 .ok none).copies, ¬ (c.state = .queued ∨ c.state = .reissueWait ∨ c.state = .sent))
      ∧ ((e .ok []).setCopy 0 .ok none).mergedStatus ≠ .okDegraded
      ∧ ((e .ok [7]).setCopy 0 .ok none).mergedStatus = .okDegraded := by decide +kernel

/-- A mirrored read that has a next member in service (at its position, with an empty FIFO and with a full one), and one that
has none. -/
theorem test_witness_MirroredReadFailsOver :
    let w : Window := { direct 0 0xF 0 0 with mode := .mirrored [0, 1, 2, 3] 0 }
    let c (st : CopyState) : Copy := ⟨0, 0x100, some 0, st, none⟩
    let e : Entry := { entry 1 .read 0 .sent with modeClass := .mirrorRead, copies := [c .sent] }
    let ports (q3 : Port) (s : State) : State := (((s.setPort 1 .startUp).setPort 2 .startUp).setPort 3 q3)
    let s (q3 : Port) : State := ports q3 (withOtt (withWindows [w]) [e])
    let ms : List PortId := [0, 1, 2, 3]
    let waking : Port := { up.port 3 with state := .waking, wake := some 9 }
    let other : Entry := { entry 2 .read 3 .reissueWait with modeClass := .mirrorRead }
    (s waking).entry? 1 = some e ∧ e.modeClass = .mirrorRead ∧ (e.setCopy 0 .timeout none).copyAt 0 = some (c .timeout)
      ∧ (c .timeout).position = some 0 ∧ (s waking).ps.activeBank.windows.get e.window = .loaded w ∧ ms.length ≤ 4
      ∧ (∀ q ∈ ms.drop 1, ((s .startUp).port q).state.inService = false)
      ∧ ms[(3 : Fin 4).val]? = some 3 ∧ ((s waking).port 3).state.inService = true
      ∧ (∀ x ∈ (ms.drop 1).take 2, ((s waking).port x).state.inService = false)
      ∧ (∀ x ∈ e.copies, x.port ≠ 3) ∧ (s (up.port 3)).claims 3 = [] ∧ ((s (up.port 3)).port 3).egress.length < 8
      ∧ ((s (up.port 3)).port 3).state = .active ∧ ((s (up.port 3)).port 3).LowestFree 0
      ∧ (withOtt up [e, other]).claims 3 = [2] ∧ (2 : Tag) ≠ 1
      ∧ ((s waking).port 3).egress = [] ∧ ((s waking).port 3).state = .waking ∧ (s waking).claims 3 = []
      ∧ ((s { up.port 3 with egress := [2, 3, 4, 5, 6, 7, 8, 9] }).port 3).egress.length = 8 := by
  unfold Port.LowestFree
  decide +kernel

theorem test_witness_ServeLeavesNothingToDo :
    (withOtt up [{ entry 1 .read 0 .reissueWait with modeClass := .mirrorRead }]).ott.length ≤ 64
      ∧ (withOtt up [{ entry 1 .read 0 .reissueWait with modeClass := .mirrorRead }]).claims 0 = [1] := by decide +kernel

/-- An older entry that does not wait, one that does, and a port that sends. -/
theorem test_witness_ArbiterAndSender :
    let e : Entry := { entry 1 .read 0 .reissueWait with modeClass := .mirrorRead }
    let s := withOtt (withPort 0 fun q => { q with state := .waking, wake := some 9 }) [entry 2 .read 0 .sent, e]
    let x := withOtt (withPort 0 fun q => { q with egress := [3] }) [entry 3 .write 0 .queued]
    s.ott = [entry 2 .read 0 .sent] ++ e :: [] ∧ (entry 2 .read 0 .sent).waitsFor 0 = false ∧ e.waitsFor 0 = true
      ∧ (s.port 0).state.inService = true ∧ (s.port 0).egress.length < 8 ∧ (s.port 0).state = .waking
      ∧ (s.ott.map (·.tag)).Nodup
      ∧ (x.port 0).state = .active ∧ (x.port 0).egress = 3 :: [] ∧ (x.port 0).LowestFree 0
      ∧ x.entry? 3 = some (entry 3 .write 0 .queued)
      ∧ (entry 3 .write 0 .queued).copyAt 0 = some ⟨0, 0x100, none, .queued, none⟩ := by
  unfold Port.LowestFree
  decide +kernel

theorem test_witness_ClearWindowClears :
    let record : List Byte := List.replicate 32 0
    (taking [0x21, 31]).Takes 9 [0x21, 31] ∧ (taking [0x21, 31]).ps.op = .idle ∧ (31 : Byte).toNat = (31 : WindowIx).val
      ∧ (taking [0x21, 32]).Takes 9 [0x21, 32] ∧ 31 < (32 : Byte).toNat
      ∧ record.length = 32 ∧ record[0]? = some 0 := by
  refine ⟨⟨rfl, rfl, rfl⟩, rfl, by decide, ⟨rfl, rfl, rfl⟩, by decide, rfl, rfl⟩

/-- Records that load, that carry an unlisted code, and that are malformed; page runs at both ends of their ranges. -/
theorem test_witness_LoadsReachTheStagedBank :
    let good := (WindowEntry.loaded (direct 0 0xF 0 0)).record
    let bad := (WindowEntry.loaded (direct 1 0 0 0)).record
    let code : List Byte := 2 :: List.replicate 31 0
    good.length = 32 ∧ parseWindow good = some (.loaded (direct 0 0xF 0 0)) ∧ (direct 0 0xF 0 0).wellFormed = true
      ∧ bad.length = 32 ∧ parseWindow bad = some (.loaded (direct 1 0 0 0)) ∧ (direct 1 0 0 0).wellFormed = false
      ∧ code.length = 32 ∧ parseWindow code = none
      ∧ (taking (0x20 :: 31 :: good)).Takes 9 (0x20 :: 31 :: good)
      ∧ (taking (0x22 :: 240 :: 16 :: List.replicate 64 0)).Takes 9 (0x22 :: 240 :: 16 :: List.replicate 64 0)
      ∧ (taking (0x22 :: 0 :: 1 :: [0, 0, 0, 0])).Takes 9 (0x22 :: 0 :: 1 :: [0, 0, 0, 0])
      ∧ (taking [0x22, 0, 0]).Takes 9 [0x22, 0, 0]
      ∧ (taking (0x22 :: 0 :: 17 :: List.replicate 68 0)).Takes 9 (0x22 :: 0 :: 17 :: List.replicate 68 0)
      ∧ (taking (0x22 :: 241 :: 16 :: List.replicate 64 0)).Takes 9 (0x22 :: 241 :: 16 :: List.replicate 64 0) := by
  refine ⟨by decide, by decide, by decide, by decide, by decide, by decide, by decide, by decide, ?_, ?_, ?_, ?_, ?_, ?_⟩ <;>
    exact taking_takes _

/-- The conditions of a window at the figures of R63, R72 and R78. -/
theorem test_window_conditions :
    (direct 0 0xFFFFFF 0 0).Conditions ∧ ¬ (direct 0 0xFFFFFF 0 1).Conditions ∧ (direct 0 0xFF 0 0xFFFF00).Conditions
      ∧ (let w (st : Stride) : Window := { direct 0 0xF 0 0 with mode := .interleaved [0, 1, 2, 3, 4, 5, 6, 7] st 0 }
         ¬ (w .k16).Conditions ∧ (w .k4).Conditions)
      ∧ (let w (t : UnitNo) : Window := { direct 0 0xFFFF 0 0 with mode := .mirrored [0, 1] t }
         ¬ (w 0xFF1000).Conditions ∧ (w 0xFF0000).Conditions) := by
  simp [Window.Conditions, direct, Stride.bytes]

theorem test_witness_CopyAndClearSteps :
    let s (op : PlanOp) : State := { up with ps := { up.ps with op := op } }
    (taking [0x23]).Takes 9 [0x23] ∧ (taking [0x24]).Takes 9 [0x24] ∧ (taking [0x24]).ps.op = .idle
      ∧ (s (.copying 0 true 9)).ps.op = .copying 0 true 9 ∧ (s (.clearing 287 false 9)).ps.op = .clearing 287 false 9 :=
  ⟨taking_takes _, taking_takes _, rfl, rfl, rfl⟩

theorem test_witness_CopyRunMakesAnExactCopy :
    let s : State := { up with ps := { up.ps with op := .copying 0 true 9 }, pending := List.replicate 288 .copyStep ++ [] }
    s.ps.op = .copying 0 true 9 ∧ s.pending = List.replicate 288 .copyStep ++ [] := ⟨rfl, rfl⟩

theorem test_witness_SwitchPlanTaken :
    (taking [0x25, 0]).Takes 9 [0x25, if false then 1 else 0] ∧ (taking [0x25, 1]).Takes 9 [0x25, if true then 1 else 0]
      ∧ (taking [0x25, 1]).ps.op = .idle ∧ (taking [0x25, 1]).ott = [] ∧ (taking [0x25, 1]).underReset = false
      ∧ (withOtt (taking [0x25, 0]) [entry 1 .read 0 .sent]).Takes 9 [0x25, 0]
      ∧ (withOtt (taking [0x25, 0]) [entry 1 .read 0 .sent]).ott ≠ [] := by
  refine ⟨taking_takes _, taking_takes _, rfl, rfl, rfl, ⟨rfl, rfl, rfl⟩, by decide⟩

theorem test_witness_DrainEndsAndReplies :
    let s : State := { up with
      cu := ⟨none, [⟨9, .switchPlan⟩]⟩
      mail := { Mail.none with emptyReports := 1, ends := [⟨9, .done, []⟩, ⟨8, .done, []⟩] } }
    let d : State := { s with ps := { up.ps with op := .draining .drain true none true 9 } }
    s.mail.emptyReports ≠ 0 ∧ (∀ m e x o t, s.ps.op ≠ .draining m e x o t)
      ∧ d.ulc.state ≠ .ready
      ∧ (withOtt d [entry 1 .read 0 .sent]).mail.emptyReports ≠ 0 ∧ (withOtt d [entry 1 .read 0 .sent]).ott ≠ []
      ∧ (withOtt d [entry 1 .read 0 .sent]).ps.op = .draining .drain true none true 9
      ∧ d.ps.op = .draining .drain true none true 9 ∧ d.ott = [] ∧ d.underReset = false
      ∧ takeAt 0 s.mail.ends = some (⟨9, .done, []⟩, [⟨8, .done, []⟩]) ∧ (∃ h ∈ s.cu.held, h.tag = 9)
      ∧ takeAt 1 s.mail.ends = some (⟨8, .done, []⟩, [⟨9, .done, []⟩]) ∧ ∀ h ∈ s.cu.held, h.tag ≠ 8 := by
  refine ⟨by decide, by intro m e x o t; simp [up, State.reset], by decide, by decide, by decide, rfl, rfl, rfl, rfl, rfl, by decide, rfl, by decide⟩

/-- The arguments of the queries at the ends of their ranges. -/
theorem test_witness_QueriesAndCounters :
    (taking [0x10]).CreditsBalance ∧ (taking [0x10]).ulc.state = .up
      ∧ (taking [0x10]).Takes 9 [0x10] ∧ (taking [0x11, 1, 31]).Takes 9 [0x11, 1, 31] ∧ (taking [0x11, 2, 0]).Takes 9 [0x11, 2, 0]
      ∧ (31 : Byte).toNat = (31 : WindowIx).val ∧ 1 < (2 : Byte).toNat ∧ 31 < (32 : Byte).toNat
      ∧ (taking [0x12, 0, 240, 16]).Takes 9 [0x12, 0, 240, 16] ∧ (240 : Byte).toNat + (16 : Byte).toNat ≤ 256
      ∧ 256 < (241 : Byte).toNat + (16 : Byte).toNat
      ∧ (taking [0x13, 7]).Takes 9 [0x13, 7] ∧ (7 : Byte).toNat = (7 : PortId).val ∧ 7 < (8 : Byte).toNat
      ∧ (taking [0x14]).Takes 9 [0x14] ∧ (taking [0x15]).Takes 9 [0x15] ∧ (taking [0x16, 2]).Takes 9 [0x16, 2]
      ∧ (taking [0x16, 3]).Takes 9 [0x16, 3] ∧ 2 < (3 : Byte).toNat := by
  refine ⟨by unfold State.CreditsBalance; decide, rfl, taking_takes _, taking_takes _, taking_takes _, by decide, by decide,
    by decide, taking_takes _, by decide, by decide,
    taking_takes _, by decide, by decide, taking_takes _, taking_takes _, taking_takes _, taking_takes _, by decide⟩

theorem test_witness_RequestsRefused :
    let busy (payload : List Byte) : State := { taking payload with ps := { up.ps with op := .copying 0 true 3 } }
    (taking [0x10, 0]).Takes 9 [0x10, 0] ∧ ([0] : List Byte).length ≠ 0
      ∧ (taking [0x22, 0]).Takes 9 [0x22, 0] ∧ ([0] : List Byte).length < 2
      ∧ (taking [0x22, 0, 1]).Takes 9 [0x22, 0, 1] ∧ ([0, 1] : List Byte)[1]? = some 1
      ∧ (busy [0x23]).Takes 9 [0x23] ∧ (busy [0x23]).ps.op ≠ .idle ∧ (busy [0x25, 0]).Takes 9 [0x25, 0]
      ∧ (busy [0x25, 1]).Takes 9 [0x25, 1] ∧ (busy [0x22, 0, 1, 0, 0, 0, 0]).Takes 9 [0x22, 0, 1, 0, 0, 0, 0]
      ∧ (busy [0x25, 2]).Takes 9 [0x25, 2] ∧ (busy [0x25, 2]).ps.op ≠ .idle
      ∧ (taking [0x01, 2]).Takes 9 [0x01, 2] ∧ 1 < (2 : Byte).toNat
      ∧ (taking [0x25, 2]).Takes 9 [0x25, 2] ∧ (taking [0x25, 2]).ps.op = .idle
      ∧ (taking [0x30, 8]).Takes 9 [0x30, 8] ∧ 7 < (8 : Byte).toNat
      ∧ (taking [0x99]).Takes 9 [0x99] ∧ commandOf [0x99] = none := by
  refine ⟨taking_takes _, by decide, taking_takes _, by decide, taking_takes _, rfl, ⟨rfl, rfl, rfl⟩, by decide +kernel, ⟨rfl, rfl, rfl⟩,
    ⟨rfl, rfl, rfl⟩, ⟨rfl, rfl, rfl⟩, ⟨rfl, rfl, rfl⟩, by decide +kernel, taking_takes _, by decide, taking_takes _, rfl,
    taking_takes _, by decide, taking_takes _, by decide⟩

theorem test_witness_ResetsByCommand :
    (taking [1, 0]).Takes 9 [0x01, 0x00] ∧ (taking [1, 1]).Takes 9 [0x01, 0x01] ∧ (taking [1, 1]).ulc.state = .up
      ∧ (next .carrierLost (taking [1, 1])).Takes 9 [0x01, 0x01] ∧ (next .carrierLost (taking [1, 1])).ulc.state ≠ .up
      ∧ wakingPorts.Takes 9 [0x01, 0x00] ∧ (wakingPorts.port 1).state = .waking ∧ (wakingPorts.port 1).egress ≠ []
      ∧ (wakingPorts.port 2).state = .waking ∧ (wakingPorts.port 2).egress = [] ∧ wakingPorts.claims 2 = [] :=
  ⟨taking_takes _, taking_takes _, rfl, ⟨rfl, rfl, rfl⟩, by decide, ⟨rfl, rfl, rfl⟩, by decide +kernel, by decide +kernel,
    by decide +kernel, by decide +kernel, by decide +kernel⟩

theorem test_witness_RecordsReadBack :
    WindowEntry.empty.wellFormed = true ∧ (WindowEntry.loaded (direct 0 0xFFFFFF 7 0)).wellFormed = true := by decide

end Sys2Proof.Tests
end

section
/-! PROOFS. What becomes of a request's tag as it moves from block to block: each operation of the data path answers a request,
holds it or leaves it where it stands, and none changes the credits. -/

namespace Sys2Proof.Machine

/-- The tags that an answer or a held reply can still move: in the OTT, in the held-reply list and in the response queue. -/
def State.moving (s : State) : List Tag := s.ott.map (·.tag) ++ s.cu.held.map (·.tag) ++ s.ulc.queue.map (·.tag)

/-- From `s` to `t`, with the requests of tags `xs` in hand, the credits and the ingress FIFO stand, and every one of these
requests and of those in the OTT and the held-reply list is answered, held or still there; in UP none is lost. -/
structure State.Moves (xs : List Tag) (s t : State) : Prop where
  fifo : t.iq.fifo = s.iq.fifo
  tags : t.iq.tags = s.iq.tags
  taking : t.cu.taking = s.cu.taking
  creditReturns : t.mail.creditReturns = s.mail.creditReturns
  answers : t.mail.answers = s.mail.answers
  loss : t.mail.loss = s.mail.loss
  aborts : AbortSource.resetFull ∈ s.mail.aborts → AbortSource.resetFull ∈ t.mail.aborts
  ulcState : t.ulc.state = s.ulc.state
  credits : t.ulc.credits = s.ulc.credits
  awaiting : t.ulc.awaiting ≤ s.ulc.awaiting
  notUp : s.ulc.state ≠ .up → t.ulc = s.ulc
  ott : s.ott = [] → t.ott = []
  held : xs = [] → s.cu.held = [] → t.cu.held = []
  count_le : ∀ x, t.moving.count x ≤ xs.count x + s.moving.count x
  kept : s.ulc.state = .up → ∀ x, x ∈ xs ∨ x ∈ s.moving → x ∈ t.moving

namespace State.Moves

theorem refl (s : State) : s.Moves [] s := by constructor <;> simp

theorem trans {xs ys : List Tag} {s t u : State} (a : s.Moves xs t) (b : t.Moves ys u) : s.Moves (xs ++ ys) u where
  fifo := b.fifo.trans a.fifo
  tags := b.tags.trans a.tags
  taking := b.taking.trans a.taking
  creditReturns := b.creditReturns.trans a.creditReturns
  answers := b.answers.trans a.answers
  loss := b.loss.trans a.loss
  aborts h := b.aborts (a.aborts h)
  ulcState := b.ulcState.trans a.ulcState
  credits := b.credits.trans a.credits
  awaiting := b.awaiting.trans a.awaiting
  notUp h := (b.notUp (a.ulcState ▸ h)).trans (a.notUp h)
  ott h := b.ott (a.ott h)
  held h k := b.held (List.append_eq_nil_iff.mp h).2 (a.held (List.append_eq_nil_iff.mp h).1 k)
  count_le x := by
    have ha := a.count_le x
    have hb := b.count_le x
    rw [List.count_append]
    omega
  kept h x hx := by
    refine b.kept (a.ulcState.trans h) x ?_
    rw [List.mem_append] at hx
    rcases hx with (hx | hx) | hx
    · exact .inr (a.kept h x (.inl hx))
    · exact .inl hx
    · exact .inr (a.kept h x (.inr hx))

/-- What moves with nothing in hand, after what moves with something. -/
theorem andThen {xs : List Tag} {s t u : State} (a : s.Moves xs t) (b : t.Moves [] u) : s.Moves xs u := by
  simpa using a.trans b

/-- The tags in hand count by their number alone. -/
theorem perm {xs ys : List Tag} {s t : State} (a : s.Moves xs t) (h : xs.Perm ys) : s.Moves ys t where
  __ := a
  held k := a.held (by simpa [k] using h)
  count_le x := h.count_eq x ▸ a.count_le x
  kept hu x hx := a.kept hu x (hx.imp_left h.mem_iff.mpr)

/-- An act of the data path that leaves the tags of the OTT and the response queue alone. -/
theorem ofCarries {s t : State} (c : s.Carries t) (ho : t.ott.map (·.tag) = s.ott.map (·.tag))
    (hq : t.ulc.queue = s.ulc.queue) : s.Moves [] t where
  fifo := by rw [c.iq]
  tags := by rw [c.iq]
  taking := by rw [c.cu]
  creditReturns := c.creditReturns
  answers := c.answers
  loss := c.loss
  aborts h := by rwa [c.aborts]
  ulcState := c.ulcState
  credits := c.credits
  awaiting := c.awaiting
  notUp := c.notUp
  ott h := by simpa [h] using ho
  held _ h := by rwa [c.cu]
  count_le x := by simp [State.moving, ho, hq, c.cu]
  kept _ x hx := by simpa [State.moving, ho, hq, c.cu] using hx

end State.Moves

/-! ### Answers -/

/-- What stands apart from the requests and their answers may change at will. -/
theorem State.Moves.ofSame {s t : State} (hulc : t.ulc = s.ulc) (hfifo : t.iq.fifo = s.iq.fifo) (htags : t.iq.tags = s.iq.tags)
    (hott : t.ott.map (·.tag) = s.ott.map (·.tag)) (hcu : t.cu = s.cu) (hc : t.mail.creditReturns = s.mail.creditReturns)
    (ha : t.mail.answers = s.mail.answers) (hl : t.mail.loss = s.mail.loss)
    (hab : AbortSource.resetFull ∈ s.mail.aborts → AbortSource.resetFull ∈ t.mail.aborts) : s.Moves [] t where
  fifo := hfifo
  tags := htags
  taking := by rw [hcu]
  creditReturns := hc
  answers := ha
  loss := hl
  aborts := hab
  ulcState := by rw [hulc]
  credits := by rw [hulc]
  awaiting := by rw [hulc]
  notUp _ := hulc
  ott h := by simpa [h] using hott
  held _ h := by rwa [hcu]
  count_le x := by simp [State.moving, hott, hulc, hcu]
  kept _ x hx := by simpa [State.moving, hott, hulc, hcu] using hx

/-- A response that is placed stands in the response queue (R8). -/
theorem State.place_moves (s : State) (r : Response) : s.Moves [r.tag] (s.place r) := by
  have c := s.place_carries r
  have hq : (s.place r).ulc.queue = if s.ulc.state = .up then s.ulc.queue ++ [r] else s.ulc.queue := by
    split
    · next h => exact (s.place_up r h).1
    · next h => rw [c.notUp h]
  refine ⟨by simp, by simp, by simp, by simp, by simp, by simp, by simp, c.ulcState, c.credits, c.awaiting, c.notUp,
    by simp, by simp, fun x => ?_, fun h x hx => ?_⟩
  · simp only [State.moving, State.place_ott, State.place_cu, hq]
    split <;> simp only [List.map_append, List.map_cons, List.map_nil, List.count_append] <;> omega
  · simp only [State.moving, State.place_ott, State.place_cu, hq, if_pos h]
    simp only [State.moving, List.mem_append, List.mem_singleton, List.map_append, List.map_cons, List.map_nil] at hx ⊢
    grind

theorem State.respond_moves (s : State) (k : MemKind) (t : Tag) (st : Status) (d : List Byte) :
    s.Moves [t] (s.respond k t st d) :=
  s.place_moves ⟨k.response, t, st, 0, d⟩

theorem State.reply_moves (s : State) (t : Tag) (st : Status) (c : List Byte) : s.Moves [t] (s.reply t st c) :=
  s.place_moves ⟨.control, t, st, s.eu.summary, c⟩

theorem State.report_moves (s : State) (o : Occurrence) : s.Moves [] (s.report o) :=
  .ofSame (by simp) (by simp) (by simp) (by simp) (by simp) (by simp) (by simp) (by simp) (by simp)

theorem State.capture_moves (s : State) (o : Occurrence) : s.Moves [] (s.capture o) :=
  .ofSame rfl rfl rfl rfl rfl rfl rfl rfl id

theorem State.attemptDue_moves (s : State) (e : AttemptEvent) : s.Moves [] (s.attemptDue e) :=
  .ofCarries (s.attemptDue_carries e) rfl rfl

theorem State.serve_moves (s : State) (p : PortId) : s.Moves [] (s.serve p) :=
  .ofCarries (s.serve_carries p) (servesOnly_serve p s).tags (by rw [(servesOnly_serve p s).ulc])

theorem State.setPort_moves (s : State) (p : PortId) (x : Port) : s.Moves [] (s.setPort p x) :=
  .ofCarries (s.setPort_carries p x) rfl rfl

/-! ### Entries that complete (R117, R119) -/

/-- The tags of the OTT after an entry has been written where it stands. -/
theorem State.setEntry_tags (s : State) (e : Entry) : (s.setEntry e).ott.map (·.tag) = s.ott.map (·.tag) := by
  simp only [State.setEntry, List.map_map]
  refine List.map_congr_left fun x _ => ?_
  simp only [Function.comp_apply]
  split
  · next h => exact h.symm
  · rfl

theorem State.setEntry_moves (s : State) (e : Entry) : s.Moves [] (s.setEntry e) :=
  .ofCarries (s.setEntry_carries e) (s.setEntry_tags e) rfl

/-- The tags of what is left when every item of one tag has gone. -/
theorem tags_filter_ne {α : Type} (tag : α → Tag) (t : Tag) (l : List α) :
    (l.filter fun y => tag y != t).map tag = (l.map tag).filter (· != t) := by
  rw [List.filter_map]; rfl

/-- A list without one of its tags. -/
theorem count_filter_ne_add (t : Tag) (l : List Tag) (ht : t ∈ l) (x : Tag) :
    (l.filter (· != t)).count x + [t].count x ≤ l.count x := by
  by_cases hx : x = t
  · subst hx
    have gone : (l.filter (· != x)).count x = 0 := List.count_eq_zero.mpr (by simp)
    have : 0 < l.count x := List.count_pos_iff.mpr ht
    simp only [gone, List.count_singleton, beq_self_eq_true, if_true]
    omega
  · have other : [t].count x = 0 := by simp [Ne.symm hx]
    rw [List.count_filter (by simpa using hx), other, Nat.add_zero]

/-- A request of tag `t` leaves the place where it stood, and is answered. -/
theorem State.Moves.ofLeaving {s u v : State} {t : Tag} (hiq : u.iq = s.iq) (hulc : u.ulc = s.ulc) (hmail : u.mail = s.mail)
    (htaking : u.cu.taking = s.cu.taking) (hott : s.ott = [] → u.ott = []) (hheld : s.cu.held = [] → u.cu.held = [])
    (hcount : ∀ x, u.moving.count x + [t].count x ≤ s.moving.count x) (hmem : ∀ x ∈ s.moving, x = t ∨ x ∈ u.moving)
    (hcu : v.cu = u.cu) (hv : u.ott = [] → v.ott = []) (h : u.Moves [t] v) : s.Moves [] v where
  fifo := by rw [h.fifo, hiq]
  tags := by rw [h.tags, hiq]
  taking := by rw [h.taking, htaking]
  creditReturns := by rw [h.creditReturns, hmail]
  answers := by rw [h.answers, hmail]
  loss := by rw [h.loss, hmail]
  aborts k := h.aborts (by rwa [hmail])
  ulcState := by rw [h.ulcState, hulc]
  credits := by rw [h.credits, hulc]
  awaiting := by rw [← hulc]; exact h.awaiting
  notUp k := by rw [h.notUp (by rwa [hulc]), hulc]
  ott k := hv (hott k)
  held _ k := by rw [hcu]; exact hheld k
  count_le x := by
    have := h.count_le x
    have := hcount x
    rw [List.count_nil]
    omega
  kept k x hx := by
    refine h.kept (by rwa [hulc]) x ?_
    rw [List.mem_singleton]
    exact hmem x (hx.resolve_left (by simp))

/-- The tag of a completed entry passes from the OTT to the response queue. -/
theorem State.complete_moves (s : State) (e : Entry) (st : Status) (he : e.tag ∈ s.ott.map (·.tag)) :
    s.Moves [] (s.complete e st) := by
  let u : State := { s with ott := s.ott.filter fun x => x.tag != e.tag }
  have left : u.moving = (s.ott.map (·.tag)).filter (· != e.tag) ++ s.cu.held.map (·.tag) ++ s.ulc.queue.map (·.tag) := by
    rw [← tags_filter_ne]; rfl
  have answered : u.Moves [e.tag] (s.complete e st) := by
    have first := u.respond_moves e.kind e.tag st (e.responseData st)
    have reported (v : State) : v.Moves [] v.reportEmpty := .ofCarries v.reportEmpty_carries rfl rfl
    unfold State.complete
    simp only
    split <;> split
    · exact (first.andThen (State.report_moves _ _)).andThen (reported _)
    · exact first.andThen (reported _)
    · exact first.andThen (State.report_moves _ _)
    · exact first
  refine .ofLeaving (u := u) rfl rfl rfl rfl (fun h => by simp [u, h]) id (fun x => ?_) (fun x hx => ?_)
    (s.complete_carries e st).cu (fun h => by rw [complete_ott]; exact h) answered
  · have := count_filter_ne_add e.tag _ he x
    rw [left]
    simp only [State.moving, List.count_append]
    omega
  · rw [left]
    simp only [State.moving, List.mem_append, List.mem_filter, bne_iff_ne] at hx ⊢
    grind

/-- A failover moves its entry or answers it (R125). -/
theorem State.failover_moves (s : State) (e : Entry) (p : PortId) (o : CopyState) (he : e.tag ∈ s.ott.map (·.tag)) :
    s.Moves [] (s.failover e p o) := by
  unfold State.failover
  split
  · split
    · unfold State.reissue
      simp only
      have placed (u : State) (q : PortId) : u.Moves [] (u.placeCopy q e.tag) :=
        .ofCarries (u.placeCopy_carries q e.tag) (servesOnly_place q u e.tag).tags (by rw [(servesOnly_place q u e.tag).ulc])
      split
      · exact ((s.setEntry_moves _).andThen (placed _ _)).andThen (State.serve_moves _ _)
      · exact s.setEntry_moves _
    · exact s.complete_moves e _ he
  · exact s.complete_moves e _ he

/-- An outcome loses no request (R114). -/
theorem State.outcome_moves (s : State) (t : Tag) (p : PortId) (o : CopyState) (d : List Byte) :
    s.Moves [] (s.outcome t p o d) := by
  unfold State.outcome
  split
  · exact .refl s
  · next e0 h =>
    simp only
    have tag : (if e0.kind = .read ∧ o = .ok then { e0.setCopy p o none with readData := some d }
        else e0.setCopy p o none : Entry).tag = e0.tag := by split <;> rfl
    generalize (if e0.kind = .read ∧ o = .ok then { e0.setCopy p o none with readData := some d }
        else e0.setCopy p o none : Entry) = e at tag ⊢
    have he : e.tag ∈ (s.setEntry e).ott.map (·.tag) := by
      rw [s.setEntry_tags, tag]
      exact List.mem_map_of_mem (List.mem_of_find?_eq_some h)
    have set := s.setEntry_moves e
    have completes (st : Status) : s.Moves [] ((s.setEntry e).complete e st) := set.andThen (State.complete_moves _ e st he)
    have failsOver : s.Moves [] ((s.setEntry e).failover e p o) := set.andThen (State.failover_moves _ e p o he)
    split
    · exact completes _
    · split
      · exact set
      · exact completes _
    · split
      · exact completes _
      · exact completes _
      all_goals exact failsOver

/-! ### Ports (R94, R104) -/

/-- The tags of the replies that a job places. -/
def Job.replies : Job → List Tag
  | .fail _ _ => []
  | .failClaim => []
  | .reply t _ => [t]

theorem State.runJob_moves (s : State) (p : PortId) (j : Job) : s.Moves j.replies (s.runJob p j) := by
  cases j with
  | fail t o => exact s.outcome_moves t p o []
  | failClaim =>
    simp only [State.runJob, Job.replies]
    split
    · exact s.outcome_moves _ p .portDown []
    · exact .refl s
  | reply t st => exact s.reply_moves t st []

theorem State.runJobs_moves (p : PortId) (js : List Job) (s : State) : s.Moves (js.flatMap Job.replies) (s.runJobs p js) := by
  induction js generalizing s with
  | nil => exact .refl s
  | cons j js ih => exact (s.runJob_moves p j).trans (ih _)

/-- A port that leaves service answers what else was to be answered with it. -/
theorem State.leaveService_moves (s : State) (p : PortId) (st : PortState) (c : Option QuarantineCause) (more : List Job)
    (o : Order) : s.Moves (more.flatMap Job.replies) (s.leaveService p st c more o) := by
  have none : (s.leavingJobs p).flatMap Job.replies = [] := by
    simp [State.leavingJobs, Job.replies]
  have all : ((permute o (more ++ s.leavingJobs p)).flatMap Job.replies).Perm (more.flatMap Job.replies) := by
    simpa [none] using (permute_perm o (more ++ s.leavingJobs p)).flatMap_right Job.replies
  exact (((s.setPort_moves p _).andThen (State.attemptDue_moves _ _)).trans (State.runJobs_moves p _ _)).perm all

theorem State.quarantine_moves (s : State) (p : PortId) (c : QuarantineCause) (more : List Job) (o : Order) :
    s.Moves (more.flatMap Job.replies) (s.quarantine p c more o) :=
  (s.report_moves _).trans (State.leaveService_moves _ p _ _ more o)

theorem State.emit_moves (s : State) (o : Output) : s.Moves [] (s.emit o) := .ofCarries (s.emit_carries o) rfl rfl

theorem State.settleIdle_moves (s : State) (p : PortId) : s.Moves [] (s.settleIdle p) := s.setPort_moves p _

theorem State.completeWake_moves (s : State) (p : PortId) : s.Moves [] (s.completeWake p) :=
  (s.setPort_moves p _).andThen (State.attemptDue_moves _ _)

theorem State.park_moves (s : State) (p : PortId) : s.Moves [] (s.park p) :=
  ((s.setPort_moves p _).andThen (State.emit_moves _ _)).andThen (State.attemptDue_moves _ _)

theorem State.activate_moves (s : State) (p : PortId) : s.Moves [] (s.activate p) :=
  ((s.setPort_moves p _).andThen (State.attemptDue_moves _ _)).andThen (State.settleIdle_moves _ p)

theorem State.returnWaking_moves (s : State) : s.Moves [] s.returnWaking :=
  .ofSame (by simp [State.returnWaking]) (by simp [State.returnWaking]) (by simp [State.returnWaking])
    (by simp [State.returnWaking]) (by simp [State.returnWaking]) (by simp [State.returnWaking])
    (by simp [State.returnWaking]) (by simp [State.returnWaking]) (by simp [State.returnWaking])

/-! ### What reaches a target port -/

theorem State.matchResponse_moves (s : State) (p : PortId) (i : SlotId) (ok : Bool) (d : List Byte) :
    s.Moves [] (s.matchResponse p i ok d) := by
  have stray : s.Moves [] (s.strayResponse p) := (s.setPort_moves p _).andThen (State.report_moves _ _)
  have slot : s.Moves [] (s.setSlot p i .free) := s.setPort_moves p _
  unfold State.matchResponse
  split
  · split
    · exact stray
    · exact slot.andThen (State.serve_moves _ p)
    · next t _ _ =>
      have taken : s.Moves [] (if s.refusesAnswer t ok d = true then (s.setSlot p i .free).malformedTarget p (some i)
          else s.setSlot p i .free) := by
        split
        · exact slot.andThen (State.report_moves _ _)
        · exact slot
      unfold State.answerCopy
      simp only
      split
      · exact (taken.andThen (State.outcome_moves _ _ _ _ _)).andThen (State.serve_moves _ p)
      · exact ((taken.andThen (State.setPort_moves _ p _)).andThen (State.outcome_moves _ _ _ _ _)).andThen
          (State.serve_moves _ p)
  · exact stray

theorem State.strikeDeadline_moves (s : State) (p : PortId) (failed : List Job) (o : Order) :
    s.Moves (failed.flatMap Job.replies) (s.strikeDeadline p failed o) := by
  have count : s.Moves [] (s.countTimeout p) := s.setPort_moves p _
  unfold State.strikeDeadline
  simp only
  split
  · exact count.trans (State.quarantine_moves _ p _ failed o)
  · exact ((count.andThen (State.capture_moves _ _)).trans (State.runJobs_moves p failed _)).andThen (State.serve_moves _ p)

theorem State.failWake_moves (s : State) (p : PortId) (o : Order) : s.Moves [] (s.failWake p o) := by
  have jobs : (permute o ((s.port p).egress.map (Job.fail · .timeout))).flatMap Job.replies = [] := by
    have none : ((s.port p).egress.map (Job.fail · .timeout)).flatMap Job.replies = [] := by simp [Job.replies]
    simpa [none] using (permute_perm o ((s.port p).egress.map (Job.fail · .timeout))).flatMap_right Job.replies
  have parked : s.Moves [] (((s.capture (.strike p)).setPort p
      { s.port p with state := .parked, wake := none, egress := [] }).attemptDue (.portChanged p)) :=
    ((s.capture_moves _).andThen (State.setPort_moves _ p _)).andThen (State.attemptDue_moves _ _)
  have ran (u : State) : u.Moves [] (u.runJobs p (permute o ((s.port p).egress.map (Job.fail · .timeout)))) :=
    jobs ▸ State.runJobs_moves p _ u
  unfold State.failWake
  simp only
  split
  · exact ((parked.andThen (State.attemptDue_moves _ _)).andThen (ran _)).andThen (State.serve_moves _ p)
  · exact (parked.andThen (ran _)).andThen (State.serve_moves _ p)

theorem State.linkUp_moves (s : State) (p : PortId) : s.Moves [] (s.linkUp p) := by
  unfold State.linkUp
  split
  · exact .refl s
  · exact s.emit_moves _
  · exact (s.completeWake_moves p).andThen (State.serve_moves _ p)
  · split
    · exact s.activate_moves p
    · exact .refl s
  · exact .refl s

theorem State.linkDown_moves (s : State) (p : PortId) (o : Order) : s.Moves [] (s.linkDown p o) := by
  unfold State.linkDown
  split
  · exact s.quarantine_moves p _ [] o
  all_goals exact .refl s

theorem State.setLink_moves (s : State) (p : PortId) (up : Bool) : s.Moves [] (s.setLink p up) :=
  .ofSame rfl rfl rfl rfl rfl rfl rfl rfl id

/-! ### Plans (R149, R151) -/

theorem State.openGate_moves (s : State) : s.Moves [] s.openGate :=
  .ofSame rfl rfl rfl rfl rfl rfl rfl rfl (by simp [List.mem_filter])

theorem State.swap_moves (s : State) (escalated : Bool) : s.Moves [] (s.swap escalated) := by
  have exchanged : s.Moves [] s.exchange := by
    unfold State.exchange
    have plans : s.Moves [] { s with ps := { s.ps with active := s.ps.active.other, generation := s.ps.generation + 1, op := .idle } } :=
      .ofSame rfl rfl rfl rfl rfl rfl rfl rfl id
    exact (plans.andThen (State.openGate_moves _)).andThen (State.attemptDue_moves _ _)
  unfold State.swap
  simp only
  split
  · exact (exchanged.andThen (State.report_moves _ _)).andThen (State.report_moves _ _)
  · exact exchanged.andThen (State.report_moves _ _)

theorem State.reportEnd_moves (s : State) (owed : Bool) (t : Tag) (st : Status) (c : List Byte) :
    s.Moves [] (s.reportEnd owed t st c) :=
  .ofSame (by simp) (by simp) (by simp) (by simp) (by simp) (by simp) (by simp) (by simp) (by simp)

theorem State.endDrain_moves (s : State) (escalated owed : Bool) (t : Tag) : s.Moves [] (s.endDrain escalated owed t) :=
  (s.swap_moves escalated).andThen (State.reportEnd_moves _ _ _ _ _)

/-- A request whose reply is held stands in the held-reply list (R162). -/
theorem State.startPlanOp_moves (s : State) (op : PlanOp) (t : Tag) (c : HeldCommand) :
    s.Moves [t] (s.startPlanOp op t c) := by
  refine ⟨rfl, rfl, rfl, rfl, rfl, rfl, id, rfl, rfl, le_rfl, fun _ => rfl, id, by simp, fun x => ?_, fun _ x hx => ?_⟩
  · simp only [State.moving, State.startPlanOp, List.map_append, List.map_cons, List.map_nil, List.count_append]
    omega
  · simp only [State.moving, State.startPlanOp, List.map_append, List.map_cons, List.map_nil, List.mem_append,
      List.mem_singleton] at hx ⊢
    grind

/-! ### Control requests: each is answered once, now or later -/

/-- A command's meaning answers the request it carries out, or holds its reply, and loses no other. -/
def AnswersOnce (carry : State → Tag → List Byte → State) : Prop :=
  ∀ (s : State) (t : Tag) (payload : List Byte), s.Moves [t] (carry s t payload)

theorem withLength_answersOnce (n : Nat) {carry : State → Tag → List Byte → State} (h : AnswersOnce carry) :
    AnswersOnce (withLength n carry) := by
  intro s t payload
  unfold withLength
  split
  · exact h s t payload
  · exact s.reply_moves t _ _

theorem loadPagesLength_answersOnce {carry : State → Tag → List Byte → State} (h : AnswersOnce carry) :
    AnswersOnce (loadPagesLength carry) := by
  intro s t payload
  unfold loadPagesLength
  split
  · exact h s t payload
  · exact s.reply_moves t _ _

theorem unlessBusy_answersOnce {carry : State → Tag → List Byte → State} (h : AnswersOnce carry) :
    AnswersOnce (unlessBusy carry) := by
  intro s t payload
  unfold unlessBusy
  split
  · exact h s t payload
  · exact s.reply_moves t _ _

theorem onPort_answersOnce {carry : State → Tag → List Byte → PortId → State}
    (h : ∀ (s : State) (t : Tag) (payload : List Byte) (p : PortId), s.Moves [t] (carry s t payload p)) : AnswersOnce (onPort carry) := by
  intro s t payload
  unfold onPort
  split
  · next p _ =>
    have cleared : s.Moves [] (s.clearAutoEnable p) := by
      unfold State.clearAutoEnable
      split
      · exact s.setPort_moves p _
      · exact .refl s
    exact cleared.trans (h _ t payload p)
  · exact s.reply_moves t _ _

/-- A change apart from the requests, and the reply. -/
theorem reply_after {s u : State} (h : s.Moves [] u) (t : Tag) (st : Status) (c : List Byte) : s.Moves [t] (u.reply t st c) :=
  h.trans (u.reply_moves t st c)

theorem writeStaged_moves (s : State) (b : Bank) (t : Tag) : s.Moves [t] (s.writeStaged b t) := by
  refine reply_after ?_ t _ _
  exact .ofSame rfl rfl rfl rfl rfl rfl rfl rfl id

theorem loadWindow_answersOnce : AnswersOnce State.loadWindow := by
  intro s t payload
  unfold State.loadWindow
  split
  · exact writeStaged_moves s _ t
  · exact s.reply_moves t _ _

theorem clearWindow_answersOnce : AnswersOnce State.clearWindow := by
  intro s t payload
  unfold State.clearWindow
  split
  · exact writeStaged_moves s _ t
  · exact s.reply_moves t _ _

theorem loadPages_answersOnce : AnswersOnce State.loadPages := by
  intro s t payload
  unfold State.loadPages
  simp only
  split
  · exact writeStaged_moves s _ t
  · exact s.reply_moves t _ _

theorem startDrain_moves (s : State) (m : SwitchMode) (timer : Option Nat) (t : Tag) : s.Moves [t] (s.startDrain m timer t) := by
  have held : s.Moves [] { s with iq := { s.iq with gate := .held } } := .ofSame rfl rfl rfl rfl rfl rfl rfl rfl id
  exact held.trans (State.startPlanOp_moves _ _ t _)

theorem requestAbort_moves (s : State) (a : AbortSource) : s.Moves [] (s.requestAbort a) :=
  .ofSame rfl rfl rfl rfl rfl rfl rfl rfl (by simp +contextual)

theorem switchPlan_answersOnce : AnswersOnce State.switchPlan := by
  intro s t payload
  have atOnce : s.Moves [t] (s.switchAtOnce t) := reply_after (s.swap_moves false) t _ _
  unfold State.switchPlan
  split
  · split
    · exact atOnce
    · exact startDrain_moves s _ _ t
  · split
    · exact atOnce
    · exact (startDrain_moves s _ _ t).andThen (requestAbort_moves _ _)
  · exact s.reply_moves t _ _

theorem setPlanTiming_answersOnce : AnswersOnce State.setPlanTiming := by
  intro s t payload
  unfold State.setPlanTiming
  simp only
  split
  · exact s.reply_moves t _ _
  · refine reply_after ?_ t _ _
    exact .ofSame rfl rfl rfl rfl rfl rfl rfl rfl id

theorem enablePort_moves (s : State) (t : Tag) (payload : List Byte) (p : PortId) : s.Moves [t] (s.enablePort t payload p) := by
  have enabled : s.Moves [t] (if s.pins.link.get p = true then (s.activate p).reply t .done []
      else s.reply t .linkNotReady []) := by
    split
    · exact reply_after (s.activate_moves p) t _ _
    · exact s.reply_moves t _ _
  unfold State.enablePort
  split
  · exact s.reply_moves t _ _
  · exact s.reply_moves t _ _
  · exact s.reply_moves t _ _
  · exact enabled
  · exact enabled

theorem disablePort_moves (order : Order) (s : State) (t : Tag) (payload : List Byte) (p : PortId) :
    s.Moves [t] (State.disablePort order s t payload p) := by
  have leaves : s.Moves [t] (s.leaveService p .disabled none [.reply t .done] order) :=
    s.leaveService_moves p .disabled none [.reply t .done] order
  unfold State.disablePort
  split
  · exact s.reply_moves t _ _
  all_goals exact leaves

theorem parkPort_moves (s : State) (t : Tag) (payload : List Byte) (p : PortId) : s.Moves [t] (s.parkPort t payload p) := by
  unfold State.parkPort
  split
  · split
    · exact s.reply_moves t _ _
    · split
      · exact reply_after (s.park_moves p) t _ _
      · exact s.reply_moves t _ _
  all_goals exact s.reply_moves t _ _

theorem setTimeouts_moves (s : State) (t : Tag) (payload : List Byte) (p : PortId) :
    s.Moves [t] (s.setTimeouts t payload p) := by
  unfold State.setTimeouts
  simp only
  split
  · exact reply_after ((s.setPort_moves p _).andThen (State.settleIdle_moves _ p)) t _ _
  · exact s.reply_moves t _ _

theorem strikesCleared_moves (cleared : BitVec 8) (ps : List PortId) (s : State) : s.Moves [] (s.strikesCleared cleared ps) := by
  induction ps generalizing s with
  | nil => exact .refl s
  | cons p ps ih =>
    unfold State.strikesCleared
    refine State.Moves.andThen ?_ (ih _)
    split
    · exact s.settleIdle_moves p
    · exact .refl s

theorem clearEvents_answersOnce : AnswersOnce State.clearEvents := by
  intro s t payload
  have cleared (eu : EventUnit) : s.Moves [] { s with eu := eu } := .ofSame rfl rfl rfl rfl rfl rfl rfl rfl id
  exact reply_after ((cleared _).andThen (strikesCleared_moves _ _ _)) t _ _

theorem setTimebase_answersOnce : AnswersOnce State.setTimebase := by
  intro s t payload
  unfold State.setTimebase
  split
  · refine reply_after ?_ t _ _
    exact .ofSame rfl rfl rfl rfl rfl rfl rfl rfl id
  · exact s.reply_moves t _ _

theorem readWindow_answersOnce : AnswersOnce State.readWindow := by
  intro s t payload
  unfold State.readWindow
  split
  all_goals exact s.reply_moves t _ _

theorem readPage_answersOnce : AnswersOnce State.readPage := by
  intro s t payload
  unfold State.readPage
  simp only
  split
  all_goals exact s.reply_moves t _ _

theorem readPort_answersOnce (due : List (BitVec 16)) : AnswersOnce (State.readPort due) := by
  intro s t payload
  unfold State.readPort
  split
  all_goals exact s.reply_moves t _ _

theorem clearCounters_answersOnce : AnswersOnce State.clearCounters := by
  intro s t payload
  have hits : s.Moves [] s.clearHits := .ofSame rfl rfl rfl rfl rfl rfl rfl rfl id
  have ports (u : State) : u.Moves [] u.clearPortCounters := .ofSame rfl rfl rfl rfl rfl rfl rfl rfl id
  unfold State.clearCounters
  split
  · exact reply_after hits t _ _
  · exact reply_after (ports s) t _ _
  · exact reply_after (hits.andThen (ports _)) t _ _
  · exact s.reply_moves t _ _

end Sys2Proof.Machine
end

section
/-! PROOFS. The acts of a step: what passes a request on (`State.Passes`), what a control request carries out (`CarriesOut`), and
the few acts that a command is made of (`Act`, `exec_cases`). -/

namespace Sys2Proof.Machine

/-! ### What a step of the blocks passes on -/

/-- From `s` to `t` requests pass from block to block and are answered, with no packet arriving, no response leaving on the
line and no change of the link: the balance of credits stands, no credit awaits return that is not granted, no request is held
twice, and in UP none is lost. -/
structure State.Passes (s t : State) : Prop where
  ulcState : t.ulc.state = s.ulc.state
  balance : s.ulc.state = .up →
    t.ulc.credits + t.iq.fifo.length + t.mail.creditReturns = s.ulc.credits + s.iq.fifo.length + s.mail.creditReturns
  granted : s.ulc.credits + t.ulc.awaiting ≤ t.ulc.credits + s.ulc.awaiting
  notUp : s.ulc.state ≠ .up → t.ulc = s.ulc
  fifo : s.iq.fifo = [] → t.iq.fifo = []
  places : t.iq.fifo.length + t.cu.taking.toList.length ≤ s.iq.fifo.length + s.cu.taking.toList.length
  loss : t.mail.loss = s.mail.loss
  tags : t.iq.tags = s.iq.tags
  count_le : ∀ x, t.heldTags.count x ≤ s.heldTags.count x
  kept : s.ulc.state = .up → ∀ x, x ∈ s.heldTags → x ∈ t.heldTags
  answersNotUp : s.ulc.state ≠ .up → s.mail.answers = [] → t.mail.answers = []
  aborts : (s.mail.answers ≠ [] → AbortSource.resetFull ∈ s.mail.aborts) →
    t.mail.answers ≠ [] → AbortSource.resetFull ∈ t.mail.aborts
  ott : s.iq.fifo = [] → s.ott = [] → t.ott = []
  controlUnit : s.iq.fifo = [] → s.cu.taking = none → s.cu.held = [] → t.cu.taking = none ∧ t.cu.held = []

/-- The tags held, apart from those that answers move. -/
theorem count_heldTags (s : State) (x : Tag) : s.heldTags.count x = (s.iq.fifo.map (·.tag)).count x
    + (s.cu.taking.toList.map (·.tag)).count x + (s.mail.answers.map (·.tag)).count x + s.moving.count x := by
  simp only [State.heldTags, State.moving, List.count_append]
  omega

theorem mem_heldTags (s : State) (x : Tag) : x ∈ s.heldTags ↔ x ∈ s.iq.fifo.map (·.tag)
    ∨ x ∈ s.cu.taking.toList.map (·.tag) ∨ x ∈ s.mail.answers.map (·.tag) ∨ x ∈ s.moving := by
  simp only [State.heldTags, State.moving, List.mem_append]
  grind

theorem State.Moves.passes {s t : State} (h : s.Moves [] t) : s.Passes t where
  ulcState := h.ulcState
  balance _ := by rw [h.credits, h.fifo, h.creditReturns]
  granted := by rw [h.credits]; exact Nat.add_le_add_left h.awaiting _
  notUp := h.notUp
  fifo k := by rwa [h.fifo]
  places := by rw [h.fifo, h.taking]
  loss := h.loss
  tags := h.tags
  count_le x := by
    have k := h.count_le x
    rw [List.count_nil, Nat.zero_add] at k
    rw [count_heldTags, count_heldTags, h.fifo, h.taking, h.answers]
    omega
  kept hu x hx := by
    rw [mem_heldTags] at hx ⊢
    rw [h.fifo, h.taking, h.answers]
    exact hx.imp_right fun k => k.imp_right fun k => k.imp_right fun k => h.kept hu x (.inr k)
  answersNotUp _ k := by rwa [h.answers]
  aborts k l := h.aborts (k (by rwa [← h.answers]))
  ott _ := h.ott
  controlUnit _ k l := ⟨by rwa [h.taking], h.held rfl l⟩

/-- The Control Unit takes the request it has in hand, and the packets that wait behind it are still to be taken. -/
def State.takeUp (s : State) : State :=
  { s with cu := { s.cu with taking := none }, mail := { s.mail with arrivals := [] } }

/-- A request that is taken up is answered, or its reply held. -/
theorem State.Moves.passes_takeUp {s t : State} {r : ControlRequest} (hr : s.cu.taking = some r)
    (h : s.takeUp.Moves [r.tag] t) : s.Passes t where
  ulcState := h.ulcState
  balance _ := by rw [h.credits, h.fifo, h.creditReturns]; rfl
  granted := by rw [h.credits]; exact Nat.add_le_add_left h.awaiting _
  notUp := h.notUp
  fifo k := by rw [h.fifo]; exact k
  places := by rw [h.fifo, h.taking]; exact Nat.add_le_add_left (Nat.zero_le _) _
  loss := h.loss
  tags := h.tags
  count_le x := by
    have k := h.count_le x
    have taken : (s.cu.taking.toList.map (·.tag)).count x = [r.tag].count x := by simp [hr]
    have alone : s.takeUp.moving = s.moving := rfl
    have none : ((s.takeUp).cu.taking.toList.map (·.tag)).count x = 0 := rfl
    rw [alone] at k
    rw [count_heldTags, count_heldTags, h.fifo, h.taking, h.answers, taken, none]
    simp only [State.takeUp]
    omega
  kept hu x hx := by
    have k := h.kept hu x
    rw [mem_heldTags, hr] at hx
    rw [mem_heldTags, h.fifo, h.answers]
    rcases hx with hx | hx | hx | hx
    · exact .inl hx
    · exact .inr (.inr (.inr (k (.inl hx))))
    · exact .inr (.inr (.inl hx))
    · exact .inr (.inr (.inr (k (.inr hx))))
  answersNotUp _ k := by rw [h.answers]; exact k
  aborts k l := h.aborts (k (by rw [h.answers] at l; exact l))
  ott _ k := h.ott k
  controlUnit _ k := by rw [hr] at k; cases k

theorem State.Passes.trans {s t u : State} (a : s.Passes t) (b : t.Passes u) : s.Passes u where
  ulcState := b.ulcState.trans a.ulcState
  balance h := (b.balance (a.ulcState.trans h)).trans (a.balance h)
  granted := by
    have := a.granted
    have := b.granted
    omega
  notUp h := (b.notUp (a.ulcState ▸ h)).trans (a.notUp h)
  fifo h := b.fifo (a.fifo h)
  places := b.places.trans a.places
  loss := b.loss.trans a.loss
  tags := b.tags.trans a.tags
  count_le x := (b.count_le x).trans (a.count_le x)
  kept h x hx := b.kept (a.ulcState.trans h) x (a.kept h x hx)
  answersNotUp h k := b.answersNotUp (a.ulcState ▸ h) (a.answersNotUp h k)
  aborts h := b.aborts (a.aborts h)
  ott h k := b.ott (a.fifo h) (a.ott h k)
  controlUnit h k l := b.controlUnit (a.fifo h) (a.controlUnit h k l).1 (a.controlUnit h k l).2

/-! ### Credits that return (R7) -/

/-- What `n` returned credits do to the ULC: they count as granted, or are dropped while it is not UP. -/
theorem Ulc.takeCredits_does (u : Ulc) (n : Nat) :
    (u.takeCredits n).state = u.state ∧ (u.takeCredits n).queue = u.queue
      ∧ (u.state = .up → (u.takeCredits n).credits = u.credits + n)
      ∧ u.credits + (u.takeCredits n).awaiting ≤ (u.takeCredits n).credits + u.awaiting
      ∧ (u.state ≠ .up → u.takeCredits n = u) := by
  by_cases h : u.state = .up
  · obtain ⟨a, b, c, d⟩ := u.takeCredits_up n h
    exact ⟨a.trans h.symm, d, fun _ => b, by omega, fun k => absurd h k⟩
  · have e := u.takeCredits_not_up n h
    exact ⟨by rw [e], by rw [e], fun k => absurd k h, by rw [e], fun _ => e⟩

/-- Credits that are returned are with the ULC or on their way to it. -/
theorem State.returnCredits_does (s : State) (path : CreditPath) (n : Nat) :
    (s.returnCredits path n).ulc.state = s.ulc.state ∧ (s.returnCredits path n).ulc.queue = s.ulc.queue
      ∧ (s.ulc.state = .up → (s.returnCredits path n).ulc.credits + (s.returnCredits path n).mail.creditReturns
          = s.ulc.credits + s.mail.creditReturns + n)
      ∧ s.ulc.credits + (s.returnCredits path n).ulc.awaiting ≤ (s.returnCredits path n).ulc.credits + s.ulc.awaiting
      ∧ (s.ulc.state ≠ .up → (s.returnCredits path n).ulc = s.ulc) := by
  cases path with
  | atOnce =>
    obtain ⟨a, b, c, d, e⟩ := s.ulc.takeCredits_does n
    exact ⟨a, b, fun h => by have := c h; simp only [State.returnCredits]; omega, d, e⟩
  | later => exact ⟨rfl, rfl, fun _ => by simp only [State.returnCredits]; omega, le_rfl, fun _ => rfl⟩

/-- CREDIT_RETURN passes a credit from the way to the ULC. -/
theorem execCreditReturn_passes (s : State) : ∃ t, execCreditReturn s = .next t ∧ s.Passes t ∧ t.cu = s.cu := by
  refine ⟨_, rfl, ?_, by split <;> rfl⟩
  split
  · exact (State.Moves.refl s).passes
  · next h =>
    obtain ⟨a, b, c, d, e⟩ := s.ulc.takeCredits_does 1
    have tags : ∀ m, ({ s with ulc := s.ulc.takeCredits 1, mail := { s.mail with creditReturns := m } } : State).heldTags
        = s.heldTags := fun m => by simp [State.heldTags, b]
    exact ⟨a, fun hu => by have := c hu; simp only; omega, d, e, id, le_rfl, rfl, rfl, fun x => by rw [tags],
      fun _ x hx => by rwa [tags], fun _ h => h, id, fun _ h => h, fun _ h k => ⟨h, k⟩⟩

/-! ### ABORTED answers -/

/-- What ABORTED answers do to the tags of the response queue. -/
theorem answerAborted_queue (as : List AbortedAnswer) (s : State) :
    (s.answerAborted as).ulc.queue.map (·.tag)
      = if s.ulc.state = .up then s.ulc.queue.map (·.tag) ++ as.map (·.tag) else s.ulc.queue.map (·.tag) := by
  split
  · next h =>
    rw [(s.answerAborted_spec as).2 h, List.map_append, List.map_map]; rfl
  · next h => rw [(s.answerAborted_carries as).notUp h]

/-- The ports' part of an abort leaves the ULC and the OTT alone. -/
theorem abortPorts_apart (c : PortId → Bool) (ps : List PortId) (s : State) :
    (s.abortPorts c ps).ulc = s.ulc ∧ (s.abortPorts c ps).ott = s.ott := by
  induction ps generalizing s with
  | nil => exact ⟨rfl, rfl⟩
  | cons p ps ih =>
    have one : (s.abortPort p (c p)).ulc = s.ulc ∧ (s.abortPort p (c p)).ott = s.ott := by
      unfold State.abortPort
      simp only
      split <;> exact ⟨rfl, rfl⟩
    exact ⟨(ih _).1.trans one.1, (ih _).2.trans one.2⟩

/-- ABORTED answers leave the OTT alone. -/
theorem answerAborted_ott (as : List AbortedAnswer) (s : State) : (s.answerAborted as).ott = s.ott := by
  rw [(s.answerAborted_spec as).1]

/-- An abort leaves the OTT empty (R132). -/
theorem abort_ott (s : State) (order : Order) : (s.abort order).ott = [] := by
  unfold State.abort
  simp only [State.reportEmpty_ott, State.parkWaking_ott, (abortPorts_apart _ _ _).2, answerAborted_ott]

/-- An abort answers every entry of the OTT and places the answers that waited for it (R131, R156). -/
theorem abort_passes (s : State) (rest : List AbortSource) (order : Order) :
    s.Passes (({ s with mail := { s.mail with aborts := rest } } : State).abort order) := by
  set s0 : State := { s with mail := { s.mail with aborts := rest } } with hs0
  have c := s0.abort_carries order
  set as := interleave order (s0.ott.map Entry.abortedAnswer) s0.mail.answers with has
  have queue : (s0.abort order).ulc.queue.map (·.tag) = if s.ulc.state = .up then
      s.ulc.queue.map (·.tag) ++ as.map (·.tag) else s.ulc.queue.map (·.tag) := by
    rw [← show ({ s0 with ott := [], mail := { s0.mail with answers := [], returns := [] } } : State).ulc = s.ulc from rfl,
      ← answerAborted_queue as]
    unfold State.abort
    simp only [State.reportEmpty_ulc, State.parkWaking_ulc, (abortPorts_apart _ _ _).1]
    rfl
  have ott : (s0.abort order).ott = [] := abort_ott s0 order
  have answers : (as.map (·.tag)).Perm (s.ott.map (·.tag) ++ s.mail.answers.map (·.tag)) := by
    simpa [Entry.abortedAnswer, Function.comp_def] using (interleave_spec order (s0.ott.map Entry.abortedAnswer)
      s0.mail.answers).1.map (·.tag)
  have moving : (s0.abort order).moving = s.cu.held.map (·.tag) ++ (s0.abort order).ulc.queue.map (·.tag) := by
    rw [State.moving, ott, c.cu]; rfl
  have none : (s0.abort order).mail.answers = [] := c.answers
  have iq : (s0.abort order).iq = s.iq := c.iq
  have cu : (s0.abort order).cu = s.cu := c.cu
  exact {
    ulcState := c.ulcState
    balance := fun _ => by rw [c.credits, c.iq, c.creditReturns]
    granted := by rw [c.credits]; exact Nat.add_le_add_left c.awaiting _
    notUp := c.notUp
    fifo := fun h => by rwa [iq]
    places := by rw [iq, cu]
    loss := c.loss
    tags := by rw [iq]
    count_le := fun x => by
      have k := answers.count_eq x
      rw [count_heldTags, count_heldTags, iq, cu, none, moving, queue]
      simp only [State.moving, List.count_append, List.map_nil, List.count_nil] at k ⊢
      split
      · rw [List.count_append]; omega
      · omega
    kept := fun hu x hx => by
      have k := answers.mem_iff (a := x)
      rw [mem_heldTags] at hx ⊢
      rw [iq, cu, moving, queue, if_pos hu]
      simp only [State.moving, List.mem_append] at hx k ⊢
      grind
    answersNotUp := fun _ _ => none
    aborts := fun _ k => absurd none k
    ott := fun _ _ => ott
    controlUnit := fun _ k l => by rw [cu]; exact ⟨k, l⟩ }

/-! ### The head of the ingress FIFO -/

/-- A request that leaves the FIFO leaves its credit behind. -/
theorem leaveHead_does (s : State) (rest : List Request) (credit : CreditPath) :
    (s.leaveHead rest credit).iq = { s.iq with fifo := rest } ∧ (s.leaveHead rest credit).moving = s.moving
      ∧ (s.leaveHead rest credit).ulc.queue = s.ulc.queue
      ∧ (s.leaveHead rest credit).ulc.state = s.ulc.state
      ∧ (s.ulc.state = .up → (s.leaveHead rest credit).ulc.credits + (s.leaveHead rest credit).mail.creditReturns
          = s.ulc.credits + s.mail.creditReturns + 1)
      ∧ s.ulc.credits + (s.leaveHead rest credit).ulc.awaiting ≤ (s.leaveHead rest credit).ulc.credits + s.ulc.awaiting
      ∧ (s.ulc.state ≠ .up → (s.leaveHead rest credit).ulc = s.ulc) := by
  obtain ⟨state, queue, balance, granted, notUp⟩ :=
    ({ s with iq := { s.iq with fifo := rest } } : State).returnCredits_does credit 1
  have queue' : (s.leaveHead rest credit).ulc.queue = s.ulc.queue := queue
  exact ⟨by simp [State.leaveHead], by simp [State.moving, queue'], queue, state, balance, granted, notUp⟩

/-- A request that leaves the FIFO and is answered. -/
theorem passes_answered {s t : State} {r : Request} {rest : List Request} {credit : CreditPath}
    (hf : s.iq.fifo = r :: rest) (h : (s.leaveHead rest credit).Moves [r.tag] t) : s.Passes t := by
  obtain ⟨iq, moving, -, state, balance, granted, notUp⟩ := leaveHead_does s rest credit
  have nonempty : s.iq.fifo ≠ [] := by simp [hf]
  exact {
    ulcState := h.ulcState.trans state
    balance := fun hu => by
      have := balance hu
      rw [h.credits, h.fifo, h.creditReturns, iq, hf, List.length_cons]
      dsimp only
      omega
    granted := by
      have := h.awaiting
      rw [h.credits]
      omega
    notUp := fun hu => (h.notUp (state ▸ hu)).trans (notUp hu)
    fifo := fun k => absurd k nonempty
    places := by
      rw [h.fifo, h.taking, iq, hf, State.leaveHead_cu, List.length_cons]
      dsimp only
      omega
    loss := by rw [h.loss, State.leaveHead_loss]
    tags := by rw [h.tags, iq]
    count_le := fun x => by
      have k := h.count_le x
      rw [count_heldTags, count_heldTags, h.fifo, h.taking, h.answers, iq, hf]
      simp only [moving, State.leaveHead_cu, State.leaveHead_answers, List.map_cons, List.count_cons, List.count_nil] at k ⊢
      omega
    kept := fun hu x hx => by
      have k := h.kept (state.trans hu) x
      rw [mem_heldTags, hf] at hx
      rw [mem_heldTags, h.fifo, h.taking, h.answers, iq]
      simp only [moving, List.map_cons, List.mem_cons, List.not_mem_nil, State.leaveHead_cu,
        State.leaveHead_answers] at hx k ⊢
      grind
    answersNotUp := fun _ k => by rw [h.answers, State.leaveHead_answers, k]
    aborts := fun k l => by
      rw [h.answers, State.leaveHead_answers] at l
      exact h.aborts (by rw [State.leaveHead_aborts]; exact k l)
    ott := fun k => absurd k nonempty
    controlUnit := fun k => absurd k nonempty }

/-- The state in which a request has left the FIFO and stands in the Control Unit's hands or in the OTT. -/
def State.handedOver (s : State) (rest : List Request) (credit : CreditPath) (taking : Option ControlRequest)
    (more : List Entry) : State :=
  { s.leaveHead rest credit with cu := ⟨taking, s.cu.held⟩, ott := s.ott ++ more }

theorem passes_handedOver {s : State} {r : Request} {rest : List Request} (credit : CreditPath) (hf : s.iq.fifo = r :: rest)
    (hs : s.cu.taking = none) {taking : Option ControlRequest} {more : List Entry}
    (ht : taking.toList.map (·.tag) ++ more.map (·.tag) = [r.tag]) : s.Passes (s.handedOver rest credit taking more) := by
  obtain ⟨iq, -, queue, state, balance, granted, notUp⟩ := leaveHead_does s rest credit
  have nonempty : s.iq.fifo ≠ [] := by simp [hf]
  have iq' : (s.handedOver rest credit taking more).iq = { s.iq with fifo := rest } := iq
  have moving : (s.handedOver rest credit taking more).moving
      = s.ott.map (·.tag) ++ more.map (·.tag) ++ s.cu.held.map (·.tag) ++ s.ulc.queue.map (·.tag) := by
    simp [State.moving, State.handedOver, queue]
  have answers : (s.handedOver rest credit taking more).mail.answers = s.mail.answers := State.leaveHead_answers _ _ _
  have hand : (s.handedOver rest credit taking more).cu.taking = taking := rfl
  exact {
    ulcState := state
    balance := fun hu => by
      have := balance hu
      rw [iq', hf, List.length_cons]
      dsimp only [State.handedOver]
      omega
    granted := granted
    notUp := notUp
    fifo := fun k => absurd k nonempty
    places := by
      have : taking.toList.length ≤ 1 := by cases taking <;> simp
      rw [iq', hf, hand, List.length_cons]
      dsimp only
      omega
    loss := State.leaveHead_loss _ _ _
    tags := by rw [iq']
    count_le := fun x => by
      have k := congrArg (List.count x) ht
      rw [count_heldTags, count_heldTags, iq', answers, hand, moving, hf, hs]
      simp only [State.moving, List.count_append, List.map_cons, List.map_nil, Option.toList_none, List.count_cons,
        List.count_nil] at k ⊢
      omega
    kept := fun hu x hx => by
      have k : x = r.tag → x ∈ taking.toList.map (·.tag) ++ more.map (·.tag) := fun h => by simp [ht, h]
      rw [mem_heldTags, hf, hs] at hx
      rw [mem_heldTags, iq', answers, hand, moving]
      simp only [State.moving, List.mem_append, List.map_cons, Option.toList_none, List.map_nil, List.mem_cons,
        List.not_mem_nil] at hx k ⊢
      grind
    answersNotUp := fun _ k => answers.trans k
    aborts := fun k l => by
      rw [answers] at l
      exact (State.leaveHead_aborts s rest credit) ▸ k l
    ott := fun k => absurd k nonempty
    controlUnit := fun k => absurd k nonempty }

theorem newHead_moves (s : State) : s.Moves [] s.newHead := by
  have fifo : s.newHead.iq.fifo = s.iq.fifo ∧ s.newHead.iq.tags = s.iq.tags := by
    unfold State.newHead; repeat' split
    all_goals exact ⟨rfl, rfl⟩
  exact .ofSame (by simp) fifo.1 fifo.2 (by simp) (by simp) (by simp) (by simp) (by simp) (by simp)

theorem reportHit_moves (s : State) (w : Option WindowIx) : s.Moves [] (s.reportHit w) :=
  .ofSame (by simp) (by simp) (by simp) (by simp) (by simp) (by simp) (by simp) (by simp) (by simp)

theorem reportRefused_moves (s : State) (ev : Option FaultKind) (k : MemKind) (t : Tag) (a : Addr) (w : Option WindowIx) :
    s.Moves [] (s.reportRefused ev k t a w) :=
  .ofSame (by simp) (by simp) (by simp) (by simp) (by simp) (by simp) (by simp) (by simp) (by simp)

theorem placeCopies_moves (t : Tag) (cs : List Copy) (s : State) : s.Moves [] (s.placeCopies t cs) := by
  induction cs generalizing s with
  | nil => exact .refl s
  | cons c cs ih =>
    have placed : s.Moves [] (s.placeCopy c.port t) := .ofCarries (s.placeCopy_carries _ t) (servesOnly_place _ s t).tags
      (by rw [(servesOnly_place _ s t).ulc])
    exact (placed.andThen (State.serve_moves _ _)).andThen (ih _)

/-- An attempt of the head passes its request on, or leaves it. -/
theorem attempt_passes (s : State) (credit : CreditPath) (hs : s.cu.taking = none) : s.Passes (s.attempt credit) := by
  unfold State.attempt
  split
  · exact (State.Moves.refl s).passes
  · next r rest hf =>
    split
    · next payload _ =>
      have taken : s.handedOver rest credit (some ⟨r.tag, payload⟩) [] = { s.leaveHead rest credit with
          cu := { (s.leaveHead rest credit).cu with taking := some ⟨r.tag, payload⟩ } } := by simp [State.handedOver]
      have passed : s.Passes (s.handedOver rest credit (some ⟨r.tag, payload⟩) []) := passes_handedOver credit hf hs rfl
      rw [taken] at passed
      exact passed.trans (newHead_moves _).passes
    · next kind a length data _ =>
      split
      · refine State.Moves.passes ?_
        exact .ofSame rfl rfl rfl rfl rfl rfl rfl rfl id
      · next st w ev _ =>
        exact passes_answered hf ((((reportHit_moves _ w).andThen (reportRefused_moves _ ev kind r.tag a w)).trans
          (State.respond_moves _ kind r.tag st [])).andThen (newHead_moves _))
      · next i cls cs skipped _ =>
        set e := s.newEntry r.tag kind length data i cls cs skipped with he
        have entered : s.handedOver rest credit none [e] = { s.leaveHead rest credit with
            ott := (s.leaveHead rest credit).ott ++ [e] } := by simp [State.handedOver, ← hs]
        exact (entered ▸ passes_handedOver credit hf hs rfl).trans
          (((reportHit_moves _ _).andThen (placeCopies_moves _ _ _)).andThen (newHead_moves _)).passes

/-- HEAD_ATTEMPT does nothing while the Control Unit has a request in hand. -/
theorem execHeadAttempt_passes (k : Nat) (credit : CreditPath) (s : State) : ∃ t, execHeadAttempt k credit s = .next t
    ∧ s.Passes t ∧ (s.cu.taking ≠ none → t = s) := by
  refine ⟨_, rfl, ?_, fun h => if_pos (Option.isSome_iff_ne_none.mpr h)⟩
  split
  · exact (State.Moves.refl s).passes
  · next h =>
    split
    · exact (State.Moves.refl s).passes
    · next e rest _ =>
      have event : s.Moves [] { s with mail := { s.mail with attempts := rest } } := .ofSame rfl rfl rfl rfl rfl rfl rfl rfl id
      simp only
      split
      · exact event.passes.trans (attempt_passes _ credit (by simpa using h))
      · exact event.passes

/-! ### RESET FULL (R172) -/

/-- A command's meaning carries out the request it takes up: every request is passed on, and none is left in hand. -/
def CarriesOut (carry : State → Tag → List Byte → State) : Prop :=
  ∀ (s : State) (r : ControlRequest), s.cu.taking = some r →
    s.Passes (carry s.takeUp r.tag r.payload) ∧ (carry s.takeUp r.tag r.payload).cu.taking = none

theorem AnswersOnce.carriesOut {carry : State → Tag → List Byte → State} (h : AnswersOnce carry) : CarriesOut carry :=
  fun _ _ hr => ⟨(h _ _ _).passes_takeUp hr, (h _ _ _).taking⟩

/-- The answers of a RESET FULL are those of the held requests and of the FIFO. -/
theorem fullAnswers_tags (s : State) (o : Order) :
    ((s.fullAnswers o).map (·.tag)).Perm (s.cu.held.map (·.tag) ++ s.iq.fifo.map (·.tag)) := by
  have fifo : (s.iq.fifo.map Request.abortedAnswer).map (·.tag) = s.iq.fifo.map (·.tag) := by
    rw [List.map_map]
    refine List.map_congr_left fun r _ => ?_
    rw [Function.comp_apply]
    unfold Request.abortedAnswer
    split <;> rfl
  have held : (((permute o s.cu.held).map HeldItem.abortedAnswer).map (·.tag)).Perm (s.cu.held.map (·.tag)) := by
    rw [List.map_map]
    exact (permute_perm o s.cu.held).map _
  have all := ((interleave_spec (o.drop s.cu.held.length) ((permute o s.cu.held).map HeldItem.abortedAnswer)
    (s.iq.fifo.map Request.abortedAnswer)).1.map (·.tag))
  rw [List.map_append, fifo] at all
  exact all.trans (held.append_right _)

/-- The answers that a RESET FULL places at once, and those that wait for the abort. -/
def State.answersNow (s : State) (o : FullOrder) : List AbortedAnswer :=
  (s.fullAnswers o.order).take ((s.fullAnswers o.order).length - o.late)
def State.answersLater (s : State) (o : FullOrder) : List AbortedAnswer :=
  (s.fullAnswers o.order).drop ((s.fullAnswers o.order).length - o.late)

/-- The ULC after a RESET FULL: its DONE and the answers placed at once stand in the queue, and the FIFO's credits have been
returned. -/
theorem resetFull_ulc (s : State) (t : Tag) (sel : PlanSel) (credit : CreditPath) (o : FullOrder) :
    (s.resetFull t sel credit o).ulc.state = s.ulc.state
      ∧ (s.ulc.state = .up → (s.resetFull t sel credit o).ulc.queue.map (·.tag)
          = s.ulc.queue.map (·.tag) ++ [t] ++ (s.answersNow o).map (·.tag))
      ∧ (s.ulc.state = .up → (s.resetFull t sel credit o).ulc.credits + (s.resetFull t sel credit o).mail.creditReturns
          = s.ulc.credits + s.mail.creditReturns + s.iq.fifo.length)
      ∧ s.ulc.credits + (s.resetFull t sel credit o).ulc.awaiting ≤ (s.resetFull t sel credit o).ulc.credits + s.ulc.awaiting
      ∧ (s.ulc.state ≠ .up → (s.resetFull t sel credit o).ulc = s.ulc) := by
  have replied := s.reply_carries t .done []
  let s1 : State := { s.reply t .done [] with ps := { (s.reply t .done []).ps with op := .idle } }
  let s2 : State := s1.returnCredits credit s.iq.fifo.length
  have ulc1 : s1.ulc = (s.reply t .done []).ulc := rfl
  have returns1 : s1.mail.creditReturns = s.mail.creditReturns := replied.creditReturns
  have state1 : s1.ulc.state = s.ulc.state := replied.ulcState
  obtain ⟨state, queue, balance, granted, notUp⟩ := s1.returnCredits_does credit s.iq.fifo.length
  have answered : s2.Carries (s2.answerAborted (s.answersNow o)) := s2.answerAborted_carries _
  have placed := answerAborted_queue (s.answersNow o) s2
  have ulc : (s.resetFull t sel credit o).ulc = (s2.answerAborted (s.answersNow o)).ulc := rfl
  have returns : (s.resetFull t sel credit o).mail.creditReturns = (s2.answerAborted (s.answersNow o)).mail.creditReturns := rfl
  rw [ulc, returns]
  refine ⟨answered.ulcState.trans (state.trans state1), fun h => ?_, fun h => ?_, ?_, fun h => ?_⟩
  · rw [placed, if_pos ((state.trans state1).trans h), queue, ulc1, State.reply, (s.place_up _ h).1]
    simp
  · rw [answered.credits, answered.creditReturns, balance (state1.trans h), returns1, ulc1, replied.credits]
  · have h1 := replied.awaiting
    have h2 := answered.awaiting
    rw [ulc1, replied.credits] at granted
    rw [answered.credits]
    change _ ≤ (s1.returnCredits credit s.iq.fifo.length).ulc.credits + _
    change _ ≤ (s1.returnCredits credit s.iq.fifo.length).ulc.awaiting at h2
    omega
  · rw [answered.notUp (by rw [state, state1]; exact h), notUp (state1 ▸ h), ulc1, replied.notUp h]

/-- After a RESET FULL the Control Unit holds nothing but a request in hand. -/
theorem resetFull_cu (s : State) (t : Tag) (sel : PlanSel) (credit : CreditPath) (o : FullOrder) :
    (s.resetFull t sel credit o).cu = ⟨s.cu.taking, []⟩ := by
  simp only [State.resetFull, State.requestAbort_cu, (State.answerAborted_carries _ _).cu, State.returnCredits_cu,
    State.reply_cu]

/-- RESET FULL answers what the Control Unit and the FIFO hold, now or with the abort. -/
theorem resetFull_passes {s : State} {r : ControlRequest} (hr : s.cu.taking = some r) (sel : PlanSel) (credit : CreditPath)
    (o : FullOrder) : s.Passes (s.takeUp.resetFull r.tag sel credit o) := by
  obtain ⟨state, queue, balance, granted, notUp⟩ := resetFull_ulc s.takeUp r.tag sel credit o
  set u := s.takeUp.resetFull r.tag sel credit o with hu
  have answers : u.mail.answers = s.mail.answers ++ (if s.ulc.state = .up then s.takeUp.answersLater o else []) := by
    rw [hu]
    simp only [State.resetFull, State.requestAbort_answers, (State.answerAborted_carries _ _).answers,
      State.returnCredits_answers, State.reply_mail]
    rfl
  have cu : u.cu = ⟨none, []⟩ := resetFull_cu _ _ _ _ _
  have fifo : u.iq.fifo = [] := rfl
  have tags : u.iq.tags = s.iq.tags := by
    rw [hu]
    simp only [State.resetFull, State.requestAbort_iq, (State.answerAborted_carries _ _).iq, State.returnCredits_iq,
      State.reply_iq]
    rfl
  have ott : u.ott = s.ott := by
    rw [hu]
    simp only [State.resetFull, State.requestAbort_ott, answerAborted_ott, State.returnCredits_ott,
      State.reply_ott]
    rfl
  have all : ((s.takeUp.answersNow o).map (·.tag) ++ (s.takeUp.answersLater o).map (·.tag)).Perm
      (s.cu.held.map (·.tag) ++ s.iq.fifo.map (·.tag)) := by
    rw [← List.map_append]
    unfold State.answersNow State.answersLater
    rw [List.take_append_drop]
    exact fullAnswers_tags s.takeUp o.order
  exact {
    ulcState := state
    balance := fun h => by have := balance h; rw [fifo]; exact this.symm ▸ by simp [State.takeUp]; omega
    granted := granted
    notUp := notUp
    fifo := fun _ => fifo
    places := by rw [fifo, cu]; exact Nat.zero_le _
    loss := by
      rw [hu]
      simp only [State.resetFull, State.requestAbort_loss, (State.answerAborted_carries _ _).loss, State.returnCredits_loss,
        State.reply_mail]
      rfl
    tags := tags
    count_le := fun x => by
      have k := all.count_eq x
      rw [count_heldTags, count_heldTags, fifo, cu, answers, hr]
      simp only [State.moving, ott, cu]
      by_cases h : s.ulc.state = .up
      · rw [if_pos h, queue h]
        simp only [List.count_append, List.map_append, List.map_nil, List.count_nil, Option.toList_none, Option.toList_some,
          List.map_cons] at k ⊢
        simp only [State.takeUp] at *
        omega
      · rw [if_neg h, notUp h]
        simp only [List.count_append, List.map_append, List.map_nil, List.count_nil, Option.toList_none, Option.toList_some,
          List.map_cons, State.takeUp]
        omega
    kept := fun h x hx => by
      have k := all.mem_iff (a := x)
      rw [mem_heldTags, hr] at hx
      rw [mem_heldTags, fifo, cu, answers, if_pos h]
      simp only [State.moving, ott, cu]
      rw [queue h]
      simp only [State.moving, List.mem_append, List.map_append, List.map_nil, Option.toList_none, Option.toList_some,
        List.map_cons, List.mem_cons, List.not_mem_nil] at hx k ⊢
      simp only [State.takeUp] at *
      grind
    answersNotUp := fun h k => by rw [answers, if_neg h, k]; rfl
    aborts := fun _ _ => by rw [hu]; simp [State.resetFull]
    ott := fun _ k => ott.trans k
    controlUnit := fun _ k => by rw [hr] at k; cases k }

/-! ### What a command does, act by act -/

/-- The state after TRANSMIT_DONE. -/
def State.transmitted (s : State) : State :=
  match s.ulc.tx, s.ulc.queue with
  | none, _ => s
  | some .linkStart, q => s.txDone (creditPacketBytes 0xC0 Config.credits) q
  | some (.credit n), q => s.txDone (creditPacketBytes 0xC1 n) q
  | some .response, r :: q => (s.txDone r.bytes q).releaseTag r.tag
  | some .response, [] => s

/-- The IQ has taken an upstream link loss (R32). -/
def State.iqEmptied (s : State) : State :=
  { s with
    iq := { s.iq with fifo := [], tags := [], cond := .noHead }
    mail := { s.mail with
      attempts := []
      aborts := s.mail.aborts ++ [.linkLoss]
      loss := { iq := false, ott := true, planStore := true, controlUnit := true, ports := true } } }

/-- A block other than the IQ has taken an upstream link loss, so that `l` are the signals still to be taken and `held` is the
held-reply list: the OTT has nothing left when it has taken its own, nor has the Control Unit (R2). -/
structure State.TakesLoss (s : State) (l : LossSignals) (held : List HeldItem) : Prop where
  iq : l.iq = s.mail.loss.iq
  any : l.any = true → s.mail.loss.any = true
  ott : l.ott = false → s.mail.loss.ott = false ∨ s.ott = []
  controlUnit : l.controlUnit = false → s.mail.loss.controlUnit = false ∨ (s.cu.taking = none ∧ held = [])
  held : held = s.cu.held ∨ (held = [] ∧ s.mail.loss.controlUnit = true)

/-- The single acts of which the commands that take no control request, no packet and no reset are made. -/
inductive Act : State → State → Prop
  | passes {s t : State} (h : s.Passes t) (k : s.cu.taking ≠ none → t.cu.taking = s.cu.taking) : Act s t
  | transmits (s : State) : Act s s.transmitted
  | losesLink {s : State} (h : s.ulc.state = .up) : Act s s.linkLoss
  | iqTakesLoss {s : State} (h : s.mail.loss.iq = true) (k : s.cu.taking = none) : Act s s.iqEmptied
  | takesLoss {s : State} {l : LossSignals} {held : List HeldItem} (h : s.TakesLoss l held) :
      Act s { s with cu := { s.cu with held := held }, mail := { s.mail with loss := l } }
  | settlesLink (s : State) : Act s s.settleLink
  | startsLink (s : State) : Act s s.ulcStart

/-- One act after another. -/
abbrev Acts : State → State → Prop := Relation.ReflTransGen Act

theorem State.Moves.act {s t : State} (h : s.Moves [] t) : Act s t := .passes h.passes fun _ => h.taking

theorem State.Moves.acts {s t : State} (h : s.Moves [] t) : Acts s t := .single h.act

/-- No act of these takes a request out of the Control Unit's hands. -/
theorem Act.taking {s t : State} (h : Act s t) (k : s.cu.taking ≠ none) : t.cu.taking = s.cu.taking := by
  cases h with
  | passes _ h => exact h k
  | transmits =>
    unfold State.transmitted
    split
    all_goals rfl
  | losesLink => rfl
  | iqTakesLoss => rfl
  | takesLoss => rfl
  | settlesLink => rw [State.settleLink_cu]
  | startsLink => rw [State.ulcStart_cu]

theorem Acts.taking {s t : State} (h : Acts s t) (k : s.cu.taking ≠ none) : t.cu.taking = s.cu.taking := by
  induction h with
  | refl => rfl
  | tail _ h ih => exact (h.taking (ih ▸ k)).trans ih

/-! ### The commands -/

theorem execStartUp_acts (sel : PlanSel) (s : State) : ∃ t, execStartUp sel s = .next t ∧ Acts s t := by
  have begins (c : ResetCause) (x : PlanSel) (p : Pins) : s.Moves [] { s.beginStartUp c x with pins := p } :=
    .ofSame rfl rfl rfl rfl rfl rfl rfl rfl id
  refine ⟨_, rfl, ?_⟩
  split
  · exact (begins _ _ _).acts
  · exact (begins _ _ _).acts
  · split
    · exact (begins _ _ s.pins).acts
    · exact .refl

theorem execStartUpComplete_acts (s : State) : ∃ t, execStartUpComplete s = .next t ∧ Acts s t := by
  have values : s.Moves [] s.startValues := by
    have start : s.Moves [] { s with
        ports := .replicate 8 .startUp, eu := .startUp, tb := { exponent := Config.exponent, pendingExponent := none }
        ps := { s.ps with active := .a, generation := 0, op := .idle, drainTimeout := Config.drainTimeout } } :=
      .ofSame rfl rfl rfl rfl rfl rfl rfl rfl id
    exact start.andThen (State.openGate_moves _)
  have plan (u : State) : u.Moves [] u.loadStartPlan := by
    have loaded : u.Moves [] { u with ps := { u.ps with bankA := u.ps.bankA.setWindow 0 (.loaded passWindow) } } :=
      .ofSame rfl rfl rfl rfl rfl rfl rfl rfl id
    unfold State.loadStartPlan
    split
    · exact .refl u
    · simp only
      split
      · exact loaded.andThen (State.activate_moves _ 0)
      · exact loaded.andThen (State.setPort_moves _ 0 _)
  have runs (u : State) : u.Moves [] { u with rs := { u.rs with state := .running } } :=
    .ofSame rfl rfl rfl rfl rfl rfl rfl rfl id
  refine ⟨_, rfl, ?_⟩
  split
  · exact (((((values.andThen (plan _)).andThen (State.capture_moves _ _)).andThen (runs _)).acts.tail (.startsLink _))).tail
      (State.attemptDue_moves _ _).act
  · exact .refl

theorem pins_moves (s : State) (p : Pins) : s.Moves [] { s with pins := p } :=
  .ofSame rfl rfl rfl rfl rfl rfl rfl rfl id

theorem execCarrierGained_acts (s : State) : ∃ t, execCarrierGained s = .next t ∧ Acts s t := by
  refine ⟨_, rfl, ?_⟩
  split
  · exact .refl
  · exact (pins_moves s _).acts.tail (.settlesLink _)

theorem execCarrierLost_acts (s : State) : ∃ t, execCarrierLost s = .next t ∧ Acts s t := by
  refine ⟨_, rfl, ?_⟩
  split
  · next h => exact (pins_moves s { s.pins with carrier := false }).acts.tail (.losesLink h)
  · exact (pins_moves s _).acts

theorem execLinkLossIq_acts (s : State) : ∃ t, execLinkLossIq s = .next t ∧ Acts s t := by
  refine ⟨_, rfl, ?_⟩
  split
  · next h => exact .single (.iqTakesLoss h.1 h.2)
  · exact .refl

/-- A block takes the loss after its own part of it, which passes the requests on, and a carrier may then be acted on. -/
theorem takesLoss_acts {s u : State} {l : LossSignals} {held : List HeldItem} (h : Acts s u) (k : u.TakesLoss l held) :
    Acts s ({ u with cu := { u.cu with held := held }, mail := { u.mail with loss := l } } : State).settleLink :=
  (h.tail (.takesLoss k)).tail (.settlesLink _)

theorem execLinkLossPlanStore_acts (s : State) : ∃ t, execLinkLossPlanStore s = .next t ∧ Acts s t := by
  refine ⟨_, rfl, ?_⟩
  split
  · have owes : s.Moves [] { s with ps := { s.ps with op := s.ps.op.oweNothing } } := .ofSame rfl rfl rfl rfl rfl rfl rfl rfl id
    refine takesLoss_acts owes.acts (held := s.cu.held) ⟨rfl, ?_, .inl, .inl, .inl rfl⟩
    simp only [LossSignals.any]
    grind
  · exact .refl

theorem execLinkLossControlUnit_acts (s : State) : ∃ t, execLinkLossControlUnit s = .next t ∧ Acts s t := by
  refine ⟨_, rfl, ?_⟩
  split
  · next h =>
    refine takesLoss_acts .refl ⟨rfl, ?_, .inl, fun _ => .inr ⟨h.2, rfl⟩, .inr ⟨rfl, h.1⟩⟩
    simp only [LossSignals.any]
    grind
  · exact .refl

theorem execLinkLossPorts_acts (s : State) : ∃ t, execLinkLossPorts s = .next t ∧ Acts s t := by
  refine ⟨_, rfl, ?_⟩
  split
  · refine takesLoss_acts s.returnWaking_moves.acts (held := s.returnWaking.cu.held) ⟨rfl, ?_, .inl, .inl, .inl rfl⟩
    simp only [LossSignals.any]
    grind
  · exact .refl

theorem execOttAbort_acts (r : AbortTaking) (s : State) : ∃ t, execOttAbort r s = .next t ∧ Acts s t := by
  refine ⟨_, rfl, ?_⟩
  split
  · exact .refl
  · next a rest _ =>
    have passed := abort_passes s rest r.order
    have hand : (({ s with mail := { s.mail with aborts := rest } } : State).abort r.order).cu = s.cu :=
      (State.abort_carries _ _).cu
    have first : Acts s (({ s with mail := { s.mail with aborts := rest } } : State).abort r.order) :=
      .single (.passes passed fun _ => by rw [hand])
    cases a with
    | planStore => exact first
    | resetTraffic => exact first
    | resetFull =>
      simp only [State.abortTaken]
      split
      · refine first.tail (State.Moves.act ?_)
        exact .ofSame rfl rfl rfl rfl rfl rfl rfl rfl id
      · exact first
    | linkLoss =>
      refine takesLoss_acts first (held := (State.abort _ r.order).cu.held)
        ⟨rfl, ?_, fun _ => .inr (abort_ott _ _), .inl, .inl rfl⟩
      simp only [LossSignals.any]
      grind

theorem execOttEmptyReport_acts (s : State) : ∃ t, execOttEmptyReport s = .next t ∧ Acts s t := by
  have taken : s.Moves [] { s with mail := { s.mail with emptyReports := s.mail.emptyReports - 1 } } :=
    .ofSame rfl rfl rfl rfl rfl rfl rfl rfl id
  refine ⟨_, rfl, ?_⟩
  split
  · exact .refl
  · simp only
    split
    · split
      · exact (taken.andThen (State.endDrain_moves _ _ _ _)).acts.tail (.settlesLink _)
      · exact taken.acts
    all_goals exact taken.acts

/-- A report that names a held item releases its reply, and no other reply is lost (R162). -/
theorem execHeldReplyRelease_acts (k : Nat) (s : State) : ∃ t, execHeldReplyRelease k s = .next t ∧ Acts s t := by
  refine ⟨_, rfl, ?_⟩
  split
  · exact .refl
  · next e rest _ =>
    have taken : s.Moves [] { s with mail := { s.mail with ends := rest } } := .ofSame rfl rfl rfl rfl rfl rfl rfl rfl id
    simp only
    split
    · next h =>
      obtain ⟨item, hitem, tag⟩ := List.any_eq_true.mp h
      have stood : e.tag ∈ s.cu.held.map (·.tag) := List.mem_map.mpr ⟨item, hitem, by simpa using tag⟩
      have left := tags_filter_ne (·.tag) e.tag s.cu.held
      let u : State := { s with
        cu := { s.cu with held := s.cu.held.filter fun h => h.tag != e.tag }, mail := { s.mail with ends := rest } }
      have moving : u.moving = s.ott.map (·.tag) ++ (s.cu.held.map (·.tag)).filter (· != e.tag) ++ s.ulc.queue.map (·.tag) := by
        rw [← left]; rfl
      refine State.Moves.acts (taken.andThen (.ofLeaving (u := u) rfl rfl rfl rfl id (fun k => ?_) (fun x => ?_)
        (fun x hx => ?_) (State.reply_cu _ _ _ _) (fun k => by rw [State.reply_ott]; exact k) (u.reply_moves e.tag _ _)))
      · rw [show u.cu.held = s.cu.held.filter fun h => h.tag != e.tag from rfl, show s.cu.held = [] from k]; rfl
      · have := count_filter_ne_add e.tag _ stood x
        rw [moving]
        simp only [State.moving, List.count_append]
        omega
      · rw [moving]
        simp only [State.moving, List.mem_append, List.mem_filter, bne_iff_ne] at hx ⊢
        grind
    · exact taken.acts

theorem execTickBoundary_acts (s : State) : ∃ t, execTickBoundary s = .next t ∧ Acts s t := by
  refine ⟨_, rfl, ?_⟩
  split
  · exact .refl
  · refine State.Moves.acts ?_
    exact .ofSame rfl rfl rfl rfl rfl rfl rfl rfl id

theorem execHoldoffExpiry_acts (s : State) : ∃ t, execHoldoffExpiry s = .next t ∧ Acts s t := by
  refine ⟨_, rfl, ?_⟩
  split
  · refine State.Moves.acts ?_
    exact .ofSame rfl rfl rfl rfl rfl rfl rfl rfl id
  · exact .refl

theorem execDrainTimeout_acts (s : State) : ∃ t, execDrainTimeout s = .next t ∧ Acts s t := by
  refine ⟨_, rfl, ?_⟩
  split
  · refine State.Moves.acts ?_
    exact .ofSame rfl rfl rfl rfl rfl rfl rfl rfl (by simp +contextual)
  · exact .refl

theorem execEventOccurrence_acts (k : Nat) (s : State) : ∃ t, execEventOccurrence k s = .next t ∧ Acts s t := by
  refine ⟨_, rfl, ?_⟩
  split
  · exact .refl
  · refine State.Moves.acts ?_
    exact .ofSame rfl rfl rfl rfl rfl rfl rfl rfl id

theorem execHitReport_acts (k : Nat) (s : State) : ∃ t, execHitReport k s = .next t ∧ Acts s t := by
  refine ⟨_, rfl, ?_⟩
  split
  · exact .refl
  · refine State.Moves.acts ?_
    exact .ofSame rfl rfl rfl rfl rfl rfl rfl rfl id

/-- The end of a copy or clear, which may be reported. -/
theorem finishPlanOp_moves (s : State) (owed : Bool) (t : Tag) : s.Moves [] (s.finishPlanOp owed t) := by
  have idle : s.Moves [] { s with ps := { s.ps with op := .idle } } := .ofSame rfl rfl rfl rfl rfl rfl rfl rfl id
  exact idle.andThen (State.reportEnd_moves _ _ _ _ _)

theorem execCopyStep_acts (s : State) : ∃ t, execCopyStep s = .next t ∧ Acts s t := by
  have plans (ps : PlanStore) : s.Moves [] { s with ps := ps } := .ofSame rfl rfl rfl rfl rfl rfl rfl rfl id
  refine ⟨_, rfl, ?_⟩
  split
  · simp only
    split
    · exact (plans _).acts
    · exact ((plans _).andThen (finishPlanOp_moves _ _ _)).acts
  · exact .refl

theorem execClearStep_acts (s : State) : ∃ t, execClearStep s = .next t ∧ Acts s t := by
  have plans (ps : PlanStore) : s.Moves [] { s with ps := ps } := .ofSame rfl rfl rfl rfl rfl rfl rfl rfl id
  refine ⟨_, rfl, ?_⟩
  split
  · simp only
    split
    · exact (plans _).acts
    · exact ((plans _).andThen (finishPlanOp_moves _ _ _)).acts
  · exact .refl

/-! ### What reaches a target port, and its timers -/

theorem execTargetResponse_acts (p : PortId) (f : TargetFrame) (s : State) :
    ∃ t, execTargetResponse p f s = .next t ∧ Acts s t := by
  refine ⟨_, rfl, ?_⟩
  split
  · exact (s.report_moves _).acts
  · exact (s.report_moves _).acts
  · exact (s.matchResponse_moves p _ _ _).acts
  · exact (s.matchResponse_moves p _ _ _).acts

theorem execDeadlineExpiry_acts (p : PortId) (i : SlotId) (o : Order) (s : State) :
    ∃ t, execDeadlineExpiry p i o s = .next t ∧ Acts s t := by
  have freed : s.Moves [] (s.setSlot p i .free) := s.setPort_moves p _
  refine ⟨_, rfl, ?_⟩
  split
  · next t _ => exact (freed.andThen (State.strikeDeadline_moves _ p [.fail t .timeout] o)).acts
  · exact (freed.andThen (State.strikeDeadline_moves _ p [] o)).acts
  all_goals exact .refl

theorem execIdleTimeout_acts (p : PortId) (s : State) : ∃ t, execIdleTimeout p s = .next t ∧ Acts s t := by
  refine ⟨_, rfl, ?_⟩
  split
  · exact (s.park_moves p).acts
  · exact .refl

theorem execWakeTimeout_acts (p : PortId) (o : Order) (s : State) : ∃ t, execWakeTimeout p o s = .next t ∧ Acts s t := by
  have counted : s.Moves [] (s.countTimeout p) := s.setPort_moves p _
  refine ⟨_, rfl, ?_⟩
  split
  · simp only
    split
    · exact (counted.andThen (State.quarantine_moves _ p _ [] o)).acts
    · exact (counted.andThen (State.failWake_moves _ p o)).acts
  · exact .refl

theorem execTargetLinkUp_acts (p : PortId) (s : State) : ∃ t, execTargetLinkUp p s = .next t ∧ Acts s t := by
  refine ⟨_, rfl, ?_⟩
  split
  · exact .refl
  · split
    · exact (s.setLink_moves p true).acts
    · exact ((s.setLink_moves p true).andThen (State.linkUp_moves _ p)).acts

theorem execTargetLinkDown_acts (p : PortId) (o : Order) (s : State) :
    ∃ t, execTargetLinkDown p o s = .next t ∧ Acts s t := by
  refine ⟨_, rfl, ?_⟩
  split
  · exact ((s.setLink_moves p false).andThen (State.linkDown_moves _ p o)).acts
  · exact .refl

/-! ### The commands as they are taken -/

/-- A command that the Control Unit takes carries its request out, with every request passed on. -/
def Instr.IsRequest (c : Instr) : Prop :=
  ∃ accepts carry, CarriesOut carry ∧ ∀ s : State, exec c s = .next (s.takeRequest accepts carry)

/-- A meaning that answers its request once makes its command a request. -/
theorem isRequest_of {c : Instr} (accepts : List Byte → Bool) {carry : State → Tag → List Byte → State}
    (h : AnswersOnce carry) (k : ∀ s : State, exec c s = .next (s.takeRequest accepts carry)) : Instr.IsRequest c :=
  ⟨accepts, carry, h.carriesOut, k⟩

theorem resetTraffic_answersOnce : AnswersOnce fun s t payload =>
    if namesScope 0 payload then s.resetTraffic t else s.reply t .badArgument [] := by
  intro s t payload
  simp only
  split
  · exact ((s.reply_moves t .done []).andThen (requestAbort_moves _ _)).andThen (State.returnWaking_moves _)
  · exact s.reply_moves t _ _

theorem resetFull_carriesOut (sel : PlanSel) (credit : CreditPath) (o : FullOrder) : CarriesOut fun s t payload =>
    if namesScope 1 payload then s.resetFull t sel credit o else s.reply t .badArgument [] := by
  intro s r hr
  simp only
  split
  · exact ⟨resetFull_passes hr sel credit o, by rw [resetFull_cu]; rfl⟩
  · exact ⟨(State.reply_moves _ r.tag _ _).passes_takeUp hr, by rw [State.reply_cu]; rfl⟩

/-- A reply whatever the payload, from what the state shows. -/
theorem reply_answersOnce (st : Status) (contents : State → List Byte) : AnswersOnce fun s t _ => s.reply t st (contents s) :=
  fun s t _ => s.reply_moves t st (contents s)

/-- Setting the Event Unit, and a reply. -/
theorem events_answersOnce (eu : EventUnit → List Byte → EventUnit) :
    AnswersOnce fun s t payload => ({ s with eu := eu s.eu payload } : State).reply t .done [] :=
  fun s t payload => reply_after (s := s) (u := { s with eu := eu s.eu payload }) (.ofSame rfl rfl rfl rfl rfl rfl rfl rfl id) t .done []

/-- Every command is a control request, a packet, the assertion of a reset, or made of the acts. -/
theorem exec_cases (c : Instr) : Instr.IsRequest c ∨ (∃ frame, c = .packetArrival frame) ∨ (c = .powerOn ∨ c = .resetNAssert)
    ∨ ∀ s, ∃ t, exec c s = .next t ∧ Acts s t := by
  cases c with
  | powerOn => exact .inr (.inr (.inl (.inl rfl)))
  | resetNAssert => exact .inr (.inr (.inl (.inr rfl)))
  | packetArrival frame => exact .inr (.inl ⟨frame, rfl⟩)
  | startUp sel => exact .inr (.inr (.inr (execStartUp_acts sel)))
  | startUpComplete => exact .inr (.inr (.inr execStartUpComplete_acts))
  | carrierGained => exact .inr (.inr (.inr execCarrierGained_acts))
  | carrierLost => exact .inr (.inr (.inr execCarrierLost_acts))
  | linkLossIq => exact .inr (.inr (.inr execLinkLossIq_acts))
  | linkLossPlanStore => exact .inr (.inr (.inr execLinkLossPlanStore_acts))
  | linkLossControlUnit => exact .inr (.inr (.inr execLinkLossControlUnit_acts))
  | linkLossPorts => exact .inr (.inr (.inr execLinkLossPorts_acts))
  | packetDiscardNotUp frame => exact .inr (.inr (.inr fun s => ⟨s, rfl, .refl⟩))
  | creditReturn =>
    refine .inr (.inr (.inr fun s => ?_))
    obtain ⟨t, h, k, l⟩ := execCreditReturn_passes s
    exact ⟨t, h, .single (.passes k fun _ => by rw [l])⟩
  | transmitDone => exact .inr (.inr (.inr fun s => ⟨s.transmitted, rfl, .single (.transmits s)⟩))
  | headAttempt k credit =>
    refine .inr (.inr (.inr fun s => ?_))
    obtain ⟨t, h, k, l⟩ := execHeadAttempt_passes k credit s
    exact ⟨t, h, .single (.passes k fun n => by rw [l n])⟩
  | hitReport k => exact .inr (.inr (.inr (execHitReport_acts k)))
  | eventOccurrence k => exact .inr (.inr (.inr (execEventOccurrence_acts k)))
  | targetResponse p f => exact .inr (.inr (.inr (execTargetResponse_acts p f)))
  | deadlineExpiry p i o => exact .inr (.inr (.inr (execDeadlineExpiry_acts p i o)))
  | idleTimeout p => exact .inr (.inr (.inr (execIdleTimeout_acts p)))
  | wakeTimeout p o => exact .inr (.inr (.inr (execWakeTimeout_acts p o)))
  | targetLinkUp p => exact .inr (.inr (.inr (execTargetLinkUp_acts p)))
  | targetLinkDown p o => exact .inr (.inr (.inr (execTargetLinkDown_acts p o)))
  | tickBoundary => exact .inr (.inr (.inr execTickBoundary_acts))
  | holdoffExpiry => exact .inr (.inr (.inr execHoldoffExpiry_acts))
  | drainTimeout => exact .inr (.inr (.inr execDrainTimeout_acts))
  | ottAbort r => exact .inr (.inr (.inr (execOttAbort_acts r)))
  | ottEmptyReport => exact .inr (.inr (.inr execOttEmptyReport_acts))
  | copyStep => exact .inr (.inr (.inr execCopyStep_acts))
  | clearStep => exact .inr (.inr (.inr execClearStep_acts))
  | heldReplyRelease k => exact .inr (.inr (.inr (execHeldReplyRelease_acts k)))
  | resetTraffic => exact .inl (isRequest_of _ resetTraffic_answersOnce fun _ => rfl)
  | resetFull sel credit o => exact .inl ⟨_, _, resetFull_carriesOut sel credit o, fun _ => rfl⟩
  | readStatus => exact .inl (isRequest_of _ (withLength_answersOnce 1 (reply_answersOnce _ _)) fun _ => rfl)
  | readWindow => exact .inl (isRequest_of _ (withLength_answersOnce 3 readWindow_answersOnce) fun _ => rfl)
  | readPage => exact .inl (isRequest_of _ (withLength_answersOnce 4 readPage_answersOnce) fun _ => rfl)
  | readPort due => exact .inl (isRequest_of _ (withLength_answersOnce 2 (readPort_answersOnce due)) fun _ => rfl)
  | readEvents => exact .inl (isRequest_of _ (withLength_answersOnce 1 (reply_answersOnce _ _)) fun _ => rfl)
  | readResetCause => exact .inl (isRequest_of _ (withLength_answersOnce 1 (reply_answersOnce _ _)) fun _ => rfl)
  | clearCounters => exact .inl (isRequest_of _ (withLength_answersOnce 2 clearCounters_answersOnce) fun _ => rfl)
  | loadWindow => exact .inl (isRequest_of _ (withLength_answersOnce 34 (unlessBusy_answersOnce loadWindow_answersOnce)) fun _ => rfl)
  | clearWindow => exact .inl (isRequest_of _ (withLength_answersOnce 2 (unlessBusy_answersOnce clearWindow_answersOnce)) fun _ => rfl)
  | loadPages => exact .inl (isRequest_of _ (loadPagesLength_answersOnce (unlessBusy_answersOnce loadPages_answersOnce)) fun _ => rfl)
  | copyPlan =>
    exact .inl (isRequest_of _ (withLength_answersOnce 1 (unlessBusy_answersOnce
      fun s t _ => s.startPlanOp_moves (.copying 0 true t) t .copyPlan)) fun _ => rfl)
  | clearPlan =>
    exact .inl (isRequest_of _ (withLength_answersOnce 1 (unlessBusy_answersOnce
      fun s t _ => s.startPlanOp_moves (.clearing 0 true t) t .clearPlan)) fun _ => rfl)
  | switchPlanDrain => exact .inl (isRequest_of _ (withLength_answersOnce 2 (unlessBusy_answersOnce switchPlan_answersOnce)) fun _ => rfl)
  | switchPlanForce => exact .inl (isRequest_of _ (withLength_answersOnce 2 (unlessBusy_answersOnce switchPlan_answersOnce)) fun _ => rfl)
  | setPlanTiming => exact .inl (isRequest_of _ (withLength_answersOnce 3 setPlanTiming_answersOnce) fun _ => rfl)
  | portEnable => exact .inl (isRequest_of _ (withLength_answersOnce 2 (onPort_answersOnce enablePort_moves)) fun _ => rfl)
  | portDisable o => exact .inl (isRequest_of _ (withLength_answersOnce 2 (onPort_answersOnce (disablePort_moves o))) fun _ => rfl)
  | parkPort => exact .inl (isRequest_of _ (withLength_answersOnce 2 (onPort_answersOnce parkPort_moves)) fun _ => rfl)
  | setPort => exact .inl (isRequest_of _ (withLength_answersOnce 8 (onPort_answersOnce setTimeouts_moves)) fun _ => rfl)
  | setEventEnables =>
    exact .inl (isRequest_of _ (withLength_answersOnce 3 (events_answersOnce fun eu payload =>
      { eu with enables := eventField payload &&& enableBits })) fun _ => rfl)
  | clearEvents => exact .inl (isRequest_of _ (withLength_answersOnce 5 clearEvents_answersOnce) fun _ => rfl)
  | setHoldoff =>
    exact .inl (isRequest_of _ (withLength_answersOnce 2 (events_answersOnce fun eu payload =>
      { eu with holdoffSetting := byteAt payload 1 })) fun _ => rfl)
  | setTimebase => exact .inl (isRequest_of _ (withLength_answersOnce 2 setTimebase_answersOnce) fun _ => rfl)
  | unknownCommand => exact .inl (isRequest_of _ (reply_answersOnce _ _) fun _ => rfl)

end Sys2Proof.Machine
end

section
/-! PROOFS. The accounts of the link: credits, tags and credits awaiting return. -/

namespace Sys2Proof.Machine

/-! ### A packet that arrives (R5, R20) -/

/-- From `s` to `t` a packet has been refused in UP: no request and no credit count but the one awaiting return changes. -/
structure State.Refuses (s t : State) : Prop where
  up : s.ulc.state = .up
  ulcState : t.ulc.state = .up
  credits : t.ulc.credits = s.ulc.credits
  awaiting : t.ulc.awaiting ≤ s.ulc.awaiting + 1
  overrun : s.ulc.credits = 0 → t.ulc.awaiting = s.ulc.awaiting
  queue : t.ulc.queue = s.ulc.queue
  iq : t.iq = s.iq
  cu : t.cu = s.cu
  ott : t.ott = s.ott
  mail : t.mail = { s.mail with occurrences := t.mail.occurrences }

/-- From `s` to `t` a request with a free tag has joined the FIFO in UP, with the credit it used. -/
structure State.Enqueues (s t : State) (r : Request) : Prop where
  up : s.ulc.state = .up
  fresh : r.tag ∉ s.iq.tags
  ulcState : t.ulc.state = .up
  credits : t.ulc.credits + 1 = s.ulc.credits
  awaiting : t.ulc.awaiting = s.ulc.awaiting
  queue : t.ulc.queue = s.ulc.queue
  fifo : t.iq.fifo = s.iq.fifo ++ [r]
  tags : t.iq.tags = r.tag :: s.iq.tags
  cu : t.cu = s.cu
  ott : t.ott = s.ott
  mail : t.mail = { s.mail with attempts := t.mail.attempts }

theorem report_mail (s : State) (o : Occurrence) :
    (s.report o).mail = { s.mail with occurrences := (s.report o).mail.occurrences } := by
  unfold State.report
  split <;> rfl

/-- A packet whose credit is taken and returned is refused with one more credit awaiting return. -/
theorem discardPacket_refuses {s : State} (h : s.ulc.state = .up) (hc : s.ulc.credits ≠ 0) (k : LinkFaultKind) (t : Option Tag) :
    s.Refuses (s.discardPacket.upstreamFault k t) := by
  obtain ⟨a, b, c, d⟩ := Ulc.takeCredits_up { s.ulc with credits := s.ulc.credits - 1 } 1 h
  unfold State.upstreamFault
  exact {
    up := h
    ulcState := by rw [State.report_ulc]; exact a
    credits := by
      rw [State.report_ulc]
      refine b.trans ?_
      dsimp only
      omega
    awaiting := by rw [State.report_ulc]; exact c
    overrun := fun z => absurd z hc
    queue := by rw [State.report_ulc]; exact d
    iq := by rw [State.report_iq]; rfl
    cu := by rw [State.report_cu]; rfl
    ott := by rw [State.report_ott]; rfl
    mail := report_mail _ _ }

/-- A head that is to be attempted sends its attempt event, and nothing else. -/
theorem newHead_mail (s : State) : s.newHead.mail = { s.mail with attempts := s.newHead.mail.attempts } := by
  unfold State.newHead
  repeat' split
  all_goals rfl

theorem enqueue_enqueues {s : State} {r : Request} (h : s.ulc.state = .up) (hc : s.ulc.credits ≠ 0) (hr : r.tag ∉ s.iq.tags) :
    s.Enqueues (s.enqueue r) r := by
  let u : State := { s with
    ulc := { s.ulc with credits := s.ulc.credits - 1 }
    iq := { s.iq with fifo := s.iq.fifo ++ [r], tags := r.tag :: s.iq.tags } }
  have used : u.ulc.credits + 1 = s.ulc.credits := by dsimp only [u]; omega
  unfold State.enqueue
  simp only
  split
  · have fifo := (newHead_moves u).fifo
    have tags := (newHead_moves u).tags
    exact { up := h, fresh := hr, ulcState := by rw [State.newHead_ulc]; exact h
            credits := by rw [State.newHead_ulc]; exact used
            awaiting := by rw [State.newHead_ulc], queue := by rw [State.newHead_ulc], fifo := fifo, tags := tags
            cu := by rw [State.newHead_cu], ott := by rw [State.newHead_ott], mail := newHead_mail u }
  · exact { up := h, fresh := hr, ulcState := h, credits := used, awaiting := rfl, queue := rfl, fifo := rfl, tags := rfl
            cu := rfl, ott := rfl, mail := rfl }

/-- A packet is ignored out of UP, refused, or taken into the FIFO. -/
theorem arrive_cases (s : State) (frame : List Byte) :
    (s.ulc.state ≠ .up ∧ s.arrive frame = s) ∨ s.Refuses (s.arrive frame) ∨ ∃ r, s.Enqueues (s.arrive frame) r := by
  by_cases h : s.ulc.state = .up
  · right
    unfold State.arrive
    rw [if_neg (not_not_intro h)]
    split
    · left
      unfold State.upstreamFault
      exact { up := h, ulcState := by rw [State.report_ulc]; exact h, credits := by rw [State.report_ulc]
              awaiting := by rw [State.report_ulc]; exact Nat.le_succ _, overrun := fun _ => by rw [State.report_ulc]
              queue := by rw [State.report_ulc], iq := State.report_iq _ _, cu := State.report_cu _ _
              ott := State.report_ott _ _, mail := report_mail _ _ }
    · next hc =>
      split
      · exact .inl (discardPacket_refuses h hc _ _)
      · next r _ =>
        split
        · exact .inl (discardPacket_refuses h hc _ _)
        · next hr => exact .inr ⟨r, enqueue_enqueues h hc hr⟩
  · exact .inl ⟨h, arrive_notUp s frame h⟩

/-! ### A control request that is taken, with the packets behind it -/

/-- A request is carried out, and then the packets that arrived behind it are taken; or nothing happens. -/
theorem takeRequest_cases {accepts : List Byte → Bool} {carry : State → Tag → List Byte → State} (h : CarriesOut carry)
    (s : State) : s.takeRequest accepts carry = s ∨ ∃ u, s.Passes u ∧ u.cu.taking = none
      ∧ s.takeRequest accepts carry = s.mail.arrivals.foldl State.arrive u := by
  unfold State.takeRequest
  split
  · exact .inl rfl
  · next r hr =>
    split
    · exact .inr ⟨_, (h s r hr).1, (h s r hr).2, rfl⟩
    · exact .inl rfl

/-- What a packet keeps, with nothing in hand, a list of packets keeps. -/
theorem arrivals_keep {P : State → Prop} (h : ∀ (s : State) frame, s.cu.taking = none → P s → P (s.arrive frame))
    (frames : List (List Byte)) {s : State} (k : s.cu.taking = none) (hs : P s) : P (frames.foldl State.arrive s) := by
  induction frames generalizing s with
  | nil => exact hs
  | cons f fs ih =>
    refine ih ?_ (h s f k hs)
    rw [(arrive_frame s f).1]
    exact k

/-- What a step keeps: it is enough that it stays where requests pass on and with each act, and with a packet while nothing is
in hand; that the assertion of a reset brings it about; and that it sees neither the queue nor the packets that wait. -/
theorem step_keeps {P : State → Prop} (passes : ∀ s t : State, s.Passes t → P s → P t) (acts : ∀ s t, Act s t → P s → P t)
    (arrive : ∀ (s : State) frame, s.cu.taking = none → P s → P (s.arrive frame))
    (assert : ∀ (s : State) h p, P { s.assertReset h with pins := p })
    (queue : ∀ (s : State) rest, P s → P { s with pending := rest })
    (waits : ∀ (s : State) frames, P s → P { s with mail := { s.mail with arrivals := frames } })
    {s t : State} (hs : P s) (h : step s = .next t) : P t := by
  unfold step at h
  split at h
  · cases h; exact hs
  · next c rest _ =>
    have hq := queue s rest hs
    generalize ({ s with pending := rest } : State) = u at h hq
    rcases exec_cases c with ⟨accepts, carry, hc, he⟩ | ⟨frame, rfl⟩ | (rfl | rfl) | he
    · rw [he] at h
      cases h
      rcases takeRequest_cases (accepts := accepts) hc u with e | ⟨v, hv, hn, e⟩
      · rwa [e]
      · rw [e]
        exact arrivals_keep arrive _ hn (passes u v hv hq)
    · cases h
      split
      · exact waits u _ hq
      · next hn =>
        by_cases hu : u.ulc.state = .up
        · exact arrive u frame (by_contra fun k => hn ⟨hu, k⟩) hq
        · rwa [arrive_notUp u frame hu]
    · cases h; exact assert u _ u.pins
    · cases h; exact assert u _ _
    · obtain ⟨v, e, hv⟩ := he u
      rw [e] at h
      cases h
      clear e
      induction hv with
      | refl => exact hq
      | tail _ h ih => exact acts _ _ h ih

/-! ### The balance of credits -/

theorem State.Passes.creditsBalance {s t : State} (h : s.Passes t) (b : s.CreditsBalance) : t.CreditsBalance := by
  obtain ⟨sum, notUp, down, ready, loss, places⟩ := b
  refine ⟨fun k => ?_, fun k => ?_, fun k => ?_, fun k => ?_, fun k => ?_, h.places.trans places⟩
  all_goals rw [h.ulcState] at k
  · rw [h.balance k]; exact sum k
  · rw [h.notUp k]; exact notUp k
  · exact h.fifo (down k)
  · rw [h.loss]; exact (ready k).imp_left h.fifo
  · rw [h.loss]; exact loss k

/-- What TRANSMIT_DONE does to the ULC: the credit count stands, and outside UP nothing changes. -/
theorem txDone_ulc (s : State) (bytes : List Byte) (q : List Response) :
    (s.txDone bytes q).ulc.state = s.ulc.state ∧ (s.txDone bytes q).ulc.credits = s.ulc.credits
      ∧ (s.txDone bytes q).ulc.awaiting ≤ s.ulc.awaiting ∧ (s.txDone bytes q).ulc.queue = q := by
  obtain ⟨a, b, c, d, -⟩ := Ulc.kick_frame { s.ulc with tx := none, queue := q }
  exact ⟨a, b, c, d⟩

/-- TRANSMIT_DONE as one of three: nothing is being sent, a packet that is no response has been, or the head response has. -/
theorem transmitted_cases (s : State) : s.transmitted = s
    ∨ (s.ulc.tx ≠ none ∧ ∃ bytes, s.transmitted = s.txDone bytes s.ulc.queue)
    ∨ ∃ r q, s.ulc.tx ≠ none ∧ s.ulc.queue = r :: q ∧ s.transmitted = (s.txDone r.bytes q).releaseTag r.tag := by
  unfold State.transmitted
  split
  · exact .inl rfl
  · next h => exact .inr (.inl ⟨by simp [h], _, rfl⟩)
  · next h => exact .inr (.inl ⟨by simp [h], _, rfl⟩)
  · next r q h k => exact .inr (.inr ⟨r, q, by simp [h], k, rfl⟩)
  · exact .inl rfl

theorem transmitted_creditsBalance {s : State} (b : s.CreditsBalance) : s.transmitted.CreditsBalance := by
  have sent (bytes : List Byte) (q : List Response) (t : State) (htx : s.ulc.tx ≠ none) (hu : t.ulc = (s.txDone bytes q).ulc)
      (hf : t.iq.fifo = s.iq.fifo) (hc : t.cu = s.cu) (hm : t.mail = s.mail) : t.CreditsBalance := by
    obtain ⟨sum, notUp, down, ready, loss, places⟩ := b
    obtain ⟨st, cr, -, -⟩ := txDone_ulc s bytes q
    have up : s.ulc.state = .up := by_contra fun k => htx (notUp k).2.2.2
    have up' : t.ulc.state = .up := by rw [hu, st, up]
    refine ⟨fun _ => by rw [hu, cr, hf, hm]; exact sum up, fun k => absurd up' k, fun k => ?_, fun k => ?_, fun _ => ?_, ?_⟩
    · rw [up'] at k; cases k
    · rw [up'] at k; cases k
    · rw [hm]; exact loss (by rw [up]; decide)
    · rw [hf, hc]; exact places
  rcases transmitted_cases s with e | ⟨h, bytes, e⟩ | ⟨r, q, h, -, e⟩
  · rwa [e]
  · exact sent bytes _ _ h (by rw [e]) (by rw [e]; rfl) (by rw [e]; rfl) (by rw [e]; rfl)
  · exact sent r.bytes q _ h (by rw [e]; rfl) (by rw [e]; rfl) (by rw [e]; rfl) (by rw [e]; rfl)

/-- LINK START from a link with nothing left of the loss, and nothing in the FIFO. -/
theorem linkStart_creditsBalance {s : State} (hf : s.iq.fifo = []) (hl : s.mail.loss.iq = false)
    (hp : s.iq.fifo.length + s.cu.taking.toList.length ≤ 16) : s.linkStart.CreditsBalance :=
  ⟨fun _ => by simp [hf], fun k => absurd rfl k, nofun, nofun, fun _ => hl, hp⟩

theorem Act.creditsBalance {s t : State} (h : Act s t) (b : s.CreditsBalance) : t.CreditsBalance := by
  cases h with
  | passes h _ => exact h.creditsBalance b
  | transmits => exact transmitted_creditsBalance b
  | losesLink h =>
    exact ⟨nofun, fun _ => ⟨rfl, rfl, rfl, rfl⟩, nofun, fun _ => .inr rfl, fun k => absurd rfl k, b.2.2.2.2.2⟩
  | iqTakesLoss h k =>
    obtain ⟨-, notUp, -, -, loss, -⟩ := b
    have ready : s.ulc.state = .ready := by_contra fun n => by simp [loss n] at h
    have up : s.ulc.state ≠ .up := by rw [ready]; decide
    refine ⟨fun n => absurd n up, notUp, fun _ => rfl, fun _ => .inl rfl, fun _ => rfl, ?_⟩
    simp [State.iqEmptied, k]
  | takesLoss h =>
    obtain ⟨sum, notUp, down, ready, loss, places⟩ := b
    exact ⟨sum, notUp, down, fun k => (ready k).imp_right h.iq.trans, fun k => h.iq.trans (loss k), places⟩
  | settlesLink =>
    unfold State.settleLink
    split
    · next h =>
      obtain ⟨hr, -, hd⟩ := h
      obtain ⟨-, -, -, ready, -, places⟩ := b
      have none : s.mail.loss.iq = false := by simp [State.lossDone, LossSignals.any] at hd; exact hd.1.1.1.1.1
      exact linkStart_creditsBalance ((ready hr).resolve_right (by simp [none])) none places
    · exact b
  | startsLink =>
    unfold State.ulcStart
    split
    · next hd =>
      obtain ⟨-, notUp, down, -, loss, places⟩ := b
      have none := loss (by rw [hd]; decide)
      split
      · exact linkStart_creditsBalance (down hd) none places
      · exact ⟨nofun, fun _ => notUp (by rw [hd]; decide), nofun, fun _ => .inl (down hd), fun _ => none, places⟩
    · exact b

theorem arrive_creditsBalance (s : State) (frame : List Byte) (hn : s.cu.taking = none) (b : s.CreditsBalance) :
    (s.arrive frame).CreditsBalance := by
  obtain ⟨sum, notUp, down, ready, loss, places⟩ := id b
  rcases arrive_cases s frame with ⟨-, e⟩ | h | ⟨r, h⟩
  · rwa [e]
  · have k := loss (by rw [h.up]; decide)
    refine ⟨fun _ => ?_, fun n => absurd h.ulcState n, fun n => ?_, fun n => ?_, fun _ => ?_, by rwa [h.iq, h.cu]⟩
    · rw [h.credits, h.iq, h.mail]; exact sum h.up
    · rw [h.ulcState] at n; cases n
    · rw [h.ulcState] at n; cases n
    · rw [h.mail]; exact k
  · have k := loss (by rw [h.up]; decide)
    have total := sum h.up
    have used := h.credits
    refine ⟨fun _ => ?_, fun n => absurd h.ulcState n, fun n => ?_, fun n => ?_, fun _ => ?_, ?_⟩
    · rw [h.fifo, h.mail, List.length_append, List.length_singleton]
      dsimp only
      omega
    · rw [h.ulcState] at n; cases n
    · rw [h.ulcState] at n; cases n
    · rw [h.mail]; exact k
    · rw [h.fifo, h.cu, hn, List.length_append, List.length_singleton, Option.toList_none, List.length_nil]
      omega

/-- Settles O5: the credits pass between the ULC, the FIFO and the way back, act by act. -/
theorem stepKeepsCreditsBalance : Obligations.StepKeepsCreditsBalance := by
  unfold Obligations.StepKeepsCreditsBalance
  intro s t b h
  exact step_keeps (P := State.CreditsBalance) (fun _ _ => State.Passes.creditsBalance) (fun _ _ => Act.creditsBalance)
    arrive_creditsBalance (fun _ _ _ => ⟨nofun, fun _ => ⟨rfl, rfl, rfl, rfl⟩, fun _ => rfl, nofun, fun _ => rfl, Nat.zero_le _⟩)
    (fun _ _ k => k) (fun _ _ k => k) b h

/-! ### The tags held -/

theorem State.Passes.tagsHeldOnce {s t : State} (h : s.Passes t) (b : s.TagsHeldOnce) : t.TagsHeldOnce := by
  obtain ⟨once, tags, up, down, notUp, answers, loss, ready⟩ := b
  have mono : ∀ x, x ∈ t.heldTags → x ∈ s.heldTags := fun x hx =>
    List.count_pos_iff.mp ((List.count_pos_iff.mpr hx).trans_le (h.count_le x))
  refine ⟨List.nodup_iff_count_le_one.mpr fun x => (h.count_le x).trans (List.nodup_iff_count_le_one.mp once x),
    by rwa [h.tags], fun k => ?_, fun k => ?_, fun k => ?_, h.aborts answers, fun k => ?_, fun k l => ?_⟩
  · rw [h.ulcState] at k
    rw [h.tags]
    exact ⟨fun x hx => (up k).1 x (mono x hx), fun x hx => h.kept k x ((up k).2 x hx)⟩
  · rw [h.ulcState] at k
    rw [h.tags]
    exact ⟨List.eq_nil_iff_forall_not_mem.mpr fun x hx => by simpa [(down k).1] using mono x hx, (down k).2⟩
  · rw [h.ulcState] at k
    exact ⟨by rw [h.notUp k]; exact (notUp k).1, h.answersNotUp k (notUp k).2⟩
  · rw [h.ulcState] at k
    rw [h.loss]; exact loss k
  · rw [h.ulcState] at k
    rw [h.loss] at l ⊢
    obtain ⟨fifo, none, ott, cu⟩ := ready k l
    exact ⟨h.fifo fifo, by rwa [h.tags], fun n => h.ott fifo (ott n),
      fun n => h.controlUnit fifo (cu n).1 (cu n).2⟩

/-- A state whose requests and tags are those of another, with the link in the same state, holds them as well. -/
theorem tagsHeldOnce_congr {s t : State} (hq : t.ulc.queue = s.ulc.queue) (hs : t.ulc.state = s.ulc.state) (hi : t.iq = s.iq)
    (hc : t.cu = s.cu) (ho : t.ott = s.ott) (ha : t.mail.answers = s.mail.answers) (hb : t.mail.aborts = s.mail.aborts)
    (hl : t.mail.loss = s.mail.loss) (b : s.TagsHeldOnce) : t.TagsHeldOnce := by
  have held : t.heldTags = s.heldTags := by simp [State.heldTags, hq, hi, hc, ho, ha]
  unfold State.TagsHeldOnce at b ⊢
  rw [held, hq, hs, hi, hc, ho, ha, hb, hl]
  exact b

/-- A response that has been sent leaves the queue, and its tag is free again (R10). -/
theorem released_tagsHeldOnce {s t : State} {r : Response} {q : List Response} (b : s.TagsHeldOnce)
    (hr : s.ulc.queue = r :: q) (hq : t.ulc.queue = q) (hs : t.ulc.state = s.ulc.state) (hf : t.iq.fifo = s.iq.fifo)
    (ht : t.iq.tags = s.iq.tags.filter fun x => x != r.tag) (hc : t.cu = s.cu) (ho : t.ott = s.ott) (hm : t.mail = s.mail) :
    t.TagsHeldOnce := by
  obtain ⟨once, tags, up, down, notUp, answers, loss, ready⟩ := b
  have isUp : s.ulc.state = .up := by_contra fun k => by simp [(notUp k).1] at hr
  have isUp' : t.ulc.state = .up := hs.trans isUp
  have held : s.heldTags.Perm (r.tag :: t.heldTags) := by
    simp only [State.heldTags, hr, hq, hf, hc, ho, hm, List.map_cons]
    exact List.perm_middle
  have split := List.nodup_cons.mp (held.nodup_iff.mp once)
  refine ⟨split.2, by rw [ht]; exact tags.filter _, fun _ => ⟨fun x hx => ?_, fun x hx => ?_⟩, fun k => ?_, fun k => absurd isUp' k,
    by rw [hm]; exact answers, fun k => ?_, fun k => ?_⟩
  · rw [ht, List.mem_filter]
    exact ⟨(up isUp).1 x (held.mem_iff.mpr (.tail _ hx)), by simpa using fun e : x = r.tag => split.1 (e ▸ hx)⟩
  · rw [ht, List.mem_filter] at hx
    exact (List.mem_cons.mp (held.mem_iff.mp ((up isUp).2 x hx.1))).resolve_left (by simpa using hx.2)
  · rw [isUp'] at k; cases k
  · rw [hm]; exact loss (by rw [isUp]; decide)
  · rw [isUp'] at k; cases k

theorem transmitted_tagsHeldOnce {s : State} (b : s.TagsHeldOnce) : s.transmitted.TagsHeldOnce := by
  rcases transmitted_cases s with e | ⟨-, bytes, e⟩ | ⟨r, q, -, hr, e⟩
  · rwa [e]
  · obtain ⟨state, -, -, queue⟩ := txDone_ulc s bytes s.ulc.queue
    rw [e]
    exact tagsHeldOnce_congr queue state rfl rfl rfl rfl rfl rfl b
  · obtain ⟨state, -, -, queue⟩ := txDone_ulc s r.bytes q
    rw [e]
    exact released_tagsHeldOnce b hr queue state rfl rfl rfl rfl rfl

/-- LINK START, or READY from DOWN, with nothing held. -/
theorem linkEmpty_tagsHeldOnce {s t : State} (b : s.TagsHeldOnce) (held : s.heldTags = []) (none : s.iq.tags = [])
    (loss : s.mail.loss.any = false) (hd : t.ulc.state ≠ .down) (hu : t.ulc.queue = s.ulc.queue) (hi : t.iq = s.iq)
    (hc : t.cu = s.cu) (ho : t.ott = s.ott) (ha : t.mail.answers = s.mail.answers) (hb : t.mail.aborts = s.mail.aborts)
    (hl : t.mail.loss = s.mail.loss) : t.TagsHeldOnce := by
  have held' : t.heldTags = [] := by rw [← held]; simp [State.heldTags, hu, hi, hc, ho, ha]
  obtain ⟨-, -, -, -, -, answers, -, -⟩ := b
  have parts := held
  simp only [State.heldTags, List.append_eq_nil_iff, List.map_eq_nil_iff, Option.toList_eq_nil_iff] at parts
  obtain ⟨⟨⟨⟨⟨fifo, taking⟩, ott⟩, heldList⟩, waiting⟩, queue⟩ := parts
  refine ⟨by simp [held'], by simp [hi, none], fun _ => by simp [held', hi, none], fun k => absurd k hd,
    fun _ => by rw [hu, ha]; exact ⟨queue, waiting⟩, by rw [ha, hb]; exact answers, fun _ => by rw [hl]; exact loss,
    fun _ _ => by rw [hi, ho, hc]; exact ⟨fifo, none, fun _ => ott, fun _ => ⟨taking, heldList⟩⟩⟩

/-- A link loss is on its way in READY alone. -/
theorem lossSignal_ready {s : State} (b : s.TagsHeldOnce) (h : s.mail.loss.any = true) : s.ulc.state = .ready := by
  obtain ⟨-, -, -, -, -, -, loss, -⟩ := b
  exact by_contra fun k => by simp [loss k] at h

/-- A block takes the loss in READY, with what the Control Unit held dropped when it is that block. -/
theorem takesLoss_tagsHeldOnce {s : State} {l : LossSignals} {held : List HeldItem} (h : s.TakesLoss l held)
    (b : s.TagsHeldOnce) :
    ({ s with cu := { s.cu with held := held }, mail := { s.mail with loss := l } } : State).TagsHeldOnce := by
  have signal := lossSignal_ready b
  obtain ⟨once, tags, up, down, notUp, answers, loss, ready⟩ := b
  have quiet : s.ulc.state ≠ .ready → l.any = false := fun k => by
    by_contra n
    have := h.any (by simpa using n)
    rw [loss k] at this
    cases this
  have same : s.ulc.state ≠ .ready → held = s.cu.held := fun k =>
    h.held.resolve_right fun n => k (signal (by simp [LossSignals.any, n.2]))
  set t : State := { s with cu := { s.cu with held := held }, mail := { s.mail with loss := l } } with ht
  have heldSame : s.ulc.state ≠ .ready → t.heldTags = s.heldTags := fun k => by
    simp only [State.heldTags, ht, same k]
  have fewer : t.heldTags.Sublist s.heldTags := by
    have sub : held.Sublist s.cu.held := by
      rcases h.held with e | ⟨e, -⟩
      · rw [e]
      · rw [e]; exact List.nil_sublist _
    exact (((List.Sublist.refl _).append (sub.map _)).append (.refl _)).append (.refl _)
  refine ⟨once.sublist fewer, tags, fun k => ?_, fun k => ?_, notUp, answers, quiet, fun k n => ?_⟩
  · rw [heldSame (by rw [show s.ulc.state = .up from k]; decide)]; exact up k
  · rw [heldSame (by rw [show s.ulc.state = .down from k]; decide)]; exact down k
  · obtain ⟨fifo, none, ott, cu⟩ := ready k (h.iq ▸ n)
    refine ⟨fifo, none, fun m => (h.ott m).elim ott id, fun m => ?_⟩
    rcases h.controlUnit m with c | c
    · obtain ⟨taking, empty⟩ := cu c
      exact ⟨taking, h.held.elim (fun e => e.trans empty) And.left⟩
    · exact c

theorem Act.tagsHeldOnce {s t : State} (h : Act s t) (b : s.TagsHeldOnce) : t.TagsHeldOnce := by
  cases h with
  | passes h _ => exact h.tagsHeldOnce b
  | transmits => exact transmitted_tagsHeldOnce b
  | losesLink h =>
    obtain ⟨once, tags, -, -, -, -, -, -⟩ := b
    have fewer : s.linkLoss.heldTags.Sublist s.heldTags := by
      have blocks : s.linkLoss.heldTags
          = s.iq.fifo.map (·.tag) ++ s.cu.taking.toList.map (·.tag) ++ s.ott.map (·.tag) ++ s.cu.held.map (·.tag) := by
        simp [State.heldTags, State.linkLoss]
      rw [blocks]
      unfold State.heldTags
      exact (List.sublist_append_left _ _).trans (List.sublist_append_left _ _)
    exact ⟨once.sublist fewer, tags, nofun, nofun, fun _ => ⟨rfl, rfl⟩, fun k => absurd rfl k, fun k => absurd rfl k,
      fun _ k => nomatch k⟩
  | iqTakesLoss h k =>
    have isReady := lossSignal_ready b (by simp [LossSignals.any, h])
    obtain ⟨once, -, -, -, notUp, answers, -, -⟩ := b
    have fewer : s.iqEmptied.heldTags.Sublist s.heldTags := by
      simp only [State.heldTags, List.append_assoc]
      exact List.sublist_append_right _ _
    have isReady' : s.iqEmptied.ulc.state = .ready := isReady
    refine ⟨once.sublist fewer, .nil, ?_, ?_, notUp, fun n => List.mem_append_left _ (answers n), fun n => absurd isReady' n,
      fun _ _ => ⟨rfl, rfl, nofun, nofun⟩⟩
    all_goals rw [isReady']; nofun
  | takesLoss h =>
    exact takesLoss_tagsHeldOnce h b
  | settlesLink =>
    unfold State.settleLink
    split
    · next h =>
      obtain ⟨hr, -, hd⟩ := h
      obtain ⟨-, -, -, -, notUp, -, -, ready⟩ := id b
      have lossTaken : s.mail.loss.any = false := by simp [State.lossDone] at hd; exact hd.1
      have signals := lossTaken
      simp only [LossSignals.any, Bool.or_eq_false_iff] at signals
      obtain ⟨⟨⟨⟨iq, ott⟩, -⟩, controlUnit⟩, -⟩ := signals
      obtain ⟨fifo, none, noOtt, noHand⟩ := ready hr iq
      obtain ⟨queue, waiting⟩ := notUp (by rw [hr]; decide)
      have held : s.heldTags = [] := by
        simp [State.heldTags, fifo, noOtt ott, (noHand controlUnit).1, (noHand controlUnit).2, queue, waiting]
      exact linkEmpty_tagsHeldOnce b held none lossTaken (by simp) rfl rfl rfl rfl rfl rfl rfl
    · exact b
  | startsLink =>
    unfold State.ulcStart
    split
    · next hd =>
      obtain ⟨-, -, -, down, -, -, loss, -⟩ := id b
      obtain ⟨held, none⟩ := down hd
      have lossTaken := loss (by rw [hd]; decide)
      split
      · exact linkEmpty_tagsHeldOnce b held none lossTaken (by simp) rfl rfl rfl rfl rfl rfl rfl
      · exact linkEmpty_tagsHeldOnce b held none lossTaken (by simp) rfl rfl rfl rfl rfl rfl rfl
    · exact b

theorem arrive_tagsHeldOnce (s : State) (frame : List Byte) (b : s.TagsHeldOnce) : (s.arrive frame).TagsHeldOnce := by
  rcases arrive_cases s frame with ⟨-, e⟩ | h | ⟨r, h⟩
  · rwa [e]
  · have hm := h.mail
    exact tagsHeldOnce_congr h.queue (h.ulcState.trans h.up.symm) h.iq h.cu h.ott (by rw [hm]) (by rw [hm]) (by rw [hm]) b
  · obtain ⟨once, tags, up, down, notUp, answers, loss, ready⟩ := b
    have held : (s.arrive frame).heldTags.Perm (r.tag :: s.heldTags) := by
      have waiting : (s.arrive frame).mail.answers = s.mail.answers := by rw [h.mail]
      simp only [State.heldTags, h.queue, h.fifo, h.cu, h.ott, waiting, List.map_append, List.map_cons, List.map_nil,
        List.append_assoc, List.singleton_append]
      exact List.perm_middle
    have new : r.tag ∉ s.heldTags := fun k => h.fresh ((up h.up).1 _ k)
    have mem (x : Tag) : x ∈ (s.arrive frame).heldTags ↔ x = r.tag ∨ x ∈ s.heldTags := by rw [held.mem_iff, List.mem_cons]
    refine ⟨held.nodup_iff.mpr (List.nodup_cons.mpr ⟨new, once⟩), by rw [h.tags]; exact List.nodup_cons.mpr ⟨h.fresh, tags⟩,
      fun _ => ⟨fun x hx => ?_, fun x hx => ?_⟩, fun k => ?_, fun k => absurd h.ulcState k, ?_, fun _ => ?_, fun k => ?_⟩
    · rw [h.tags, List.mem_cons]
      exact ((mem x).mp hx).imp_right ((up h.up).1 x)
    · rw [h.tags, List.mem_cons] at hx
      exact (mem x).mpr (hx.imp_right ((up h.up).2 x))
    · rw [h.ulcState] at k; cases k
    · rw [h.mail]; exact answers
    · rw [h.mail]; exact loss (by rw [h.up]; decide)
    · rw [h.ulcState] at k; cases k

/-- Settles O9: requests pass from block to block, act by act, and none is held twice or lost. -/
theorem stepKeepsTagsHeldOnce : Obligations.StepKeepsTagsHeldOnce := by
  unfold Obligations.StepKeepsTagsHeldOnce
  intro s t b h
  refine step_keeps (P := State.TagsHeldOnce) (fun _ _ => State.Passes.tagsHeldOnce) (fun _ _ => Act.tagsHeldOnce)
    (fun s frame _ => arrive_tagsHeldOnce s frame) (fun _ _ _ => ?_) (fun _ _ k => k) (fun _ _ k => k) b h
  exact ⟨.nil, .nil, nofun, fun _ => ⟨rfl, rfl⟩, fun _ => ⟨rfl, rfl⟩, fun k => absurd rfl k, fun _ => rfl, nofun⟩

/-! ### Credits awaiting return -/

theorem Act.awaitingIsGranted {s t : State} (h : Act s t) (b : s.AwaitingIsGranted) : t.AwaitingIsGranted := by
  unfold State.AwaitingIsGranted at b ⊢
  cases h with
  | passes h _ =>
    have := h.granted
    omega
  | transmits =>
    have sent (bytes : List Byte) (q : List Response) :
        (s.txDone bytes q).ulc.awaiting ≤ (s.txDone bytes q).ulc.credits := by
      obtain ⟨-, credits, awaiting, -⟩ := txDone_ulc s bytes q
      omega
    rcases transmitted_cases s with e | ⟨-, bytes, e⟩ | ⟨r, q, -, -, e⟩
    · rwa [e]
    · rw [e]; exact sent bytes _
    · rw [e]; exact sent r.bytes q
  | losesLink => exact Nat.zero_le _
  | iqTakesLoss => exact b
  | takesLoss => exact b
  | settlesLink =>
    unfold State.settleLink
    split
    · exact Nat.zero_le _
    · exact b
  | startsLink =>
    unfold State.ulcStart
    split
    · split
      · exact Nat.zero_le _
      · exact b
    · exact b

theorem Acts.awaitingIsGranted {s t : State} (h : Acts s t) (b : s.AwaitingIsGranted) : t.AwaitingIsGranted := by
  induction h with
  | refl => exact b
  | tail _ h ih => exact h.awaitingIsGranted ih

/-- A packet that uses a credit which does not await return leaves as many of those as it found, but for one. -/
theorem arrive_credited {s : State} {n : Nat} (frame : List Byte) (h : s.ulc.awaiting + (n + 1) ≤ s.ulc.credits) :
    (s.arrive frame).ulc.awaiting + n ≤ (s.arrive frame).ulc.credits := by
  rcases arrive_cases s frame with ⟨-, e⟩ | k | ⟨r, k⟩
  · rw [e]; omega
  · have := k.credits
    have := k.awaiting
    omega
  · have := k.credits
    have := k.awaiting
    omega

/-- So do several, each with a credit of its own. -/
theorem arrivals_credited (frames : List (List Byte)) {s : State} (h : s.ulc.awaiting + frames.length ≤ s.ulc.credits) :
    (frames.foldl State.arrive s).AwaitingIsGranted := by
  induction frames generalizing s with
  | nil => exact h
  | cons f fs ih => exact ih (arrive_credited f h)

/-- A packet that finds no credit is an overrun, and takes none. -/
theorem arrive_overrun {s : State} (frame : List Byte) (h : s.ulc.credits = 0) (b : s.AwaitingIsGranted) :
    (s.arrive frame).AwaitingIsGranted := by
  unfold State.AwaitingIsGranted at b ⊢
  rcases arrive_cases s frame with ⟨-, e⟩ | k | ⟨r, k⟩
  · rwa [e]
  · rw [k.overrun h, k.credits]; exact b
  · have := k.credits
    omega

/-- Settles O6: the acts only announce credits that are granted, and each packet has a credit that does not await return. -/
theorem stepKeepsAwaitingGranted : Obligations.StepKeepsAwaitingGranted := by
  unfold Obligations.StepKeepsAwaitingGranted
  intro s t b credited h
  unfold step at h
  split at h
  · cases h; exact b
  · next c rest hq =>
    rcases exec_cases c with ⟨accepts, carry, hc, he⟩ | ⟨frame, rfl⟩ | (rfl | rfl) | he
    · rw [he] at h
      cases h
      rcases takeRequest_cases (accepts := accepts) hc { s with pending := rest } with e | ⟨u, hu, -, e⟩
      · rw [e]; exact b
      · rw [e]
        refine arrivals_credited _ ?_
        have granted := hu.granted
        unfold State.AwaitingIsGranted at b
        dsimp only at granted ⊢
        by_cases n : s.mail.arrivals = []
        · rw [n, List.length_nil]; omega
        · have := credited.2 n
          omega
    · cases h
      split
      · exact b
      · rcases credited.1 frame rest hq with k | k
        · exact arrive_credited (n := 0) frame k
        · exact arrive_overrun frame k b
    · cases h; exact Nat.zero_le _
    · cases h; exact Nat.zero_le _
    · obtain ⟨u, e, hu⟩ := he { s with pending := rest }
      rw [e] at h
      cases h
      exact hu.awaitingIsGranted b

end Sys2Proof.Machine
end

section
/-! PROOFS. The upstream link block by block: what the resets, the carrier, the transmitter, a packet and a link loss do. -/

namespace Sys2Proof.Machine

/-! ### The held condition (R189) -/

theorem reset_port (p : PortId) : State.reset.port p = .startUp := get_replicate _ p

theorem startUp_sound : Port.startUp.Sound false :=
  ⟨fun _ => get_replicate _, fun _ => rfl, Nat.zero_le _, by decide, by decide, by decide, by decide, by decide, by decide⟩

theorem cleared_sound : Bank.cleared.Sound := by
  intro i
  simp [Bank.cleared, WindowEntry.wellFormed]

theorem reset_portsSound : State.reset.PortsSound := by
  refine ⟨fun p => ?_, fun p h => ?_, fun p => by simp [State.reset, Mail.atReset, Mail.none]⟩
  · have noStrike : State.reset.strikeFlag p = false := by simp [State.strikeFlag, State.reset, EventUnit.startUp]
    rw [reset_port, noStrike]
    exact startUp_sound
  · rw [reset_port] at h
    cases h

/-- Settles O3: the state after reset, part by part. -/
theorem resetIsTheHeldCondition : Obligations.ResetIsTheHeldCondition := by
  have held : exec .powerOn State.reset = .next State.reset := by
    have ports : (Vector.replicate 8 Port.startUp).map (fun q : Port => q.outOfService .disabled none) = .replicate 8 .startUp :=
      Vector.map_replicate
    change Host.Outcome.next { State.reset with
      ports := (Vector.replicate 8 Port.startUp).map fun q : Port => q.outOfService .disabled none } = _
    rw [ports]
    rfl
  refine ⟨rfl, rfl, rfl, rfl, held, rfl, rfl, rfl, rfl, rfl, fun p => ?_, rfl, rfl, rfl, ?_, ?_, le_rfl,
    ⟨cleared_sound, cleared_sound⟩, reset_portsSound, ?_, ?_, ?_⟩
  · rw [reset_port]
    exact ⟨rfl, get_replicate _⟩
  · exact ⟨rfl, nofun, fun h => absurd rfl h, fun h => absurd rfl h, by decide, by decide⟩
  · exact ⟨nofun, fun _ => ⟨rfl, rfl, rfl, rfl⟩, fun _ => rfl, nofun, fun _ => rfl, Nat.zero_le _⟩
  · exact ⟨.nil, .nil, nofun, fun _ => ⟨rfl, rfl⟩, fun _ => ⟨rfl, rfl⟩, fun h => absurd rfl h, fun _ => rfl, nofun⟩
  · exact ⟨nofun, fun _ => rfl, fun _ => ⟨rfl, rfl, rfl⟩⟩
  · exact ⟨nofun, nofun, nofun⟩

/-- Every port at the assertion of a power-on or pin reset (R109). -/
theorem assertReset_port (s : State) (h : HeldCondition) (p : PortId) :
    (s.assertReset h).port p = (s.port p).outOfService .disabled none := get_map _ _ p

/-- Settles O11: both commands assert the reset, and differ only in the held condition and the pin. -/
theorem assertionHoldsEveryBlock : Obligations.AssertionHoldsEveryBlock := by
  unfold Obligations.AssertionHoldsEveryBlock
  have ports (s : State) (h : HeldCondition) (p : PortId) :
      ((s.assertReset h).port p).egress = [] ∧ (∀ i, ((s.assertReset h).port p).slots.get i = .free)
        ∧ ((s.assertReset h).port p).idle = none ∧ ((s.assertReset h).port p).wake = none := by
    rw [assertReset_port]
    exact ⟨rfl, get_replicate _, rfl, rfl⟩
  rintro s c (rfl | rfl)
  · exact ⟨_, rfl, rfl, rfl, rfl, rfl, rfl, ports s _, rfl, rfl, rfl, nofun, fun _ => rfl, nofun, rfl, rfl, rfl, rfl, rfl, rfl,
      rfl, rfl⟩
  · exact ⟨_, rfl, rfl, rfl, rfl, rfl, rfl, ports s s.rs.pinHeld, rfl, rfl, rfl, nofun, nofun, fun _ => rfl, rfl, rfl, rfl, rfl,
      rfl, rfl, rfl, rfl⟩

/-! ### The carrier (R1, R2) -/

/-- UPLINK_LOSS is always captured, and asserts ALERT_N unless the holdoff timer runs. -/
theorem take_uplinkLoss (eu : EventUnit) :
    eu.take .uplinkLoss = { eu with pending := eu.pending ||| 2, alert := eu.holdoff.isNone } := by
  simp [EventUnit.take, EventUnit.captures, EventUnit.fill, EventUnit.settleAlert, EventUnit.anyPending, Occurrence.bit]

/-- CARRIER_GAINED outside READY only shows at the pin. -/
theorem carrierGained_notReady (s : State) (h : s.ulc.state ≠ .ready) :
    exec .carrierGained s = .next { s with pins := { s.pins with carrier := true } } := by
  change Host.Outcome.next (if s.pins.carrier then s else ({ s with pins := { s.pins with carrier := true } }).settleLink) = _
  split
  · next hc => rw [← hc]
  · exact congrArg Host.Outcome.next (settleLink_waits { s with pins := { s.pins with carrier := true } } (.inl h))

/-- Settles O14, state by state of the ULC. -/
theorem carrierChangesLinkState : Obligations.CarrierChangesLinkState := by
  unfold Obligations.CarrierChangesLinkState
  have lost (s : State) (h : s.ulc.state ≠ .up) :
      exec .carrierLost s = .next { s with pins := { s.pins with carrier := false } } := by
    change Host.Outcome.next (if s.ulc.state = .up then _ else _) = _
    rw [if_neg h]
  have gained (s : State) (h : s.pins.carrier = false) :
      exec .carrierGained s = .next ({ s with pins := { s.pins with carrier := true } } : State).settleLink := by
    change Host.Outcome.next (if s.pins.carrier then _ else _) = _
    rw [h]
    rfl
  intro s
  refine ⟨fun h => ⟨carrierGained_notReady s (by simp [h]), lost s (by simp [h])⟩, fun h => lost s (by simp [h]),
    fun h hc hl hd => ?_, fun h hc hw => ?_, fun h => carrierGained_notReady s (by simp [h]), fun h => ?_⟩
  · rw [gained s hc, settleLink_starts { s with pins := { s.pins with carrier := true } } h rfl hl hd]
    rfl
  · rw [gained s hc, settleLink_waits { s with pins := { s.pins with carrier := true } } (.inr (.inr hw))]
  · change Host.Outcome.next (if s.ulc.state = .up then ({ s with pins := { s.pins with carrier := false } } : State).linkLoss else _) = _
    rw [if_pos h, ← take_uplinkLoss]
    rfl

/-! ### The transmitter (R7 to R10) -/

/-- A busy transmitter takes nothing. -/
theorem Ulc.kick_busy {u : Ulc} (h : u.tx ≠ none) : u.kick = u := by
  unfold Ulc.kick
  rw [if_neg fun k => h k.2]

/-- A free transmitter in UP announces the credits that await return. -/
theorem Ulc.kick_credit {u : Ulc} (h : u.state = .up) (hx : u.tx = none) (ha : u.awaiting ≠ 0) :
    u.kick = { u with tx := some (.credit u.awaiting), awaiting := 0 } := by
  unfold Ulc.kick
  rw [if_pos ⟨h, hx⟩, if_pos (Nat.one_le_iff_ne_zero.mpr ha)]

/-- With no credit awaiting return, a free transmitter in UP takes the head response, if there is one. -/
theorem Ulc.kick_response {u : Ulc} (h : u.state = .up) (hx : u.tx = none) (ha : u.awaiting = 0) :
    u.kick = { u with tx := if u.queue ≠ [] then some .response else none, awaiting := 0 } := by
  obtain ⟨st, cr, aw, q, tx⟩ := u
  subst hx ha
  unfold Ulc.kick
  rw [if_pos ⟨h, rfl⟩, if_neg (Nat.not_succ_le_zero 0)]
  by_cases hq : q = [] <;> simp [hq]

/-- A credit that is returned in UP counts as granted and awaits return, and a free transmitter announces it. -/
theorem Ulc.takeCredits_one (u : Ulc) :
    u.takeCredits 1 = if u.state = .up then
        if u.tx = none then { u with credits := u.credits + 1, awaiting := 0, tx := some (.credit (u.awaiting + 1)) }
        else { u with credits := u.credits + 1, awaiting := u.awaiting + 1 }
      else u := by
  unfold Ulc.takeCredits
  split
  · next h =>
    split
    · next hx => exact Ulc.kick_credit h hx (Nat.succ_ne_zero _)
    · next hx => exact Ulc.kick_busy hx
  · rfl

/-- After a packet has been sent, the transmitter takes the credits awaiting return, else the next response. -/
theorem Ulc.kick_free {u : Ulc} (h : u.state = .up) (hx : u.tx = none) :
    u.kick = { u with
      awaiting := 0
      tx := if u.awaiting ≠ 0 then some (.credit u.awaiting) else if u.queue ≠ [] then some .response else none } := by
  split
  · next ha => exact Ulc.kick_credit h hx ha
  · next ha => exact Ulc.kick_response h hx (not_not.mp ha)

/-- Settles O18. -/
theorem creditReturnAndTransmitDone : Obligations.CreditReturnAndTransmitDone := by
  unfold Obligations.CreditReturnAndTransmitDone
  refine ⟨fun s h => ?_, fun s p rest sent h hp hs => ?_⟩
  · change Host.Outcome.next (if s.mail.creditReturns = 0 then s else _) = _
    rw [if_neg h, Ulc.takeCredits_one]
  · change Host.Outcome.next s.transmitted = _
    have done (bytes : List Byte) (q : List Response) : s.txDone bytes q = { s with
        wire := s.wire ++ [.upstream bytes]
        ulc := { s.ulc with
          queue := q
          awaiting := 0
          tx := if s.ulc.awaiting ≠ 0 then some (.credit s.ulc.awaiting) else if q ≠ [] then some .response else none } } := by
      unfold State.txDone
      rw [Ulc.kick_free (u := { s.ulc with tx := none, queue := q }) h rfl]
      rfl
    have packet (hne : p ≠ .response) (q : List Response) (bytes : List Byte) (e : s.transmitted = s.txDone bytes s.ulc.queue)
        (hq : q = s.ulc.queue) (hb : sent = bytes) : s.transmitted = { s.txDone sent q with
          iq := { s.iq with tags := if p = .response then s.iq.tags.filter (fun x => some x ≠ (s.ulc.queue.head?.map (·.tag)))
            else s.iq.tags } } := by
      rw [if_neg hne, e, hq, hb]
      rfl
    rcases hs with ⟨rfl, hr, hb⟩ | ⟨n, rfl, hr, hb⟩ | ⟨r, rfl, hq, hb⟩
    · rw [packet nofun rest [0xC0, 0, 16, 0, 0, 0, 0, 0] (by simp only [State.transmitted, hp]; rfl) hr hb, done]
    · rw [packet nofun rest _ (by simp only [State.transmitted, hp]; rfl) hr hb, done]
    · have e : s.transmitted = (s.txDone r.bytes rest).releaseTag r.tag := by simp only [State.transmitted, hp, hq]
      have tags : s.iq.tags.filter (fun x => some x ≠ (s.ulc.queue.head?.map (·.tag))) = s.iq.tags.filter (· != r.tag) := by
        refine List.filter_congr fun x _ => ?_
        by_cases hx : x = r.tag <;> simp [hq, hx]
      rw [if_pos rfl, tags, e, done, hb]
      rfl

/-- A response in UP joins the queue at its tail. -/
theorem place_up_eq {s : State} (r : Response) (h : s.ulc.state = .up) :
    s.place r = { s with ulc := { s.ulc with queue := s.ulc.queue ++ [r] }.kick } := by
  unfold State.place
  rw [if_pos h]

/-- Some bit of a mask is set exactly if one of the positions that the mask names is. -/
theorem and_mask_ne_zero {n : Nat} (x mask : BitVec n) :
    (x &&& mask != 0) = (List.finRange n).any fun i => mask.getLsbD i.val && x.getLsbD i.val := by
  rw [Bool.eq_iff_iff, List.any_eq_true, bne_iff_ne]
  constructor
  · intro h
    by_contra k
    refine h (BitVec.eq_of_getLsbD_eq fun i hi => ?_)
    have := fun e => k ⟨⟨i, hi⟩, List.mem_finRange _, e⟩
    simp only [BitVec.getLsbD_and]
    grind
  · rintro ⟨i, -, hi⟩ h
    have := congrArg (·.getLsbD i.val) h
    simp only [BitVec.getLsbD_and] at this
    grind

/-- Bits 0 to 4 of a summary made of five conditions. -/
theorem summary_of_flags (a b c d e : Bool) :
    let x : BitVec 5 := (if a then 0x01 else 0) ||| (if b then 0x02 else 0) ||| (if c then 0x04 else 0)
      ||| (if d then 0x08 else 0) ||| (if e then 0x10 else 0)
    x.getLsbD 0 = a ∧ x.getLsbD 1 = b ∧ x.getLsbD 2 = c ∧ x.getLsbD 3 = d ∧ x.getLsbD 4 = e := by
  revert a b c d e
  decide

/-- The event summary, bit by bit (R161). -/
theorem summary_bits (eu : EventUnit) :
    eu.summary.getLsbD 0 = (eu.pending.getLsbD 0 || eu.pending.getLsbD 1)
      ∧ eu.summary.getLsbD 1
          = (eu.pending.getLsbD 2 || eu.pending.getLsbD 3 || eu.pending.getLsbD 4 || eu.pending.getLsbD 5)
      ∧ eu.summary.getLsbD 2 = (eu.pending.getLsbD 7 || eu.strikes != 0 || eu.quarantines != 0)
      ∧ eu.summary.getLsbD 3 = eu.pending.getLsbD 6
      ∧ eu.summary.getLsbD 4 = (eu.pending.getLsbD 8 || eu.pending.getLsbD 9) := by
  obtain ⟨system, traffic, port, link, plan⟩ := summary_of_flags (eu.pending &&& 0x003 != 0) (eu.pending &&& 0x03C != 0)
    (eu.pending &&& 0x080 != 0 || eu.strikes != 0 || eu.quarantines != 0) (eu.pending &&& 0x040 != 0)
    (eu.pending &&& 0x300 != 0)
  refine ⟨system.trans ?_, traffic.trans ?_, port.trans ?_, link.trans ?_, plan.trans ?_⟩ <;>
    · rw [and_mask_ne_zero]
      simp [List.finRange_succ, Bool.or_assoc]

/-- Settles O19. -/
theorem replyJoinsTheQueue : Obligations.ReplyJoinsTheQueue := by
  unfold Obligations.ReplyJoinsTheQueue
  intro s t st contents
  refine ⟨fun h => ?_, fun h => ?_, summary_bits s.eu⟩
  · unfold State.reply State.place
    rw [if_neg h]
  · let u : Ulc := { s.ulc with queue := s.ulc.queue ++ [⟨.control, t, st, s.eu.summary, contents⟩] }
    obtain ⟨state, credits, -, queue, -⟩ := Ulc.kick_frame u
    refine ⟨u.kick, place_up_eq _ h, queue, state.trans h, credits, fun hx => ?_, fun hx ha => ?_, fun hx ha => ?_⟩
    · rw [Ulc.kick_busy (u := u) hx]
      exact ⟨rfl, rfl⟩
    · rw [Ulc.kick_response (u := u) h hx ha]
      simp [u]
    · rw [Ulc.kick_credit (u := u) h hx ha]
      exact ⟨rfl, rfl⟩

/-! ### Packets (R5, R6, R20) -/

/-- With nothing in hand, or out of UP, a packet is taken as it arrives. -/
theorem exec_packetArrival (s : State) (frame : List Byte) (h : ¬(s.ulc.state = .up ∧ s.cu.taking ≠ none)) :
    exec (.packetArrival frame) s = .next (s.arrive frame) := congrArg _ (if_neg h)

/-- Outside a power-on or pin reset an occurrence sets out for the Event Unit. -/
theorem report_sent {s : State} (h : s.underReset = false) (o : Occurrence) :
    s.report o = { s with mail := { s.mail with occurrences := s.mail.occurrences ++ [o] } } := by
  unfold State.report
  rw [h]
  rfl

/-- A packet whose credit is returned leaves the credits as they were, with one more awaiting return or announced (R7). -/
theorem discardPacket_eq {s : State} (h : s.ulc.state = .up) (hc : s.ulc.credits ≠ 0) :
    s.discardPacket = { s with
      ulc := if s.ulc.tx = none then { s.ulc with awaiting := 0, tx := some (.credit (s.ulc.awaiting + 1)) }
        else { s.ulc with awaiting := s.ulc.awaiting + 1 } } := by
  unfold State.discardPacket
  rw [Ulc.takeCredits_one, if_pos h]
  simp only [Nat.sub_add_cancel (Nat.one_le_iff_ne_zero.mpr hc)]

/-- A packet with a credit is refused when its form or its tag is at fault (R6, R20). -/
theorem arrive_refused {s : State} {frame : List Byte} {kind : LinkFaultKind} {tag : Option Tag} (h : s.ulc.state = .up)
    (hc : s.ulc.credits ≠ 0)
    (hf : (parseFrame frame = none ∧ kind = .malformedUpstream ∧ tag = frameTag frame)
      ∨ (∃ r, parseFrame frame = some r ∧ r.tag ∈ s.iq.tags ∧ kind = .tagClash ∧ tag = some r.tag)) :
    s.arrive frame = s.discardPacket.upstreamFault kind tag := by
  unfold State.arrive
  rw [if_neg (not_not_intro h), if_neg hc]
  rcases hf with ⟨hp, rfl, rfl⟩ | ⟨r, hp, hr, rfl, rfl⟩
  · rw [hp]
  · rw [hp]
    exact if_pos hr

/-- A new head waits while start-up is due (R23). -/
theorem newHead_startWait {s : State} (hf : s.iq.fifo ≠ []) (hs : s.startHold = true) :
    s.newHead = { s with iq := { s.iq with cond := .startWait } } := by
  unfold State.newHead
  rw [if_neg hf, if_pos hs]

/-- Otherwise a new head is to be attempted (R23). -/
theorem newHead_fresh {s : State} (hf : s.iq.fifo ≠ []) (hs : s.startHold = false) :
    s.newHead = ({ s with iq := { s.iq with cond := .fresh } } : State).attemptDue .newHead := by
  unfold State.newHead
  rw [if_neg hf, if_neg (by simp [hs])]

/-- A request is carried out with one packet behind it. -/
theorem takeRequest_with_arrival {s : State} {t : Tag} {payload : List Byte} (frame : List Byte) (h : s.Takes t payload)
    {accepts : List Byte → Bool} (ha : accepts payload = true) (carry : State → Tag → List Byte → State) :
    ({ s with mail := { s.mail with arrivals := [frame] } } : State).takeRequest accepts carry
      = (carry s.inHand t payload).arrive frame := by
  obtain ⟨taking, returns, none⟩ := h
  have mail : ({ s.mail with arrivals := [] } : Mail) = s.mail := by rw [← none]
  unfold State.takeRequest
  simp only [taking]
  rw [if_pos ⟨returns, ha⟩, mail]
  rfl

/-- A packet that waits behind the request in hand is taken after it, whatever command takes the request (R24, log 6). -/
theorem exec_with_arrival {s u : State} {c : Instr} {t : Tag} {payload : List Byte} (frame : List Byte)
    (h : s.Takes t payload) (hu : exec c s = .next u) (hn : u.cu.taking = none) :
    exec c { s with mail := { s.mail with arrivals := [frame] } } = exec (.packetArrival frame) u := by
  rw [exec_packetArrival u frame fun k => k.2 hn]
  have inHand : s.cu.taking ≠ none := by simp [h.1]
  rcases exec_cases c with ⟨accepts, carry, -, he⟩ | ⟨f, rfl⟩ | hr | he
  · rw [he] at hu ⊢
    cases hu
    by_cases ha : accepts payload = true
    · rw [State.takeRequest_takes h ha, takeRequest_with_arrival frame h ha]
    · have stays : s.takeRequest accepts carry = s := by
        unfold State.takeRequest
        rw [h.1]
        exact if_neg fun k => ha k.2
      rw [stays] at hn
      exact absurd hn inHand
  · have stays : u.cu = s.cu := by
      change Host.Outcome.next (if s.ulc.state = .up ∧ s.cu.taking ≠ none then _ else _) = _ at hu
      split at hu
      · cases hu; rfl
      · cases hu; rw [(arrive_frame s f).1]
    rw [stays] at hn
    exact absurd hn inHand
  · have down : u.ulc.state ≠ .up := by
      rcases hr with rfl | rfl <;> cases hu <;> exact nofun
    rw [arrive_notUp u frame down, ← hu]
    rcases hr with rfl | rfl <;> rfl
  · obtain ⟨v, e, hv⟩ := he s
    rw [e] at hu
    cases hu
    rw [hv.taking inHand] at hn
    exact absurd hn inHand

/-- Settles O16, check by check. -/
theorem packetArrivalChecks : Obligations.PacketArrivalChecks := by
  unfold Obligations.PacketArrivalChecks
  refine ⟨fun s frame => ⟨fun h => ⟨rfl, ?_⟩, fun h k => congrArg _ (if_pos ⟨h, k⟩), fun c t payload u h hu hn =>
    exec_with_arrival frame h hu hn, fun h hn hr => ⟨fun hc => ?_, fun kind tag hf hc => ?_⟩⟩, fun s frame r h hn hc hp hr => ?_⟩
  · rw [exec_packetArrival s frame fun k => h k.1, arrive_notUp s frame h]
  · rw [exec_packetArrival s frame fun k => k.2 hn]
    unfold State.arrive
    rw [if_neg (not_not_intro h), if_pos hc]
    exact congrArg _ (report_sent hr _)
  · rw [exec_packetArrival s frame fun k => k.2 hn, arrive_refused h hc hf]
    unfold State.upstreamFault
    rw [report_sent (s := s.discardPacket) hr, discardPacket_eq h hc]
  · refine ⟨_, exec_packetArrival s frame fun k => k.2 hn, ?_⟩
    have taken : s.arrive frame = s.enqueue r := by
      unfold State.arrive
      rw [if_neg (not_not_intro h), if_neg hc, hp]
      exact if_neg hr
    rw [taken]
    let v : State := { s with
      ulc := { s.ulc with credits := s.ulc.credits - 1 }
      iq := { s.iq with fifo := s.iq.fifo ++ [r], tags := r.tag :: s.iq.tags } }
    have some : v.iq.fifo ≠ [] := by simp [v]
    by_cases hf : s.iq.fifo = []
    · rw [show s.enqueue r = v.newHead from if_pos hf]
      cases hs : s.startHold with
      | true =>
        rw [newHead_startWait some hs]
        exact ⟨rfl, rfl, rfl, rfl, fun k => absurd hf k, fun _ _ => ⟨rfl, rfl⟩, nofun, rfl⟩
      | false =>
        rw [newHead_fresh some hs]
        exact ⟨rfl, rfl, rfl, rfl, fun k => absurd hf k, nofun, fun _ _ => ⟨rfl, attemptDue_mem _ _⟩, rfl⟩
    · rw [show s.enqueue r = v from if_neg hf]
      exact ⟨rfl, rfl, rfl, rfl, fun _ => ⟨rfl, rfl⟩, fun k => absurd k hf, fun k => absurd k hf, rfl⟩

/-! ### The link loss (R2, R32, R108, R155, R173) -/

/-- A carrier that may be acted on reaches the ULC and what is on its way to it. -/
theorem settleLink_frame (s : State) : s.settleLink = { s with ulc := s.settleLink.ulc, mail := s.settleLink.mail } := by
  unfold State.settleLink
  split <;> rfl

/-- What follows when the last block has taken the loss: the link starts, or the drain's swap is waited for (log 26). -/
theorem settleLink_lastTaken {u : State} (hr : u.ulc.state = .ready) (hc : u.pins.carrier = true) (hl : u.mail.loss.any = false) :
    (u.ps.op.drains = false → u.settleLink.ulc.state = .up ∧ u.settleLink.ulc.credits = 16 ∧ u.settleLink.ulc.awaiting = 0
        ∧ u.settleLink.ulc.tx = some .linkStart)
      ∧ (u.ps.op.drains = true → u.settleLink = u) := by
  refine ⟨fun hd => ?_, fun hd => settleLink_waits u (.inr (.inr (.inr hd)))⟩
  rw [settleLink_starts u hr hc hl hd]
  exact ⟨rfl, rfl, rfl, rfl⟩

/-- The Plan Store with the loss taken, before a carrier is acted on. -/
def State.planStoreLoss (s : State) : State :=
  { s with
    ps := { s.ps with op := s.ps.op.oweNothing }
    mail := { s.mail with loss := { s.mail.loss with planStore := false } } }

/-- The Control Unit with the loss taken, before a carrier is acted on. -/
def State.controlUnitLoss (s : State) : State :=
  { s with
    cu := { s.cu with held := [] }
    mail := { s.mail with loss := { s.mail.loss with controlUnit := false } } }

/-- The ports with the loss taken, before a carrier is acted on. -/
def State.portsLoss (s : State) : State :=
  { s.returnWaking with mail := { s.returnWaking.mail with loss := { s.returnWaking.mail.loss with ports := false } } }

/-- The OTT with the loss of the only abort on its way taken, before a carrier is acted on. -/
def State.ottLoss (s : State) (o : Order) : State :=
  let t := ({ s with mail := { s.mail with aborts := [] } } : State).abort o
  { t with mail := { t.mail with loss := { t.mail.loss with ott := false } } }

theorem exec_linkLossPlanStore {s : State} (h : s.mail.loss.planStore = true) :
    exec .linkLossPlanStore s = .next s.planStoreLoss.settleLink := congrArg _ (if_pos h)

theorem exec_linkLossControlUnit {s : State} (h : s.mail.loss.controlUnit = true) (hn : s.cu.taking = none) :
    exec .linkLossControlUnit s = .next s.controlUnitLoss.settleLink := congrArg _ (if_pos ⟨h, hn⟩)

theorem exec_linkLossPorts {s : State} (h : s.mail.loss.ports = true) :
    exec .linkLossPorts s = .next s.portsLoss.settleLink := congrArg _ (if_pos h)

theorem exec_ottAbort_linkLoss {s : State} (o : Order) (h : s.mail.aborts = [.linkLoss]) :
    exec (.ottAbort ⟨0, o⟩) s = .next (s.ottLoss o).settleLink := by
  change execOttAbort ⟨0, o⟩ s = _
  unfold execOttAbort
  rw [h]
  rfl

/-- What the return to PARKED leaves as it was. -/
theorem returnWaking_frame (s : State) : s.returnWaking = { s with ports := s.returnWaking.ports, mail := s.returnWaking.mail } := by
  have wire : s.returnWaking.wire = s.wire := by simp [State.returnWaking]
  have ott : s.returnWaking.ott = s.ott := by simp [State.returnWaking]
  have ulc : s.returnWaking.ulc = s.ulc := by simp [State.returnWaking]
  have c := s.returnWaking_carries
  generalize s.returnWaking = t at wire ott ulc c ⊢
  cases t
  simp only [State.mk.injEq]
  exact ⟨c.pending, c.pins, ulc, c.iq, c.ps, ott, trivial, c.cu, c.eu, c.tb, c.rs, trivial, wire⟩

theorem portsLoss_frame (s : State) : s.portsLoss = { s with ports := s.portsLoss.ports, mail := s.portsLoss.mail } := by
  unfold State.portsLoss
  rw [returnWaking_frame]

theorem portsLoss_loss (s : State) : s.portsLoss.mail.loss = { s.mail.loss with ports := false } := by
  have : s.returnWaking.mail.loss = s.mail.loss := s.returnWaking_carries.loss
  unfold State.portsLoss
  rw [this]

theorem ottLoss_loss (s : State) (o : Order) : (s.ottLoss o).mail.loss = { s.mail.loss with ott := false } := by
  have loss : (({ s with mail := { s.mail with aborts := [] } } : State).abort o).mail.loss = s.mail.loss :=
    (State.abort_carries _ o).loss
  unfold State.ottLoss
  dsimp only
  rw [loss]

/-- What each block does at the loss (R2, R32, R108, R155, R173). -/
theorem loss_taken (s : State) :
    (s.mail.loss.planStore = true →
        ∃ t, exec .linkLossPlanStore s = .next t ∧ t.ps = { s.ps with op := s.ps.op.oweNothing }
          ∧ t.mail.loss = { s.mail.loss with planStore := false } ∧ t = { s with ps := t.ps, ulc := t.ulc, mail := t.mail })
    ∧ (s.mail.loss.controlUnit = true → s.cu.taking = none →
        ∃ t, exec .linkLossControlUnit s = .next t ∧ t.cu = ⟨none, []⟩
          ∧ t.mail.loss = { s.mail.loss with controlUnit := false }
          ∧ t = { s with cu := t.cu, ulc := t.ulc, mail := t.mail })
    ∧ (s.mail.loss.ports = true →
        ∃ t, exec .linkLossPorts s = .next t
          ∧ (∀ p, t.port p = if (s.port p).state = .waking ∧ (s.port p).egress = [] ∧ s.claims p = [] then
                { s.port p with state := .parked, wake := none } else s.port p)
          ∧ (∀ p, t.port p ≠ s.port p → AttemptEvent.portChanged p ∈ t.mail.attempts)
          ∧ (∀ p, p ∈ t.mail.returns ↔ p ∈ s.mail.returns
              ∨ ((s.port p).state = .waking ∧ ((s.port p).egress ≠ [] ∨ s.claims p ≠ [])))
          ∧ t.mail.loss = { s.mail.loss with ports := false }
          ∧ t = { s with ports := t.ports, ulc := t.ulc, mail := t.mail }) := by
  refine ⟨fun h => ⟨_, exec_linkLossPlanStore h, by simp [State.planStoreLoss], by simp [State.planStoreLoss], ?_⟩,
    fun h hn => ⟨_, exec_linkLossControlUnit h hn, by simp [State.controlUnitLoss, hn], by simp [State.controlUnitLoss], ?_⟩,
    fun h => ⟨_, exec_linkLossPorts h, fun p => ?_, fun p hp => ?_, fun p => ?_, ?_, ?_⟩⟩
  · rw [settleLink_frame]
    rfl
  · rw [settleLink_frame]
    rfl
  · rw [State.port_congr (State.settleLink_ports _)]
    exact returnWaking_port s p
  · rw [State.settleLink_attempts]
    rw [State.port_congr (State.settleLink_ports _)] at hp
    exact returnWaking_attempts s p hp
  · rw [State.settleLink_returns]
    exact mem_returnWaking_returns s p
  · rw [State.settleLink_loss, portsLoss_loss]
  · rw [settleLink_frame, portsLoss_frame]

/-- The block that takes the loss last lets a carrier be acted on, or leaves it to the drain's swap (R2, log 26). -/
theorem lastBlock_settles {s u : State} {c : Instr} (he : exec c s = .next u.settleLink) (hr : s.ulc.state = .ready)
    (hp : s.pins.carrier = true) (hu : u.ulc = s.ulc) (hpins : u.pins = s.pins) (hl : u.mail.loss.any = false)
    (hd : u.ps.op.drains = s.ps.op.drains) :
    ∃ t, exec c s = .next t
      ∧ (s.ps.op.drains = false →
          t.ulc.state = .up ∧ t.ulc.credits = 16 ∧ t.ulc.awaiting = 0 ∧ t.ulc.tx = some .linkStart)
      ∧ (s.ps.op.drains = true → t.ulc = s.ulc ∧ t.mail.loss.any = false ∧ t.ps.op.drains = true) := by
  obtain ⟨starts, waits⟩ := settleLink_lastTaken (hu ▸ hr) (hpins ▸ hp) hl
  refine ⟨_, he, fun h => starts (hd.trans h), fun h => ?_⟩
  rw [waits (hd.trans h)]
  exact ⟨hu, hl, hd.trans h⟩

/-- What the end of a drain leaves of the ULC, the carrier, the signals of a loss, the gate and the plans (R151). -/
theorem endDrain_does (s : State) (escalated owed : Bool) (t : Tag) :
    (s.endDrain escalated owed t).ulc = s.ulc ∧ (s.endDrain escalated owed t).pins = s.pins
      ∧ (s.endDrain escalated owed t).mail.loss = s.mail.loss ∧ (s.endDrain escalated owed t).iq = { s.iq with gate := .opened }
      ∧ (s.endDrain escalated owed t).ps
          = { s.ps with active := s.ps.active.other, generation := s.ps.generation + 1, op := .idle } := by
  have iq : s.exchange.iq = { s.iq with gate := .opened } := rfl
  have ps : s.exchange.ps = { s.ps with active := s.ps.active.other, generation := s.ps.generation + 1, op := .idle } := rfl
  unfold State.endDrain State.swap
  simp only
  split <;> simp [iq, ps]

/-- Settles O15, block by block. -/
theorem lossTakenByEachBlock : Obligations.LossTakenByEachBlock := by
  unfold Obligations.LossTakenByEachBlock
  refine ⟨fun s => ⟨fun _ h => congrArg _ (if_neg fun k => h k.2), fun h k => congrArg _ (if_pos ⟨h, k⟩), loss_taken s⟩, ?_, ?_⟩
  · intro s c hr hp hc
    rcases hc with ⟨rfl, hl⟩ | ⟨rfl, hl, hn⟩ | ⟨rfl, hl⟩ | ⟨⟨o, rfl⟩, hl, ha⟩
    · exact lastBlock_settles (exec_linkLossPlanStore (by rw [hl])) hr hp rfl rfl (by simp [State.planStoreLoss, hl, LossSignals.any])
        (oweNothing_drains _)
    · exact lastBlock_settles (exec_linkLossControlUnit (by rw [hl]) hn) hr hp rfl rfl
        (by simp [State.controlUnitLoss, hl, LossSignals.any]) rfl
    · have frame := portsLoss_frame s
      exact lastBlock_settles (exec_linkLossPorts (by rw [hl])) hr hp (by rw [frame]) (by rw [frame])
        (by rw [portsLoss_loss, hl]; rfl) (by rw [frame])
    · have c := State.abort_carries { s with mail := { s.mail with aborts := [] } } o
      exact lastBlock_settles (exec_ottAbort_linkLoss o ha) hr hp (c.notUp fun h => nomatch hr.symm.trans h) c.pins
        (by rw [ottLoss_loss, hl]; rfl) (congrArg (·.op.drains) c.ps)
  · intro s m e d o x hr hp hl hop hott hempty
    let u : State := { s with mail := { s.mail with emptyReports := s.mail.emptyReports - 1 } }
    obtain ⟨ulc, pins, loss, iq, ps⟩ := endDrain_does u e o x
    have ended : exec .ottEmptyReport s = .next (u.endDrain e o x).settleLink := by
      change execOttEmptyReport s = _
      unfold execOttEmptyReport
      rw [if_neg hempty]
      simp only [hop]
      exact congrArg _ (if_pos hott)
    obtain ⟨starts, -⟩ := settleLink_lastTaken (u := u.endDrain e o x) (ulc ▸ hr) (pins ▸ hp) (loss ▸ hl)
    obtain ⟨a, b, c, d⟩ := starts (by rw [ps]; rfl)
    exact ⟨_, ended, a, b, c, d, by rw [State.settleLink_iq, iq], by rw [State.settleLink_ps, ps]⟩

/-! ### Start-up complete (R191, R192) -/

theorem startValues_port (s : State) (p : PortId) : s.startValues.port p = .startUp := get_replicate _ p

/-- The start plan EMPTY loads nothing (R192). -/
theorem loadStartPlan_empty {s : State} (h : s.rs.sample = .empty) : s.loadStartPlan = s := by
  unfold State.loadStartPlan
  rw [h]

/-- Bank A with the pass-through window. -/
def State.passBank (s : State) : State := { s with ps := { s.ps with bankA := s.ps.bankA.setWindow 0 (.loaded passWindow) } }

/-- The start plan PASS loads one window, and T0 is activated or is to be (R192). -/
theorem loadStartPlan_pass {s : State} (h : s.rs.sample = .pass) :
    s.loadStartPlan = if s.pins.link.get 0 then s.passBank.activate 0
      else s.passBank.setPort 0 { s.port 0 with autoEnable := true } := by
  unfold State.loadStartPlan
  rw [h]
  rfl

theorem loadStartPlan_ps_of_pass {s : State} (h : s.rs.sample = .pass) : s.loadStartPlan.ps = s.passBank.ps := by
  rw [loadStartPlan_pass h]
  split <;> simp

/-- A port that is activated with nothing held, seen from every port (R103). -/
theorem activate_port (s : State) (p q : PortId) (h : (s.port p).idlePark = 0) :
    (s.activate p).port q
      = if p = q then { (s.port p).outOfService .active none with autoEnable := false } else s.port q := by
  let x : Port := { (s.port p).outOfService .active none with autoEnable := false }
  have idles (b : Bool) : x.idles b = false := by simp [Port.idles, x, Port.outOfService, h]
  have stood (r : PortId) : ((s.setPort p x).attemptDue (.portChanged p)).port r = (s.setPort p x).port r :=
    State.port_congr (State.attemptDue_ports _ _) r
  change (((s.setPort p x).attemptDue (.portChanged p)).settleIdle p).port q = _
  split
  · next e =>
    subst e
    rw [settleIdle_port, stood, State.port_setPort, idles]
    rfl
  · next e =>
    unfold State.settleIdle
    rw [State.port_setPort_ne _ _ e, stood, State.port_setPort_ne _ _ e]

theorem loadStartPlan_port_ne (s : State) {p : PortId} (hp : p ≠ 0) (hi : (s.port 0).idlePark = 0) :
    s.loadStartPlan.port p = s.port p := by
  cases h : s.rs.sample with
  | empty => rw [loadStartPlan_empty h]
  | pass =>
    rw [loadStartPlan_pass h]
    split
    · rw [activate_port _ 0 p (by exact hi), if_neg hp.symm]
      rfl
    · exact State.port_setPort_ne _ _ hp.symm

/-- T0 under the start plan PASS with its link UP, and with its link DOWN (R192). -/
theorem loadStartPlan_port_zero {s : State} (h : s.rs.sample = .pass) (hi : (s.port 0).idlePark = 0) :
    (s.pins.link.get 0 = true →
        s.loadStartPlan.port 0 = { (s.port 0).outOfService .active none with autoEnable := false })
      ∧ (s.pins.link.get 0 = false → s.loadStartPlan.port 0 = { s.port 0 with autoEnable := true }) := by
  rw [loadStartPlan_pass h]
  refine ⟨fun k => ?_, fun k => ?_⟩
  · rw [if_pos k, activate_port _ 0 0 (by exact hi), if_pos rfl]
    rfl
  · rw [if_neg (by simp [k])]
    exact State.port_setPort _ _ _

/-- The state after START_UP_COMPLETE. -/
def State.startedUp (s : State) : State :=
  let s1 := s.startValues.loadStartPlan.capture .resetDone
  ({ s1 with rs := { s1.rs with state := .running } } : State).ulcStart.attemptDue .startUpComplete

theorem startedUp_port (s : State) (p : PortId) : s.startedUp.port p = s.startValues.loadStartPlan.port p :=
  State.port_congr (by simp [State.startedUp]) p

theorem startedUp_ps (s : State) : s.startedUp.ps = s.startValues.loadStartPlan.ps := by simp [State.startedUp]

/-- RESET_DONE is pending from the start values on, and ALERT_N asserted. -/
theorem startUp_take_resetDone : EventUnit.startUp.take .resetDone =
    { pending := 1, strikes := 0, quarantines := 0, strayPorts := 0, enables := 0x7C, faultRecord := none,
      linkFaultRecord := none, holdoffSetting := 16, holdoff := none, alert := true } := rfl

/-- The start plan leaves the registers of the Plan Store and bank B as they were (R192). -/
theorem loadStartPlan_ps (s : State) :
    s.loadStartPlan.ps.active = s.ps.active ∧ s.loadStartPlan.ps.generation = s.ps.generation
      ∧ s.loadStartPlan.ps.op = s.ps.op ∧ s.loadStartPlan.ps.drainTimeout = s.ps.drainTimeout
      ∧ s.loadStartPlan.ps.bankB = s.ps.bankB := by
  cases h : s.rs.sample with
  | empty => rw [loadStartPlan_empty h]; exact ⟨rfl, rfl, rfl, rfl, rfl⟩
  | pass => rw [loadStartPlan_ps_of_pass h]; exact ⟨rfl, rfl, rfl, rfl, rfl⟩

/-- Step 7 of start-up at the ULC, from each of its states (R1). -/
theorem ulcStart_does (s : State) :
    (s.ulc.state = .down → s.pins.carrier = true → s.ulcStart.ulc = s.linkStart.ulc)
      ∧ (s.ulc.state = .down → s.pins.carrier = false → s.ulcStart.ulc = { s.ulc with state := .ready })
      ∧ (s.ulc.state ≠ .down → s.ulcStart.ulc = s.ulc) := by
  unfold State.ulcStart
  refine ⟨fun h k => ?_, fun h k => ?_, fun h => ?_⟩
  · rw [if_pos h, if_pos k]
  · rw [if_pos h, if_neg (by simp [k])]
  · rw [if_neg h]

/-- Settles O13, block by block. -/
theorem startUpCompleteSetsEveryBlock : Obligations.StartUpCompleteSetsEveryBlock := by
  unfold Obligations.StartUpCompleteSetsEveryBlock
  intro s h fresh
  have started : exec .startUpComplete s = .next s.startedUp := congrArg _ (if_pos h)
  let v := s.startValues
  have port (p : PortId) : v.port p = fresh := startValues_port s p
  have noPark : (v.port 0).idlePark = 0 := by rw [port]
  obtain ⟨active, generation, op, drain, bankB⟩ := loadStartPlan_ps v
  let w : State := { v.loadStartPlan.capture .resetDone with rs := { v.loadStartPlan.rs with state := .running } }
  have ulc : s.startedUp.ulc = w.ulcStart.ulc := rfl
  have same : w.ulc = s.ulc := by simp [w, v]
  have pins : w.pins = s.pins := by simp [w, v]
  obtain ⟨up, ready, stays⟩ := ulcStart_does w
  rw [same, pins] at up ready
  rw [same] at stays
  refine ⟨_, started, by simp [State.startedUp], ?_, ?_, ?_, ?_, ?_, ?_, ?_, ?_, attemptDue_mem _ _, fun p hp => ?_,
    fun he => ⟨?_, ?_⟩, fun hpass => ?_, fun hd hc => ?_, fun hd hc => ?_, fun hd => ?_, ?_⟩
  · have : s.startedUp.eu = EventUnit.startUp.take .resetDone := by
      simp only [State.startedUp, State.attemptDue_eu, State.ulcStart_eu, State.capture_eu, State.loadStartPlan_eu]
      rfl
    rw [this, startUp_take_resetDone]
  · simp only [State.startedUp, State.attemptDue_tb, State.ulcStart_tb, State.capture_tb, State.loadStartPlan_tb]
    rfl
  · rw [startedUp_ps]; exact active
  · rw [startedUp_ps]; exact generation
  · rw [startedUp_ps]; exact op
  · rw [startedUp_ps]; exact drain
  · rw [startedUp_ps]; exact bankB
  · simp only [State.startedUp, State.attemptDue_iq, State.ulcStart_iq, State.capture_iq, State.loadStartPlan_iq]
    rfl
  · rw [startedUp_port, loadStartPlan_port_ne _ hp noPark]
    exact port p
  · rw [startedUp_port, loadStartPlan_empty (s := s.startValues) he]
    exact port 0
  · rw [startedUp_ps, loadStartPlan_empty (s := s.startValues) he]
    rfl
  · obtain ⟨linkUp, linkDown⟩ := loadStartPlan_port_zero (s := v) hpass noPark
    rw [startedUp_ps, startedUp_port, loadStartPlan_ps_of_pass (s := s.startValues) hpass]
    refine ⟨(get_set _ 0 0 _).trans (if_pos rfl), (get_set _ 0 0 _).trans (if_pos rfl),
      fun i hi => (get_set _ 0 i _).trans (if_neg hi.symm), rfl, fun k => (linkUp k).trans ?_, fun k => (linkDown k).trans ?_⟩
    all_goals rw [port]
    rfl
  · rw [ulc, up hd hc]
    exact ⟨rfl, rfl, rfl, rfl⟩
  · rw [ulc, ready hd hc]
  · rw [ulc, stays hd]
  · simp [State.startedUp]

end Sys2Proof.Machine
end

section
/-! PROOFS. Bytes: the header of a request, the records of window and page entries, and the loads that bring them to the staged
bank. -/

namespace Sys2Proof.Machine

/-! ### Bytes, least significant first -/

/-- Bytes written read back, as far as they reach. -/
theorem leNat_leBytes (n x : Nat) : leNat (leBytes n x) = x % 256 ^ n := by
  induction n generalizing x with
  | zero => simp [leBytes, leNat, Nat.mod_one]
  | succ n ih =>
    rw [leBytes, leNat, ih, BitVec.toNat_ofNat, pow_succ' 256 n]
    exact Nat.mod_mul.symm

theorem leNat_leBytes_of_lt {n x : Nat} (h : x < 256 ^ n) : leNat (leBytes n x) = x := by
  rw [leNat_leBytes, Nat.mod_eq_of_lt h]

/-- A field is its first byte and the field behind it. -/
theorem leField_succ (bs : List Byte) (i n : Nat) :
    leField bs i (n + 1) = (byteAt bs i).toNat + 256 * leField bs (i + 1) n := by
  unfold leField byteAt
  by_cases h : i < bs.length
  · rw [List.drop_eq_getElem_cons h, List.take_succ_cons, leNat, List.getD_eq_getElem _ _ h]
  · have past : ∀ j, i ≤ j → bs.drop j = [] := fun j hj => List.drop_eq_nil_of_le (by omega)
    rw [past i le_rfl, past (i + 1) (Nat.le_succ i), List.getD_eq_default _ _ (by omega)]
    simp [leNat]

@[simp] theorem leField_zero (bs : List Byte) (i : Nat) : leField bs i 0 = 0 := by simp [leField, leNat]

/-! ### The form check (R6, R11) -/

/-- The tag survives its byte. -/
theorem tag_of_byte (t : Tag) : (t.setWidth 8).setWidth 6 = t := by
  rw [BitVec.setWidth_setWidth_of_le _ (by decide), BitVec.setWidth_eq]

/-- A frame of a wrong length is malformed (R6). -/
theorem parseFrame_length {frame : List Byte} (h : frame.length < 12 ∨ 268 < frame.length) : parseFrame frame = none := if_pos h

/-- A frame of no kind is malformed (R6). -/
theorem parseFrame_kind {frame : List Byte} (h1 : byteAt frame 0 ≠ 1) (h2 : byteAt frame 0 ≠ 2) (h3 : byteAt frame 0 ≠ 3) :
    parseFrame frame = none := by
  have named (n : Nat) (hn : (byteAt frame 0).toNat = n) : byteAt frame 0 = BitVec.ofNat 8 n := by
    rw [← hn, BitVec.ofNat_toNat, BitVec.setWidth_eq]
  unfold parseFrame
  simp only
  by_cases hl : frame.length < Config.headerBytes ∨ Config.frameBytes < frame.length
  · rw [if_pos hl]
  · rw [if_neg hl]
    split
    · next h => exact absurd (named 1 h) h1
    · next h => exact absurd (named 2 h) h2
    · next h => exact absurd (named 3 h) h3
    · rfl

/-- A frame with the header of R11. -/
def requestFrame (kind : Byte) (tag : Tag) (length : Nat) (a : Addr) (rest : List Byte) : List Byte :=
  [kind, tag.setWidth 8] ++ leBytes 2 length ++ leBytes 5 a.toNat ++ [0, 0, 0] ++ rest

section Header
variable (kind : Byte) (tag : Tag) {length : Nat} (a : Addr) (rest : List Byte)

theorem requestFrame_length : (requestFrame kind tag length a rest).length = 12 + rest.length := by
  simp [requestFrame, leBytes]
  omega

theorem requestFrame_lengthField (h : length < 65536) : leField (requestFrame kind tag length a rest) 2 2 = length :=
  leNat_leBytes_of_lt (n := 2) h

theorem requestFrame_addr : frameAddr (requestFrame kind tag length a rest) = a := by
  have : leField (requestFrame kind tag length a rest) 4 5 = a.toNat := leNat_leBytes_of_lt (n := 5) (a.isLt.trans (by decide))
  rw [frameAddr, this, BitVec.ofNat_toNat, BitVec.setWidth_eq]

/-- The form check of a frame with the header of R11, kind by kind. -/
theorem parseFrame_requestFrame (h : length < 65536) :
    (kind = 1 → parseFrame (requestFrame kind tag length a rest)
        = if rest = [] then some ⟨tag, .memory .read a length []⟩ else none)
      ∧ (kind = 2 → parseFrame (requestFrame kind tag length a rest)
        = if rest.length = length ∧ length ≤ 256 then some ⟨tag, .memory .write a length rest⟩ else none)
      ∧ (kind = 3 → parseFrame (requestFrame kind tag length a rest)
        = if rest.length = length ∧ 1 ≤ length ∧ length ≤ 160 then some ⟨tag, .control rest⟩ else none) := by
  have tagField : (byteAt (requestFrame kind tag length a rest) 1).setWidth 6 = tag := tag_of_byte tag
  have behind : (requestFrame kind tag length a rest).drop Config.headerBytes = rest := rfl
  by_cases long : 256 < rest.length
  · rw [parseFrame_length (by rw [requestFrame_length]; omega)]
    refine ⟨fun _ => ?_, fun _ => ?_, fun _ => ?_⟩
    · rw [if_neg (by rintro rfl; simp at long)]
    all_goals rw [if_neg (by omega)]
  · have fits : ¬((requestFrame kind tag length a rest).length < Config.headerBytes
        ∨ Config.frameBytes < (requestFrame kind tag length a rest).length) := by
      rw [requestFrame_length]
      simp only [Config.headerBytes, Config.frameBytes]
      omega
    unfold parseFrame
    simp only [tagField, behind, requestFrame_lengthField kind tag a rest h, requestFrame_addr]
    rw [if_neg fits]
    refine ⟨?_, ?_, ?_⟩ <;> rintro rfl
    · rfl
    · exact if_congr (by omega) rfl rfl
    · refine if_congr ?_ rfl rfl
      simp only [Config.payloadBytes]
      omega

end Header

/-- Settles O17. -/
theorem formCheckReadsTheHeader : Obligations.FormCheckReadsTheHeader := by
  unfold Obligations.FormCheckReadsTheHeader
  refine ⟨fun frame h => ?_, fun kind tag length a rest h => parseFrame_requestFrame kind tag a rest h⟩
  by_cases hl : frame.length < 12 ∨ 268 < frame.length
  · exact parseFrame_length hl
  · have first : frame[0]? = some (byteAt frame 0) := by
      rw [byteAt, List.getD_eq_getElem _ _ (by omega), List.getElem?_eq_getElem]
    obtain ⟨one, two, three⟩ := (or_assoc.mpr h).resolve_left hl
    rw [first] at one two three
    exact parseFrame_kind (one <| congrArg some ·) (two <| congrArg some ·) (three <| congrArg some ·)

/-! ### Records that are written read back (R14, R15) -/

@[simp] theorem portOfByte_byteOfPort (p : PortId) : portOfByte (byteOfPort p) = p := by revert p; decide

theorem readPolicyOfByte_policyByte (r : ReadPolicy) (w : WritePolicy) : readPolicyOfByte (policyByte r w) = some r := by
  cases r <;> cases w <;> rfl

theorem writePolicyOfByte_policyByte (r : ReadPolicy) (w : WritePolicy) : writePolicyOfByte (policyByte r w) = some w := by
  cases r <;> cases w <;> rfl

theorem strideOfByte_code (s : Stride) : strideOfByte s.code = s := by cases s <;> rfl

/-- A byte behind the first bytes of a list. -/
theorem byteAt_append_add (pre bs : List Byte) (k : Nat) : byteAt (pre ++ bs) (pre.length + k) = byteAt bs k := by
  unfold byteAt
  rw [List.getD_append_right _ _ _ _ (Nat.le_add_right _ _), Nat.add_sub_cancel_left]

/-- A unit number of 24 bits reads back. -/
theorem recordUnit_eq {r : List Byte} {i : Nat} {u : UnitNo} (h : (r.drop i).take 3 = leBytes 3 u.toNat) : recordUnit r i = u := by
  rw [recordUnit, leField, h, leNat_leBytes_of_lt u.isLt, BitVec.ofNat_toNat, BitVec.setWidth_eq]

theorem byteAt_memberBytes (ms : List PortId) (post : List Byte) {k : Nat} (h : k < ms.length) (h8 : ms.length ≤ 8) :
    byteAt (memberBytes ms ++ post) k = byteOfPort ms[k] := by
  have len : (memberBytes ms).length = 8 := by simp [memberBytes]
  unfold byteAt
  rw [List.getD_append _ _ _ _ (by omega), List.getD_eq_getElem _ _ (by omega)]
  simp [memberBytes, h]

/-- The members of a record read back in list order. -/
theorem recordMembers_memberBytes (pre : List Byte) (hp : pre.length = 18) (ms : List PortId) (post : List Byte)
    (h8 : ms.length ≤ 8) : recordMembers (pre ++ (memberBytes ms ++ post)) ms.length = ms := by
  refine List.ext_getElem (by simp [recordMembers]) fun k _ h => ?_
  simp only [recordMembers, List.getElem_map, List.getElem_range]
  rw [← hp, byteAt_append_add, byteAt_memberBytes ms post h h8, portOfByte_byteOfPort]

/-- The member count of a record reads back from the low bits of its byte. -/
theorem memberCount_mod {n : Nat} (h : n ≤ 8) : (BitVec.ofNat 8 n).toNat % 16 = n := by
  rw [BitVec.toNat_ofNat]
  omega

/-- Bytes 0 to 12 of a LOADED record (R14). -/
def Window.recordHead (w : Window) : List Byte :=
  [1, w.mode.code, policyByte w.readPolicy w.writePolicy, flagByte w.mask.isSome] ++ leBytes 3 w.base.toNat
    ++ leBytes 3 w.limit.toNat ++ leBytes 3 (w.mask.getD 0).toNat

theorem record_loaded (w : Window) : (WindowEntry.loaded w).record = w.recordHead ++ w.mode.recordBytes := rfl

/-- A fallback port reads back with its flag. -/
theorem fallback_byte (f : Option PortId) :
    let b : Byte := match f with | some q => 0x80 ||| byteOfPort q | none => 0
    (if b.getLsbD 7 then some (portOfByte b) else none) = f := by
  cases f with
  | none => rfl
  | some q => revert q; decide

theorem parseMode_direct {r : List Byte} (h : byteAt r 1 = 0) : parseMode r = some (.direct (portOfByte (byteAt r 16))
    (recordUnit r 13) (if (byteAt r 17).getLsbD 7 then some (portOfByte (byteAt r 17)) else none)) := by
  unfold parseMode
  rw [h]
  rfl

theorem parseMode_paged {r : List Byte} (h : byteAt r 1 = 1) :
    parseMode r = some (.paged (byteAt r 16).toFin ((byteAt r 17).toNat + 1)) := by
  unfold parseMode
  rw [h]
  rfl

theorem parseMode_interleaved {r : List Byte} (h : byteAt r 1 = 2) : parseMode r
    = some (.interleaved (recordMembers r ((byteAt r 16).toNat % 16)) (strideOfByte (byteAt r 17)) (recordUnit r 13)) := by
  unfold parseMode
  rw [h]
  rfl

theorem parseMode_mirrored {r : List Byte} (h : byteAt r 1 = 3) :
    parseMode r = some (.mirrored (recordMembers r ((byteAt r 16).toNat % 16)) (recordUnit r 13)) := by
  unfold parseMode
  rw [h]
  rfl

/-- Bytes 13 to 31 of a record with members (R14). -/
def memberRecord (t : UnitNo) (b : Byte) (ms : List PortId) : List Byte :=
  leBytes 3 t.toNat ++ [BitVec.ofNat 8 ms.length, b] ++ memberBytes ms ++ List.replicate 6 0

theorem memberRecord_length (t : UnitNo) (b : Byte) (ms : List PortId) : (memberRecord t b ms).length = 19 := by
  simp [memberRecord, memberBytes, leBytes]

/-- The fields of a record with members read back. -/
theorem memberRecord_reads_back (w : Window) (t : UnitNo) (b : Byte) {ms : List PortId} (few : ms.length ≤ 8) :
    let r := w.recordHead ++ memberRecord t b ms
    recordMembers r ((byteAt r 16).toNat % 16) = ms ∧ byteAt r 17 = b ∧ recordUnit r 13 = t := by
  intro r
  let pre := w.recordHead ++ leBytes 3 t.toNat ++ [BitVec.ofNat 8 ms.length, b]
  have split : r = pre ++ (memberBytes ms ++ List.replicate 6 0) := by simp [r, pre, memberRecord, List.append_assoc]
  have count : byteAt r 16 = BitVec.ofNat 8 ms.length := rfl
  refine ⟨?_, rfl, recordUnit_eq rfl⟩
  rw [count, memberCount_mod few, split]
  exact recordMembers_memberBytes pre rfl ms _ few

/-- A well-formed mode reads back behind the head of its record, whose length is that of R14. -/
theorem parseMode_recordBytes {w : Window} (h : w.mode.wellFormed w = true) :
    w.mode.recordBytes.length = 19 ∧ parseMode (w.recordHead ++ w.mode.recordBytes) = some w.mode := by
  obtain ⟨base, limit, mask, rp, wp, m⟩ := w
  cases m with
  | direct p t f =>
    refine ⟨rfl, (parseMode_direct rfl).trans (congrArg some ?_)⟩
    rw [Mode.direct.injEq]
    exact ⟨portOfByte_byteOfPort p, recordUnit_eq rfl, fallback_byte f⟩
  | paged s c =>
    refine ⟨rfl, (parseMode_paged rfl).trans (congrArg some ?_)⟩
    rw [Mode.paged.injEq]
    obtain ⟨hc, hs⟩ : 1 ≤ c ∧ s.val + c ≤ 256 := by simp_all [Mode.wellFormed]
    have count : (BitVec.ofNat 8 (c - 1)).toNat + 1 = c := by
      rw [BitVec.toNat_ofNat]
      omega
    exact ⟨Fin.ext (Nat.mod_eq_of_lt s.isLt), count⟩
  | interleaved ms st t =>
    have few : ms.length ≤ 8 := by
      simp only [Mode.wellFormed, Bool.and_eq_true, Bool.or_eq_true, beq_iff_eq] at h
      omega
    obtain ⟨members, stride, target⟩ := memberRecord_reads_back ⟨base, limit, mask, rp, wp, .interleaved ms st t⟩ t st.code few
    refine ⟨memberRecord_length t st.code ms, (parseMode_interleaved rfl).trans (congrArg some ?_)⟩
    rw [Mode.interleaved.injEq]
    exact ⟨members, (congrArg strideOfByte stride).trans (strideOfByte_code st), target⟩
  | mirrored ms t =>
    have few : ms.length ≤ 8 := by
      simp only [Mode.wellFormed, Bool.and_eq_true, decide_eq_true_eq] at h
      omega
    obtain ⟨members, -, target⟩ := memberRecord_reads_back ⟨base, limit, mask, rp, wp, .mirrored ms t⟩ t 0 few
    refine ⟨memberRecord_length t 0 ms, (parseMode_mirrored rfl).trans (congrArg some ?_)⟩
    rw [Mode.mirrored.injEq]
    exact ⟨members, target⟩

/-- The mask of a record reads back with its flag. -/
theorem mask_reads_back {r : List Byte} (m : Option UnitNo) (hf : byteAt r 3 = flagByte m.isSome)
    (hm : (r.drop 10).take 3 = leBytes 3 (m.getD 0).toNat) :
    (if (byteAt r 3).getLsbD 0 then some (recordUnit r 10) else none) = m := by
  rw [hf, recordUnit_eq hm]
  cases m with
  | none => rfl
  | some m => exact if_pos (show (flagByte true).getLsbD 0 = true by decide)

theorem window_reads_back {w : Window} (h : w.wellFormed = true) :
    (WindowEntry.loaded w).record.length = 32 ∧ parseWindow (WindowEntry.loaded w).record = some (.loaded w) := by
  have mode : w.mode.wellFormed w = true := by
    simp only [Window.wellFormed, Bool.and_eq_true] at h
    exact h.2
  obtain ⟨len, parsed⟩ := parseMode_recordBytes mode
  rw [record_loaded]
  refine ⟨by rw [List.length_append, len]; rfl, ?_⟩
  have loaded : byteAt (w.recordHead ++ w.mode.recordBytes) 0 = 1 := rfl
  have policies : byteAt (w.recordHead ++ w.mode.recordBytes) 2 = policyByte w.readPolicy w.writePolicy := rfl
  have base : recordUnit (w.recordHead ++ w.mode.recordBytes) 4 = w.base := recordUnit_eq rfl
  have limit : recordUnit (w.recordHead ++ w.mode.recordBytes) 7 = w.limit := recordUnit_eq rfl
  have mask := mask_reads_back (r := w.recordHead ++ w.mode.recordBytes) w.mask rfl rfl
  unfold parseWindow
  rw [loaded]
  simp only [policies, readPolicyOfByte_policyByte, writePolicyOfByte_policyByte, parsed, base, limit, mask]
  rfl

/-- The port bits and the flag of a page entry's first byte. -/
theorem page_byte (p : PortId) :
    ((1 : Byte) ||| (byteOfPort p <<< 4)).getLsbD 0 = true ∧ portOfByte (((1 : Byte) ||| (byteOfPort p <<< 4)) >>> 4) = p := by
  revert p
  decide

theorem page_reads_back (e : PageEntry) : e.record.length = 4 ∧ parsePage e.record = e := by
  cases e with
  | absent => exact ⟨rfl, rfl⟩
  | present p n =>
    obtain ⟨flag, port⟩ := page_byte p
    have page : leField (PageEntry.present p n).record 1 3 = n.toNat := leNat_leBytes_of_lt (n := 3) (n.isLt.trans (by decide))
    have first : byteAt (PageEntry.present p n).record 0 = (1 : Byte) ||| (byteOfPort p <<< 4) := rfl
    refine ⟨rfl, ?_⟩
    unfold parsePage
    rw [first, flag, if_pos rfl, port, page, BitVec.ofNat_toNat, BitVec.setWidth_eq]

/-- Settles O60. -/
theorem recordsReadBack : Obligations.RecordsReadBack := by
  unfold Obligations.RecordsReadBack
  refine ⟨fun e h => ?_, page_reads_back⟩
  cases e with
  | empty => exact ⟨rfl, rfl⟩
  | loaded w => exact window_reads_back h

/-! ### Well-formed windows (R38) -/

/-- Two words have no bit in common exactly if each bit of one is clear in the other. -/
theorem and_eq_zero_iff {n : Nat} (x m : BitVec n) : x &&& m = 0 ↔ ∀ i, m.getLsbD i = true → x.getLsbD i = false := by
  constructor
  · intro h i hi
    have := congrArg (·.getLsbD i) h
    simp only [BitVec.getLsbD_and] at this
    grind
  · intro h
    refine BitVec.eq_of_getLsbD_eq fun i _ => ?_
    have := h i
    simp only [BitVec.getLsbD_and]
    grind

/-- A range of a target lies within the address space if its last byte does (R78). -/
theorem rangeFits_iff (t : UnitNo) (size : Nat) : rangeFits t size = true ↔ t.toNat * 4096 + size - 1 ≤ 0xFFFFFFFFF := by
  have : rangeFits t size = true ↔ t.toNat * 4096 + size ≤ 68719476736 := decide_eq_true_iff
  rw [this]
  omega

/-- A LOADED window is well formed exactly under the conditions of R38 and of its mode. -/
theorem wellFormed_iff_conditions (w : Window) : (WindowEntry.loaded w).wellFormed = true ↔ w.Conditions := by
  simp only [WindowEntry.wellFormed, Window.wellFormed, Bool.and_eq_true, decide_eq_true_eq, and_assoc, Window.Conditions]
  refine and_congr_right fun _ => and_congr ?_ ?_
  · cases w.mask with
    | none => simp
    | some m =>
      simp only [Bool.and_eq_true, beq_iff_eq, and_eq_zero_iff, Option.some.injEq]
      grind
  · cases w.mode with
    | direct p t f => simp [Mode.wellFormed, rangeFits_iff, Window.size, Config.unitBytes]
    | paged s c =>
      simp only [Mode.wellFormed, Bool.and_eq_true, beq_iff_eq, decide_eq_true_eq]
      simp only [Window.size, Config.unitBytes, Config.pageBytes]
      omega
    | interleaved ms st t =>
      simp only [Mode.wellFormed, Window.size, Config.unitBytes, rangeFits_iff, Bool.and_eq_true, Bool.or_eq_true, beq_iff_eq,
        decide_eq_true_eq, and_assoc, or_assoc]
    | mirrored ms t =>
      simp only [Mode.wellFormed, Window.size, Config.unitBytes, rangeFits_iff, Bool.and_eq_true, decide_eq_true_eq, and_assoc]

/-! ### What a record carries (R14) -/

/-- A unit field is the number of its three bytes. -/
theorem recordUnit_toNat (r : List Byte) (i : Nat) :
    (recordUnit r i).toNat
      = (byteAt r i).toNat + 256 * (byteAt r (i + 1)).toNat + 65536 * (byteAt r (i + 2)).toNat := by
  have h0 := (byteAt r i).isLt
  have h1 := (byteAt r (i + 1)).isLt
  have h2 := (byteAt r (i + 2)).isLt
  rw [recordUnit, leField_succ, leField_succ, leField_succ, leField_zero, BitVec.toNat_ofNat, Nat.add_assoc i 1 1]
  omega

theorem getLsbD_zero_iff (b : Byte) : b.getLsbD 0 = true ↔ b.toNat % 2 = 1 := by
  rw [← BitVec.testBit_toNat, Nat.testBit_zero, decide_eq_true_iff]

theorem getLsbD_seven_iff (b : Byte) : b.getLsbD 7 = true ↔ 128 ≤ b.toNat := by
  have : b.msb = b.getLsbD 7 := BitVec.msb_eq_getLsbD_last b
  rw [← this, BitVec.msb_eq_decide, decide_eq_true_iff]

/-- The policies by their codes, none beyond the listed ones. -/
theorem readPolicyOfByte_eq (b : Byte) : readPolicyOfByte b = [ReadPolicy.allow, .refuse][b.toNat % 4]? := by
  have : b.toNat % 4 < 4 := Nat.mod_lt _ (by decide)
  unfold readPolicyOfByte
  generalize b.toNat % 4 = n at this
  interval_cases n <;> rfl

theorem writePolicyOfByte_eq (b : Byte) :
    writePolicyOfByte b = [WritePolicy.allow, .refuse, .discard][b.toNat / 16 % 4]? := by
  have : b.toNat / 16 % 4 < 4 := Nat.mod_lt _ (by decide)
  unfold writePolicyOfByte
  generalize b.toNat / 16 % 4 = n at this
  interval_cases n <;> rfl

theorem strideOfByte_bytes (b : Byte) : [256, 1024, 4096, 16384][b.toNat % 4]? = some (strideOfByte b).bytes := by
  have : b.toNat % 4 < 4 := Nat.mod_lt _ (by decide)
  unfold strideOfByte
  generalize b.toNat % 4 = n at this
  interval_cases n <;> rfl

/-- The members of a record by their bytes. -/
theorem recordMembers_get (r : List Byte) (n : Nat) : (recordMembers r n).length = n
    ∧ ∀ k m, (recordMembers r n)[k]? = some m → m.val = (byteAt r (18 + k)).toNat % 8 := by
  refine ⟨by simp [recordMembers], fun k m h => ?_⟩
  obtain ⟨hk, rfl⟩ := List.getElem?_eq_some_iff.mp h
  simp [recordMembers, portOfByte]

/-- A record with a mode code beyond the listed ones carries no mode. -/
theorem parseMode_none {r : List Byte} (h : 3 < (byteAt r 1).toNat) : parseMode r = none := by
  unfold parseMode
  simp only
  split
  rotate_right
  · rfl
  all_goals omega

/-- The mode codes, listed or not. -/
theorem modeCode_cases (b : Byte) : b = 0 ∨ b = 1 ∨ b = 2 ∨ b = 3 ∨ 3 < b.toNat := by
  simp only [← BitVec.toNat_inj]
  simp
  omega

theorem parseMode_some {r : List Byte} (h : ¬3 < (byteAt r 1).toNat) : ∃ m, parseMode r = some m := by
  rcases modeCode_cases (byteAt r 1) with code | code | code | code | code
  · exact ⟨_, parseMode_direct code⟩
  · exact ⟨_, parseMode_paged code⟩
  · exact ⟨_, parseMode_interleaved code⟩
  · exact ⟨_, parseMode_mirrored code⟩
  · exact absurd code h

/-- A record in state LOADED carries its window when its codes are all listed. -/
theorem loaded_carries {r : List Byte} {rp : ReadPolicy} {wp : WritePolicy} {m : Mode} (h : (byteAt r 0).toNat = 1)
    (hr : readPolicyOfByte (byteAt r 2) = some rp) (hw : writePolicyOfByte (byteAt r 2) = some wp) (hm : parseMode r = some m) :
    RecordCarries r (some (.loaded ⟨recordUnit r 4, recordUnit r 7,
      if (byteAt r 3).getLsbD 0 then some (recordUnit r 10) else none, rp, wp, m⟩)) := by
  have mask : (if (byteAt r 3).getLsbD 0 then some (recordUnit r 10) else none).map (·.toNat)
      = if (byteAt r 3).toNat % 2 = 1 then some (recordUnit r 10).toNat else none := by
    simp only [getLsbD_zero_iff]
    split <;> rfl
  rw [recordUnit_toNat] at mask
  refine ⟨h, recordUnit_toNat r 4, recordUnit_toNat r 7, mask, by rw [← hr, readPolicyOfByte_eq]; rfl,
    by rw [← hw, writePolicyOfByte_eq]; rfl, ?_⟩
  rcases modeCode_cases (byteAt r 1) with code | code | code | code | code
  · rw [parseMode_direct code] at hm
    cases hm
    have fallback : (if (byteAt r 17).getLsbD 7 then some (portOfByte (byteAt r 17)) else none).map (·.val)
        = if 128 ≤ (byteAt r 17).toNat then some ((byteAt r 17).toNat % 8) else none := by
      simp only [getLsbD_seven_iff]
      split <;> rfl
    exact ⟨congrArg BitVec.toNat code, rfl, recordUnit_toNat r 13, fallback⟩
  · rw [parseMode_paged code] at hm
    cases hm
    exact ⟨congrArg BitVec.toNat code, rfl, rfl⟩
  · rw [parseMode_interleaved code] at hm
    cases hm
    obtain ⟨count, members⟩ := recordMembers_get r ((byteAt r 16).toNat % 16)
    exact ⟨congrArg BitVec.toNat code, count, members, strideOfByte_bytes _, recordUnit_toNat r 13⟩
  · rw [parseMode_mirrored code] at hm
    cases hm
    obtain ⟨count, members⟩ := recordMembers_get r ((byteAt r 16).toNat % 16)
    exact ⟨congrArg BitVec.toNat code, count, members, recordUnit_toNat r 13⟩
  · rw [parseMode_none code] at hm
    cases hm

/-- What any record carries (R14). -/
theorem record_carries (r : List Byte) : RecordCarries r (parseWindow r) := by
  unfold parseWindow
  split
  · next h => exact h
  · next h =>
    split
    · next hr hw hm => exact loaded_carries h hr hw hm
    · next none =>
      refine .inr ⟨h, ?_⟩
      change 3 < (byteAt r 1).toNat ∨ 1 < (byteAt r 2).toNat % 4 ∨ (byteAt r 2).toNat / 16 % 4 = 3
      by_contra listed
      obtain ⟨m, hm⟩ := parseMode_some (r := r) (by omega)
      exact none _ _ m ((readPolicyOfByte_eq _).trans (List.getElem?_eq_getElem (show _ < 2 by omega)))
        ((writePolicyOfByte_eq _).trans (List.getElem?_eq_getElem (show _ < 3 by omega))) hm
  · next _ h0 h1 =>
    have h0 : (byteAt r 0).toNat ≠ 0 := h0
    have h1 : (byteAt r 0).toNat ≠ 1 := h1
    have : 1 < (byteAt r 0).toNat := by omega
    exact .inl this

/-! ### Loading (R141, R143) -/

theorem windowIndex_eq {b : Byte} {i : WindowIx} (h : b.toNat = i.val) : windowIndex b = some i := by
  unfold windowIndex
  rw [dif_pos (h ▸ i.isLt)]
  simp [h]

theorem windowIndex_none {b : Byte} (h : 31 < b.toNat) : windowIndex b = none := dif_neg (by omega)

/-- A LOAD WINDOW of the right length, in IDLE, is taken up. -/
theorem exec_loadWindow {s : State} {t : Tag} {b : Byte} {record : List Byte} (hl : record.length = 32) (hi : s.ps.op = .idle)
    (h : s.Takes t (0x20 :: b :: record)) : exec .loadWindow s = .next (s.inHand.loadWindow t (0x20 :: b :: record)) := by
  change Host.Outcome.next (s.takeRequest (carries .loadWindow) (withLength 34 (unlessBusy State.loadWindow))) = _
  rw [State.takeRequest_takes h rfl]
  unfold withLength unlessBusy
  rw [if_pos (by simp [hl]), if_pos (by exact hi)]

/-- The record is loaded, or the request refused whole (R141). -/
theorem loadWindow_does (s : State) (t : Tag) (b : Byte) (record : List Byte) :
    (∀ (i : WindowIx) (e : WindowEntry), b.toNat = i.val → parseWindow record = some e → e.wellFormed = true →
        s.loadWindow t (0x20 :: b :: record) = s.writeStaged (s.ps.stagedBank.setWindow i e) t)
      ∧ (31 < b.toNat ∨ parseWindow record = none ∨ (∃ e, parseWindow record = some e ∧ e.wellFormed = false) →
        s.loadWindow t (0x20 :: b :: record) = s.reply t .badArgument []) := by
  have index : byteAt (0x20 :: b :: record) 1 = b := rfl
  have behind : (0x20 :: b :: record).drop 2 = record := rfl
  unfold State.loadWindow
  rw [index, behind]
  refine ⟨fun i e hb hp he => ?_, ?_⟩
  · rw [windowIndex_eq hb, loadableWindow, hp, Option.filter_some_pos he]
  · rintro (hb | hp | ⟨e, hp, he⟩)
    · rw [windowIndex_none hb]
    · rw [loadableWindow, hp]
      cases windowIndex b <;> rfl
    · rw [loadableWindow, hp, Option.filter_some_neg (by simp [he])]
      cases windowIndex b <;> rfl

/-- A page entry takes the first four bytes alone. -/
theorem parsePage_take (r : List Byte) : parsePage (r.take 4) = parsePage r := by
  have first : byteAt (r.take 4) 0 = byteAt r 0 := by simp [byteAt]
  have page : leField (r.take 4) 1 3 = leField r 1 3 := by
    unfold leField
    rw [List.drop_take, List.take_take]
    rfl
  unfold parsePage
  rw [first, page]

/-- The bank with a page entry written, if there is such an entry. -/
theorem setPage_get (b : Bank) (start : Nat) (e : PageEntry) (i : PageIx) :
    (if h : start < 256 then b.setPage ⟨start, h⟩ e else b).pages.get i = if start = i.val then e else b.pages.get i := by
  split
  · next h => exact (get_set b.pages ⟨start, h⟩ i e).trans (if_congr Fin.ext_iff rfl rfl)
  · next h => rw [if_neg (by omega)]

theorem setPage_apart (b : Bank) (start : Nat) (e : PageEntry) :
    (if h : start < 256 then b.setPage ⟨start, h⟩ e else b).windows = b.windows
      ∧ (if h : start < 256 then b.setPage ⟨start, h⟩ e else b).hits = b.hits := by
  split <;> exact ⟨rfl, rfl⟩

/-- The page entries of a run, read after they have been written (R143). -/
theorem loadPages_does (n start : Nat) (records : List Byte) (b : Bank) :
    (b.loadPages start n records).windows = b.windows ∧ (b.loadPages start n records).hits = b.hits
      ∧ ∀ i : PageIx, (b.loadPages start n records).pages.get i =
          if start ≤ i.val ∧ i.val < start + n then parsePage ((records.drop (4 * (i.val - start))).take 4) else b.pages.get i := by
  induction n generalizing start records b with
  | zero =>
    refine ⟨rfl, rfl, fun i => ?_⟩
    rw [if_neg (by omega)]
    rfl
  | succ n ih =>
    rw [Bank.loadPages]
    obtain ⟨windows, hits, pages⟩ := ih (start + 1) (records.drop 4)
      (if h : start < 256 then b.setPage ⟨start, h⟩ (parsePage records) else b)
    obtain ⟨windows', hits'⟩ := setPage_apart b start (parsePage records)
    refine ⟨windows.trans windows', hits.trans hits', fun i => ?_⟩
    rw [pages, setPage_get, List.drop_drop]
    by_cases first : start = i.val
    · rw [if_neg (by omega), if_pos first, if_pos (by omega), parsePage_take, first, Nat.sub_self, Nat.mul_zero, List.drop_zero]
    · rw [if_neg first]
      by_cases later : start + 1 ≤ i.val ∧ i.val < start + 1 + n
      · rw [if_pos later, if_pos (by omega), show 4 + 4 * (i.val - (start + 1)) = 4 * (i.val - start) by omega]
      · rw [if_neg later, if_neg (by omega)]

/-- A LOAD PAGES of the right length, in IDLE, is taken up. -/
theorem exec_loadPages {s : State} {t : Tag} {start count : Byte} {records : List Byte} (hl : records.length = 4 * count.toNat)
    (hi : s.ps.op = .idle) (h : s.Takes t (0x22 :: start :: count :: records)) :
    exec .loadPages s = .next (if pageRange start.toNat count.toNat = true then
        s.inHand.writeStaged (s.ps.stagedBank.loadPages start.toNat count.toNat records) t
      else s.inHand.reply t .badArgument []) := by
  have length : 3 ≤ (0x22 :: start :: count :: records).length ∧ (0x22 :: start :: count :: records).length
      = 3 + 4 * (byteAt (0x22 :: start :: count :: records) 2).toNat := by
    have : byteAt (0x22 :: start :: count :: records) 2 = count := rfl
    rw [this]
    simp only [List.length_cons]
    omega
  change Host.Outcome.next (s.takeRequest (carries .loadPages) (loadPagesLength (unlessBusy State.loadPages))) = _
  rw [State.takeRequest_takes h rfl]
  unfold loadPagesLength unlessBusy
  rw [if_pos length, if_pos (by exact hi)]
  rfl

theorem pageRange_iff (start count : Nat) : pageRange start count = true ↔ 1 ≤ count ∧ count ≤ 16 ∧ start + count ≤ 256 := by
  simp [pageRange, and_assoc]

/-- A response reaches the ULC alone. -/
theorem place_frame (s : State) (r : Response) : s.place r = { s with ulc := (s.place r).ulc } := by
  unfold State.place
  split <;> rfl

/-- A staged bank that is written, with its reply (R140). -/
theorem writeStaged_does (s : State) (b : Bank) (t : Tag) :
    (s.writeStaged b t).ps = s.ps.setStaged b ∧ (s.writeStaged b t).ulc = (s.reply t .done []).ulc
      ∧ s.writeStaged b t = { s with ps := (s.writeStaged b t).ps, ulc := (s.writeStaged b t).ulc } := by
  refine ⟨State.reply_ps _ _ _ _, place_ulc_congr (a := { s with ps := s.ps.setStaged b }) (b := s) rfl _, ?_⟩
  unfold State.writeStaged State.reply
  rw [place_frame]

/-- Settles O52. -/
theorem loadsReachTheStagedBank : Obligations.LoadsReachTheStagedBank := by
  unfold Obligations.LoadsReachTheStagedBank
  refine ⟨rfl, wellFormed_iff_conditions, fun r _ => record_carries r, fun s t hi => ⟨fun b record hl h => ?_,
    fun start count records hl h => ?_⟩⟩
  · rw [exec_loadWindow hl hi h]
    obtain ⟨loads, refuses⟩ := loadWindow_does s.inHand t b record
    exact ⟨fun i e hb hp he => congrArg _ (loads i e hb hp he), fun k => congrArg _ (refuses k)⟩
  · rw [exec_loadPages hl hi h]
    refine ⟨fun low high fits => ?_, fun k => ?_⟩
    · rw [if_pos ((pageRange_iff _ _).mpr ⟨low, high, fits⟩)]
      obtain ⟨windows, hits, pages⟩ := loadPages_does count.toNat start.toNat records s.ps.stagedBank
      have staged := (setStaged_frame s.ps (s.ps.stagedBank.loadPages start.toNat count.toNat records)).1
      obtain ⟨ps, ulc, apart⟩ := writeStaged_does s.inHand (s.ps.stagedBank.loadPages start.toNat count.toNat records) t
      rw [State.inHand_ps] at ps
      refine ⟨_, rfl, ?_⟩
      rw [ps, staged]
      refine ⟨pages, windows, hits, rfl, ulc.trans (place_ulc_congr (a := s.inHand) (b := s) rfl _), ?_⟩
      rw [ps] at apart
      exact apart
    · rw [if_neg (by rw [pageRange_iff]; omega)]

end Sys2Proof.Machine
end

section
/-! PROOFS. The ports as they are served: what is left to do, and what a target response brings. -/

namespace Sys2Proof.Machine

/-! ### Serving a port comes to an end (R84, R86) -/

/-- A copy that is marked with another state than REISSUE_WAIT waits for no port that its entry did not wait for. -/
theorem waitsFor_setCopy {e : Entry} {p q : PortId} {st : CopyState} {sl : Option SlotId} (hst : st ≠ .reissueWait)
    (h : (e.setCopy p st sl).waitsFor q = true) : e.waitsFor q = true := by
  simp only [Entry.waitsFor, Entry.setCopy, List.any_eq_true, List.mem_map] at h ⊢
  obtain ⟨_, ⟨c, hc, rfl⟩, hw⟩ := h
  refine ⟨c, hc, ?_⟩
  split at hw
  · simp [hst] at hw
  · exact hw

/-- An entry whose copy at a port has been marked QUEUED or SENT waits for that port no more. -/
theorem waitsFor_setCopy_self {e : Entry} {p : PortId} {st : CopyState} {sl : Option SlotId} (hst : st ≠ .reissueWait) :
    (e.setCopy p st sl).waitsFor p = false := by
  simp only [Entry.waitsFor, Entry.setCopy, List.any_eq_false, List.mem_map]
  rintro _ ⟨c, _, rfl⟩
  split
  · simp [hst]
  · next h => simp [h]

/-- The claims on a port, counted in the OTT. -/
theorem claims_length (s : State) (p : PortId) : (s.claims p).length = s.ott.countP (·.waitsFor p) := by
  rw [State.claims, List.length_map, List.countP_eq_length_filter]

/-- Marking a copy with another state than REISSUE_WAIT adds no claim. -/
theorem claims_markCopy_le (s : State) (t : Tag) (p q : PortId) {st : CopyState} (sl : Option SlotId) (hst : st ≠ .reissueWait) :
    ((s.markCopy t p st sl).claims q).length ≤ (s.claims q).length := by
  rw [claims_length, claims_length, State.markCopy, List.countP_map]
  refine List.countP_mono_left fun e _ h => ?_
  simp only [Function.comp_apply] at h
  split at h
  · exact waitsFor_setCopy hst h
  · exact h

/-- Marking the copy of a claim takes it from the claims. -/
theorem claims_markCopy_lt {s : State} {t : Tag} {p : PortId} {st : CopyState} (sl : Option SlotId) (hst : st ≠ .reissueWait)
    (h : t ∈ s.claims p) : ((s.markCopy t p st sl).claims p).length < (s.claims p).length := by
  obtain ⟨e, he, rfl⟩ := List.mem_map.mp h
  obtain ⟨hm, hw⟩ := List.mem_filter.mp he
  obtain ⟨older, younger, split⟩ := List.append_of_mem hm
  rw [claims_length, claims_length, State.markCopy, List.countP_map, split]
  have le (es : List Entry) : es.countP ((·.waitsFor p) ∘ fun x => if x.tag = e.tag then x.setCopy p st sl else x)
      ≤ es.countP (·.waitsFor p) := by
    refine List.countP_mono_left fun x _ h => ?_
    simp only [Function.comp_apply] at h
    split at h
    · exact waitsFor_setCopy hst h
    · exact h
  have := le older
  have := le younger
  simp only [List.countP_append, List.countP_cons, Function.comp_apply, if_true, waitsFor_setCopy_self hst, hw]
  simp only [Bool.false_eq_true, if_false]
  omega

/-- The FREE slots of a port. -/
def Port.freeSlots (q : Port) : Finset SlotId := Finset.univ.filter fun i => q.slots.get i = .free

/-- What the arbiter and the sender of a port can still do at most. -/
def State.actsLeft (s : State) (p : PortId) : Nat := (s.claims p).length + (s.port p).freeSlots.card

theorem actsLeft_le (s : State) (p : PortId) (h : s.ott.length ≤ 64) : s.actsLeft p ≤ 80 := by
  have claims : (s.claims p).length ≤ 64 := by
    rw [claims_length]
    exact List.countP_le_length.trans h
  have slots : (s.port p).freeSlots.card ≤ 16 := Finset.card_le_univ _
  unfold State.actsLeft
  omega

/-- A wake moves neither the egress FIFO nor the slots. -/
theorem startWake_port (s : State) (p : PortId) :
    ((s.startWake p).port p).egress = (s.port p).egress ∧ ((s.startWake p).port p).slots = (s.port p).slots := by
  cases h : s.pins.link.get p with
  | true => rw [(startWake_up s p h).1]; exact ⟨rfl, rfl⟩
  | false => rw [(startWake_down s p h).1]; exact ⟨rfl, rfl⟩

/-- A copy that is placed stands at the tail of the egress FIFO, and no slot changes. -/
theorem placeCopy_port (s : State) (p : PortId) (t : Tag) :
    ((s.placeCopy p t).port p).egress = (s.port p).egress ++ [t] ∧ ((s.placeCopy p t).port p).slots = (s.port p).slots := by
  by_cases h : (s.port p).state = .parked
  · rw [placeCopy_parked s p t h, (startWake_port _ p).1, (startWake_port _ p).2, placed_port]
    exact ⟨rfl, rfl⟩
  · rw [placeCopy_notParked s p t h, placed_port]
    exact ⟨rfl, rfl⟩

/-- The arbiter acts on the oldest claim. -/
theorem arbitrate_some {s u : State} {p : PortId} (h : s.arbitrate? p = some u) :
    ∃ t ts, s.claims p = t :: ts ∧ u = s.placeCopy p t := by
  unfold State.arbitrate? at h
  split at h
  · split at h
    · next t ts hc => exact ⟨t, ts, hc, (Option.some.inj h).symm⟩
    · cases h
  · cases h

/-- The sender acts on the head of the egress FIFO and a FREE slot. -/
theorem send_some {s u : State} {p : PortId} (h : s.send? p = some u) :
    ∃ t rest i, (s.port p).slots.get i = .free ∧ u = s.sendOn p t rest i := by
  unfold State.send? at h
  split at h
  · next t rest i _ _ hi =>
    have free := List.find?_some hi
    exact ⟨t, rest, i, by simpa using free, (Option.some.inj h).symm⟩
  · cases h

theorem arbitrate_actsLeft {s u : State} {p : PortId} (h : s.arbitrate? p = some u) : u.actsLeft p < s.actsLeft p := by
  obtain ⟨t, ts, hc, rfl⟩ := arbitrate_some h
  have claims := claims_markCopy_lt (s := s) (t := t) (p := p) none (st := .queued) (by decide) (by simp [hc])
  unfold State.actsLeft Port.freeSlots
  rw [claims_congr (placeCopy_ott s p t), (placeCopy_port s p t).2]
  omega

theorem send_actsLeft {s u : State} {p : PortId} (h : s.send? p = some u) : u.actsLeft p < s.actsLeft p := by
  obtain ⟨t, rest, i, hi, rfl⟩ := send_some h
  have claims := claims_markCopy_le s t p p (some i) (st := .sent) (by decide)
  have slots : ((s.sendOn p t rest i).port p).freeSlots ⊂ (s.port p).freeSlots := by
    rw [sendOn_port]
    refine Finset.ssubset_iff_of_subset (fun j hj => ?_) |>.mpr ⟨i, by simp [Port.freeSlots, hi], by simp [Port.freeSlots, get_set]⟩
    simp only [Port.freeSlots, Finset.mem_filter, Finset.mem_univ, true_and, get_set] at hj ⊢
    split at hj
    · cases hj
    · exact hj
  have := Finset.card_lt_card slots
  unfold State.actsLeft
  rw [claims_congr (sendOn_ott s p t rest i)]
  omega

/-- With as many acts as the port can take, nothing is left to do. -/
theorem serveN_done (n : Nat) (s : State) (p : PortId) (h : s.actsLeft p ≤ n) :
    (State.serveN n s p).arbitrate? p = none ∧ (State.serveN n s p).send? p = none := by
  induction n generalizing s with
  | zero =>
    refine ⟨Option.eq_none_iff_forall_ne_some.mpr fun u k => ?_, Option.eq_none_iff_forall_ne_some.mpr fun u k => ?_⟩
    · have : u.actsLeft p < s.actsLeft p := arbitrate_actsLeft k
      omega
    · have : u.actsLeft p < s.actsLeft p := send_actsLeft k
      omega
  | succ n ih =>
    unfold State.serveN
    split
    · next u k =>
      have := arbitrate_actsLeft k
      exact ih u (by omega)
    · next ha =>
      split
      · next u k =>
        have := send_actsLeft k
        exact ih u (by omega)
      · next hs => exact ⟨ha, hs⟩

/-- The arbiter has nothing to give out of service, without a place, or without a claim. -/
theorem arbitrate_none_iff (s : State) (p : PortId) : s.arbitrate? p = none
    ↔ (s.port p).state.inService = false ∨ Config.egressPlaces ≤ (s.port p).egress.length ∨ s.claims p = [] := by
  unfold State.arbitrate?
  split
  · next h =>
    have places := h.2
    cases hc : s.claims p with
    | nil => simp
    | cons t ts => simp [h.1]; omega
  · next h =>
    simp only [true_iff]
    cases hp : (s.port p).state.inService with
    | false => exact .inl rfl
    | true => exact .inr (.inl (Nat.le_of_not_lt fun k => h ⟨hp, k⟩))

/-- The sender has nothing to send out of ACTIVE, with an empty FIFO, or without a FREE slot. -/
theorem send_none_iff (s : State) (p : PortId) :
    s.send? p = none ↔ (s.port p).state ≠ .active ∨ (s.port p).egress = [] ∨ (s.port p).freeSlot = none := by
  unfold State.send?
  split
  · next active waiting slot => simp [active, waiting, slot]
  · next none =>
    refine iff_of_true rfl (by_contra fun k => ?_)
    obtain ⟨active, waiting, slot⟩ := by simpa only [not_or, not_not] using k
    obtain ⟨t, rest, waiting⟩ := List.exists_cons_of_ne_nil waiting
    obtain ⟨i, slot⟩ := Option.ne_none_iff_exists'.mp slot
    exact none t rest i active waiting slot

/-- The idle timer is nothing to the arbiter and the sender. -/
theorem settleIdle_stands (s : State) (p : PortId) (ha : s.arbitrate? p = none) (hs : s.send? p = none) :
    (s.settleIdle p).arbitrate? p = none ∧ (s.settleIdle p).send? p = none := by
  rw [arbitrate_none_iff] at ha ⊢
  rw [send_none_iff] at hs ⊢
  rw [settleIdle_port]
  exact ⟨ha, hs⟩

theorem serve_done (s : State) (p : PortId) (h : s.ott.length ≤ 64) :
    (s.serve p).arbitrate? p = none ∧ (s.serve p).send? p = none := by
  obtain ⟨ha, hs⟩ := serveN_done 80 s p (actsLeft_le s p h)
  exact settleIdle_stands _ p ha hs

/-- The oldest claim on a port is that of the first entry that waits for it. -/
theorem claims_oldest {s : State} {p : PortId} {older younger : List Entry} {e : Entry} (h : s.ott = older ++ e :: younger)
    (ho : ∀ x ∈ older, x.waitsFor p = false) (he : e.waitsFor p = true) : ∃ ts, s.claims p = e.tag :: ts := by
  have none : older.filter (·.waitsFor p) = [] := List.filter_eq_nil_iff.mpr fun x hx => by simp [ho x hx]
  refine ⟨(younger.filter (·.waitsFor p)).map (·.tag), ?_⟩
  rw [State.claims, h, List.filter_append, none, List.filter_cons_of_pos (p := fun x : Entry => x.waitsFor p) he]
  rfl

/-- What sending leaves alone, and its report to the IQ (R84). -/
theorem sendOn_apart (s : State) (p : PortId) (t : Tag) (rest : List Tag) (i : SlotId) :
    (s.claims p = [] → AttemptEvent.placesRose p ∈ (s.sendOn p t rest i).mail.attempts)
      ∧ (s.claims p ≠ [] → (s.sendOn p t rest i).mail = s.mail)
      ∧ s.sendOn p t rest i = { s with
          ott := (s.sendOn p t rest i).ott, ports := (s.sendOn p t rest i).ports, mail := (s.sendOn p t rest i).mail
          wire := (s.sendOn p t rest i).wire } := by
  unfold State.sendOn
  simp only
  refine ⟨fun h => ?_, fun h => ?_, ?_⟩
  · rw [if_pos h]
    exact attemptDue_mem _ _
  · rw [if_neg h]
    split <;> rfl
  · split <;> split <;> rfl

/-- Settles O50. -/
theorem serveLeavesNothingToDo : Obligations.ServeLeavesNothingToDo := by
  unfold Obligations.ServeLeavesNothingToDo
  refine ⟨serve_done, fun s p older e younger hs ho he hp hl => ?_, fun s p hw hn => ?_,
    fun s p t rest i e c ha hq hi he hc => ?_⟩
  · obtain ⟨ts, hc⟩ := claims_oldest hs ho he
    have gives : s.arbitrate? p = some (s.placeCopy p e.tag) := by
      unfold State.arbitrate?
      rw [if_pos ⟨hp, hl⟩, hc]
    refine ⟨_, gives, (placeCopy_port s p e.tag).1, placeCopy_ott s p e.tag, fun hn => ?_⟩
    rw [placeCopy_notParked s p e.tag hn]
    rfl
  · have served := serveN_waking 80 s p hw hn (by omega)
    unfold State.serve
    rw [settleIdle_port, served]
  · obtain ⟨rose, quiet, apart⟩ := sendOn_apart s p t rest i
    have entry : (s.sendOn p t rest i).entry? t = some (e.setCopy p .sent (some i)) := by
      rw [entry_congr (sendOn_ott s p t rest i), entry_markCopy, if_pos rfl, he]
      rfl
    exact ⟨_, send_sends s p t rest i ha hq hi, sendOn_port s p t rest i, (servesOnly_sendOn p s t rest i).other,
      sendOn_wire s p t rest i e c he hc, entry, rose, quiet, apart⟩

/-! ### Target responses (R18, R88 to R91) -/

/-- A well-formed target response is matched to its slot. -/
theorem exec_targetResponse (s : State) (p : PortId) (i : SlotId) (status : TargetStatus) (data : List Byte)
    (h : status ≠ .other) :
    exec (.targetResponse p ⟨some i, status, data⟩) s = .next (s.matchResponse p i (status == .ok) data) := by
  cases status with
  | ok => rfl
  | error => rfl
  | other => exact absurd rfl h

theorem setSlot_port (s : State) (p : PortId) (i : SlotId) (x : Slot) :
    (s.setSlot p i x).port p = { s.port p with slots := (s.port p).slots.set i.val x i.isLt } := State.port_setPort _ _ _

/-- Settles O39. -/
theorem targetResponseDiscarded : Obligations.TargetResponseDiscarded := by
  unfold Obligations.TargetResponseDiscarded
  refine fun s p i status data => ⟨rfl, rfl, fun h k => ?_, fun d h ha ho => ?_⟩
  · rw [exec_targetResponse s p i status data h]
    refine congrArg _ ?_
    unfold State.matchResponse
    rcases k with k | k
    · exact if_neg k
    · rw [k]
      split <;> rfl
  · have orphan : s.matchResponse p i (status == .ok) data = (s.setSlot p i .free).serve p := by
      unfold State.matchResponse
      rw [if_pos ha, ho]
    have served := servesOnly_serve p (s.setSlot p i .free)
    have port := setSlot_port s p i .free
    have same := served.same
    rw [port] at same
    refine ⟨_, exec_targetResponse s p i status data h, ?_⟩
    rw [orphan]
    refine ⟨served.ulc, served.tags, served.occ, by rw [same], by rw [same], by rw [same], served.active (by rw [port]; exact ha),
      fun he hc => ?_, served.only⟩
    rw [serve_idle (s.setSlot p i .free) p (by rw [port]; exact he) hc, settleIdle_port, port]

/-! ### The entry that an answer completes (R117, R119) -/

/-- The OTT reports itself empty when the last entry completes (R120). -/
theorem complete_emptyReports (s : State) (e : Entry) (st : Status) :
    (s.complete e st).mail.emptyReports = s.mail.emptyReports + if (s.complete e st).ott = [] then 1 else 0 := by
  have stands (u : State) : (if st = .okDegraded then u.report .degraded else u).mail.emptyReports = u.mail.emptyReports := by
    split <;> simp
  rw [complete_ott]
  unfold State.complete
  simp only
  split
  · rw [State.reportEmpty_emptyReports, stands, State.respond_mail]
  · rw [stands, State.respond_mail]
    rfl

/-- What the outcome of the copy of a SINGLE entry leaves of the OTT: all entries but that one (R117, R120). -/
theorem outcome_single_leaves (s : State) (t : Tag) (p : PortId) (o : CopyState) (d : List Byte) (e : Entry)
    (h : s.entry? t = some e) (hc : e.modeClass = .single) :
    (s.outcome t p o d).ott = (s.ott.filter fun x => x.tag != t)
      ∧ (s.outcome t p o d).mail.emptyReports = s.mail.emptyReports + if (s.outcome t p o d).ott = [] then 1 else 0 := by
  obtain ⟨e', rfl, -, -, -, done⟩ := outcome_single_completes s t p o d e h hc
  rw [done]
  refine ⟨?_, complete_emptyReports _ e' _⟩
  rw [complete_ott, State.setEntry]
  simp only
  induction s.ott with
  | nil => rfl
  | cons x xs ih =>
    by_cases hx : x.tag = e'.tag <;> simp [hx, ih]

/-- An entry of another tag stands when the entries of a tag have gone. -/
theorem entry_of_filter {s u : State} {t x : Tag} (h : u.ott = s.ott.filter fun y => y.tag != t) (hx : x ≠ t) :
    u.entry? x = s.entry? x := by
  rw [State.entry?, h, List.find?_filter, State.entry?]
  congr 1
  funext y
  by_cases hy : y.tag = x <;> simp [hy, hx]

/-- No claim arises when entries go. -/
theorem claims_of_filter {s u : State} {t : Tag} {p : PortId} (h : u.ott = s.ott.filter fun y => y.tag != t)
    (hc : s.claims p = []) : u.claims p = [] := by
  simp only [State.claims, List.map_eq_nil_iff, List.filter_eq_nil_iff, h, List.mem_filter] at hc ⊢
  exact fun y hy => hc y hy.1

/-! ### An answer to a copy (R18, R88) -/

/-- The state in which the outcome of an answer is taken: the slot FREE, a refused answer reported, an ERROR counted. -/
def State.answered (s : State) (p : PortId) (i : SlotId) (malformed good : Bool) : State :=
  let s1 := s.setSlot p i .free
  let s2 := if malformed then s1.malformedTarget p (some i) else s1
  if good then s2 else s2.countTargetError p

/-- The state between: the slot FREE and a refused answer reported. -/
theorem freed_does (s : State) (p : PortId) (i : SlotId) (malformed : Bool) :
    (if malformed then (s.setSlot p i .free).malformedTarget p (some i) else s.setSlot p i .free)
      = { s.setSlot p i .free with mail := { s.mail with
          occurrences := s.mail.occurrences ++ (if malformed ∧ s.underReset = false then
            [.linkFault .malformedTarget (some p) (some (BitVec.ofNat 8 i.val))] else []) } } := by
  cases malformed with
  | false => simp [State.setSlot]; rfl
  | true =>
    have under : (s.setSlot p i .free).underReset = s.underReset := rfl
    simp only [if_true, State.malformedTarget, State.report, under]
    cases s.underReset with
    | true => simp [State.setSlot]; rfl
    | false => simp

theorem answered_does (s : State) (p : PortId) (i : SlotId) (malformed good : Bool) :
    ((s.answered p i malformed good).port p = { s.port p with
        slots := (s.port p).slots.set i.val .free i.isLt
        targetErrors := if good then (s.port p).targetErrors else satInc (s.port p).targetErrors })
      ∧ (∀ q, q ≠ p → (s.answered p i malformed good).port q = s.port q)
      ∧ s.answered p i malformed good = { s with
          ports := (s.answered p i malformed good).ports
          mail := { s.mail with
            occurrences := s.mail.occurrences ++ (if malformed ∧ s.underReset = false then
              [.linkFault .malformedTarget (some p) (some (BitVec.ofNat 8 i.val))] else []) } } := by
  have port (m : Mail) (q : PortId) : ({ s.setSlot p i .free with mail := m } : State).port q = (s.setSlot p i .free).port q := rfl
  have other (q : PortId) (hq : q ≠ p) : (s.setSlot p i .free).port q = s.port q := State.port_setPort_ne _ _ hq.symm
  unfold State.answered
  simp only [freed_does]
  cases good with
  | true => exact ⟨setSlot_port s p i .free, other, rfl⟩
  | false =>
    refine ⟨?_, fun q hq => ?_, rfl⟩
    · simp only [State.countTargetError, State.port_setPort, port, setSlot_port, Bool.false_eq_true, if_false]
    · simp only [State.countTargetError, Bool.false_eq_true, if_false]
      rw [State.port_setPort_ne _ _ hq.symm]
      exact other q hq

/-- An answer to a copy in flight is an outcome from the state that it leaves, and the port is served. -/
theorem exec_targetResponse_inFlight {s : State} {p : PortId} {i : SlotId} {status : TargetStatus} (data : List Byte) {t : Tag}
    {d : Nat} (ha : (s.port p).state = .active) (hi : (s.port p).slots.get i = .inFlight t d) (h : status ≠ .other) :
    let malformed := s.refusesAnswer t (status == .ok) data
    let good := status == .ok && !malformed
    exec (.targetResponse p ⟨some i, status, data⟩) s = .next
      (((s.answered p i malformed good).outcome t p (if good then .ok else .targetError) (if good then data else [])).serve p) := by
  rw [exec_targetResponse s p i status data h]
  refine congrArg _ ?_
  unfold State.matchResponse
  rw [if_pos ha, hi]
  unfold State.answerCopy State.answered
  simp only
  split <;> rfl

/-- Which answers are refused (R18). -/
theorem refusesAnswer_iff {s : State} {t : Tag} {e : Entry} (he : s.entry? t = some e) (status : TargetStatus) (data : List Byte) :
    s.refusesAnswer t (status == .ok) data = true
      ↔ (e.kind = .read ∧ status = .ok ∧ data.length ≠ e.length) ∨ (e.kind = .write ∧ data ≠ []) := by
  unfold State.refusesAnswer Entry.refusesResponse
  rw [he]
  simp only
  cases e.kind with
  | read => simp
  | write => simp

/-- The port that is served sends the head of its FIFO first, and nothing more if that was all that waited (R86). -/
theorem serve_sends_head {w : State} {p : PortId} {x : Tag} {waiting : List Tag} {j : SlotId} {f : Entry} {c : Copy}
    (ha : (w.port p).state = .active) (hq : (w.port p).egress = x :: waiting) (hj : (w.port p).LowestFree j)
    (hcl : w.claims p = []) (hf : w.entry? x = some f) (hc : f.copyAt p = some c) :
    ∃ more, (w.serve p).wire = w.wire ++ [.downstream p f.kind j c.target f.length f.writeData] ++ more
      ∧ (waiting = [] →
          more = [] ∧ ((w.serve p).port p).egress = [] ∧ ((w.serve p).port p).copiesSent = satInc (w.port p).copiesSent
          ∧ ((w.serve p).port p).slots = (w.port p).slots.set j.val (.inFlight x (w.port p).responseTimeout) j.isLt
          ∧ (w.serve p).entry? x = some (f.setCopy p .sent (some j))) := by
  have sent := sendOn_wire w p x waiting j f c hf hc
  by_cases hw : waiting = []
  · subst hw
    have entry : (w.sendOn p x [] j).entry? x = some (f.setCopy p .sent (some j)) := by
      rw [entry_congr (sendOn_ott w p x [] j), entry_markCopy, if_pos rfl, hf]
      rfl
    rw [serve_one w p x j ha hq hj hcl, settleIdle_wire, settleIdle_port, sendOn_port]
    exact ⟨[], by rw [sent, List.append_nil], fun _ => ⟨rfl, rfl, rfl, rfl, entry⟩⟩
  · obtain ⟨more, grown⟩ := serveN_wire 79 (w.sendOn p x waiting j) p
    rw [serve_sends w p x waiting j ha hq hj hcl, settleIdle_wire]
    exact ⟨more, by rw [grown, sent], fun k => absurd k hw⟩

/-- Whether the OTT is empty follows from its tags. -/
theorem ott_nil_of_tags {s t : State} (h : t.ott.map (·.tag) = s.ott.map (·.tag)) : t.ott = [] ↔ s.ott = [] := by
  rw [← List.map_eq_nil_iff (f := (·.tag)), h, List.map_eq_nil_iff]

/-- The data of the response to a SINGLE entry's copy that answered (R119). -/
theorem answer_data (kind : MemKind) (good : Bool) (data old : List Byte) :
    let o : CopyState := if good then .ok else .targetError
    (if kind = .read ∧ o = .ok then (if good then data else []) else if kind = .read ∧ o.status = .ok then old else [])
      = if good ∧ kind = .read then data else [] := by
  cases good <;> cases kind <;> rfl

/-- The outcome of a SINGLE entry's copy, with its port served: the entry is answered and gone (R117, R119, R120), and the
port is served from what it held (R86). -/
theorem single_outcome_served {v : State} {t : Tag} {p : PortId} {o : CopyState} {data : List Byte} {e : Entry}
    (he : v.entry? t = some e) (hc : e.modeClass = .single) :
    let u := (v.outcome t p o data).serve p
    u.ulc = (v.respond e.kind t o.status (if e.kind = .read ∧ o = .ok then data
        else if e.kind = .read ∧ o.status = .ok then e.readData.getD [] else [])).ulc
      ∧ (∀ x ∈ u.ott, x.tag ≠ t)
      ∧ u.mail.emptyReports = v.mail.emptyReports + (if u.ott = [] then 1 else 0)
      ∧ (u.port p).targetErrors = (v.port p).targetErrors
      ∧ u.mail.occurrences = v.mail.occurrences
      ∧ ((v.port p).egress = [] → v.claims p = [] → (u.port p).slots = (v.port p).slots)
      ∧ (∀ x waiting f c j, (v.port p).state = .active → (v.port p).egress = x :: waiting → v.claims p = [] → x ≠ t →
          v.entry? x = some f → f.copyAt p = some c → (v.port p).LowestFree j →
          ∃ more, u.wire = v.wire ++ [.downstream p f.kind j c.target f.length f.writeData] ++ more
            ∧ (waiting = [] →
                more = [] ∧ (u.port p).egress = [] ∧ (u.port p).copiesSent = satInc (v.port p).copiesSent
                ∧ (u.port p).slots = (v.port p).slots.set j.val (.inFlight x (v.port p).responseTimeout) j.isLt
                ∧ u.entry? x = some (f.setCopy p .sent (some j))))
      ∧ v.OnlyDataPath u := by
  intro u
  let w := v.outcome t p o data
  obtain ⟨ulc, gone, ports, occ, -, wire, -⟩ := outcome_single_does v t p o data e he hc
  obtain ⟨left, empties⟩ := outcome_single_leaves v t p o data e he hc
  have port : w.port p = v.port p := State.port_congr ports p
  have served := servesOnly_serve p w
  have empty : u.ott = [] ↔ w.ott = [] := ott_nil_of_tags served.tags
  refine ⟨served.ulc.trans ulc, fun x hx => ?_, ?_, ?_, served.occ.trans occ, fun hq hcl => ?_,
    fun x waiting f c j ha hq hcl hx hf hcp hj => ?_,
    onlyDataPath_trans (onlyDataPath_of_carries (State.outcome_carries v t p o data)) served.only⟩
  · have tag : x.tag ∈ w.ott.map (·.tag) := served.tags ▸ List.mem_map_of_mem hx
    obtain ⟨y, hy, same⟩ := List.mem_map.mp tag
    exact same ▸ gone y hy
  · rw [served.empt, empties]
    exact congrArg _ (if_congr empty.symm rfl rfl)
  · rw [served.same, port]
  · have idle := serve_idle w p (by rw [port]; exact hq) (claims_of_filter left hcl)
    change ((w.serve p).port p).slots = _
    rw [idle, settleIdle_port, port]
  · have sends := serve_sends_head (w := w) (p := p) (x := x) (waiting := waiting) (j := j) (f := f) (c := c)
      (by rw [port]; exact ha) (by rw [port]; exact hq) (by rw [port]; exact hj) (claims_of_filter left hcl)
      ((entry_of_filter left hx).trans hf) hcp
    rw [port, wire] at sends
    exact sends

/-- Settles O38: the answer brings the outcome, and a SINGLE entry is answered with it. -/
theorem targetResponseAnswers : Obligations.TargetResponseAnswers := by
  unfold Obligations.TargetResponseAnswers
  intro s p i status data t d ha hi hs malformed good
  have taken := exec_targetResponse_inFlight data ha hi hs
  obtain ⟨port, others, frame⟩ := answered_does s p i malformed good
  refine ⟨⟨_, taken, port, others, frame⟩, fun e he => refusesAnswer_iff he status data, fun e he hc => ⟨_, taken, ?_⟩⟩
  generalize s.answered p i malformed good = v at port others frame
  have vott : v.ott = s.ott := by rw [frame]
  have vulc : v.ulc = s.ulc := by rw [frame]
  have vwire : v.wire = s.wire := by rw [frame]
  have voccurrences : v.mail.occurrences = s.mail.occurrences ++ (if malformed ∧ s.underReset = false then
      [.linkFault .malformedTarget (some p) (some (BitVec.ofNat 8 i.val))] else []) := by rw [frame]
  have vempties : v.mail.emptyReports = s.mail.emptyReports := by rw [frame]
  have vonly : s.OnlyDataPath v := by
    rw [frame]
    rfl
  obtain ⟨ulc, gone, empties, errors, occurrences, quiet, sends, only⟩ := single_outcome_served (p := p)
    (o := if good then .ok else .targetError) (data := if good then data else []) ((entry_congr vott t).trans he) hc
  have status : (if good then CopyState.ok else .targetError).status = if good then Status.ok else .targetError := by
    split <;> rfl
  rw [answer_data, status] at ulc
  refine ⟨ulc.trans (respond_ulc_congr vulc _ _ _ _), gone, by rw [empties, vempties], by rw [errors, port], fun hm hr => ?_,
    fun hm => ?_, fun hq hcl => ?_, fun x waiting f c j hq hcl hx hf hcp hj => ?_, onlyDataPath_trans vonly only⟩
  · rw [occurrences, voccurrences, if_pos ⟨hm, hr⟩]
    simp
  · rw [occurrences, voccurrences, if_neg (by simp [hm]), List.append_nil]
  · rw [quiet (by rw [port]; exact hq) ((claims_congr vott p).trans hcl), port]
  · have sent := sends x waiting f c j (by rw [port]; exact ha) (by rw [port]; exact hq) ((claims_congr vott p).trans hcl) hx
      ((entry_congr vott x).trans hf) hcp (by rw [port]; exact hj)
    rw [port, vwire] at sent
    exact sent

end Sys2Proof.Machine
end

section
/-! PROOFS. The head as it is admitted: the copies that are placed one after another, and how its entry records them. -/

namespace Sys2Proof.Machine

/-! ### Copies as they are marked -/

/-- The copy `d` is the copy `c`, perhaps marked QUEUED or SENT; at a port not listed it is `c` itself. -/
structure Copy.Marked (ps : List PortId) (c d : Copy) : Prop where
  port : d.port = c.port
  target : d.target = c.target
  position : d.position = c.position
  state : d.state = c.state ∨ d.state = .queued ∨ d.state = .sent
  other : c.port ∉ ps → d = c

theorem Copy.Marked.trans {ps qs : List PortId} {c d e : Copy} (a : c.Marked ps d) (b : d.Marked qs e) : c.Marked (ps ++ qs) e where
  port := b.port.trans a.port
  target := b.target.trans a.target
  position := b.position.trans a.position
  state := b.state.elim (fun h => h ▸ a.state) .inr
  other h := by
    rw [List.mem_append, not_or] at h
    rw [b.other (a.port ▸ h.2), a.other h.1]

/-- From `s` to `u` copies at the listed ports have been marked QUEUED or SENT, and the OTT has not changed otherwise. -/
def State.Marks (ps : List PortId) (s u : State) : Prop :=
  ∃ g : Entry → Entry, u.ott = s.ott.map g
    ∧ ∀ e, ∃ h : Copy → Copy, g e = { e with copies := e.copies.map h } ∧ ∀ c : Copy, c.Marked ps (h c)

theorem State.Marks.refl (ps : List PortId) (s : State) : s.Marks ps s :=
  ⟨id, (List.map_id _).symm, fun e => ⟨id, by rw [List.map_id]; rfl, fun _ => ⟨rfl, rfl, rfl, .inl rfl, fun _ => rfl⟩⟩⟩

theorem State.Marks.trans {ps qs : List PortId} {s t u : State} (a : s.Marks ps t) (b : t.Marks qs u) : s.Marks (ps ++ qs) u := by
  obtain ⟨g, hg, marked⟩ := a
  obtain ⟨g', hg', marked'⟩ := b
  refine ⟨g' ∘ g, by rw [hg', hg, List.map_map], fun e => ?_⟩
  obtain ⟨h, he, k⟩ := marked e
  obtain ⟨h', he', k'⟩ := marked' (g e)
  refine ⟨h' ∘ h, ?_, fun c => (k c).trans (k' (h c))⟩
  rw [Function.comp_apply, he', he, List.map_map]

theorem State.Marks.mono {ps qs : List PortId} {s u : State} (a : s.Marks ps u) (h : ∀ p ∈ ps, p ∈ qs) : s.Marks qs u := by
  obtain ⟨g, hg, marked⟩ := a
  refine ⟨g, hg, fun e => ?_⟩
  obtain ⟨f, he, k⟩ := marked e
  exact ⟨f, he, fun c => { k c with other := fun hc => (k c).other fun hp => hc (h _ hp) }⟩

/-- Marking a copy QUEUED or SENT. -/
theorem markCopy_marks {s u : State} {t : Tag} {p : PortId} {st : CopyState} {sl : Option SlotId} (hst : st = .queued ∨ st = .sent)
    (h : u.ott = (s.markCopy t p st sl).ott) : s.Marks [p] u := by
  refine ⟨fun e => if e.tag = t then e.setCopy p st sl else e, h, fun e => ?_⟩
  simp only
  split
  · refine ⟨fun c => if c.port = p then { c with state := st, slot := sl } else c, rfl, fun c => ?_⟩
    simp only
    split
    · next hp => exact ⟨rfl, rfl, rfl, .inr hst, fun k => absurd (by simp [hp]) k⟩
    · exact ⟨rfl, rfl, rfl, .inl rfl, fun _ => rfl⟩
  · exact ⟨id, by rw [List.map_id], fun _ => ⟨rfl, rfl, rfl, .inl rfl, fun _ => rfl⟩⟩

theorem serveN_marks (n : Nat) (s : State) (p : PortId) : s.Marks [p] (State.serveN n s p) := by
  induction n generalizing s with
  | zero => exact .refl _ s
  | succ n ih =>
    have both {u : State} (h : s.Marks [p] u) : s.Marks [p] (State.serveN n u p) := (h.trans (ih u)).mono (by simp)
    unfold State.serveN
    split
    · next u h =>
      obtain ⟨t, ts, -, rfl⟩ := arbitrate_some h
      exact both (markCopy_marks (.inl rfl) (placeCopy_ott s p t))
    · split
      · next u h =>
        obtain ⟨t, rest, i, -, rfl⟩ := send_some h
        exact both (markCopy_marks (.inr rfl) (sendOn_ott s p t rest i))
      · exact .refl _ s

/-- The entry of a tag, after copies have been marked. -/
theorem State.Marks.entry {ps : List PortId} {s u : State} (m : s.Marks ps u) {x : Tag} {e : Entry} (he : s.entry? x = some e) :
    ∃ h : Copy → Copy, u.entry? x = some { e with copies := e.copies.map h } ∧ ∀ c : Copy, c.Marked ps (h c) := by
  obtain ⟨g, hg, marked⟩ := m
  have tags (e : Entry) : (g e).tag = e.tag := by
    obtain ⟨h, hge, -⟩ := marked e
    rw [hge]
  obtain ⟨h, hge, k⟩ := marked e
  refine ⟨h, ?_, k⟩
  rw [State.entry?, hg, find_map_tag g tags]
  exact (congrArg (Option.map g) he).trans (congrArg some hge)

/-- Marking makes no claim. -/
theorem State.Marks.claims_nil {ps : List PortId} {s u : State} (m : s.Marks ps u) {p : PortId} (hc : s.claims p = []) :
    u.claims p = [] := by
  obtain ⟨g, hg, marked⟩ := m
  simp only [State.claims, List.map_eq_nil_iff, List.filter_eq_nil_iff, hg, List.mem_map] at hc ⊢
  rintro _ ⟨e, he, rfl⟩
  obtain ⟨h, hge, k⟩ := marked e
  have no := hc e he
  simp only [hge, Entry.waitsFor, List.any_eq_true, List.mem_map] at no ⊢
  rintro ⟨_, ⟨c, hcm, rfl⟩, hw⟩
  refine no ⟨c, hcm, ?_⟩
  have := (k c).port
  have := (k c).state
  grind

/-! ### Ports that are served -/

/-- From `s` to `u` the listed ports have been served: no other port changes, the output lines and the attempt events only grow,
and the OTT has copies marked. -/
structure State.Serves (ps : List PortId) (s u : State) : Prop where
  ulc : u.ulc = s.ulc
  iq : u.iq = s.iq
  occurrences : u.mail.occurrences = s.mail.occurrences
  hitReports : u.mail.hitReports = s.mail.hitReports
  creditReturns : u.mail.creditReturns = s.mail.creditReturns
  attempts : ∀ e ∈ s.mail.attempts, e ∈ u.mail.attempts
  other : ∀ q, q ∉ ps → u.port q = s.port q
  wire : ∃ more, u.wire = s.wire ++ more
  marks : s.Marks ps u
  only : s.OnlyDataPath u

theorem State.Serves.refl (s : State) : s.Serves [] s :=
  ⟨rfl, rfl, rfl, rfl, rfl, fun _ h => h, fun _ _ => rfl, ⟨[], (List.append_nil _).symm⟩, .refl _ s, rfl⟩

theorem State.Serves.trans {ps qs : List PortId} {s t u : State} (a : s.Serves ps t) (b : t.Serves qs u) : s.Serves (ps ++ qs) u where
  ulc := b.ulc.trans a.ulc
  iq := b.iq.trans a.iq
  occurrences := b.occurrences.trans a.occurrences
  hitReports := b.hitReports.trans a.hitReports
  creditReturns := b.creditReturns.trans a.creditReturns
  attempts e h := b.attempts e (a.attempts e h)
  other q h := by
    rw [List.mem_append, not_or] at h
    exact (b.other q h.2).trans (a.other q h.1)
  wire := by
    obtain ⟨m, hm⟩ := a.wire
    obtain ⟨n, hn⟩ := b.wire
    exact ⟨m ++ n, by rw [hn, hm, List.append_assoc]⟩
  marks := a.marks.trans b.marks
  only := onlyDataPath_trans a.only b.only

/-- The pins and the IQ are outside the data path. -/
theorem onlyDataPath_stands {s u : State} (h : s.OnlyDataPath u) : u.pins = s.pins ∧ u.iq = s.iq := by
  unfold State.OnlyDataPath at h
  rw [h]
  exact ⟨rfl, rfl⟩

/-- A copy is placed and its port served. -/
theorem placed_serves (s : State) (p : PortId) (t : Tag) : s.Serves [p] ((s.placeCopy p t).serve p) := by
  have only := (servesOnly_place p s t).trans (servesOnly_serve p _)
  have marks : s.Marks [p] ((s.placeCopy p t).serve p) :=
    ((markCopy_marks (.inl rfl) (placeCopy_ott s p t)).trans (serveN_marks 80 (s.placeCopy p t) p)).mono (by simp)
  obtain ⟨m, hm⟩ := placeCopy_wire s p t
  obtain ⟨n, hn⟩ := serve_wire (s.placeCopy p t) p
  exact { ulc := only.ulc, iq := (onlyDataPath_stands only.only).2, occurrences := only.occ, hitReports := only.hit
          creditReturns := only.cr, attempts := only.att, other := fun q hq => only.other q (by simpa using hq)
          wire := ⟨m ++ n, by rw [hn, hm, List.append_assoc]⟩, marks := marks, only := only.only }

theorem placeCopies_serves (t : Tag) (cs : List Copy) (s : State) : s.Serves (cs.map (·.port)) (s.placeCopies t cs) := by
  induction cs generalizing s with
  | nil => exact .refl s
  | cons c cs ih => exact (placed_serves s c.port t).trans (ih _)

theorem placeCopies_append (t : Tag) (xs ys : List Copy) (s : State) :
    s.placeCopies t (xs ++ ys) = (s.placeCopies t xs).placeCopies t ys := by
  induction xs generalizing s with
  | nil => rfl
  | cons x xs ih => exact ih _

/-- What has been placed at a port stands as other ports are served before and after it. -/
theorem State.Places.within {s v x u : State} {p : PortId} {t : Tag} {request : SlotId → Output} {ps qs : List PortId}
    (before : s.Serves ps v) (hp : p ∉ ps) (placed : v.Serves [p] x) (h : v.Places x p t request) (after : x.Serves qs u)
    (hq : p ∉ qs) : s.Places u p t request := by
  obtain ⟨m, hm⟩ := before.wire
  obtain ⟨k, hk⟩ := placed.wire
  obtain ⟨n, hn⟩ := after.wire
  have pins : v.pins = s.pins := (onlyDataPath_stands before.only).1
  have new {o : Output} (ho : o ∈ x.wire.drop v.wire.length) : o ∈ u.wire.drop s.wire.length := by
    rw [hk, List.drop_left] at ho
    rw [hn, hk, hm, List.append_assoc, List.append_assoc, List.drop_left]
    simp [ho]
  obtain ⟨waking, full, parked, sends⟩ := h
  rw [before.other p hp] at waking full parked sends
  rw [pins] at parked sends
  have port : u.port p = x.port p := after.other p hq
  refine ⟨fun a => port.trans (waking a), fun a b => port.trans (full a b), fun a b => ?_, fun i hi he => ⟨fun a => ?_, fun a b => ?_⟩⟩
  · obtain ⟨c, d, e⟩ := parked a b
    exact ⟨port.trans c, new d, after.attempts _ e⟩
  · obtain ⟨c, d⟩ := (sends i hi he).1 a
    exact ⟨port.trans c, new d⟩
  · obtain ⟨c, d, e, f⟩ := (sends i hi he).2 a b
    exact ⟨port.trans c, new d, new e, after.attempts _ f⟩

/-! ### The copies of an admitted request (R30, R58) -/

/-- Every copy that mode resolution makes is QUEUED. -/
theorem resolve_queued {s : State} {w : Window} {kind : MemKind} {a : Addr} {cls : ModeClass} {cs : List Copy} {skipped : List PortId}
    (h : s.resolve w kind a = .copies cls cs skipped) : ∀ c ∈ cs, c.state = .queued := by
  have single {p : PortId} {target : Addr} (k : singleCopy p target = .copies cls cs skipped) : ∀ c ∈ cs, c.state = .queued := by
    cases k
    simp
  have mirrored (target : Addr) (ms : List (PortId × Nat)) : ∀ c ∈ ms.map (mirrorCopy target), c.state = .queued := by
    intro c hc
    obtain ⟨m, -, rfl⟩ := List.mem_map.mp hc
    rfl
  unfold State.resolve at h
  simp only at h
  split at h
  · unfold State.resolveDirect at h
    split at h
    · exact single h
    split at h
    · split at h
      · exact single h
      · cases h
    · cases h
  · unfold State.resolvePaged at h
    split at h
    · cases h
    · split at h
      · exact single h
      · cases h
  · unfold State.resolveInterleaved at h
    simp only at h
    split at h
    · split at h
      · exact single h
      · cases h
    · cases h
  · unfold State.resolveMirrorWrite at h
    split at h
    · cases h
    · cases h
      exact mirrored _ _
  · unfold State.resolveMirrorRead at h
    split at h
    · cases h
      exact mirrored _ [_]
    · cases h

/-- A request that is taken in has its copies QUEUED. -/
theorem decideMemory_queued {s : State} {kind : MemKind} {a : Addr} {length : Nat} {i : WindowIx} {cls : ModeClass} {cs : List Copy}
    {skipped : List PortId} (h : s.decideMemory kind a length = .takeIn i cls cs skipped) : ∀ c ∈ cs, c.state = .queued := by
  unfold State.decideMemory at h
  split at h
  · cases h
  split at h
  · cases h
  split at h
  · cases h
  split at h
  · cases h
  unfold State.decideMode at h
  split at h
  · cases h
  · cases h
  · next cls' cs' skipped' hr =>
    split at h
    · cases h
      exact resolve_queued hr
    · cases h

/-- The copies at a port after they have been marked. -/
theorem mem_setCopy {e : Entry} {p : PortId} {st : CopyState} {sl : Option SlotId} {d : Copy} (hd : d ∈ (e.setCopy p st sl).copies)
    (hp : d.port = p) : d.state = st ∧ d.slot = sl := by
  obtain ⟨c, -, rfl⟩ := List.mem_map.mp hd
  split at hp <;> simp_all

/-- A copy that stands among others at other ports is the copy at its port. -/
theorem copyAt_of_split {e : Entry} {before after : List Copy} {c : Copy} (h : e.copies = before ++ c :: after)
    (hn : c.port ∉ before.map (·.port)) : e.copyAt c.port = some c := by
  rw [Entry.copyAt, h, List.find?_eq_some_iff_append]
  refine ⟨by simp, before, after, rfl, fun d hd => ?_⟩
  have : d.port ≠ c.port := fun k => hn (List.mem_map.mpr ⟨d, hd, k⟩)
  simpa using this

/-- The last entry, if no other bears its tag, is the entry of its tag. -/
theorem entry_last {s : State} {l : List Entry} {e : Entry} (h : s.ott = l ++ [e]) (hn : ∀ x ∈ l, x.tag ≠ e.tag) :
    s.entry? e.tag = some e := by
  rw [State.entry?, h, List.find?_append, List.find?_eq_none.mpr (by simpa using hn)]
  simp

/-- The last entry after copies have been marked. -/
theorem State.Marks.last {ps : List PortId} {s u : State} (m : s.Marks ps u) {l : List Entry} {e : Entry} (h : s.ott = l ++ [e]) :
    ∃ l' f, u.ott = l' ++ [{ e with copies := e.copies.map f }] ∧ l'.map (·.tag) = l.map (·.tag)
      ∧ ∀ c : Copy, c.Marked ps (f c) := by
  obtain ⟨g, hg, marked⟩ := m
  obtain ⟨f, hf, k⟩ := marked e
  refine ⟨l.map g, f, by rw [hg, h, List.map_append, List.map_singleton, hf], ?_, k⟩
  rw [List.map_map]
  refine List.map_congr_left fun x _ => ?_
  obtain ⟨f', hx, -⟩ := marked x
  simp [hx]

/-- Of copies at ports of their own, each is placed as `State.Places` says, and its entry records how it then stands. -/
theorem placeCopies_places {a : State} {t : Tag} {before after : List Copy} {c : Copy} {e0 : Entry}
    (hb : c.port ∉ before.map (·.port)) (ha : c.port ∉ after.map (·.port)) (he : a.entry? t = some e0)
    (hcs : e0.copies = before ++ c :: after) (hcl : a.claims c.port = []) :
    a.Places (a.placeCopies t (before ++ c :: after)) c.port t
        (fun slot => .downstream c.port e0.kind slot c.target e0.length e0.writeData)
      ∧ ∀ f, (a.placeCopies t (before ++ c :: after)).entry? t = some f → ∀ d ∈ f.copies, d.port = c.port →
          ((a.port c.port).state = .waking → d.state = .queued)
          ∧ ∀ slot, (a.port c.port).LowestFree slot → (a.port c.port).egress = [] → (a.port c.port).state = .active →
              d.state = .sent ∧ d.slot = some slot := by
  rw [placeCopies_append]
  let v := a.placeCopies t before
  let x := (v.placeCopy c.port t).serve c.port
  have first : a.Serves _ v := placeCopies_serves t before a
  have rest : x.Serves _ (x.placeCopies t after) := placeCopies_serves t after x
  have port : v.port c.port = a.port c.port := first.other _ hb
  obtain ⟨h, he1, marked⟩ := first.marks.entry he
  have copy : ({ e0 with copies := e0.copies.map h } : Entry).copyAt c.port = some c := by
    have stands : h c = c := (marked c).other hb
    have := copyAt_of_split (e := { e0 with copies := e0.copies.map h }) (before := before.map h) (c := c) (after := after.map h)
      (by simp [hcs, stands]) (by simpa [(marked _).port] using hb)
    exact this
  have unclaimed := claims_markCopy_nil v t c.port c.port .queued none (by decide) (first.marks.claims_nil hcl)
  obtain ⟨places, waking, sends⟩ := placeCopy_places v c.port t _ c he1 copy unclaimed
  rw [port] at waking sends
  refine ⟨places.within first hb (placed_serves v c.port t) rest ha, fun f hf d hd hp => ?_⟩
  have recorded {e' : Entry} (hx : x.entry? t = some e') : d ∈ e'.copies := by
    obtain ⟨h', hf', marked'⟩ := rest.marks.entry hx
    cases hf.symm.trans hf'
    obtain ⟨c', hc', rfl⟩ := List.mem_map.mp hd
    rwa [(marked' c').other (by rw [← (marked' c').port, hp]; exact ha)]
  exact ⟨fun hw => (mem_setCopy (recorded (waking hw)) hp).1,
    fun slot hs hq hact => mem_setCopy (recorded (sends slot hs hq hact)) hp⟩

/-! ### The head as it is admitted (R30, R113) -/

/-- The state in which an admitted request stands in the OTT with its hit reported, its copies still to be placed. -/
def State.admitted (s : State) (rest : List Request) (credit : CreditPath) (e : Entry) : State :=
  ({ s.leaveHead rest credit with ott := s.ott ++ [e] } : State).hitReport e.window

/-- A head that is taken in leaves for the OTT, and its copies are placed. -/
theorem exec_headAttempt_takeIn {s : State} {k : Nat} {credit : CreditPath} {t : Tag} {kind : MemKind} {a : Addr} {length : Nat}
    {data : List Byte} {rest : List Request} {i : WindowIx} {cls : ModeClass} {cs : List Copy} {skipped : List PortId}
    (hk : s.AttemptsHead k) (hf : s.iq.fifo = ⟨t, .memory kind a length data⟩ :: rest)
    (hd : s.decideMemory kind a length = .takeIn i cls cs skipped) :
    ∃ attempts, exec (.headAttempt k credit) s = .next
      ((({ s with mail := { s.mail with attempts := attempts } } : State).admitted rest credit
        (s.newEntry t kind length data i cls cs skipped)).placeCopies t cs).newHead := by
  obtain ⟨hn, hs, e, attempts, ht, ha⟩ := hk
  refine ⟨attempts, ?_⟩
  let s1 : State := { s with mail := { s.mail with attempts := attempts } }
  have attempted : exec (.headAttempt k credit) s = .next (s1.attempt credit) := by
    change execHeadAttempt k credit s = _
    unfold execHeadAttempt
    rw [if_neg (by simp [hn]), ht]
    exact congrArg _ (if_pos ⟨ha, hs⟩)
  have decided : s1.decideMemory kind a length = .takeIn i cls cs skipped := hd
  have left : (s1.leaveHead rest credit).ott = s.ott := State.leaveHead_ott s1 rest credit
  rw [attempted]
  refine congrArg _ ?_
  unfold State.attempt
  rw [show s1.iq.fifo = _ from hf]
  simp only [decided]
  unfold State.takeIn
  rw [left]
  rfl

/-- Only what an admission may touch differs. -/
def State.OnlyAdmission (s t : State) : Prop :=
  t = { s with ulc := t.ulc, iq := t.iq, ott := t.ott, ports := t.ports, mail := t.mail, wire := t.wire }

theorem State.OnlyAdmission.trans {s t u : State} (a : s.OnlyAdmission t) (b : t.OnlyAdmission u) : s.OnlyAdmission u := by
  unfold State.OnlyAdmission at *
  rw [b, a]

theorem State.OnlyAdmission.ofDataPath {s t : State} (h : s.OnlyDataPath t) : s.OnlyAdmission t := by
  unfold State.OnlyDataPath at h
  unfold State.OnlyAdmission
  rw [h]

/-- What admission changes before any copy is placed. -/
theorem admitted_does (s : State) (rest : List Request) (credit : CreditPath) (e : Entry) :
    (s.admitted rest credit e).iq = { s.iq with fifo := rest }
      ∧ (s.admitted rest credit e).ulc = (s.returnCredits credit 1).ulc
      ∧ (s.admitted rest credit e).mail.creditReturns = (s.returnCredits credit 1).mail.creditReturns
      ∧ (s.admitted rest credit e).mail.hitReports = s.mail.hitReports ++ [⟨s.ps.active, e.window⟩]
      ∧ (s.admitted rest credit e).mail.occurrences = s.mail.occurrences
      ∧ (s.admitted rest credit e).ott = s.ott ++ [e] ∧ (s.admitted rest credit e).ports = s.ports
      ∧ (s.admitted rest credit e).wire = s.wire ∧ (s.admitted rest credit e).pins = s.pins
      ∧ s.OnlyAdmission (s.admitted rest credit e) := by
  cases credit <;> exact ⟨rfl, rfl, rfl, rfl, rfl, rfl, rfl, rfl, rfl, rfl⟩

/-- What a new head leaves as it was. -/
theorem newHead_does (s : State) : s.newHead.iq.fifo = s.iq.fifo ∧ s.newHead.iq.tags = s.iq.tags ∧ s.newHead.iq.gate = s.iq.gate
    ∧ (∀ e ∈ s.mail.attempts, e ∈ s.newHead.mail.attempts) ∧ s.OnlyAdmission s.newHead := by
  unfold State.newHead
  split
  · exact ⟨rfl, rfl, rfl, fun _ h => h, rfl⟩
  split
  · exact ⟨rfl, rfl, rfl, fun _ h => h, rfl⟩
  · exact ⟨rfl, rfl, rfl, fun e h => attemptDue_mono _ _ e h, rfl⟩

/-- Where a copy has been placed is read from the ports, the pins, the output lines and the attempt events alone. -/
theorem State.Places.congr {s s' u u' : State} {p : PortId} {t : Tag} {request : SlotId → Output} (h : s.Places u p t request)
    (ports : s'.ports = s.ports) (pins : s'.pins = s.pins) (wire : s'.wire = s.wire) (ports' : u'.ports = u.ports)
    (wire' : u'.wire = u.wire) (attempts : ∀ e ∈ u.mail.attempts, e ∈ u'.mail.attempts) : s'.Places u' p t request := by
  obtain ⟨waking, full, parked, sends⟩ := h
  unfold State.Places
  simp only [State.port_congr ports, State.port_congr ports', pins, wire, wire']
  exact ⟨waking, full, fun a b => ⟨(parked a b).1, (parked a b).2.1, attempts _ (parked a b).2.2⟩,
    fun i hi he => ⟨(sends i hi he).1, fun a b =>
      ⟨((sends i hi he).2 a b).1, ((sends i hi he).2 a b).2.1, ((sends i hi he).2 a b).2.2.1, attempts _ ((sends i hi he).2 a b).2.2.2⟩⟩⟩

/-- An entry whose copies are all QUEUED makes no claim. -/
theorem claims_append_queued {s b : State} {e : Entry} (h : b.ott = s.ott ++ [e]) (hq : ∀ c ∈ e.copies, c.state = .queued)
    {p : PortId} (hc : s.claims p = []) : b.claims p = [] := by
  have none : e.waitsFor p = false := by
    simp only [Entry.waitsFor, List.any_eq_false]
    intro c hc
    simp [hq c hc]
  simp only [State.claims, List.map_eq_nil_iff] at hc ⊢
  rw [h, List.filter_append, hc]
  simp [none]

/-- Settles O23. -/
theorem headAdmittedBecomesAnEntry : Obligations.HeadAdmittedBecomesAnEntry := by
  unfold Obligations.HeadAdmittedBecomesAnEntry
  intro s k credit t kind a length data rest i cls cs skipped hk hf hd
  obtain ⟨attempts, attempted⟩ := exec_headAttempt_takeIn (credit := credit) hk hf hd
  let e0 := s.newEntry t kind length data i cls cs skipped
  let s1 : State := { s with mail := { s.mail with attempts := attempts } }
  let b := s1.admitted rest credit e0
  let c := b.placeCopies t cs
  obtain ⟨biq, bulc, breturns, bhits, boccurrences, bott, bports, bwire, bpins, bonly⟩ := admitted_does s1 rest credit e0
  have served : b.Serves (cs.map (·.port)) c := placeCopies_serves t cs b
  obtain ⟨fifo, tags, gate, grows, only⟩ := newHead_does c
  obtain ⟨l, h, cott, ltags, marked⟩ := served.marks.last bott
  have queued := decideMemory_queued hd
  have uott : c.newHead.ott = c.ott := State.newHead_ott c
  have uports : c.newHead.ports = c.ports := State.newHead_ports c
  refine ⟨c.newHead, { e0 with copies := cs.map h }, attempted, ?_, ?_, ?_, ?_, ?_, rfl, rfl, rfl, rfl, rfl, rfl, rfl, rfl, ?_,
    fun d hd => ?_, fun p hp => ?_, fun nodup fresh d hd hc => ?_, ?_, ?_, ?_, ?_, ?_⟩
  · rw [fifo, served.iq, biq]
  · rw [tags, served.iq, biq]
  · rw [gate, served.iq, biq]
  · rw [uott, cott, List.map_append, ltags]
    rfl
  · rw [uott, cott]
    exact List.getLast?_concat
  · rw [List.map_map]
    refine List.map_congr_left fun d _ => ?_
    simp only [Function.comp_apply, (marked d).port, (marked d).target, (marked d).position]
  · obtain ⟨x, hx, rfl⟩ := List.mem_map.mp hd
    exact (marked x).state.elim (fun k => .inl (k.trans (queued x hx))) id
  · rw [State.port_congr uports, served.other p hp]
    exact State.port_congr bports p
  · obtain ⟨before, after, split⟩ := List.append_of_mem hd
    obtain ⟨hb, ha⟩ : d.port ∉ before.map (·.port) ∧ d.port ∉ after.map (·.port) := by
      rw [split, List.map_append, List.map_cons, List.nodup_middle, List.nodup_cons, List.mem_append, not_or] at nodup
      exact nodup.1
    have entered : b.entry? t = some e0 := entry_last (e := e0) bott fresh
    have recorded : c.entry? t = some { e0 with copies := cs.map h } := by
      refine entry_last (e := { e0 with copies := cs.map h }) cott fun x hx k => ?_
      obtain ⟨y, hy, same⟩ := List.mem_map.mp (ltags ▸ List.mem_map_of_mem hx)
      exact fresh y hy (same.trans k)
    have placed := placeCopies_places hb ha entered split (claims_append_queued bott queued hc)
    rw [← split] at placed
    obtain ⟨places, stands⟩ := placed
    have port : b.port d.port = s.port d.port := State.port_congr bports _
    rw [port] at stands
    exact ⟨places.congr bports.symm bpins.symm bwire.symm uports (State.newHead_wire c) grows, stands _ recorded⟩
  · rw [State.newHead_hitReports, served.hitReports, bhits]
    rfl
  · rw [State.newHead_ulc, served.ulc, bulc]
    cases credit <;> rfl
  · rw [State.newHead_creditReturns, served.creditReturns, breturns]
    cases credit <;> rfl
  · rw [State.newHead_occurrences, served.occurrences, boccurrences]
  · exact (bonly.trans (.ofDataPath served.only)).trans only

end Sys2Proof.Machine
end

section
/-! PROOFS. The plan in force: what leaves the generation, the gate, a drain and the entries of the OTT as they were
(`State.KeepsPlan`), the few acts that do not, and the invariant that every step keeps. -/

namespace Sys2Proof.Machine

/-! ### The entries of the OTT -/

/-- From `s` to `t` no entry has been made: each that stands carries the generation of one that stood, no empty report is lost, and
if the last entry has gone, one is on its way (R111, R120). -/
structure State.KeepsEntries (s t : State) : Prop where
  generations : ∀ e ∈ t.ott, ∃ x ∈ s.ott, x.generation = e.generation
  reports : s.mail.emptyReports ≤ t.mail.emptyReports
  emptied : t.ott = [] → s.ott = [] ∨ t.mail.emptyReports ≠ 0

namespace State.KeepsEntries

theorem trans {s t u : State} (a : s.KeepsEntries t) (b : t.KeepsEntries u) : s.KeepsEntries u where
  generations e he := by
    obtain ⟨x, hx, ex⟩ := b.generations e he
    obtain ⟨y, hy, ey⟩ := a.generations x hx
    exact ⟨y, hy, ey.trans ex⟩
  reports := a.reports.trans b.reports
  emptied h := by
    have := b.reports
    rcases b.emptied h with k | k
    · exact (a.emptied k).imp_right fun _ => by omega
    · exact .inr k

/-- The OTT and its empty reports stand. -/
theorem ofSame {s t : State} (hott : t.ott = s.ott) (hr : t.mail.emptyReports = s.mail.emptyReports) : s.KeepsEntries t where
  generations e he := ⟨e, hott ▸ he, rfl⟩
  reports := hr.ge
  emptied h := .inl (hott ▸ h)

/-- Copies have been marked, and no more. -/
theorem ofMarks {ps : List PortId} {s t : State} (m : s.Marks ps t) (hr : t.mail.emptyReports = s.mail.emptyReports) :
    s.KeepsEntries t := by
  obtain ⟨g, hg, marked⟩ := m
  refine ⟨fun e he => ?_, hr.ge, fun h => .inl (List.map_eq_nil_iff.mp (hg ▸ h))⟩
  rw [hg] at he
  obtain ⟨x, hx, rfl⟩ := List.mem_map.mp he
  obtain ⟨h, hgx, -⟩ := marked x
  exact ⟨x, hx, by rw [hgx]⟩

/-- No entry comes where there was none. -/
theorem ott_nil {s t : State} (h : s.KeepsEntries t) (k : s.ott = []) : t.ott = [] :=
  List.eq_nil_iff_forall_not_mem.mpr fun e he => by
    obtain ⟨x, hx, -⟩ := h.generations e he
    rw [k] at hx
    cases hx

end State.KeepsEntries

theorem serve_keepsEntries (s : State) (p : PortId) : s.KeepsEntries (s.serve p) :=
  .ofMarks (serveN_marks 80 s p) (servesOnly_serve p s).empt

theorem placeCopy_keepsEntries (s : State) (p : PortId) (t : Tag) : s.KeepsEntries (s.placeCopy p t) :=
  .ofMarks (markCopy_marks (.inl rfl) (placeCopy_ott s p t)) (servesOnly_place p s t).empt

/-- An entry is written in the generation of one that stands. -/
theorem setEntry_keepsEntries {s : State} {e x : Entry} (hx : x ∈ s.ott) (hg : x.generation = e.generation) :
    s.KeepsEntries (s.setEntry e) where
  generations y hy := by
    obtain ⟨z, hz, rfl⟩ := List.mem_map.mp hy
    split
    · exact ⟨x, hx, hg⟩
    · exact ⟨z, hz, rfl⟩
  reports := le_rfl
  emptied h := .inl (List.map_eq_nil_iff.mp h)

theorem complete_keepsEntries (s : State) (e : Entry) (st : Status) : s.KeepsEntries (s.complete e st) where
  generations x hx := by
    rw [complete_ott] at hx
    exact ⟨x, (List.mem_filter.mp hx).1, rfl⟩
  reports := by
    rw [complete_emptyReports]
    exact Nat.le_add_right _ _
  emptied h := by
    rw [complete_emptyReports, if_pos h]
    exact .inr (Nat.succ_ne_zero _)

theorem failover_keepsEntries {s : State} {e x : Entry} (hx : x ∈ s.ott) (hg : x.generation = e.generation) (p : PortId)
    (o : CopyState) : s.KeepsEntries (s.failover e p o) := by
  unfold State.failover
  split
  · split
    · unfold State.reissue
      simp only
      split
      · exact ((setEntry_keepsEntries hx (by exact hg)).trans (placeCopy_keepsEntries _ _ _)).trans (serve_keepsEntries _ _)
      · exact setEntry_keepsEntries hx hg
    · exact complete_keepsEntries s e _
  · exact complete_keepsEntries s e _

/-- An outcome makes no entry, and reports the OTT empty if it takes the last (R114, R120). -/
theorem outcome_keepsEntries (s : State) (t : Tag) (p : PortId) (o : CopyState) (d : List Byte) :
    s.KeepsEntries (s.outcome t p o d) := by
  unfold State.outcome
  split
  · exact .ofSame rfl rfl
  · next e0 h =>
    have stood : e0 ∈ s.ott := List.mem_of_find?_eq_some h
    have generation : e0.generation = (if e0.kind = .read ∧ o = .ok then { e0.setCopy p o none with readData := some d }
        else e0.setCopy p o none : Entry).generation := by split <;> rfl
    simp only
    generalize (if e0.kind = .read ∧ o = .ok then { e0.setCopy p o none with readData := some d }
        else e0.setCopy p o none : Entry) = e at generation ⊢
    have set := setEntry_keepsEntries stood generation
    have stands : ∃ x ∈ (s.setEntry e).ott, x.generation = e.generation := by
      refine ⟨if e0.tag = e.tag then e else e0, List.mem_map_of_mem stood, ?_⟩
      split
      · rfl
      · exact generation
    have completes (st : Status) := set.trans (complete_keepsEntries (s.setEntry e) e st)
    have failsOver : s.KeepsEntries ((s.setEntry e).failover e p o) := by
      obtain ⟨x, hx, hg⟩ := stands
      exact set.trans (failover_keepsEntries hx hg p o)
    split
    · exact completes _
    · split
      · exact set
      · exact completes _
    · split
      · exact completes _
      · exact completes _
      all_goals exact failsOver

theorem runJob_keepsEntries (s : State) (p : PortId) (j : Job) : s.KeepsEntries (s.runJob p j) := by
  cases j with
  | fail t o => exact outcome_keepsEntries s t p o []
  | failClaim =>
    simp only [State.runJob]
    split
    · exact outcome_keepsEntries s _ p .portDown []
    · exact .ofSame rfl rfl
  | reply t st => exact .ofSame (State.reply_ott s t st []) (by rw [State.runJob, State.reply_mail])

theorem runJobs_keepsEntries (p : PortId) (js : List Job) (s : State) : s.KeepsEntries (s.runJobs p js) := by
  induction js generalizing s with
  | nil => exact .ofSame rfl rfl
  | cons j js ih => exact (runJob_keepsEntries s p j).trans (ih _)

/-- An abort reports the OTT empty, once (R132). -/
theorem abort_emptyReports (s : State) (order : Order) : (s.abort order).mail.emptyReports = s.mail.emptyReports + 1 := by
  have ports (c : PortId → Bool) (ps : List PortId) (u : State) : (u.abortPorts c ps).mail.emptyReports = u.mail.emptyReports := by
    induction ps generalizing u with
    | nil => rfl
    | cons p ps ih =>
      rw [State.abortPorts, ih, State.abortPort]
      split <;> rfl
  unfold State.abort
  simp only [State.reportEmpty, State.parkWaking_emptyReports, ports]
  rw [(State.answerAborted_spec _ _).1]

/-- An abort empties the OTT and reports it (R132). -/
theorem abort_keepsEntries (s : State) (order : Order) : s.KeepsEntries (s.abort order) where
  generations e he := by
    rw [abort_ott] at he
    cases he
  reports := by
    rw [abort_emptyReports]
    exact Nat.le_succ _
  emptied _ := by
    rw [abort_emptyReports]
    exact .inr (Nat.succ_ne_zero _)

/-! ### What leaves the plan in force -/

/-- From `s` to `t` the plan in force stays: its generation and the gate stand, no drain begins, no entry is made, the Plan Store
asks for no abort but in a drain, and of the resets only a RESET FULL whose abort leaves the OTT empty goes on. -/
structure State.KeepsPlan (s t : State) : Prop where
  generation : t.ps.generation = s.ps.generation
  drains : t.ps.op.drains = true → s.ps.op.drains = true
  gate : t.iq.gate = s.iq.gate
  aborts : AbortSource.planStore ∈ t.mail.aborts → AbortSource.planStore ∈ s.mail.aborts ∨ s.ps.op.drains = true
  entries : s.KeepsEntries t
  starting : t.rs.state = s.rs.state
  held : t.rs.held = s.rs.held
  full : t.rs.full = .ready → s.rs.full = .ready ∨ t.ott = []
  down : s.ulc.state = .down → t.ulc.state = .down
  fifo : s.ulc.state = .down → s.iq.fifo = [] → t.iq.fifo = []

namespace State.KeepsPlan

theorem trans {s t u : State} (a : s.KeepsPlan t) (b : t.KeepsPlan u) : s.KeepsPlan u where
  generation := b.generation.trans a.generation
  drains h := a.drains (b.drains h)
  gate := b.gate.trans a.gate
  aborts h := (b.aborts h).elim a.aborts fun k => .inr (a.drains k)
  entries := a.entries.trans b.entries
  starting := b.starting.trans a.starting
  held := b.held.trans a.held
  full h := (b.full h).elim (fun k => (a.full k).imp_right b.entries.ott_nil) .inr
  down h := b.down (a.down h)
  fifo h k := b.fifo (a.down h) (a.fifo h k)

/-- The data path moves within the plan in force. -/
theorem ofCarries {s t : State} (c : s.Carries t) (k : s.KeepsEntries t) : s.KeepsPlan t where
  generation := by rw [c.ps]
  drains h := by rwa [c.ps] at h
  gate := by rw [c.iq]
  aborts h := .inl (by rwa [c.aborts] at h)
  entries := k
  starting := by rw [c.rs]
  held := by rw [c.rs]
  full h := .inl (by rwa [c.rs] at h)
  down h := c.ulcState.trans h
  fifo _ h := by rwa [c.iq]

/-- What stands apart from the plan in force may change at will. -/
theorem ofSame {s t : State} (hg : t.ps.generation = s.ps.generation) (hop : t.ps.op.drains = s.ps.op.drains)
    (hiq : t.iq = s.iq) (hott : t.ott = s.ott) (hrs : t.rs = s.rs) (ha : t.mail.aborts = s.mail.aborts)
    (hr : t.mail.emptyReports = s.mail.emptyReports) (hulc : s.ulc.state = .down → t.ulc.state = .down) : s.KeepsPlan t where
  generation := hg
  drains h := hop ▸ h
  gate := by rw [hiq]
  aborts h := .inl (ha ▸ h)
  entries := .ofSame hott hr
  starting := by rw [hrs]
  held := by rw [hrs]
  full h := .inl (by rwa [hrs] at h)
  down := hulc
  fifo _ h := by rwa [hiq]

theorem refl (s : State) : s.KeepsPlan s := .ofSame rfl rfl rfl rfl rfl rfl rfl id

end State.KeepsPlan

/-- What holds of a state between steps: entries at the active generation, and the gate HELD in a drain. -/
def State.PlanInForce (s : State) : Prop := s.GenerationsCurrent ∧ s.DrainHoldsGate

/-- A drain is in progress exactly when the operation has a drain's record. -/
theorem drains_iff (op : PlanOp) : op.drains = true ↔ ∃ m e d o t, op = .draining m e d o t := by
  cases op <;> simp [PlanOp.drains]

theorem drainHoldsGate_iff (s : State) : s.DrainHoldsGate ↔ (s.ps.op.drains = true → s.iq.gate = .held)
    ∧ (AbortSource.planStore ∈ s.mail.aborts → s.iq.gate = .held)
    ∧ (s.ps.op.drains = true → s.ott = [] → s.mail.emptyReports ≠ 0) := by
  unfold State.DrainHoldsGate
  simp only [drains_iff]
  grind

theorem State.KeepsPlan.inForce {s t : State} (k : s.KeepsPlan t) (h : s.PlanInForce) : t.PlanInForce := by
  obtain ⟨⟨generations, empty, held⟩, drain⟩ := h
  rw [drainHoldsGate_iff] at drain
  obtain ⟨gate, aborts, reports⟩ := drain
  refine ⟨⟨fun e he => ?_, fun c => ?_, fun c => ?_⟩, (drainHoldsGate_iff t).mpr ⟨fun d => ?_, fun a => ?_, fun d n => ?_⟩⟩
  · obtain ⟨x, hx, hg⟩ := k.entries.generations e he
    rw [← hg, generations x hx, k.generation]
  · rw [k.starting, k.held] at c
    rcases c with c | c
    · exact (k.full c).elim (fun f => k.entries.ott_nil (empty (.inl f))) id
    · exact k.entries.ott_nil (empty (.inr c))
  · rw [k.held] at c
    obtain ⟨down, fifo, running⟩ := held c
    exact ⟨k.down down, k.fifo down fifo, k.starting.trans running⟩
  · exact k.gate.trans (gate (k.drains d))
  · exact k.gate.trans ((k.aborts a).elim aborts gate)
  · have := k.entries.reports
    rcases k.entries.emptied n with e | e
    · have := reports (k.drains d) e
      omega
    · exact e

/-! ### The data path -/

theorem place_keepsPlan (s : State) (r : Response) : s.KeepsPlan (s.place r) :=
  .ofCarries (s.place_carries r) (.ofSame (State.place_ott s r) (by rw [State.place_mail]))

theorem reply_keepsPlan (s : State) (t : Tag) (st : Status) (c : List Byte) : s.KeepsPlan (s.reply t st c) := place_keepsPlan s _

theorem report_keepsPlan (s : State) (o : Occurrence) : s.KeepsPlan (s.report o) :=
  .ofSame (by simp) (by simp) (by simp) (by simp) (by simp) (by simp) (by simp) (by simp)

theorem capture_keepsPlan (s : State) (o : Occurrence) : s.KeepsPlan (s.capture o) := .ofSame rfl rfl rfl rfl rfl rfl rfl id

theorem attemptDue_keepsPlan (s : State) (e : AttemptEvent) : s.KeepsPlan (s.attemptDue e) := .ofSame rfl rfl rfl rfl rfl rfl rfl id

theorem setPort_keepsPlan (s : State) (p : PortId) (x : Port) : s.KeepsPlan (s.setPort p x) := .ofSame rfl rfl rfl rfl rfl rfl rfl id

theorem serve_keepsPlan (s : State) (p : PortId) : s.KeepsPlan (s.serve p) := .ofCarries (s.serve_carries p) (serve_keepsEntries s p)

theorem outcome_keepsPlan (s : State) (t : Tag) (p : PortId) (o : CopyState) (d : List Byte) : s.KeepsPlan (s.outcome t p o d) :=
  .ofCarries (s.outcome_carries t p o d) (outcome_keepsEntries s t p o d)

theorem runJobs_keepsPlan (p : PortId) (js : List Job) (s : State) : s.KeepsPlan (s.runJobs p js) :=
  .ofCarries (State.runJobs_carries js s p) (runJobs_keepsEntries p js s)

theorem leaveService_keepsPlan (s : State) (p : PortId) (st : PortState) (c : Option QuarantineCause) (more : List Job) (o : Order) :
    s.KeepsPlan (s.leaveService p st c more o) :=
  ((setPort_keepsPlan s p _).trans (attemptDue_keepsPlan _ _)).trans (runJobs_keepsPlan p _ _)

theorem quarantine_keepsPlan (s : State) (p : PortId) (c : QuarantineCause) (more : List Job) (o : Order) :
    s.KeepsPlan (s.quarantine p c more o) :=
  (report_keepsPlan s _).trans (leaveService_keepsPlan _ p _ _ more o)

theorem activate_keepsPlan (s : State) (p : PortId) : s.KeepsPlan (s.activate p) :=
  .ofCarries (s.activate_carries p) (.ofSame (by simp) (by simp))

theorem park_keepsPlan (s : State) (p : PortId) : s.KeepsPlan (s.park p) :=
  .ofCarries (s.park_carries p) (.ofSame rfl (by simp))

theorem returnWaking_keepsPlan (s : State) : s.KeepsPlan s.returnWaking :=
  .ofSame (by simp [State.returnWaking]) (by simp [State.returnWaking]) (by simp [State.returnWaking])
    (by simp [State.returnWaking]) (by simp [State.returnWaking]) (by simp [State.returnWaking])
    (by simp [State.returnWaking]) (by simp [State.returnWaking])

theorem matchResponse_keepsPlan (s : State) (p : PortId) (i : SlotId) (ok : Bool) (d : List Byte) :
    s.KeepsPlan (s.matchResponse p i ok d) := by
  have stray : s.KeepsPlan (s.strayResponse p) := (setPort_keepsPlan s p _).trans (report_keepsPlan _ _)
  have freed : s.KeepsPlan (s.setSlot p i .free) := setPort_keepsPlan s p _
  unfold State.matchResponse
  split
  · split
    · exact stray
    · exact freed.trans (serve_keepsPlan _ p)
    · next t _ _ =>
      have taken : s.KeepsPlan (if s.refusesAnswer t ok d = true then (s.setSlot p i .free).malformedTarget p (some i)
          else s.setSlot p i .free) := by
        split
        · exact freed.trans (report_keepsPlan _ _)
        · exact freed
      unfold State.answerCopy
      simp only
      split
      · exact (taken.trans (outcome_keepsPlan _ _ _ _ _)).trans (serve_keepsPlan _ p)
      · exact ((taken.trans (setPort_keepsPlan _ p _)).trans (outcome_keepsPlan _ _ _ _ _)).trans (serve_keepsPlan _ p)
  · exact stray

theorem strikeDeadline_keepsPlan (s : State) (p : PortId) (failed : List Job) (o : Order) :
    s.KeepsPlan (s.strikeDeadline p failed o) := by
  have counted : s.KeepsPlan (s.countTimeout p) := setPort_keepsPlan s p _
  unfold State.strikeDeadline
  simp only
  split
  · exact counted.trans (quarantine_keepsPlan _ p _ failed o)
  · exact ((counted.trans (capture_keepsPlan _ _)).trans (runJobs_keepsPlan p failed _)).trans (serve_keepsPlan _ p)

theorem failWake_keepsPlan (s : State) (p : PortId) (o : Order) : s.KeepsPlan (s.failWake p o) := by
  have parked : s.KeepsPlan (((s.capture (.strike p)).setPort p
      { s.port p with state := .parked, wake := none, egress := [] }).attemptDue (.portChanged p)) :=
    ((capture_keepsPlan s _).trans (setPort_keepsPlan _ p _)).trans (attemptDue_keepsPlan _ _)
  unfold State.failWake
  simp only
  split
  · exact ((parked.trans (attemptDue_keepsPlan _ _)).trans (runJobs_keepsPlan p _ _)).trans (serve_keepsPlan _ p)
  · exact (parked.trans (runJobs_keepsPlan p _ _)).trans (serve_keepsPlan _ p)

theorem linkUp_keepsPlan (s : State) (p : PortId) : s.KeepsPlan (s.linkUp p) := by
  unfold State.linkUp
  split
  · exact .refl s
  · exact .ofSame rfl rfl rfl rfl rfl rfl rfl id
  · exact ((setPort_keepsPlan s p _).trans (attemptDue_keepsPlan _ _)).trans (serve_keepsPlan _ p)
  · split
    · exact activate_keepsPlan s p
    · exact .refl s
  · exact .refl s

theorem linkDown_keepsPlan (s : State) (p : PortId) (o : Order) : s.KeepsPlan (s.linkDown p o) := by
  unfold State.linkDown
  split
  · exact quarantine_keepsPlan s p _ [] o
  all_goals exact .refl s

/-! ### The Plan Store -/

theorem setBank_keepsPlan (s : State) (i : BankId) (b : Bank) : s.KeepsPlan { s with ps := s.ps.setBank i b } := by
  obtain ⟨-, generation, op, -⟩ := setBank_frame s.ps i b
  exact .ofSame generation (congrArg PlanOp.drains op) rfl rfl rfl rfl rfl id

/-- An operation that is no drain takes the place of another. -/
theorem setOp_keepsPlan (s : State) {op : PlanOp} (h : op.drains = false) : s.KeepsPlan { s with ps := { s.ps with op := op } } :=
  ⟨rfl, fun d => (nomatch h.symm.trans d), rfl, .inl, .ofSame rfl rfl, rfl, rfl, .inl, id, fun _ => id⟩

theorem reportEnd_keepsPlan (s : State) (owed : Bool) (t : Tag) (st : Status) (c : List Byte) : s.KeepsPlan (s.reportEnd owed t st c) :=
  .ofSame (by simp) (by simp) (by simp) (by simp) (by simp) (by simp) (by simp) (by simp)

/-! ### The link -/

/-- A carrier in READY may bring the link up; DOWN it leaves alone. -/
theorem settleLink_keepsPlan (s : State) : s.KeepsPlan s.settleLink := by
  refine .ofSame (by simp) (by simp) (by simp) (by simp) (by simp) (by simp) (by simp) fun h => ?_
  rw [settleLink_waits s (.inl (by simp [h]))]
  exact h

theorem newHead_keepsPlan (s : State) : s.KeepsPlan s.newHead where
  generation := by rw [State.newHead_ps]
  drains h := by rwa [State.newHead_ps] at h
  gate := (newHead_does s).2.2.1
  aborts h := .inl (by rwa [State.newHead_aborts] at h)
  entries := .ofSame (State.newHead_ott s) (State.newHead_emptyReports s)
  starting := by rw [State.newHead_rs]
  held := by rw [State.newHead_rs]
  full h := .inl (by rwa [State.newHead_rs] at h)
  down h := by rwa [State.newHead_ulc]
  fifo _ h := by rwa [(newHead_does s).1]

/-- A packet reaches nothing of the plan in force (R20). -/
theorem arrive_keepsPlan (s : State) (frame : List Byte) : s.KeepsPlan (s.arrive frame) := by
  by_cases up : s.ulc.state = .up
  · have never {P : Prop} (d : s.ulc.state = .down) : P := nomatch up.symm.trans d
    have discarded : s.KeepsPlan s.discardPacket := .ofSame rfl rfl rfl rfl rfl rfl rfl never
    unfold State.arrive
    rw [if_neg (not_not_intro up)]
    split
    · exact report_keepsPlan s _
    · split
      · exact discarded.trans (report_keepsPlan _ _)
      · next r _ =>
        split
        · exact discarded.trans (report_keepsPlan _ _)
        · have joined : s.KeepsPlan { s with
              ulc := { s.ulc with credits := s.ulc.credits - 1 }
              iq := { s.iq with fifo := s.iq.fifo ++ [r], tags := r.tag :: s.iq.tags } } :=
            ⟨rfl, id, rfl, .inl, .ofSame rfl rfl, rfl, rfl, .inl, id, fun d => never d⟩
          unfold State.enqueue
          simp only
          split
          · exact joined.trans (newHead_keepsPlan _)
          · exact joined
  · rw [arrive_notUp s frame up]
    exact .refl s

/-! ### The head of the ingress FIFO -/

/-- In a held condition the FIFO is empty, so a request at its head says that none is in force (R189). -/
theorem State.PlanInForce.not_held {s : State} (h : s.PlanInForce) {r : Request} {rest : List Request} (hf : s.iq.fifo = r :: rest) :
    s.rs.held = none := by
  by_contra k
  have := (h.1.2.2 k).2.1
  rw [hf] at this
  cases this

/-- A request leaves the FIFO, whose head it was. -/
theorem leaveHead_keepsPlan {s : State} {r : Request} {rest : List Request} (hf : s.iq.fifo = r :: rest) (credit : CreditPath) :
    s.KeepsPlan (s.leaveHead rest credit) where
  generation := by rw [State.leaveHead_ps]
  drains h := by rwa [State.leaveHead_ps] at h
  gate := by rw [(leaveHead_does s rest credit).1]
  aborts h := .inl (by rwa [State.leaveHead_aborts] at h)
  entries := .ofSame (State.leaveHead_ott s rest credit) (State.leaveHead_emptyReports s rest credit)
  starting := by rw [State.leaveHead_rs]
  held := by rw [State.leaveHead_rs]
  full h := .inl (by rwa [State.leaveHead_rs] at h)
  down h := by
    obtain ⟨-, -, -, state, -⟩ := leaveHead_does s rest credit
    exact state.trans h
  fifo _ h := by rw [hf] at h; cases h

/-- A request is admitted with the gate OPEN, so outside a drain, and in the generation of the plan in force (R25, R113). -/
theorem entered_inForce {s : State} (h : s.PlanInForce) (hold : s.startHold = false) (hheld : s.rs.held = none)
    (hgate : s.iq.gate ≠ .held) {e : Entry} (he : e.generation = s.ps.generation) :
    ({ s with ott := s.ott ++ [e] } : State).PlanInForce := by
  obtain ⟨⟨generations, -, -⟩, drain⟩ := h
  obtain ⟨gate, aborts, -⟩ := (drainHoldsGate_iff s).mp drain
  simp only [State.startHold, Bool.or_eq_false_iff, beq_eq_false_iff_ne, bne_eq_false_iff_eq] at hold
  refine ⟨⟨fun x hx => ?_, fun c => ?_, fun c => absurd hheld c⟩,
    (drainHoldsGate_iff _).mpr ⟨gate, aborts, fun d => absurd (gate d) hgate⟩⟩
  · rcases List.mem_append.mp hx with hx | hx
    · exact generations x hx
    · rw [List.mem_singleton.mp hx]
      exact he
  · rcases c with c | c | c
    · rw [show s.rs.full = .ready from c] at hold
      cases hold.2
    · exact absurd c hold.1
    · exact absurd hheld c

theorem placeCopies_keepsPlan (s : State) (t : Tag) (cs : List Copy) : s.KeepsPlan (s.placeCopies t cs) := by
  induction cs generalizing s with
  | nil => exact .refl s
  | cons c cs ih =>
    exact ((State.KeepsPlan.ofCarries (s.placeCopy_carries c.port t) (placeCopy_keepsEntries s c.port t)).trans
      (serve_keepsPlan _ _)).trans (ih _)

theorem reportHit_keepsPlan (s : State) (w : Option WindowIx) : s.KeepsPlan (s.reportHit w) :=
  .ofSame (by simp) (by simp) (by simp) (by simp) (by simp) (by simp) (by simp) (by simp)

/-- A request that is taken in finds the gate OPEN (R25). -/
theorem decideMemory_takeIn_gate {s : State} {kind : MemKind} {a : Addr} {length : Nat} {i : WindowIx} {cls : ModeClass} {cs : List Copy}
    {skipped : List PortId} (h : s.decideMemory kind a length = .takeIn i cls cs skipped) : s.iq.gate ≠ .held := by
  intro k
  rw [State.decideMemory, if_pos k] at h
  cases h

theorem attempt_inForce {s : State} (h : s.PlanInForce) (hold : s.startHold = false) (credit : CreditPath) :
    (s.attempt credit).PlanInForce := by
  unfold State.attempt
  split
  · exact h
  · next r rest hf =>
    have left := leaveHead_keepsPlan hf credit
    split
    · have handed (v : State) (c : ControlUnit) : v.KeepsPlan { v with cu := c } := .ofSame rfl rfl rfl rfl rfl rfl rfl id
      exact ((left.trans (handed _ _)).trans (newHead_keepsPlan _)).inForce h
    · next kind a length data _ =>
      split
      · next c _ => exact State.KeepsPlan.inForce (s := s) ⟨rfl, id, rfl, .inl, .ofSame rfl rfl, rfl, rfl, .inl, id, fun _ => id⟩ h
      · next st w ev _ =>
        exact ((((left.trans (reportHit_keepsPlan _ w)).trans (.ofCarries (State.reportRefused_carries _ _ _ _ _ _)
          (.ofSame (by simp) (by simp)))).trans (place_keepsPlan _ _)).trans (newHead_keepsPlan _)).inForce h
      · next i cls cs skipped hd =>
        have gate : (s.leaveHead rest credit).iq.gate ≠ .held := left.gate ▸ decideMemory_takeIn_gate hd
        have entered := entered_inForce (left.inForce h) (by simpa [State.startHold] using hold)
          (by rw [State.leaveHead_rs]; exact h.not_held hf) gate (e := s.newEntry r.tag kind length data i cls cs skipped)
          (by rw [State.leaveHead_ps]; rfl)
        exact (((reportHit_keepsPlan _ _).trans (placeCopies_keepsPlan _ _ _)).trans (newHead_keepsPlan _)).inForce entered

/-! ### The plan in force ends (R151, R189, R191) -/

/-- A drain cannot stand where the operation is none. -/
theorem idle_drainHoldsGate {s : State} (ho : s.ps.op.drains = false) (ha : AbortSource.planStore ∈ s.mail.aborts → s.iq.gate = .held) :
    s.DrainHoldsGate :=
  (drainHoldsGate_iff s).mpr ⟨fun d => by simp [ho] at d, ha, fun d => by simp [ho] at d⟩

/-- With the OTT empty no entry can be of another generation. -/
theorem empty_generationsCurrent {s : State} (hott : s.ott = [])
    (hheld : s.rs.held ≠ none → s.ulc.state = .down ∧ s.iq.fifo = [] ∧ s.rs.state = .running) : s.GenerationsCurrent := by
  refine ⟨fun e he => ?_, fun _ => hott, hheld⟩
  rw [hott] at he
  cases he

/-- The swap is taken with the OTT empty: the gate opens with no drain and no abort for one (R137, R151, log 24). -/
theorem swap_inForce {s : State} (h : s.GenerationsCurrent) (hott : s.ott = []) (escalated : Bool) : (s.swap escalated).PlanInForce := by
  have exchanged : s.exchange.PlanInForce :=
    ⟨empty_generationsCurrent (s.exchange_ott.trans hott) h.2.2,
      idle_drainHoldsGate rfl fun a => absurd a (openGate_no_abort _)⟩
  unfold State.swap
  simp only
  split
  · exact ((report_keepsPlan _ _).trans (report_keepsPlan _ _)).inForce exchanged
  · exact (report_keepsPlan _ _).inForce exchanged

/-- A drain begins with the gate HELD and an entry in the OTT (R147, R148). -/
theorem startDrain_inForce {s : State} (h : s.PlanInForce) (hott : s.ott ≠ []) (m : SwitchMode) (timer : Option Nat) (t : Tag) :
    (s.startDrain m timer t).PlanInForce := by
  obtain ⟨generations, -⟩ := h
  exact ⟨generations, (drainHoldsGate_iff _).mpr ⟨fun _ => rfl, fun _ => rfl, fun _ k => absurd k hott⟩⟩

theorem requestAbort_inForce {s : State} (h : s.PlanInForce) (hgate : s.iq.gate = .held) : (s.requestAbort .planStore).PlanInForce := by
  obtain ⟨generations, drain⟩ := h
  obtain ⟨gate, -, reports⟩ := (drainHoldsGate_iff s).mp drain
  exact ⟨generations, (drainHoldsGate_iff _).mpr ⟨gate, fun _ => hgate, reports⟩⟩

theorem switchPlan_inForce {s : State} (h : s.PlanInForce) (t : Tag) (payload : List Byte) : (s.switchPlan t payload).PlanInForce := by
  have atOnce (k : s.ott = []) : (s.switchAtOnce t).PlanInForce := (reply_keepsPlan _ _ _ _).inForce (swap_inForce h.1 k false)
  unfold State.switchPlan
  split
  · split
    · next k => exact atOnce k
    · next k => exact startDrain_inForce h k _ _ t
  · split
    · next k => exact atOnce k
    · next k => exact requestAbort_inForce (startDrain_inForce h k _ _ t) rfl
  · exact (reply_keepsPlan s t _ _).inForce h

/-- An empty report ends a drain, and is dropped outside one and while an entry stands (R149, log 10). -/
theorem execOttEmptyReport_inForce {s : State} (h : s.PlanInForce) : ∃ t, execOttEmptyReport s = .next t ∧ t.PlanInForce := by
  obtain ⟨generations, drain⟩ := h
  obtain ⟨gate, aborts, -⟩ := (drainHoldsGate_iff s).mp drain
  let s1 : State := { s with mail := { s.mail with emptyReports := s.mail.emptyReports - 1 } }
  have taken : s1.GenerationsCurrent := generations
  have dropped (h : s.ps.op.drains = true → s.ott ≠ []) : s1.PlanInForce :=
    ⟨taken, (drainHoldsGate_iff s1).mpr ⟨gate, aborts, fun d n => absurd n (h d)⟩⟩
  refine ⟨_, rfl, ?_⟩
  split
  · exact ⟨generations, drain⟩
  · simp only
    split
    · next hop =>
      split
      · next hott =>
        exact ((reportEnd_keepsPlan _ _ _ _ _).trans (settleLink_keepsPlan _)).inForce (swap_inForce taken hott _)
      · next hott => exact dropped fun _ => hott
    all_goals next hop => exact dropped fun d => by simp [hop, PlanOp.drains] at d

/-- The assertion of a reset leaves no entry, no operation and no abort (R189). -/
theorem assertReset_inForce (s : State) (c : HeldCondition) (p : Pins) :
    ({ s.assertReset c with pins := p } : State).PlanInForce :=
  ⟨⟨nofun, fun _ => rfl, fun _ => ⟨rfl, rfl, rfl⟩⟩, idle_drainHoldsGate rfl nofun⟩

/-- A start-up begins with the OTT empty: at the end of a held condition, or of the abort of a RESET FULL (R191). -/
theorem beginStartUp_inForce {s : State} (h : s.PlanInForce) (hott : s.ott = []) (c : ResetCause) (sample : PlanSel) (p : Pins) :
    ({ s.beginStartUp c sample with pins := p } : State).PlanInForce :=
  ⟨empty_generationsCurrent hott fun k => absurd rfl k, h.2⟩

theorem execStartUp_inForce (sel : PlanSel) {s : State} (h : s.PlanInForce) : ∃ t, execStartUp sel s = .next t ∧ t.PlanInForce := by
  have empty := h.1.2.1
  refine ⟨_, rfl, ?_⟩
  split
  · next k => exact beginStartUp_inForce h (empty (.inr (.inr (by simp [k])))) _ _ _
  · next k => exact beginStartUp_inForce h (empty (.inr (.inr (by simp [k])))) _ _ _
  · split
    · next k => exact beginStartUp_inForce h (empty (.inl k)) _ _ s.pins
    · exact h

/-- Start-up completes outside a held condition, with the OTT empty, the operation none and the gate OPEN (R135, R191). -/
theorem startedUp_inForce {s : State} (h : s.PlanInForce) (hs : s.rs.state = .starting) : s.startedUp.PlanInForce := by
  obtain ⟨⟨-, empty, held⟩, -⟩ := h
  have notHeld : s.rs.held = none := by
    by_contra k
    have := (held k).2.2
    rw [hs] at this
    cases this
  have ott : s.startedUp.ott = [] := by simp [State.startedUp, empty (.inr (.inl hs))]
  have rs : s.startedUp.rs = { s.rs with state := .running } := by simp [State.startedUp]
  have op : s.startedUp.ps.op = .idle := by
    rw [startedUp_ps, (loadStartPlan_ps _).2.2.1]
    rfl
  have aborts : s.startedUp.mail.aborts = s.startValues.mail.aborts := by simp [State.startedUp]
  refine ⟨empty_generationsCurrent ott fun k => ?_, idle_drainHoldsGate (by rw [op]; rfl) fun a => ?_⟩
  · rw [rs] at k
    exact absurd notHeld k
  · rw [aborts] at a
    exact absurd a (openGate_no_abort _)

theorem execStartUpComplete_inForce {s : State} (h : s.PlanInForce) :
    ∃ t, execStartUpComplete s = .next t ∧ t.PlanInForce := by
  by_cases hs : s.rs.state = .starting
  · exact ⟨_, congrArg Host.Outcome.next (if_pos hs), startedUp_inForce h hs⟩
  · exact ⟨s, congrArg Host.Outcome.next (if_neg hs), h⟩

theorem abort_keepsPlan (s : State) (order : Order) : s.KeepsPlan (s.abort order) := by
  have entries := abort_keepsEntries s order
  have cleared : s.KeepsPlan { s with mail := { s.mail with answers := [], returns := [] } } := .ofSame rfl rfl rfl rfl rfl rfl rfl id
  exact cleared.trans (.ofCarries (s.abort_carries order) ⟨entries.generations, entries.reports, entries.emptied⟩)

/-- The OTT that takes an abort is empty, so that a RESET FULL which waited for it may start up (R132, R172). -/
theorem execOttAbort_keepsPlan (r : AbortTaking) (s : State) : ∃ t, execOttAbort r s = .next t ∧ s.KeepsPlan t := by
  refine ⟨_, rfl, ?_⟩
  split
  · exact .refl s
  · next a rest hk =>
    obtain ⟨-, rfl⟩ := takeAt_eq_some.mp hk
    let s1 : State := { s with mail := { s.mail with aborts := s.mail.aborts.eraseIdx r.request } }
    let u : State := s1.abort r.order
    have taken : s.KeepsPlan s1 :=
      ⟨rfl, id, rfl, fun k => .inl (List.mem_of_mem_eraseIdx k), .ofSame rfl rfl, rfl, rfl, .inl, id, fun _ => id⟩
    have aborted : s.KeepsPlan u := taken.trans (abort_keepsPlan s1 r.order)
    have ott : u.ott = [] := abort_ott _ r.order
    cases a with
    | planStore => exact aborted
    | resetTraffic => exact aborted
    | resetFull =>
      have ready : u.KeepsPlan { u with rs := { u.rs with full := .ready } } :=
        ⟨rfl, id, rfl, .inl, .ofSame rfl rfl, rfl, rfl, fun _ => .inr ott, id, fun _ => id⟩
      simp only [State.abortTaken]
      split
      · exact aborted.trans ready
      · exact aborted
    | linkLoss =>
      have told : u.KeepsPlan { u with mail := { u.mail with loss := { u.mail.loss with ott := false } } } :=
        .ofSame rfl rfl rfl rfl rfl rfl rfl id
      exact (aborted.trans told).trans (settleLink_keepsPlan _)

/-! ### Control requests -/

/-- A command's meaning keeps the plan in force, or begins another as the rules give it. -/
def KeepsInForce (carry : State → Tag → List Byte → State) : Prop :=
  ∀ (s : State) (t : Tag) (payload : List Byte), s.PlanInForce → (carry s t payload).PlanInForce

/-- What stays within the plan in force keeps it. -/
theorem keepsInForce_of {carry : State → Tag → List Byte → State}
    (h : ∀ (s : State) (t : Tag) (payload : List Byte), s.KeepsPlan (carry s t payload)) : KeepsInForce carry :=
  fun s t payload k => (h s t payload).inForce k

theorem withLength_keepsInForce (n : Nat) {carry : State → Tag → List Byte → State} (h : KeepsInForce carry) :
    KeepsInForce (withLength n carry) := by
  intro s t payload k
  unfold withLength
  split
  · exact h s t payload k
  · exact (reply_keepsPlan s t _ _).inForce k

theorem loadPagesLength_keepsInForce {carry : State → Tag → List Byte → State} (h : KeepsInForce carry) :
    KeepsInForce (loadPagesLength carry) := by
  intro s t payload k
  unfold loadPagesLength
  split
  · exact h s t payload k
  · exact (reply_keepsPlan s t _ _).inForce k

theorem unlessBusy_keepsInForce {carry : State → Tag → List Byte → State} (h : KeepsInForce carry) :
    KeepsInForce (unlessBusy carry) := by
  intro s t payload k
  unfold unlessBusy
  split
  · exact h s t payload k
  · exact (reply_keepsPlan s t _ _).inForce k

theorem onPort_keepsInForce {carry : State → Tag → List Byte → PortId → State}
    (h : ∀ (s : State) (t : Tag) (payload : List Byte) (p : PortId), s.KeepsPlan (carry s t payload p)) : KeepsInForce (onPort carry) := by
  refine keepsInForce_of fun s t payload => ?_
  unfold onPort
  split
  · next p _ =>
    have cleared : s.KeepsPlan (s.clearAutoEnable p) := by
      unfold State.clearAutoEnable
      split
      · exact setPort_keepsPlan s p _
      · exact .refl s
    exact cleared.trans (h _ t payload p)
  · exact reply_keepsPlan s t _ _

/-- A change within the plan in force, and the reply. -/
theorem State.KeepsPlan.reply {s u : State} (h : s.KeepsPlan u) (t : Tag) (st : Status) (c : List Byte) :
    s.KeepsPlan (u.reply t st c) := h.trans (reply_keepsPlan u t st c)

theorem reply_keepsInForce (st : Status) (contents : State → List Byte) : KeepsInForce fun s t _ => s.reply t st (contents s) :=
  keepsInForce_of fun s t _ => reply_keepsPlan s t st (contents s)

theorem writeStaged_keepsPlan (s : State) (b : Bank) (t : Tag) : s.KeepsPlan (s.writeStaged b t) :=
  (setBank_keepsPlan s _ b).reply t _ _

theorem readWindow_keepsPlan (s : State) (t : Tag) (payload : List Byte) : s.KeepsPlan (s.readWindow t payload) := by
  unfold State.readWindow
  split
  all_goals exact reply_keepsPlan s t _ _

theorem readPage_keepsPlan (s : State) (t : Tag) (payload : List Byte) : s.KeepsPlan (s.readPage t payload) := by
  unfold State.readPage
  simp only
  split
  all_goals exact reply_keepsPlan s t _ _

theorem readPort_keepsPlan (due : List (BitVec 16)) (s : State) (t : Tag) (payload : List Byte) :
    s.KeepsPlan (State.readPort due s t payload) := by
  unfold State.readPort
  split
  all_goals exact reply_keepsPlan s t _ _

theorem clearCounters_keepsPlan (s : State) (t : Tag) (payload : List Byte) : s.KeepsPlan (s.clearCounters t payload) := by
  have hits : s.KeepsPlan s.clearHits := .ofSame rfl rfl rfl rfl rfl rfl rfl id
  have ports (u : State) : u.KeepsPlan u.clearPortCounters := .ofSame rfl rfl rfl rfl rfl rfl rfl id
  unfold State.clearCounters
  split
  · exact hits.reply t _ _
  · exact (ports s).reply t _ _
  · exact (hits.trans (ports _)).reply t _ _
  · exact reply_keepsPlan s t _ _

theorem loadWindow_keepsPlan (s : State) (t : Tag) (payload : List Byte) : s.KeepsPlan (s.loadWindow t payload) := by
  unfold State.loadWindow
  split
  · exact writeStaged_keepsPlan s _ t
  · exact reply_keepsPlan s t _ _

theorem clearWindow_keepsPlan (s : State) (t : Tag) (payload : List Byte) : s.KeepsPlan (s.clearWindow t payload) := by
  unfold State.clearWindow
  split
  · exact writeStaged_keepsPlan s _ t
  · exact reply_keepsPlan s t _ _

theorem loadPages_keepsPlan (s : State) (t : Tag) (payload : List Byte) : s.KeepsPlan (s.loadPages t payload) := by
  unfold State.loadPages
  simp only
  split
  · exact writeStaged_keepsPlan s _ t
  · exact reply_keepsPlan s t _ _

/-- A copy or a clear is no drain. -/
theorem startPlanOp_keepsPlan (s : State) {op : PlanOp} (h : op.drains = false) (t : Tag) (c : HeldCommand) :
    s.KeepsPlan (s.startPlanOp op t c) := by
  have held (u : State) (cu : ControlUnit) : u.KeepsPlan { u with cu := cu } := .ofSame rfl rfl rfl rfl rfl rfl rfl id
  exact (setOp_keepsPlan s h).trans (held _ _)

theorem setPlanTiming_keepsPlan (s : State) (t : Tag) (payload : List Byte) : s.KeepsPlan (s.setPlanTiming t payload) := by
  have set (v : Nat) : s.KeepsPlan { s with ps := { s.ps with drainTimeout := v } } := .ofSame rfl rfl rfl rfl rfl rfl rfl id
  unfold State.setPlanTiming
  simp only
  split
  · exact reply_keepsPlan s t _ _
  · exact (set _).reply t _ _

theorem enablePort_keepsPlan (s : State) (t : Tag) (payload : List Byte) (p : PortId) : s.KeepsPlan (s.enablePort t payload p) := by
  have enabled : s.KeepsPlan (if s.pins.link.get p = true then (s.activate p).reply t .done [] else s.reply t .linkNotReady []) := by
    split
    · exact (activate_keepsPlan s p).reply t _ _
    · exact reply_keepsPlan s t _ _
  unfold State.enablePort
  split
  · exact reply_keepsPlan s t _ _
  · exact reply_keepsPlan s t _ _
  · exact reply_keepsPlan s t _ _
  · exact enabled
  · exact enabled

theorem disablePort_keepsPlan (order : Order) (s : State) (t : Tag) (payload : List Byte) (p : PortId) :
    s.KeepsPlan (State.disablePort order s t payload p) := by
  unfold State.disablePort
  split
  · exact reply_keepsPlan s t _ _
  all_goals exact leaveService_keepsPlan s p .disabled none [.reply t .done] order

theorem parkPort_keepsPlan (s : State) (t : Tag) (payload : List Byte) (p : PortId) : s.KeepsPlan (s.parkPort t payload p) := by
  unfold State.parkPort
  split
  · split
    · exact reply_keepsPlan s t _ _
    · split
      · exact (park_keepsPlan s p).reply t _ _
      · exact reply_keepsPlan s t _ _
  all_goals exact reply_keepsPlan s t _ _

theorem setTimeouts_keepsPlan (s : State) (t : Tag) (payload : List Byte) (p : PortId) : s.KeepsPlan (s.setTimeouts t payload p) := by
  unfold State.setTimeouts
  simp only
  split
  · exact ((setPort_keepsPlan s p _).trans (setPort_keepsPlan _ p _)).reply t _ _
  · exact reply_keepsPlan s t _ _

theorem strikesCleared_keepsPlan (cleared : BitVec 8) (ps : List PortId) (s : State) : s.KeepsPlan (s.strikesCleared cleared ps) := by
  induction ps generalizing s with
  | nil => exact .refl s
  | cons p ps ih =>
    unfold State.strikesCleared
    refine State.KeepsPlan.trans ?_ (ih _)
    split
    · exact setPort_keepsPlan s p _
    · exact .refl s

/-- Whatever the Event Unit becomes. -/
theorem events_keepsPlan (s : State) (eu : EventUnit) : s.KeepsPlan { s with eu := eu } := .ofSame rfl rfl rfl rfl rfl rfl rfl id

theorem setTimebase_keepsPlan (s : State) (t : Tag) (payload : List Byte) : s.KeepsPlan (s.setTimebase t payload) := by
  have set (tb : Timebase) : s.KeepsPlan { s with tb := tb } := .ofSame rfl rfl rfl rfl rfl rfl rfl id
  unfold State.setTimebase
  split
  · exact (set _).reply t _ _
  · exact reply_keepsPlan s t _ _

/-- Only the Plan Store's aborts hold the gate. -/
theorem requestAbort_keepsPlan (s : State) {a : AbortSource} (h : a ≠ .planStore) : s.KeepsPlan (s.requestAbort a) :=
  ⟨rfl, id, rfl, fun k => .inl ((List.mem_append.mp k).resolve_right fun n => h (List.mem_singleton.mp n).symm), .ofSame rfl rfl,
    rfl, rfl, .inl, id, fun _ => id⟩

theorem resetTraffic_keepsPlan (s : State) (t : Tag) : s.KeepsPlan (s.resetTraffic t) :=
  ((reply_keepsPlan s t _ _).trans (requestAbort_keepsPlan _ (a := .resetTraffic) nofun)).trans (returnWaking_keepsPlan _)

/-- A RESET FULL abandons the operation and awaits its abort (R156, R172). -/
theorem resetFull_keepsPlan (s : State) (t : Tag) (sel : PlanSel) (credit : CreditPath) (o : FullOrder) :
    s.KeepsPlan (s.resetFull t sel credit o) := by
  have returned (u : State) (n : Nat) : u.KeepsPlan (u.returnCredits credit n) :=
    .ofSame (by simp) (by simp) (by simp) (by simp) (by simp) (by simp) (by simp) ((u.returnCredits_does credit n).1.trans ·)
  have answered (u : State) (as : List AbortedAnswer) : u.KeepsPlan (u.answerAborted as) :=
    .ofCarries (u.answerAborted_carries as) (.ofSame (answerAborted_ott as u) (by rw [(u.answerAborted_spec as).1]))
  have cleared (u : State) (cu : ControlUnit) (cond : HeadCond) (attempts : List AttemptEvent) (ends : List OperationEnd)
      (answers : List AbortedAnswer) (pins : Pins) : u.KeepsPlan { u with
        cu := cu, iq := { u.iq with fifo := [], cond := cond }
        mail := { u.mail with attempts := attempts, ends := ends, answers := answers }, pins := pins
        rs := { u.rs with full := .awaitAbort, sample := sel } } :=
    ⟨rfl, id, rfl, .inl, .ofSame rfl rfl, rfl, rfl, nofun, id, fun _ _ => rfl⟩
  exact (((((reply_keepsPlan s t _ _).trans (setOp_keepsPlan _ rfl)).trans (returned _ _)).trans (answered _ _)).trans
    (cleared _ _ _ _ _ _ _)).trans (requestAbort_keepsPlan _ (a := .resetFull) nofun)

/-- The Control Unit takes a request, and then the packets that arrived behind it. -/
theorem takeRequest_inForce {accepts : List Byte → Bool} {carry : State → Tag → List Byte → State} (h : KeepsInForce carry)
    {s : State} (k : s.PlanInForce) : (s.takeRequest accepts carry).PlanInForce := by
  have packets (frames : List (List Byte)) (u : State) (hu : u.PlanInForce) : (frames.foldl State.arrive u).PlanInForce := by
    induction frames generalizing u with
    | nil => exact hu
    | cons f fs ih => exact ih _ ((arrive_keepsPlan u f).inForce hu)
  have takenUp : s.KeepsPlan s.takeUp := .ofSame rfl rfl rfl rfl rfl rfl rfl id
  unfold State.takeRequest
  split
  · exact k
  · split
    · exact packets _ _ (h _ _ _ (takenUp.inForce k))
    · exact k

/-! ### The link, the Plan Store and the timers, command by command -/

theorem execCarrierGained_keepsPlan (s : State) : ∃ t, execCarrierGained s = .next t ∧ s.KeepsPlan t := by
  have pins (p : Pins) : s.KeepsPlan { s with pins := p } := .ofSame rfl rfl rfl rfl rfl rfl rfl id
  refine ⟨_, rfl, ?_⟩
  split
  · exact .refl s
  · exact (pins _).trans (settleLink_keepsPlan _)

theorem execCarrierLost_keepsPlan (s : State) : ∃ t, execCarrierLost s = .next t ∧ s.KeepsPlan t := by
  refine ⟨_, rfl, ?_⟩
  split
  · next up => exact .ofSame rfl rfl rfl rfl rfl rfl rfl fun d => nomatch up.symm.trans d
  · exact .ofSame rfl rfl rfl rfl rfl rfl rfl id

/-- The IQ's loss asks for an abort, but not for the Plan Store (R32). -/
theorem execLinkLossIq_keepsPlan (s : State) : ∃ t, execLinkLossIq s = .next t ∧ s.KeepsPlan t := by
  refine ⟨_, rfl, ?_⟩
  split
  · have emptied : (s.requestAbort .linkLoss).KeepsPlan s.iqEmptied :=
      ⟨rfl, id, rfl, .inl, .ofSame rfl rfl, rfl, rfl, .inl, id, fun _ _ => rfl⟩
    exact (requestAbort_keepsPlan s (a := .linkLoss) nofun).trans emptied
  · exact .refl s

theorem execLinkLossPlanStore_keepsPlan (s : State) : ∃ t, execLinkLossPlanStore s = .next t ∧ s.KeepsPlan t := by
  have taken : s.KeepsPlan s.planStoreLoss := .ofSame rfl (oweNothing_drains _) rfl rfl rfl rfl rfl id
  refine ⟨_, rfl, ?_⟩
  split
  · exact taken.trans (settleLink_keepsPlan _)
  · exact .refl s

theorem execLinkLossControlUnit_keepsPlan (s : State) : ∃ t, execLinkLossControlUnit s = .next t ∧ s.KeepsPlan t := by
  have taken : s.KeepsPlan s.controlUnitLoss := .ofSame rfl rfl rfl rfl rfl rfl rfl id
  refine ⟨_, rfl, ?_⟩
  split
  · exact taken.trans (settleLink_keepsPlan _)
  · exact .refl s

theorem execLinkLossPorts_keepsPlan (s : State) : ∃ t, execLinkLossPorts s = .next t ∧ s.KeepsPlan t := by
  have taken : s.returnWaking.KeepsPlan s.portsLoss := .ofSame rfl rfl rfl rfl rfl rfl rfl id
  refine ⟨_, rfl, ?_⟩
  split
  · exact ((returnWaking_keepsPlan s).trans taken).trans (settleLink_keepsPlan _)
  · exact .refl s

theorem execPacketArrival_keepsPlan (frame : List Byte) (s : State) : ∃ t, execPacketArrival frame s = .next t ∧ s.KeepsPlan t := by
  refine ⟨_, rfl, ?_⟩
  split
  · exact .ofSame rfl rfl rfl rfl rfl rfl rfl id
  · exact arrive_keepsPlan s frame

theorem execCreditReturn_keepsPlan (s : State) : ∃ t, execCreditReturn s = .next t ∧ s.KeepsPlan t := by
  refine ⟨_, rfl, ?_⟩
  split
  · exact .refl s
  · exact .ofSame rfl rfl rfl rfl rfl rfl rfl ((s.ulc.takeCredits_does 1).1.trans ·)

theorem execTransmitDone_keepsPlan (s : State) : ∃ t, execTransmitDone s = .next t ∧ s.KeepsPlan t := by
  have sent (bytes : List Byte) (q : List Response) : s.KeepsPlan (s.txDone bytes q) :=
    .ofSame rfl rfl rfl rfl rfl rfl rfl ((txDone_ulc s bytes q).1.trans ·)
  have released (u : State) (t : Tag) : u.KeepsPlan (u.releaseTag t) :=
    ⟨rfl, id, rfl, .inl, .ofSame rfl rfl, rfl, rfl, .inl, id, fun _ => id⟩
  refine ⟨_, rfl, ?_⟩
  split
  · exact .refl s
  · exact sent _ _
  · exact sent _ _
  · exact (sent _ _).trans (released _ _)
  · exact .refl s

theorem execHeadAttempt_inForce (k : Nat) (credit : CreditPath) {s : State} (h : s.PlanInForce) :
    ∃ t, execHeadAttempt k credit s = .next t ∧ t.PlanInForce := by
  refine ⟨_, rfl, ?_⟩
  split
  · exact h
  · split
    · exact h
    · next e rest _ =>
      have event : s.KeepsPlan { s with mail := { s.mail with attempts := rest } } := .ofSame rfl rfl rfl rfl rfl rfl rfl id
      simp only
      split
      · next hold => exact attempt_inForce (event.inForce h) hold.2 credit
      · exact event.inForce h

theorem execHitReport_keepsPlan (k : Nat) (s : State) : ∃ t, execHitReport k s = .next t ∧ s.KeepsPlan t := by
  have taken (u : State) (reports : List HitReport) : u.KeepsPlan { u with mail := { u.mail with hitReports := reports } } :=
    .ofSame rfl rfl rfl rfl rfl rfl rfl id
  refine ⟨_, rfl, ?_⟩
  split
  · exact .refl s
  · exact (setBank_keepsPlan s _ _).trans (taken _ _)

theorem execEventOccurrence_keepsPlan (k : Nat) (s : State) : ∃ t, execEventOccurrence k s = .next t ∧ s.KeepsPlan t := by
  refine ⟨_, rfl, ?_⟩
  split
  · exact .refl s
  · exact .ofSame rfl rfl rfl rfl rfl rfl rfl id

theorem execTargetResponse_keepsPlan (p : PortId) (f : TargetFrame) (s : State) :
    ∃ t, execTargetResponse p f s = .next t ∧ s.KeepsPlan t := by
  refine ⟨_, rfl, ?_⟩
  split
  · exact report_keepsPlan s _
  · exact report_keepsPlan s _
  · exact matchResponse_keepsPlan s p _ _ _
  · exact matchResponse_keepsPlan s p _ _ _

theorem execDeadlineExpiry_keepsPlan (p : PortId) (i : SlotId) (o : Order) (s : State) :
    ∃ t, execDeadlineExpiry p i o s = .next t ∧ s.KeepsPlan t := by
  have freed : s.KeepsPlan (s.setSlot p i .free) := setPort_keepsPlan s p _
  refine ⟨_, rfl, ?_⟩
  split
  · exact freed.trans (strikeDeadline_keepsPlan _ p _ o)
  · exact freed.trans (strikeDeadline_keepsPlan _ p _ o)
  all_goals exact .refl s

theorem execIdleTimeout_keepsPlan (p : PortId) (s : State) : ∃ t, execIdleTimeout p s = .next t ∧ s.KeepsPlan t := by
  refine ⟨_, rfl, ?_⟩
  split
  · exact park_keepsPlan s p
  · exact .refl s

theorem execWakeTimeout_keepsPlan (p : PortId) (o : Order) (s : State) :
    ∃ t, execWakeTimeout p o s = .next t ∧ s.KeepsPlan t := by
  have counted : s.KeepsPlan (s.countTimeout p) := setPort_keepsPlan s p _
  refine ⟨_, rfl, ?_⟩
  split
  · simp only
    split
    · exact counted.trans (quarantine_keepsPlan _ p _ [] o)
    · exact counted.trans (failWake_keepsPlan _ p o)
  · exact .refl s

theorem setLink_keepsPlan (s : State) (p : PortId) (up : Bool) : s.KeepsPlan (s.setLink p up) :=
  .ofSame rfl rfl rfl rfl rfl rfl rfl id

theorem execTargetLinkUp_keepsPlan (p : PortId) (s : State) : ∃ t, execTargetLinkUp p s = .next t ∧ s.KeepsPlan t := by
  refine ⟨_, rfl, ?_⟩
  split
  · exact .refl s
  · split
    · exact setLink_keepsPlan s p true
    · exact (setLink_keepsPlan s p true).trans (linkUp_keepsPlan _ p)

theorem execTargetLinkDown_keepsPlan (p : PortId) (o : Order) (s : State) :
    ∃ t, execTargetLinkDown p o s = .next t ∧ s.KeepsPlan t := by
  refine ⟨_, rfl, ?_⟩
  split
  · exact (setLink_keepsPlan s p false).trans (linkDown_keepsPlan _ p o)
  · exact .refl s

theorem execTickBoundary_keepsPlan (s : State) : ∃ t, execTickBoundary s = .next t ∧ s.KeepsPlan t := by
  have drains : s.ps.op.tick.drains = s.ps.op.drains := by cases s.ps.op <;> rfl
  refine ⟨_, rfl, ?_⟩
  split
  · exact .refl s
  · exact .ofSame rfl drains rfl rfl rfl rfl rfl id

theorem execHoldoffExpiry_keepsPlan (s : State) : ∃ t, execHoldoffExpiry s = .next t ∧ s.KeepsPlan t := by
  refine ⟨_, rfl, ?_⟩
  split
  · exact events_keepsPlan s _
  · exact .refl s

/-- The drain that escalates asks for an abort behind its HELD gate (R150). -/
theorem execDrainTimeout_keepsPlan (s : State) : ∃ t, execDrainTimeout s = .next t ∧ s.KeepsPlan t := by
  refine ⟨_, rfl, ?_⟩
  split
  · next h =>
    have drains : s.ps.op.drains = true := by rw [h]; rfl
    exact ⟨rfl, fun _ => drains, rfl, fun _ => .inr drains, .ofSame rfl rfl, rfl, rfl, .inl, id, fun _ => id⟩
  · exact .refl s

theorem finishPlanOp_keepsPlan (s : State) (owed : Bool) (t : Tag) : s.KeepsPlan (s.finishPlanOp owed t) :=
  (setOp_keepsPlan s rfl).trans (reportEnd_keepsPlan _ _ _ _ _)

theorem execCopyStep_keepsPlan (s : State) : ∃ t, execCopyStep s = .next t ∧ s.KeepsPlan t := by
  refine ⟨_, rfl, ?_⟩
  split
  · simp only
    split
    · exact (setBank_keepsPlan s _ _).trans (setOp_keepsPlan _ rfl)
    · exact (setBank_keepsPlan s _ _).trans (finishPlanOp_keepsPlan _ _ _)
  · exact .refl s

theorem execClearStep_keepsPlan (s : State) : ∃ t, execClearStep s = .next t ∧ s.KeepsPlan t := by
  refine ⟨_, rfl, ?_⟩
  split
  · simp only
    split
    · exact (setBank_keepsPlan s _ _).trans (setOp_keepsPlan _ rfl)
    · exact (setBank_keepsPlan s _ _).trans (finishPlanOp_keepsPlan _ _ _)
  · exact .refl s

theorem execHeldReplyRelease_keepsPlan (k : Nat) (s : State) :
    ∃ t, execHeldReplyRelease k s = .next t ∧ s.KeepsPlan t := by
  refine ⟨_, rfl, ?_⟩
  split
  · exact .refl s
  · next e rest _ =>
    have taken (cu : ControlUnit) : s.KeepsPlan { s with cu := cu, mail := { s.mail with ends := rest } } :=
      .ofSame rfl rfl rfl rfl rfl rfl rfl id
    simp only
    split
    · exact (taken _).reply _ _ _
    · exact taken s.cu

/-! ### Every step -/

/-- A command that leaves the plan in force keeps the invariant. -/
theorem State.PlanInForce.kept {s : State} (h : s.PlanInForce) {o : Host.Outcome State Fault Refusal}
    (k : ∃ t, o = .next t ∧ s.KeepsPlan t) : ∃ t, o = .next t ∧ t.PlanInForce := by
  obtain ⟨t, ht, kept⟩ := k
  exact ⟨t, ht, kept.inForce h⟩

/-- A control request keeps the invariant, if its meaning does. -/
theorem request_inForce {c : Instr} (accepts : List Byte → Bool) {carry : State → Tag → List Byte → State} (h : KeepsInForce carry)
    (he : ∀ s : State, exec c s = .next (s.takeRequest accepts carry)) {s : State} (k : s.PlanInForce) :
    ∃ t, exec c s = .next t ∧ t.PlanInForce :=
  ⟨_, he s, takeRequest_inForce h k⟩

theorem exec_inForce (c : Instr) {s : State} (h : s.PlanInForce) : ∃ t, exec c s = .next t ∧ t.PlanInForce := by
  have readOnly (n : Nat) (st : Status) (contents : State → List Byte) : KeepsInForce (withLength n fun s t _ => s.reply t st (contents s)) :=
    withLength_keepsInForce n (reply_keepsInForce st contents)
  have plan {n : Nat} {carry : State → Tag → List Byte → State}
      (k : ∀ (s : State) (t : Tag) (payload : List Byte), s.KeepsPlan (carry s t payload)) : KeepsInForce (withLength n (unlessBusy carry)) :=
    withLength_keepsInForce n (unlessBusy_keepsInForce (keepsInForce_of k))
  have events (n : Nat) (eu : EventUnit → List Byte → EventUnit) :
      KeepsInForce (withLength n fun s t payload => ({ s with eu := eu s.eu payload } : State).reply t .done []) :=
    withLength_keepsInForce n (keepsInForce_of fun s t _ => (events_keepsPlan s _).reply t _ _)
  have clears : KeepsInForce State.clearEvents := keepsInForce_of fun s t _ =>
    ((events_keepsPlan s _).trans (strikesCleared_keepsPlan _ _ _)).reply t _ _
  have switches : KeepsInForce (withLength 2 (unlessBusy State.switchPlan)) :=
    withLength_keepsInForce 2 (unlessBusy_keepsInForce fun _ t payload k => switchPlan_inForce k t payload)
  cases c with
  | powerOn => exact ⟨_, rfl, assertReset_inForce s _ s.pins⟩
  | resetNAssert => exact ⟨_, rfl, assertReset_inForce s _ _⟩
  | startUp sel => exact execStartUp_inForce sel h
  | startUpComplete => exact execStartUpComplete_inForce h
  | carrierGained => exact h.kept (execCarrierGained_keepsPlan s)
  | carrierLost => exact h.kept (execCarrierLost_keepsPlan s)
  | linkLossIq => exact h.kept (execLinkLossIq_keepsPlan s)
  | linkLossPlanStore => exact h.kept (execLinkLossPlanStore_keepsPlan s)
  | linkLossControlUnit => exact h.kept (execLinkLossControlUnit_keepsPlan s)
  | linkLossPorts => exact h.kept (execLinkLossPorts_keepsPlan s)
  | packetArrival frame => exact h.kept (execPacketArrival_keepsPlan frame s)
  | packetDiscardNotUp frame => exact ⟨s, rfl, h⟩
  | creditReturn => exact h.kept (execCreditReturn_keepsPlan s)
  | transmitDone => exact h.kept (execTransmitDone_keepsPlan s)
  | headAttempt k credit => exact execHeadAttempt_inForce k credit h
  | hitReport k => exact h.kept (execHitReport_keepsPlan k s)
  | eventOccurrence k => exact h.kept (execEventOccurrence_keepsPlan k s)
  | targetResponse p f => exact h.kept (execTargetResponse_keepsPlan p f s)
  | deadlineExpiry p i o => exact h.kept (execDeadlineExpiry_keepsPlan p i o s)
  | idleTimeout p => exact h.kept (execIdleTimeout_keepsPlan p s)
  | wakeTimeout p o => exact h.kept (execWakeTimeout_keepsPlan p o s)
  | targetLinkUp p => exact h.kept (execTargetLinkUp_keepsPlan p s)
  | targetLinkDown p o => exact h.kept (execTargetLinkDown_keepsPlan p o s)
  | tickBoundary => exact h.kept (execTickBoundary_keepsPlan s)
  | holdoffExpiry => exact h.kept (execHoldoffExpiry_keepsPlan s)
  | drainTimeout => exact h.kept (execDrainTimeout_keepsPlan s)
  | ottAbort r => exact h.kept (execOttAbort_keepsPlan r s)
  | ottEmptyReport => exact execOttEmptyReport_inForce h
  | copyStep => exact h.kept (execCopyStep_keepsPlan s)
  | clearStep => exact h.kept (execClearStep_keepsPlan s)
  | heldReplyRelease k => exact h.kept (execHeldReplyRelease_keepsPlan k s)
  | resetTraffic =>
    refine request_inForce _ (keepsInForce_of fun s t payload => ?_) (fun _ => rfl) h
    split
    · exact resetTraffic_keepsPlan s t
    · exact reply_keepsPlan s t _ _
  | resetFull sel credit o =>
    refine request_inForce _ (keepsInForce_of fun s t payload => ?_) (fun _ => rfl) h
    split
    · exact resetFull_keepsPlan s t sel credit o
    · exact reply_keepsPlan s t _ _
  | readStatus => exact request_inForce _ (readOnly 1 _ _) (fun _ => rfl) h
  | readWindow => exact request_inForce _ (withLength_keepsInForce 3 (keepsInForce_of readWindow_keepsPlan)) (fun _ => rfl) h
  | readPage => exact request_inForce _ (withLength_keepsInForce 4 (keepsInForce_of readPage_keepsPlan)) (fun _ => rfl) h
  | readPort due => exact request_inForce _ (withLength_keepsInForce 2 (keepsInForce_of (readPort_keepsPlan due))) (fun _ => rfl) h
  | readEvents => exact request_inForce _ (readOnly 1 _ _) (fun _ => rfl) h
  | readResetCause => exact request_inForce _ (readOnly 1 _ _) (fun _ => rfl) h
  | clearCounters => exact request_inForce _ (withLength_keepsInForce 2 (keepsInForce_of clearCounters_keepsPlan)) (fun _ => rfl) h
  | loadWindow => exact request_inForce _ (plan loadWindow_keepsPlan) (fun _ => rfl) h
  | clearWindow => exact request_inForce _ (plan clearWindow_keepsPlan) (fun _ => rfl) h
  | loadPages =>
    exact request_inForce _ (loadPagesLength_keepsInForce (unlessBusy_keepsInForce (keepsInForce_of loadPages_keepsPlan)))
      (fun _ => rfl) h
  | copyPlan => exact request_inForce _ (plan fun s t _ => startPlanOp_keepsPlan s rfl t .copyPlan) (fun _ => rfl) h
  | clearPlan => exact request_inForce _ (plan fun s t _ => startPlanOp_keepsPlan s rfl t .clearPlan) (fun _ => rfl) h
  | switchPlanDrain => exact request_inForce _ switches (fun _ => rfl) h
  | switchPlanForce => exact request_inForce _ switches (fun _ => rfl) h
  | setPlanTiming => exact request_inForce _ (withLength_keepsInForce 3 (keepsInForce_of setPlanTiming_keepsPlan)) (fun _ => rfl) h
  | portEnable => exact request_inForce _ (withLength_keepsInForce 2 (onPort_keepsInForce enablePort_keepsPlan)) (fun _ => rfl) h
  | portDisable o => exact request_inForce _ (withLength_keepsInForce 2 (onPort_keepsInForce (disablePort_keepsPlan o))) (fun _ => rfl) h
  | parkPort => exact request_inForce _ (withLength_keepsInForce 2 (onPort_keepsInForce parkPort_keepsPlan)) (fun _ => rfl) h
  | setPort => exact request_inForce _ (withLength_keepsInForce 8 (onPort_keepsInForce setTimeouts_keepsPlan)) (fun _ => rfl) h
  | setEventEnables =>
    exact request_inForce _ (events 3 fun eu payload => { eu with enables := eventField payload &&& enableBits }) (fun _ => rfl) h
  | clearEvents => exact request_inForce _ (withLength_keepsInForce 5 clears) (fun _ => rfl) h
  | setHoldoff => exact request_inForce _ (events 2 fun eu payload => { eu with holdoffSetting := byteAt payload 1 }) (fun _ => rfl) h
  | setTimebase => exact request_inForce _ (withLength_keepsInForce 2 (keepsInForce_of setTimebase_keepsPlan)) (fun _ => rfl) h
  | unknownCommand => exact request_inForce _ (reply_keepsInForce _ _) (fun _ => rfl) h

/-- Settles O10: each command keeps the plan in force, or ends it or begins a drain as the rules give it. -/
theorem stepKeepsGenerationsCurrent : Obligations.StepKeepsGenerationsCurrent := by
  unfold Obligations.StepKeepsGenerationsCurrent
  intro s t generations drain h
  have inForce : s.PlanInForce := ⟨generations, drain⟩
  unfold step at h
  split at h
  · cases h
    exact inForce
  · next c rest _ =>
    have queued : ({ s with pending := rest } : State).PlanInForce := inForce
    obtain ⟨u, hu, kept⟩ := exec_inForce c queued
    rw [hu] at h
    cases h
    exact kept

end Sys2Proof.Machine
end

section
/-! PROOFS. The head of the ingress FIFO as it waits, is answered, or is passed to the Control Unit, and what decides it. -/

namespace Sys2Proof.Machine

/-! ### What decides a memory request (R25, R26) -/

/-- The gate comes first (R25). -/
theorem decideMemory_held {s : State} (h : s.iq.gate = .held) (kind : MemKind) (a : Addr) (length : Nat) :
    s.decideMemory kind a length = .wait .gateWait := if_pos h

/-- Behind an OPEN gate the request checks come first, and then the lookup (R25). -/
theorem decideMemory_opened {s : State} (h : s.iq.gate = .opened) (kind : MemKind) (a : Addr) (length : Nat) :
    s.decideMemory kind a length = if badRequest a length then .answer .badRequest none none else
      ((s.ps.activeBank.lookup a).elim (.answer .noWindow none (some .miss)) fun m =>
        (m.2.policyAnswer kind).elim (s.decideMode m.1 m.2 kind a) fun st => .answer st (some m.1) (some .protect)) := by
  unfold State.decideMemory
  rw [if_neg (by simp [h])]
  split
  · rfl
  · cases s.ps.activeBank.lookup a with
    | none => rfl
    | some m =>
      obtain ⟨i, w⟩ := m
      simp only [Option.elim_some]
      cases w.policyAnswer kind <;> rfl

theorem badRequest_iff (a : Addr) (length : Nat) :
    badRequest a length = true ↔ length = 0 ∨ 256 < length ∨ 256 < a.toNat % 256 + length := by
  simp [badRequest, or_assoc]

/-- The policy refuses, discards or lets pass, but finds no fault with a request (R46). -/
theorem policyAnswer_ne_badRequest (w : Window) (kind : MemKind) : w.policyAnswer kind ≠ some .badRequest := by
  unfold Window.policyAnswer
  split <;> simp

/-- The mode answers NOT_MAPPED or PORT_DOWN, waits for space, or takes the request in (R25). -/
theorem decideMode_cases (s : State) (i : WindowIx) (w : Window) (kind : MemKind) (a : Addr) :
    s.decideMode i w kind a = .answer .notMapped (some i) (some .notMapped) ∨ s.decideMode i w kind a = .answer .portDown (some i) none
      ∨ s.decideMode i w kind a = .wait .spaceWait ∨ ∃ cls cs skipped, s.decideMode i w kind a = .takeIn i cls cs skipped := by
  unfold State.decideMode
  split
  · exact .inl rfl
  · exact .inr (.inl rfl)
  · split
    · exact .inr (.inr (.inr ⟨_, _, _, rfl⟩))
    · exact .inr (.inr (.inl rfl))

/-- Only the request checks answer BAD_REQUEST (R26). -/
theorem decideMemory_badRequest {s : State} (h : s.iq.gate = .opened) {kind : MemKind} {a : Addr} {length : Nat} {w : Option WindowIx}
    {ev : Option FaultKind} (hd : s.decideMemory kind a length = .answer .badRequest w ev) :
    badRequest a length = true ∧ w = none ∧ ev = none := by
  rw [decideMemory_opened h] at hd
  split at hd
  · next bad =>
    cases hd
    exact ⟨bad, rfl, rfl⟩
  · exfalso
    cases hl : s.ps.activeBank.lookup a with
    | none => simp [hl] at hd
    | some m =>
      cases hp : m.2.policyAnswer kind with
      | none =>
        simp only [hl, hp, Option.elim_some, Option.elim_none] at hd
        rcases decideMode_cases s m.1 m.2 kind a with e | e | e | ⟨_, _, _, e⟩ <;> rw [e] at hd <;> cases hd
      | some st =>
        simp only [hl, hp, Option.elim_some, Decision.answer.injEq] at hd
        exact policyAnswer_ne_badRequest m.2 kind (hd.1 ▸ hp)

/-- Settles O24. -/
theorem requestChecks : Obligations.RequestChecks := by
  unfold Obligations.RequestChecks
  intro s kind a length
  refine ⟨fun h => ⟨⟨fun hd => ?_, fun bad => ?_⟩, fun w ev hd => (decideMemory_badRequest h hd).2⟩,
    fun h => decideMemory_held h kind a length, fun good => ?_⟩
  · exact (badRequest_iff a length).mp (decideMemory_badRequest h hd).1
  · rw [decideMemory_opened h, if_pos ((badRequest_iff a length).mpr bad)]
  · have := a.isLt
    omega

/-- A copy finds a place at a port whose FIFO and claims leave one (R28). -/
theorem placesAvailable_iff (s : State) (p : PortId) :
    1 ≤ s.placesAvailable p ↔ (s.port p).egress.length + (s.claims p).length < 8 := by
  unfold State.placesAvailable Config.egressPlaces
  omega

/-- Settles O25. -/
theorem attemptFollowsThePolicy : Obligations.AttemptFollowsThePolicy := by
  unfold Obligations.AttemptFollowsThePolicy
  intro s kind a length gate good
  have decided : s.decideMemory kind a length = ((s.ps.activeBank.lookup a).elim (.answer .noWindow none (some .miss)) fun m =>
      (m.2.policyAnswer kind).elim (s.decideMode m.1 m.2 kind a) fun st => .answer st (some m.1) (some .protect)) := by
    rw [decideMemory_opened gate, if_neg (by simp [good])]
  refine ⟨fun h => by rw [decided, h]; rfl, fun i w h => ?_⟩
  have policy (answer : Option Status) (k : w.policyAnswer kind = answer) : s.decideMemory kind a length
      = answer.elim (s.decideMode i w kind a) fun st => .answer st (some i) (some .protect) := by
    rw [decided, h]
    exact congrArg (Option.elim · _ _) k
  refine ⟨?_, ?_, ?_, ?_⟩
  · rintro rfl k
    exact policy (some .accessProtected) (by simp [Window.policyAnswer, k])
  · rintro rfl k
    exact policy (some .accessProtected) (by simp [Window.policyAnswer, k])
  · rintro rfl k
    exact policy (some .ok) (by simp [Window.policyAnswer, k])
  · intro allowed
    have passes : w.policyAnswer kind = none := by
      rcases allowed with ⟨rfl, k⟩ | ⟨rfl, k⟩ <;> simp [Window.policyAnswer, k]
    rw [policy none passes, Option.elim_none, State.decideMode]
    cases s.resolve w kind a with
    | notMapped => rfl
    | portDown => rfl
    | copies cls cs skipped =>
      refine if_congr ?_ rfl rfl
      simp only [List.all_eq_true, decide_eq_true_eq, placesAvailable_iff]

/-! ### The attempt (R23, R29) -/

/-- An attempt event that matches attempts the head, and is no longer on its way. -/
theorem exec_headAttempt {s : State} {k : Nat} (hk : s.AttemptsHead k) (credit : CreditPath) : exec (.headAttempt k credit) s
    = .next (({ s with mail := { s.mail with attempts := s.mail.attempts.eraseIdx k } } : State).attempt credit) := by
  obtain ⟨idle, hold, e, rest, taken, matched⟩ := hk
  change execHeadAttempt k credit s = _
  unfold execHeadAttempt
  rw [if_neg (by simp [idle]), taken, ← (takeAt_eq_some.mp taken).2]
  exact congrArg _ (if_pos ⟨matched, hold⟩)

/-- A wait is that of a HELD gate, or that for space behind an OPEN one (R25, R28). -/
theorem decideMemory_wait {s : State} {kind : MemKind} {a : Addr} {length : Nat} {c : HeadCond}
    (hd : s.decideMemory kind a length = .wait c) : c = .gateWait ∧ s.iq.gate = .held ∨ c = .spaceWait ∧ s.iq.gate = .opened := by
  cases gate : s.iq.gate with
  | held =>
    rw [decideMemory_held gate] at hd
    cases hd
    exact .inl ⟨rfl, rfl⟩
  | opened =>
    refine .inr ⟨?_, rfl⟩
    rw [decideMemory_opened gate] at hd
    split at hd
    · cases hd
    · cases hl : s.ps.activeBank.lookup a with
      | none => simp [hl] at hd
      | some m =>
        cases hp : m.2.policyAnswer kind with
        | none =>
          simp only [hl, hp, Option.elim_some, Option.elim_none] at hd
          rcases decideMode_cases s m.1 m.2 kind a with e | e | e | ⟨_, _, _, e⟩ <;> rw [e] at hd <;> cases hd
          rfl
        | some st => simp [hl, hp] at hd

/-- A request that waits stays at the head, and nothing is recorded (R29). -/
theorem attempt_wait {s : State} {t : Tag} {kind : MemKind} {a : Addr} {length : Nat} {data : List Byte} {rest : List Request} {c : HeadCond}
    (hf : s.iq.fifo = ⟨t, .memory kind a length data⟩ :: rest) (hd : s.decideMemory kind a length = .wait c) (credit : CreditPath) :
    s.attempt credit = { s with iq := { s.iq with cond := c } } := by
  unfold State.attempt
  rw [hf]
  simp only [hd]

theorem attempt_answer {s : State} {t : Tag} {kind : MemKind} {a : Addr} {length : Nat} {data : List Byte} {rest : List Request}
    {st : Status} {w : Option WindowIx} {ev : Option FaultKind} (hf : s.iq.fifo = ⟨t, .memory kind a length data⟩ :: rest)
    (hd : s.decideMemory kind a length = .answer st w ev) (credit : CreditPath) :
    s.attempt credit = ((s.leaveHead rest credit).answerHead kind t a st w ev).newHead := by
  unfold State.attempt
  rw [hf]
  simp only [hd]

theorem attempt_control {s : State} {t : Tag} {payload : List Byte} {rest : List Request} (hf : s.iq.fifo = ⟨t, .control payload⟩ :: rest)
    (credit : CreditPath) : s.attempt credit
      = (({ s with cu := { s.cu with taking := some ⟨t, payload⟩ } } : State).leaveHead rest credit).newHead := by
  unfold State.attempt
  rw [hf]
  cases credit <;> rfl

/-- Settles O21. -/
theorem headWaitRecordsNothing : Obligations.HeadWaitRecordsNothing := by
  unfold Obligations.HeadWaitRecordsNothing
  intro s k credit t kind a length data rest c hk hf
  refine ⟨fun h => decideMemory_held h kind a length, fun hd => ⟨decideMemory_wait hd, ?_⟩⟩
  rw [exec_headAttempt hk]
  exact congrArg _ (attempt_wait (by exact hf) (by exact hd) credit)

/-! ### What a request that leaves the head reaches (R24, R27) -/

/-- Only the ULC, the IQ and what is on its way differ. -/
def State.OnlyHead (s t : State) : Prop := t = { s with ulc := t.ulc, iq := t.iq, mail := t.mail }

theorem State.OnlyHead.trans {s t u : State} (a : s.OnlyHead t) (b : t.OnlyHead u) : s.OnlyHead u := by
  unfold State.OnlyHead at *
  rw [b, a]

theorem leaveHead_onlyHead (s : State) (rest : List Request) (credit : CreditPath) : s.OnlyHead (s.leaveHead rest credit) := by
  cases credit <;> rfl

theorem place_onlyHead (s : State) (r : Response) : s.OnlyHead (s.place r) := by
  unfold State.OnlyHead
  rw [place_frame]

theorem newHead_onlyHead (s : State) : s.OnlyHead s.newHead := by
  unfold State.newHead
  repeat' split
  all_goals rfl

theorem reportHit_onlyHead (s : State) (w : Option WindowIx) : s.OnlyHead (s.reportHit w) := by
  cases w <;> rfl

theorem reportRefused_onlyHead (s : State) (ev : Option FaultKind) (kind : MemKind) (t : Tag) (a : Addr) (w : Option WindowIx) :
    s.OnlyHead (s.reportRefused ev kind t a w) := by
  cases ev with
  | none => rfl
  | some k =>
    simp only [State.reportRefused, State.report]
    split <;> rfl

/-- The next request becomes the head, if there is one, with its attempt on its way (R23, log 20). -/
theorem newHead_cond {s : State} (hold : s.startHold = false) : (s.iq.fifo = [] → s.newHead.iq.cond = .noHead)
    ∧ (s.iq.fifo ≠ [] → s.newHead.iq.cond = .fresh ∧ AttemptEvent.newHead ∈ s.newHead.mail.attempts) := by
  unfold State.newHead
  refine ⟨fun h => ?_, fun h => ?_⟩
  · rw [if_pos h]
  · rw [if_neg h, if_neg (by simp [hold])]
    exact ⟨rfl, attemptDue_mem _ _⟩

/-- What the head leaves behind reads in the ULC and in the credits on their way as any returned credit does. -/
theorem leaveHead_credit (s : State) (rest : List Request) (credit : CreditPath) :
    (s.leaveHead rest credit).ulc = (s.returnCredits credit 1).ulc
      ∧ (s.leaveHead rest credit).mail.creditReturns = (s.returnCredits credit 1).mail.creditReturns := by
  cases credit <;> exact ⟨rfl, rfl⟩

/-- Settles O20. -/
theorem headControlPassed : Obligations.HeadControlPassed := by
  unfold Obligations.HeadControlPassed
  intro s k credit t payload rest hk hf
  let s1 : State := { s with
    mail := { s.mail with attempts := s.mail.attempts.eraseIdx k }, cu := { s.cu with taking := some ⟨t, payload⟩ } }
  let left := s1.leaveHead rest credit
  have passed : exec (.headAttempt k credit) s = .next left.newHead := by
    rw [exec_headAttempt hk]
    exact congrArg _ (attempt_control (by exact hf) credit)
  have iq : left.iq = { s.iq with fifo := rest } := (leaveHead_does s1 rest credit).1
  obtain ⟨ulc, returns⟩ := leaveHead_credit s1 rest credit
  obtain ⟨fifo, tags, gate, -, -⟩ := newHead_does left
  have hold : left.startHold = false := by
    rw [State.startHold, State.leaveHead_rs]
    exact hk.2.1
  obtain ⟨noHead, fresh⟩ := newHead_cond hold
  have only : s1.OnlyHead left.newHead := (leaveHead_onlyHead s1 rest credit).trans (newHead_onlyHead left)
  rw [iq] at fifo tags gate noHead fresh
  refine ⟨_, passed, ?_, fifo, tags, gate, noHead, fresh, ?_, ?_, ?_, ?_, ?_⟩
  · rw [State.newHead_cu, State.leaveHead_cu]
  · rw [State.newHead_ulc, ulc]
    cases credit <;> rfl
  · rw [State.newHead_creditReturns, returns]
    cases credit <;> rfl
  · rw [State.newHead_hitReports, State.leaveHead_hitReports]
  · rw [State.newHead_occurrences, State.leaveHead_occurrences]
  · rw [only]

/-- What an answer at the head leaves on its way: the hit of the window it names, and the refusal (R27, R50, R51). -/
theorem answerHead_reports (s : State) (kind : MemKind) (t : Tag) (a : Addr) (st : Status) (w : Option WindowIx) (ev : Option FaultKind) :
    (s.answerHead kind t a st w ev).mail.hitReports = s.mail.hitReports ++ w.toList.map (HitReport.mk s.ps.active)
      ∧ (s.underReset = false → (s.answerHead kind t a st w ev).mail.occurrences
          = s.mail.occurrences ++ ev.toList.map fun f => Occurrence.refused f kind t a w s.ps.generation) := by
  have hit : (s.reportHit w).mail.hitReports = s.mail.hitReports ++ w.toList.map (HitReport.mk s.ps.active) := by
    cases w <;> simp [State.reportHit, State.hitReport]
  refine ⟨by simp [State.answerHead, hit], fun running => ?_⟩
  have reported : (s.reportHit w).underReset = false := by
    rw [State.underReset, State.reportHit_rs]
    exact running
  cases ev <;> simp [State.answerHead, State.reportRefused, State.report, reported]

/-- Settles O22. -/
theorem headAnsweredLeaves : Obligations.HeadAnsweredLeaves := by
  unfold Obligations.HeadAnsweredLeaves
  intro s k credit t kind a length data rest st w ev hk hf hd
  let s1 : State := { s with mail := { s.mail with attempts := s.mail.attempts.eraseIdx k } }
  let left := s1.leaveHead rest credit
  let u := left.answerHead kind t a st w ev
  have answered : exec (.headAttempt k credit) s = .next u.newHead := by
    rw [exec_headAttempt hk]
    exact congrArg _ (attempt_answer (by exact hf) (by exact hd) credit)
  have iq : u.iq = { s.iq with fifo := rest } := by
    simp only [u, State.answerHead, State.respond_iq, State.reportRefused_iq, State.reportHit_iq]
    exact (leaveHead_does s1 rest credit).1
  obtain ⟨ulc, returns⟩ := leaveHead_credit s1 rest credit
  obtain ⟨fifo, tags, gate, -, -⟩ := newHead_does u
  obtain ⟨hits, occurrences⟩ := answerHead_reports left kind t a st w ev
  have stands : s1.OnlyHead left := leaveHead_onlyHead s1 rest credit
  have ps : left.ps = s.ps := State.leaveHead_ps s1 rest credit
  have only : s1.OnlyHead u.newHead := (((stands.trans (reportHit_onlyHead left w)).trans
    (reportRefused_onlyHead _ ev kind t a w)).trans (place_onlyHead _ _)).trans (newHead_onlyHead u)
  rw [iq] at fifo tags gate
  refine ⟨_, answered, fifo, tags, gate, ?_, ?_, ?_, fun running => ?_, ?_⟩
  · rw [State.newHead_ulc]
    refine place_ulc_congr ?_ _
    rw [State.reportRefused_ulc, State.reportHit_ulc, ulc]
    cases credit <;> rfl
  · rw [State.newHead_creditReturns]
    simp only [u, State.answerHead, State.respond_mail, State.reportRefused_creditReturns, State.reportHit_creditReturns]
    rw [returns]
    cases credit <;> rfl
  · rw [State.newHead_hitReports, hits, ps, State.leaveHead_hitReports]
  · rw [State.newHead_occurrences, occurrences, ps, State.leaveHead_occurrences]
    rw [State.underReset, State.leaveHead_rs]
    exact running
  · rw [only]

end Sys2Proof.Machine
end

section
/-! PROOFS. The resets by command: what RESET_TRAFFIC and RESET_FULL do in the step that takes them. -/

namespace Sys2Proof.Machine

/-! ### RESET TRAFFIC (R171) -/

theorem exec_resetTraffic {s : State} {t : Tag} (h : s.Takes t [0x01, 0x00]) :
    exec .resetTraffic s = .next (s.inHand.resetTraffic t) :=
  congrArg Host.Outcome.next (State.takeRequest_takes h (by decide) _)

/-- DONE has been placed and the abort asked for, and the WAKING ports are still to return. -/
def State.trafficAsked (s : State) (t : Tag) : State := (s.inHand.reply t .done []).requestAbort .resetTraffic

theorem trafficAsked_frame (s : State) (t : Tag) : s.trafficAsked t = { s.inHand with
    ulc := (s.reply t .done []).ulc, mail := { s.mail with aborts := s.mail.aborts ++ [.resetTraffic] } } := by
  have ulc : (s.inHand.reply t .done []).ulc = (s.reply t .done []).ulc := place_ulc_congr (a := s.inHand) (b := s) rfl
    ⟨.control, t, .done, s.eu.summary, []⟩
  rw [← ulc]
  unfold State.trafficAsked State.reply
  rw [place_frame]
  rfl

theorem resetTraffic_does {s : State} {t : Tag} (h : s.Takes t [0x01, 0x00]) :
    ∃ u, exec .resetTraffic s = .next u
      ∧ u.ulc = (s.reply t .done []).ulc
      ∧ u.mail.aborts = s.mail.aborts ++ [.resetTraffic]
      ∧ (∀ p, u.port p = if (s.port p).state = .waking ∧ (s.port p).egress = [] ∧ s.claims p = [] then
            { s.port p with state := .parked, wake := none } else s.port p)
      ∧ (∀ p, u.port p ≠ s.port p → AttemptEvent.portChanged p ∈ u.mail.attempts)
      ∧ (∀ p, p ∈ u.mail.returns ↔ p ∈ s.mail.returns
          ∨ ((s.port p).state = .waking ∧ ((s.port p).egress ≠ [] ∨ s.claims p ≠ [])))
      ∧ u = { s.inHand with ulc := u.ulc, ports := u.ports, mail := u.mail } := by
  let v := s.trafficAsked t
  have frame : v = _ := trafficAsked_frame s t
  have port (p : PortId) : v.port p = s.port p := State.port_congr (by rw [frame]; rfl) p
  have claims (p : PortId) : v.claims p = s.claims p := State.claims_congr (by rw [frame]; rfl) p
  have stands := returnWaking_frame v
  refine ⟨v.returnWaking, exec_resetTraffic h, ?_, ?_, fun p => ?_, fun p hp => ?_, fun p => ?_, ?_⟩
  · rw [stands, frame]
  · rw [v.returnWaking_carries.aborts, frame]
  · rw [returnWaking_port, port, claims]
  · rw [← port] at hp
    exact returnWaking_attempts v p hp
  · rw [mem_returnWaking_returns, port, claims, frame]
  · rw [stands, frame]

/-! ### RESET FULL (R34, R156, R172) -/

theorem exec_resetFull {s : State} {t : Tag} (h : s.Takes t [0x01, 0x01]) (sel : PlanSel) (credit : CreditPath) (o : FullOrder) :
    exec (.resetFull sel credit o) s = .next (s.inHand.resetFull t sel credit o) :=
  congrArg Host.Outcome.next (State.takeRequest_takes h (by decide) _)

/-- DONE has been placed, the operation abandoned and the FIFO's credits returned; the ABORTED answers are still to be placed. -/
def State.fullBegun (s : State) (t : Tag) (credit : CreditPath) : State :=
  ({ s.reply t .done [] with ps := { (s.reply t .done []).ps with op := .idle } } : State).returnCredits credit s.iq.fifo.length

/-- What a RESET FULL empties and asks for once it has placed what it places now. -/
def State.emptied (s : State) (sel : PlanSel) (later : List AbortedAnswer) : State :=
  ({ s with
    cu := { s.cu with held := [] }
    iq := { s.iq with fifo := [], cond := .noHead }
    mail := { s.mail with attempts := [], ends := [], answers := s.mail.answers ++ later }
    pins := { s.pins with planSel := sel }
    rs := { s.rs with full := .awaitAbort, sample := sel } }).requestAbort .resetFull

/-- A RESET FULL, field by field. -/
theorem resetFull_eq (s : State) (t : Tag) (sel : PlanSel) (credit : CreditPath) (o : FullOrder) :
    s.resetFull t sel credit o = { s with
      pins := { s.pins with planSel := sel }
      ulc := ((s.fullBegun t credit).answerAborted (s.answersNow o)).ulc
      iq := { s.iq with fifo := [], cond := .noHead }
      ps := { s.ps with op := .idle }
      cu := { s.cu with held := [] }
      rs := { s.rs with full := .awaitAbort, sample := sel }
      mail := { s.mail with
        creditReturns := (s.fullBegun t credit).mail.creditReturns
        aborts := s.mail.aborts ++ [.resetFull], ends := [], attempts := []
        answers := s.mail.answers ++ if s.ulc.state = .up then s.answersLater o else [] } } := by
  have begun : s.fullBegun t credit = { s with
      ulc := (s.fullBegun t credit).ulc, ps := { s.ps with op := .idle }
      mail := { s.mail with creditReturns := (s.fullBegun t credit).mail.creditReturns } } := by
    unfold State.fullBegun State.reply
    rw [place_frame]
    cases credit <;> rfl
  have answered : (s.fullBegun t credit).answerAborted (s.answersNow o) = _ := (State.answerAborted_spec _ _).1
  have stated : s.resetFull t sel credit o
      = ((s.fullBegun t credit).answerAborted (s.answersNow o)).emptied sel
          (if s.ulc.state = .up then s.answersLater o else []) := rfl
  rw [stated, answered, begun]
  rfl

theorem fullBegun_ulc_up {s : State} (h : s.ulc.state = .up) (t : Tag) (credit : CreditPath) :
    (s.fullBegun t credit).ulc.state = .up
      ∧ (s.fullBegun t credit).ulc.queue = s.ulc.queue ++ [⟨.control, t, .done, s.eu.summary, []⟩]
      ∧ (s.fullBegun t credit).eu = s.eu := by
  obtain ⟨queue, up⟩ := s.place_up ⟨.control, t, .done, s.eu.summary, []⟩ h
  obtain ⟨state', queue', _⟩ := State.returnCredits_does
    { s.reply t .done [] with ps := { (s.reply t .done []).ps with op := .idle } } credit s.iq.fifo.length
  exact ⟨state'.trans up, queue'.trans queue, by simp [State.fullBegun]⟩

/-- In UP the DONE stands ahead of the ABORTED answers that are placed at once. -/
theorem resetFull_queue {s : State} (h : s.ulc.state = .up) (t : Tag) (sel : PlanSel) (credit : CreditPath) (o : FullOrder) :
    (s.resetFull t sel credit o).ulc.queue = s.ulc.queue ++ [⟨.control, t, .done, s.eu.summary, []⟩]
      ++ (s.answersNow o).map fun a => ⟨a.kind, a.tag, .aborted, if a.kind = .control then s.eu.summary else 0, []⟩ := by
  obtain ⟨up, queue, eu⟩ := fullBegun_ulc_up h t credit
  rw [resetFull_eq]
  rw [← queue, ← eu]
  exact (State.answerAborted_spec _ _).2 up

theorem resetFull_credits (s : State) (t : Tag) (sel : PlanSel) (credit : CreditPath) (o : FullOrder) :
    (s.resetFull t sel credit o).ulc.credits = (s.fullBegun t credit).ulc.credits := by
  rw [resetFull_eq]
  exact (State.answerAborted_carries _ _).credits

theorem fullBegun_atOnce_credits {s : State} (h : s.ulc.state = .up) (t : Tag) :
    (s.fullBegun t .atOnce).ulc.credits = s.ulc.credits + s.iq.fifo.length := by
  have replied := s.reply_carries t .done []
  have taken := (s.reply t .done []).ulc.takeCredits_up s.iq.fifo.length (replied.ulcState.trans h)
  rw [← replied.credits]
  exact taken.2.1

theorem fullBegun_later_credits (s : State) (t : Tag) :
    (s.fullBegun t .later).ulc.credits = s.ulc.credits
      ∧ (s.fullBegun t .later).mail.creditReturns = s.mail.creditReturns + s.iq.fifo.length := by
  have replied := s.reply_carries t .done []
  exact ⟨replied.credits, congrArg (· + _) replied.creditReturns⟩

/-- The answers of a RESET FULL, by kind and tag: the FIFO's in their order, those of the held requests among them. -/
theorem fullAnswers_spec (s : State) (o : Order) :
    let fifo := s.iq.fifo.map Request.abortedAnswer
    (s.fullAnswers o).Perm (s.cu.held.map HeldItem.abortedAnswer ++ fifo) ∧ fifo.Sublist (s.fullAnswers o) := by
  obtain ⟨perm, _, fifo⟩ := interleave_spec (o.drop s.cu.held.length)
    ((permute o s.cu.held).map HeldItem.abortedAnswer) (s.iq.fifo.map Request.abortedAnswer)
  exact ⟨perm.trans (((permute_perm o s.cu.held).map _).append_right _), fifo⟩

theorem answersNow_append_later (s : State) (o : FullOrder) : s.answersNow o ++ s.answersLater o = s.fullAnswers o.order :=
  List.take_append_drop _ _

theorem answersLater_length (s : State) (o : FullOrder) :
    (s.answersLater o).length = min o.late (s.cu.held.length + s.iq.fifo.length) := by
  have all : (s.fullAnswers o.order).length = s.cu.held.length + s.iq.fifo.length := by
    simpa using (fullAnswers_spec s o.order).1.length_eq
  rw [State.answersLater, List.length_drop, all]
  omega

/-! ### The resets by command -/

/-- An ABORTED answer by the kind and the tag it bears. -/
def AbortedAnswer.named (a : AbortedAnswer) : ResponseKind × Tag := (a.kind, a.tag)

theorem named_answers (s : State) (o : FullOrder) :
    let held := s.cu.held.map fun h => ((.control, h.tag) : ResponseKind × Tag)
    let fifo := s.iq.fifo.map fun r => r.abortedAnswer.named
    ((s.answersNow o).map (·.named) ++ (s.answersLater o).map (·.named)).Perm (held ++ fifo)
      ∧ fifo.Sublist ((s.answersNow o).map (·.named) ++ (s.answersLater o).map (·.named)) := by
  obtain ⟨perm, sub⟩ := fullAnswers_spec s o.order
  rw [← List.map_append, answersNow_append_later]
  have perm' := perm.map (·.named)
  have sub' := sub.map (·.named)
  rw [List.map_append, List.map_map, List.map_map] at perm'
  rw [List.map_map] at sub'
  exact ⟨perm', sub'⟩

/-- Settles O59: the steps of RESET_TRAFFIC and of RESET_FULL, written out as the state that each of them leaves. -/
theorem resetsByCommand : Obligations.ResetsByCommand := by
  intro s t kindOf
  refine ⟨fun h => resetTraffic_does h, fun sel credit o h => ?_⟩
  intro held fifo
  have named (r : Request) : r.abortedAnswer.named = (kindOf r, r.tag) := by
    obtain ⟨tag, body⟩ := r
    cases body with
    | memory kind => cases kind <;> rfl
    | control => rfl
  have fifoNamed : s.iq.fifo.map (fun r => r.abortedAnswer.named) = fifo := List.map_congr_left fun r _ => named r
  obtain ⟨perm, sub⟩ := named_answers s.inHand o
  have eq := resetFull_eq s.inHand t sel credit o
  refine ⟨_, (s.inHand.answersNow o).map (·.named), (s.inHand.answersLater o).map (·.named),
    exec_resetFull h sel credit o, fun up => ⟨?_, ?_, ?_, ?_, ?_⟩, fun notUp => ?_,
    ?_, ?_, ?_, ?_, ?_, ?_, ?_, ?_, ?_, ?_, ?_⟩
  · rw [List.map_map]
    exact resetFull_queue (s := s.inHand) up t sel credit o
  · rw [eq, List.map_map]
    simp [State.inHand, up, AbortedAnswer.named, Function.comp_def]
  · exact fifoNamed ▸ perm
  · exact fifoNamed ▸ sub
  · rw [List.length_map, answersLater_length]
    simp [held, fifo, State.inHand]
  · rw [eq]
    simp [State.inHand, notUp]
  · rw [eq]
  · rw [eq]; rfl
  · rw [eq]
  · rw [eq]; rfl
  · rw [eq]; rfl
  · intro up atOnce
    rw [atOnce, resetFull_credits, fullBegun_atOnce_credits (s := s.inHand) up]
    rfl
  · intro later
    obtain ⟨credits, returns⟩ := fullBegun_later_credits s.inHand t
    obtain ⟨_, none, _⟩ := h
    rw [later] at eq ⊢
    refine ⟨(resetFull_credits ..).trans credits, ?_⟩
    rw [eq]
    simp only [returns]
    simp [State.inHand, none]
  · rw [eq]; rfl
  · rw [eq]; rfl
  · rw [eq]; rfl
  · rw [eq]; rfl

end Sys2Proof.Machine
end

section
/-! PROOFS. The abort of the OTT: what it answers, what it leaves of the ports, and what its requester learns. -/

namespace Sys2Proof.Machine

/-! ### The ports' part -/

theorem abortPort_frame (s : State) (p : PortId) (claimed : Bool) : s.abortPort p claimed = { s with
    ports := (s.abortPort p claimed).ports
    mail := { s.mail with attempts := (s.abortPort p claimed).mail.attempts } } := by
  unfold State.abortPort
  split <;> rfl

theorem abortPorts_frame (claimed : PortId → Bool) (ps : List PortId) (s : State) : s.abortPorts claimed ps = { s with
    ports := (s.abortPorts claimed ps).ports
    mail := { s.mail with attempts := (s.abortPorts claimed ps).mail.attempts } } := by
  induction ps generalizing s with
  | nil => rfl
  | cons p ps ih =>
    rw [State.abortPorts, ih, abortPort_frame]

theorem parkWaking_frame (ps : List PortId) (s : State) : s.parkWaking ps = { s with
    ports := (s.parkWaking ps).ports
    mail := { s.mail with attempts := (s.parkWaking ps).mail.attempts } } := by
  induction ps generalizing s with
  | nil => rfl
  | cons p ps ih =>
    rw [State.parkWaking, ih]
    split <;> rfl

/-- The places that an abort frees at a port are reported to the IQ, and what is on its way stays (R28, R132). -/
theorem abortPort_attempts (s : State) (p : PortId) (claimed : Bool) :
    (∀ e ∈ s.mail.attempts, e ∈ (s.abortPort p claimed).mail.attempts)
      ∧ (claimed = true ∨ (s.port p).egress ≠ [] → AttemptEvent.placesRose p ∈ (s.abortPort p claimed).mail.attempts) := by
  unfold State.abortPort
  simp only
  split
  · exact ⟨attemptDue_mono _ _, fun _ => attemptDue_mem _ _⟩
  · next nothing => exact ⟨fun _ h => h, fun h => absurd h (by simpa using nothing)⟩

theorem abortPorts_attempts (claimed : PortId → Bool) (ps : List PortId) (s : State) :
    (∀ e ∈ s.mail.attempts, e ∈ (s.abortPorts claimed ps).mail.attempts)
      ∧ ∀ p ∈ ps, claimed p = true ∨ (s.port p).egress ≠ [] →
          AttemptEvent.placesRose p ∈ (s.abortPorts claimed ps).mail.attempts := by
  induction ps generalizing s with
  | nil => exact ⟨fun _ h => h, nofun⟩
  | cons q qs ih =>
    obtain ⟨stays, rose⟩ := abortPort_attempts s q (claimed q)
    obtain ⟨stay, others⟩ := ih (s.abortPort q (claimed q))
    refine ⟨fun e h => stay e (stays e h), fun p hp waits => ?_⟩
    rcases eq_or_ne p q with rfl | hne
    · exact stay _ (rose waits)
    · refine others p (List.mem_of_ne_of_mem hne hp) ?_
      rwa [abortPort_port, if_neg hne]

theorem abortPort_state (s : State) (p q : PortId) (claimed : Bool) :
    ((s.abortPort p claimed).port q).state = (s.port q).state := by
  rw [abortPort_port]
  split
  · next h => rw [h]; rfl
  · rfl

/-- No idle timer runs at a port that is not ACTIVE once the abort has reached it (R96). -/
theorem abortPort_idle {s : State} {p : PortId} (h : (s.port p).state ≠ .active) (claimed : Bool) :
    ((s.abortPort p claimed).port p).idle = none := by
  have settled : (s.abortPort p claimed).port p = ((s.setPort p (s.port p).aborted).settleIdle p).port p := by
    unfold State.abortPort
    simp only
    split
    · exact State.port_congr (State.attemptDue_ports _ _) p
    · rfl
  have stopped (strike : Bool) : (s.port p).aborted.idles strike = false := by simp [Port.idles, Port.aborted, h]
  rw [settled, settleIdle_port, State.port_setPort]
  exact if_neg (by rw [stopped]; decide)

theorem abortPorts_idle {p : PortId} (claimed : PortId → Bool) (ps : List PortId) {s : State} (h : (s.port p).state ≠ .active)
    (reached : p ∈ ps ∨ (s.port p).idle = none) : ((s.abortPorts claimed ps).port p).idle = none := by
  induction ps generalizing s with
  | nil => simpa [State.abortPorts] using reached
  | cons q qs ih =>
    refine ih (by rwa [abortPort_state]) ?_
    rcases eq_or_ne p q with rfl | hne
    · exact .inr (abortPort_idle h _)
    · rw [abortPort_port, if_neg hne]
      exact reached.imp_left (List.mem_of_ne_of_mem hne)

/-! ### The abort -/

/-- The answers of an abort, in the order of their placing (R131, R156). -/
def State.abortAnswers (s : State) (order : Order) : List AbortedAnswer :=
  interleave order (s.ott.map Entry.abortedAnswer) s.mail.answers

/-- An abort whose answers have been placed and which has still to reach the ports. -/
def State.abortAnswered (s : State) (order : Order) : State :=
  ({ s with ott := [], mail := { s.mail with answers := [], returns := [] } } : State).answerAborted (s.abortAnswers order)

/-- The abort once it has reached the ports, those that return to PARKED still WAKING. -/
def State.abortReached (s : State) (order : Order) : State :=
  (s.abortAnswered order).abortPorts (fun p => !(s.claims p).isEmpty) allPorts

theorem abort_eq (s : State) (order : Order) :
    s.abort order = ((s.abortReached order).parkWaking s.mail.returns).reportEmpty := rfl

theorem abortAnswered_frame (s : State) (order : Order) : s.abortAnswered order = { s with
    ulc := (s.abortAnswered order).ulc, ott := [], mail := { s.mail with answers := [], returns := [] } } :=
  (State.answerAborted_spec _ _).1

/-- But for the ULC, the ports and the attempt events it raises, an abort empties what it answers and returns, and reports the OTT
empty (R131, R132). -/
theorem abort_frame (s : State) (order : Order) : s.abort order = { s with
    ulc := (s.abortAnswered order).ulc
    ott := []
    ports := (s.abort order).ports
    mail := { s.mail with
      answers := [], returns := [], attempts := (s.abort order).mail.attempts, emptyReports := s.mail.emptyReports + 1 } } := by
  rw [abort_eq, parkWaking_frame, State.abortReached, abortPorts_frame, abortAnswered_frame]
  rfl

theorem abortAnswered_queue {s : State} (h : s.ulc.state = .up) (order : Order) :
    (s.abortAnswered order).ulc.queue = s.ulc.queue ++ (s.abortAnswers order).map fun a =>
      ⟨a.kind, a.tag, .aborted, if a.kind = .control then s.eu.summary else 0, []⟩ :=
  (State.answerAborted_spec _ { s with ott := [], mail := { s.mail with answers := [], returns := [] } }).2 h

theorem abortAnswered_port (s : State) (order : Order) (p : PortId) : (s.abortAnswered order).port p = s.port p :=
  State.port_congr (by rw [abortAnswered_frame]) p

/-- A port for which a copy waited has its freed places reported to the IQ (R28, R132). -/
theorem abort_placesRose {s : State} {p : PortId} (waits : (s.port p).egress ≠ [] ∨ s.claims p ≠ []) (order : Order) :
    AttemptEvent.placesRose p ∈ (s.abort order).mail.attempts := by
  have rose : AttemptEvent.placesRose p ∈ (s.abortReached order).mail.attempts := by
    refine (abortPorts_attempts _ _ (s.abortAnswered order)).2 p (mem_allPorts p) ?_
    rw [abortAnswered_port]
    simpa using waits.symm
  exact (parkWaking_attempts _ _).1 _ rose

theorem abortReached_state (s : State) (order : Order) (p : PortId) :
    ((s.abortReached order).port p).state = (s.port p).state := by
  rw [State.abortReached, abortPorts_port _ _ (by decide) _ p (mem_allPorts p), abortAnswered_port]
  rfl

/-- A port that takes its return to PARKED with the abort is reported to the IQ (R108, log 27). -/
theorem abort_portChanged {s : State} {p : PortId} (returns : p ∈ s.mail.returns) (waking : (s.port p).state = .waking)
    (order : Order) : AttemptEvent.portChanged p ∈ (s.abort order).mail.attempts :=
  (parkWaking_attempts _ _).2 p returns ((abortReached_state s order p).trans waking)

theorem abort_idle {s : State} {p : PortId} (h : (s.port p).state ≠ .active) (order : Order) :
    ((s.abort order).port p).idle = none := by
  have reached : ((s.abortReached order).port p).idle = none :=
    abortPorts_idle _ _ (by rwa [abortAnswered_port]) (.inl (mem_allPorts p))
  rw [abort_eq, State.port_congr (State.reportEmpty_ports _) p, parkWaking_port]
  split <;> exact reached

theorem aborted_of_free {q : Port} (empty : q.egress = []) (free : ∀ i, q.slots.get i = .free) : q.aborted = q := by
  have slots : q.slots.map Slot.orphaned = q.slots := by
    refine Vector.ext fun i hi => ?_
    have free := free ⟨i, hi⟩
    rw [Vector.getElem_map]
    exact (congrArg Slot.orphaned free).trans free.symm
  unfold Port.aborted
  rw [slots, ← empty]

/-- A PARKED port holds nothing that an abort can reach (R107). -/
theorem abort_parked {s : State} {p : PortId} (sound : (s.port p).Sound (s.strikeFlag p)) (parked : (s.port p).state = .parked)
    (order : Order) : (s.abort order).port p = s.port p := by
  obtain ⟨free, empty, _, _, _, idles, _⟩ := sound
  have inactive : (s.port p).state ≠ .active := by rw [parked]; decide
  have stopped : (s.port p).idle = none := by
    by_contra runs
    exact absurd (idles.mp runs) (by simp [Port.idles, parked])
  have idle := abort_idle inactive order
  obtain ⟨i, port⟩ := abort_port s order p
  rw [if_neg (fun h => by rw [parked] at h; exact nomatch h.2), aborted_of_free (empty (.inr parked)) (free inactive)] at port
  rw [port] at idle ⊢
  rw [show i = none from idle, ← stopped]

/-- The port records that an abort leaves, but for their slots and idle timers (R107, R108, log 27). -/
theorem abort_port_record (s : State) (order : Order) (p : PortId) :
    let returns : Bool := decide (p ∈ s.mail.returns) && (s.port p).state == .waking
    (s.abort order).port p = { s.port p with
      state := if returns then .parked else (s.port p).state
      wake := if returns then none else (s.port p).wake
      egress := [], slots := ((s.abort order).port p).slots, idle := ((s.abort order).port p).idle } := by
  intro returns
  obtain ⟨idle, port⟩ := abort_port s order p
  by_cases h : p ∈ s.mail.returns ∧ (s.port p).state = .waking
  · have : returns = true := by simpa [returns] using h
    rw [if_pos h] at port
    rw [port, this]
    rfl
  · have : returns = false := by simpa [returns] using h
    rw [if_neg h] at port
    rw [port, this]
    rfl

theorem abort_slots (s : State) (order : Order) (p : PortId) (i : SlotId) :
    ((s.abort order).port p).slots.get i = ((s.port p).slots.get i).orphaned := by
  obtain ⟨idle, port⟩ := abort_port s order p
  rw [port]
  split <;> exact get_map Slot.orphaned _ i

/-! ### What the requester of the abort learns -/

theorem abortTaken_frame (s : State) (a : AbortSource) : s.abortTaken a = { s with
    ulc := (s.abortTaken a).ulc
    rs := (s.abortTaken a).rs
    mail := { s.mail with
      creditReturns := (s.abortTaken a).mail.creditReturns
      ends := (s.abortTaken a).mail.ends
      loss := (s.abortTaken a).mail.loss } } := by
  cases a with
  | planStore => rfl
  | resetTraffic => rfl
  | resetFull =>
    simp only [State.abortTaken]
    split <;> rfl
  | linkLoss =>
    simp only [State.abortTaken, State.settleLink]
    split <;> rfl

/-- In UP nothing is sent and no link starts when the abort has been taken. -/
theorem abortTaken_ulc_up {s : State} (h : s.ulc.state = .up) (a : AbortSource) : (s.abortTaken a).ulc = s.ulc := by
  cases a with
  | planStore => rfl
  | resetTraffic => rfl
  | resetFull =>
    simp only [State.abortTaken]
    split <;> rfl
  | linkLoss =>
    simp only [State.abortTaken]
    rw [settleLink_waits _ (.inl (by rw [h]; decide))]

/-- A RESET FULL that waits for the abort may start up (R172). -/
theorem abortTaken_resetFull {s : State} (h : s.rs.full = .awaitAbort) :
    (s.abortTaken .resetFull).rs = { s.rs with full := .ready } :=
  congrArg State.rs (if_pos h)

theorem abortTaken_rs_of_ne {s : State} {a : AbortSource} (h : a ≠ .resetFull) : (s.abortTaken a).rs = s.rs := by
  cases a with
  | planStore => rfl
  | resetTraffic => rfl
  | resetFull => exact absurd rfl h
  | linkLoss => simp only [State.abortTaken, State.settleLink_rs]

/-! ### OTT_ABORT -/

theorem exec_ottAbort {s : State} {k : Nat} {a : AbortSource} {rest : List AbortSource}
    (h : takeAt k s.mail.aborts = some (a, rest)) (order : Order) :
    exec (.ottAbort ⟨k, order⟩) s
      = .next ((({ s with mail := { s.mail with aborts := rest } } : State).abort order).abortTaken a) := by
  change execOttAbort ⟨k, order⟩ s = _
  unfold execOttAbort
  rw [h]

/-- The answers by kind and tag: those of the OTT and those that waited, each in their own order. -/
theorem named_abortAnswers (s : State) (order : Order) :
    let own := s.ott.map fun e => (e.kind.response, e.tag)
    let waiting := s.mail.answers.map AbortedAnswer.named
    ((s.abortAnswers order).map AbortedAnswer.named).Perm (own ++ waiting)
      ∧ own.Sublist ((s.abortAnswers order).map AbortedAnswer.named)
      ∧ waiting.Sublist ((s.abortAnswers order).map AbortedAnswer.named) := by
  obtain ⟨perm, own, waiting⟩ := interleave_spec order (s.ott.map Entry.abortedAnswer) s.mail.answers
  have perm' := perm.map AbortedAnswer.named
  have own' := own.map AbortedAnswer.named
  rw [List.map_append, List.map_map] at perm'
  rw [List.map_map] at own'
  exact ⟨perm', own', waiting.map _⟩

/-- Settles O47: the state that OTT_ABORT leaves is that of the abort, the ports' part included, with what the
requester learns. -/
theorem abortAnswersInOrder : Obligations.AbortAnswersInOrder := by
  intro s k order a rest taken own waiting aborted
  let s0 : State := { s with mail := { s.mail with aborts := rest } }
  have frame := abortTaken_frame (s0.abort order) a
  have abort := abort_frame s0 order
  have port (p : PortId) : ((s0.abort order).abortTaken a).port p = (s0.abort order).port p := State.port_congr (by rw [frame]) p
  have attempts : ((s0.abort order).abortTaken a).mail.attempts = (s0.abort order).mail.attempts := by rw [frame]
  have rs : (s0.abort order).rs = s.rs := by rw [abort]
  obtain ⟨perm, ownInOrder, waitingInOrder⟩ := named_abortAnswers s0 order
  refine ⟨_, (s0.abortAnswers order).map AbortedAnswer.named, exec_ottAbort taken order, ?_, ?_, ?_, ?_,
    perm, ownInOrder, waitingInOrder, fun up => ?_, fun p waits => ?_, ?_, fun p sound parked => ?_, fun p returns waking => ?_, fun p => ⟨?_, fun i => ?_⟩,
    ?_, ?_, ?_, ?_, ?_, ?_, ?_, ?_, fun full awaits => ?_, fun other => ?_⟩
  · rw [frame, abort]
  · rw [frame, abort]
  · rw [frame, abort]
  · rw [frame, abort]
  · have ulc : (s0.abort order).ulc = (s0.abortAnswered order).ulc := by rw [abort]
    have upThen : (s0.abort order).ulc.state = .up := (s0.abort_carries order).ulcState.trans up
    rw [abortTaken_ulc_up upThen, ulc, abortAnswered_queue (s := s0) up, List.map_map]
    rfl
  · rw [attempts]
    exact abort_placesRose (s := s0) waits order
  · rw [frame, abort]
  · rw [port]
    exact abort_parked (s := s0) sound parked order
  · rw [attempts]
    exact abort_portChanged (s := s0) returns waking order
  · rw [port]
    exact abort_port_record s0 order p
  · rw [port]
    exact abort_slots s0 order p i
  · rw [frame, abort]
  · rw [frame, abort]
  · rw [frame, abort]
  · rw [frame, abort]
  · rw [frame, abort]
  · rw [frame, abort]
  · rw [frame, abort]
  · rw [frame, abort]
  · rw [full, abortTaken_resetFull (by rw [rs]; exact awaits), rs]
  · rw [abortTaken_rs_of_ne other, rs]

end Sys2Proof.Machine
end

section
/-! PROOFS. The window table: the window that a lookup finds, the masked unit, hit reports, and the start-up that clears both
banks. -/

namespace Sys2Proof.Machine

/-! ### Lookup (R42, R43) -/

/-- An entry contains an address exactly if it is LOADED and its window does (R36). -/
theorem entry_contains_iff (e : WindowEntry) (a : Addr) :
    e.contains a = true ↔ ∃ w, e = .loaded w ∧ w.contains a = true := by
  cases e <;> simp [WindowEntry.contains]

/-- A lookup stops at the lowest index whose entry contains the address. -/
theorem firstMatch_iff (b : Bank) (a : Addr) (i : WindowIx) :
    ((List.finRange 32).find? fun j => (b.windows.get j).contains a) = some i ↔
      (b.windows.get i).contains a = true ∧ ∀ j, j < i → (b.windows.get j).contains a = false := by
  rw [← Fin.find?_eq_find?_finRange, Fin.find?_eq_some_iff]

theorem noMatch_iff (b : Bank) (a : Addr) :
    ((List.finRange 32).find? fun j => (b.windows.get j).contains a) = none ↔
      ∀ j, (b.windows.get j).contains a = false := by
  rw [← Fin.find?_eq_find?_finRange, Fin.find?_eq_none_iff]

theorem lookup_of_noMatch {b : Bank} {a : Addr} (h : ∀ j, (b.windows.get j).contains a = false) : b.lookup a = none := by
  unfold Bank.lookup
  rw [(noMatch_iff b a).mpr h]

/-- The entry at which a lookup stops is LOADED, and its window is the matching one. -/
theorem lookup_of_firstMatch {b : Bank} {a : Addr} {i : WindowIx} {w : Window} (hw : b.windows.get i = .loaded w)
    (hc : w.contains a = true) (hf : ∀ j, j < i → (b.windows.get j).contains a = false) : b.lookup a = some (i, w) := by
  have found := (firstMatch_iff b a i).mpr ⟨(entry_contains_iff _ a).mpr ⟨w, hw, hc⟩, hf⟩
  unfold Bank.lookup
  simp only [found, hw]

/-- A lookup finds no window, or the first that contains the address. -/
theorem lookup_cases (b : Bank) (a : Addr) :
    (b.lookup a = none ∧ ∀ j, (b.windows.get j).contains a = false)
      ∨ ∃ i w, b.lookup a = some (i, w) ∧ b.windows.get i = .loaded w ∧ w.contains a = true
          ∧ ∀ j, j < i → (b.windows.get j).contains a = false := by
  cases found : (List.finRange 32).find? fun j => (b.windows.get j).contains a with
  | none =>
    have nowhere := (noMatch_iff b a).mp found
    exact .inl ⟨lookup_of_noMatch nowhere, nowhere⟩
  | some i =>
    obtain ⟨here, first⟩ := (firstMatch_iff b a i).mp found
    obtain ⟨w, hw, hc⟩ := (entry_contains_iff _ a).mp here
    exact .inr ⟨i, w, lookup_of_firstMatch hw hc first, hw, hc, first⟩

/-- Settles O26. -/
theorem lookupTakesTheFirstMatch : Obligations.LookupTakesTheFirstMatch := by
  unfold Obligations.LookupTakesTheFirstMatch
  intro b a
  refine ⟨fun i w => ⟨fun h => ?_, fun ⟨loaded, contains, first⟩ => lookup_of_firstMatch loaded contains first⟩,
    fun h => ?_, lookup_of_noMatch⟩
  · rcases lookup_cases b a with ⟨miss, -⟩ | ⟨j, v, found, matching⟩
    · rw [miss] at h
      cases h
    · rw [found] at h
      cases h
      exact matching
  · rcases lookup_cases b a with ⟨-, nowhere⟩ | ⟨j, v, found, -⟩
    · exact nowhere
    · rw [found] at h
      cases h

/-! ### Masks (R37, R39 to R41) -/

/-- The window contains an address exactly if the masked unit lies between base and limit. -/
theorem contains_iff (w : Window) (a : Addr) : w.contains a = true ↔
    w.base.toNat ≤ (unitOf a &&& ~~~(w.mask.getD 0)).toNat ∧ (unitOf a &&& ~~~(w.mask.getD 0)).toNat ≤ w.limit.toNat := by
  rw [Window.contains, unitOf_maskedAddr, Bool.and_eq_true, decide_eq_true_iff, decide_eq_true_iff]

/-- Bits 0 to 11 are never masked (R39). -/
theorem maskedAddr_mod (w : Window) (a : Addr) : (w.maskedAddr a).toNat % 4096 = a.toNat % 4096 := by
  rw [← low_toNat, low_maskedAddr, low_toNat]

/-- The unit and the low 12 bits make up an address. -/
theorem addr_eq_of_unit {a b : Addr} (hu : unitOf a = unitOf b) (hl : a.toNat % 4096 = b.toNat % 4096) : a = b := by
  have units := congrArg BitVec.toNat hu
  rw [unitOf_toNat, unitOf_toNat] at units
  exact BitVec.eq_of_toNat_eq (by omega)

/-- Addresses that differ only in masked bits have one masked address (R40). -/
theorem maskedAddr_eq {w : Window} {a b : Addr} (hl : a.toNat % 4096 = b.toNat % 4096)
    (hu : unitOf a &&& ~~~(w.mask.getD 0) = unitOf b &&& ~~~(w.mask.getD 0)) : w.maskedAddr a = w.maskedAddr b := by
  refine addr_eq_of_unit ?_ ?_
  · rw [unitOf_maskedAddr, unitOf_maskedAddr, hu]
  · rw [maskedAddr_mod, maskedAddr_mod, hl]

/-- Settles O27. -/
theorem maskComparesTheMaskedUnit : Obligations.MaskComparesTheMaskedUnit := by
  unfold Obligations.MaskComparesTheMaskedUnit
  intro w a b
  refine ⟨unitOf_maskedAddr w a, maskedAddr_mod w a, unitOf_toNat a, contains_iff w a, fun hl hu => ?_⟩
  have masked : w.maskedAddr a = w.maskedAddr b := maskedAddr_eq hl hu
  rw [Window.contains, Window.contains, Window.offset, Window.offset, masked]
  exact ⟨rfl, rfl⟩

/-- With no bit masked an address is compared as it is. -/
theorem maskedAddr_of_zero {w : Window} (h : w.mask.getD 0 = 0) (a : Addr) : w.maskedAddr a = a := by
  have kept : ~~~((0 : UnitNo).setWidth 36 <<< 12) = BitVec.allOnes 36 := by decide
  rw [Window.maskedAddr, h, kept, BitVec.and_allOnes]

/-- A record holds its mask's bits in bytes 10 to 12, zero for an absent mask (R14). -/
theorem record_mask (w : Window) : ((WindowEntry.loaded w).record.drop 10).take 3 = leBytes 3 (w.mask.getD 0).toNat :=
  List.take_left (l₁ := leBytes 3 (w.mask.getD 0).toNat) (l₂ := w.mode.recordBytes)

/-- Settles O28: the comparison sees only the masked bits, of which there are none, and the record's flag says whether the mask is
present. -/
theorem emptyMaskActsAsNone : Obligations.EmptyMaskActsAsNone := by
  unfold Obligations.EmptyMaskActsAsNone
  intro w a
  have zeros : leBytes 3 (0 : UnitNo).toNat = [0, 0, 0] := by decide
  exact ⟨rfl, maskedAddr_of_zero rfl a, rfl, (record_mask { w with mask := some 0 }).trans zeros, rfl⟩

/-! ### Hit reports (R51, R52) -/

/-- A hit at a LOADED entry counts. -/
theorem hit_of_loaded {b : Bank} {i : WindowIx} {w : Window} (h : b.windows.get i = .loaded w) :
    b.hit i = { b with hits := b.hits.set i.val (satInc (b.hits.get i)) i.isLt } := by
  unfold Bank.hit
  rw [h]

/-- A hit at an EMPTY entry is dropped. -/
theorem hit_of_empty {b : Bank} {i : WindowIx} (h : b.windows.get i = .empty) : b.hit i = b := by
  unfold Bank.hit
  rw [h]

/-- A hit reaches no entry, and no counter but one. -/
theorem hit_frame (b : Bank) (i : WindowIx) :
    (b.hit i).windows = b.windows ∧ (b.hit i).pages = b.pages ∧ ∀ j, j ≠ i → (b.hit i).hits.get j = b.hits.get j := by
  cases h : b.windows.get i with
  | empty =>
    rw [hit_of_empty h]
    exact ⟨rfl, rfl, fun _ _ => rfl⟩
  | loaded w =>
    rw [hit_of_loaded h]
    exact ⟨rfl, rfl, fun j hj => (get_set _ _ _ _).trans (if_neg hj.symm)⟩

/-- Writing a bank back leaves the Plan Store as it is. -/
theorem setBank_self (ps : PlanStore) (k : BankId) : ps.setBank k (ps.bank k) = ps := by
  cases k <;> rfl

theorem exec_hitReport {s : State} {k : Nat} {h : HitReport} {rest : List HitReport}
    (taken : takeAt k s.mail.hitReports = some (h, rest)) :
    exec (.hitReport k) s = .next { s with
      ps := s.ps.setBank h.bank ((s.ps.bank h.bank).hit h.window), mail := { s.mail with hitReports := rest } } := by
  change execHitReport k s = _
  unfold execHitReport
  rw [taken]

/-- Settles O34: the bank of the report takes the hit, and the other bank stays. -/
theorem hitReportCounts : Obligations.HitReportCounts := by
  unfold Obligations.HitReportCounts
  intro s k h rest taken
  obtain ⟨windows, pages, others⟩ := hit_frame (s.ps.bank h.bank) h.window
  obtain ⟨active, generation, op, -⟩ := setBank_frame s.ps h.bank ((s.ps.bank h.bank).hit h.window)
  refine ⟨_, exec_hitReport taken, rfl, fun w loaded => ?_, fun empty => ?_, fun x i other => ?_, fun x => ?_,
    active, generation, op⟩
  · simp only [bank_setBank, if_pos, hit_of_loaded loaded, get_set]
    exact satInc_toNat _ (by decide)
  · simp only [hit_of_empty empty, setBank_self]
  · simp only [bank_setBank]
    split
    · next same =>
      subst same
      exact others i (other.resolve_left fun k => k rfl)
    · rfl
  · simp only [bank_setBank]
    split
    · next same =>
      subst same
      exact ⟨windows, pages⟩
    · exact ⟨rfl, rfl⟩

/-! ### Start-up begins (R56, R190, R191) -/

/-- The reset cause record as a start-up of a cause leaves it (R190). -/
theorem recordCause_does (rs : ResetUnit) (c : ResetCause) :
    (rs.recordCause c).lastCause = c
      ∧ (rs.recordCause c).previousCause = (if c = .powerOn then none else some rs.lastCause)
      ∧ (rs.recordCause c).resetCount.toNat = (if c = .powerOn then 0 else min 255 (rs.resetCount.toNat + 1)) := by
  have counted : (satInc rs.resetCount).toNat = min 255 (rs.resetCount.toNat + 1) := satInc_toNat _ (by decide)
  cases c with
  | powerOn => exact ⟨rfl, rfl, rfl⟩
  | pin => exact ⟨rfl, rfl, counted⟩
  | command => exact ⟨rfl, rfl, counted⟩

/-- Every entry of a cleared bank (R56). -/
theorem cleared_get (i : WindowIx) (j : PageIx) : Bank.cleared.windows.get i = .empty ∧ Bank.cleared.hits.get i = 0
    ∧ Bank.cleared.pages.get j = .absent :=
  ⟨get_replicate _ i, get_replicate _ i, get_replicate _ j⟩

/-- A start-up has begun with the pins given. -/
def State.begunWith (s : State) (c : ResetCause) (sample : PlanSel) (p : Pins) : State := { s.beginStartUp c sample with pins := p }

theorem begunWith_bank (s : State) (c : ResetCause) (sample : PlanSel) (p : Pins) (k : BankId) :
    (s.begunWith c sample p).ps.bank k = .cleared := by
  cases k <;> rfl

/-- START_UP from each held condition, and after a RESET FULL whose abort is done. -/
theorem exec_startUp {s : State} {cause : ResetCause} (sel : PlanSel)
    (h : (s.rs.held = some .powerOn ∧ cause = .powerOn) ∨ (s.rs.held = some .pin ∧ cause = .pin)
      ∨ (s.rs.held = none ∧ s.rs.full = .ready ∧ cause = .command)) :
    exec (.startUp sel) s = .next (s.begunWith cause (if cause = .command then s.rs.sample else sel)
      (if cause = .command then s.pins else { s.pins with resetN := false, planSel := sel })) := by
  change execStartUp sel s = _
  unfold execStartUp
  obtain ⟨held, rfl⟩ | ⟨held, rfl⟩ | ⟨held, ready, rfl⟩ := h
  · rw [held]
    rfl
  · rw [held]
    rfl
  · simp only [held, if_pos ready]
    rfl

/-- Settles O12. -/
theorem startUpRecordsTheCause : Obligations.StartUpRecordsTheCause := by
  unfold Obligations.StartUpRecordsTheCause
  intro s sel cause h
  obtain ⟨last, previous, count⟩ := recordCause_does s.rs cause
  refine ⟨_, exec_startUp sel h, rfl, rfl, rfl, rfl, last, previous, count, fun k i => ?_, fun k i => ?_, rfl, ?_, ?_, rfl⟩
  · obtain ⟨window, hits, -⟩ := cleared_get i 0
    rw [begunWith_bank]
    exact ⟨window, hits⟩
  · obtain ⟨-, -, page⟩ := cleared_get 0 i
    rw [begunWith_bank]
    exact page
  all_goals
    simp only [State.begunWith]
    split <;> rfl

end Sys2Proof.Machine
end

section
/-! PROOFS. The plans as every step keeps them: which commands leave the Plan Store alone, what the others write to a bank, and the
invariant that each window is well formed and each EMPTY one's counter 0 (R38, R52). -/

namespace Sys2Proof.Machine

/-! ### What is written to a bank -/

/-- A window is written together with its counter (R53, R141). -/
theorem setWindow_sound {b : Bank} (h : b.Sound) (i : WindowIx) {e : WindowEntry} (he : e.wellFormed = true) :
    (b.setWindow i e).Sound := by
  intro j
  have window : (b.setWindow i e).windows.get j = if i = j then e else b.windows.get j := get_set b.windows i j e
  have count : (b.setWindow i e).hits.get j = if i = j then 0 else b.hits.get j := get_set b.hits i j 0
  rw [window, count]
  split
  · exact ⟨he, fun _ => rfl⟩
  · exact h j

/-- The page table is apart from the windows. -/
theorem setPage_sound {b : Bank} (h : b.Sound) (i : PageIx) (e : PageEntry) : (b.setPage i e).Sound := h

theorem loadPages_sound (n : Nat) {b : Bank} (h : b.Sound) (start : Nat) (records : List Byte) :
    (b.loadPages start n records).Sound := by
  induction n generalizing b start records with
  | zero => exact h
  | succ n ih =>
    refine ih ?_ _ _
    split
    · exact setPage_sound h _ _
    · exact h

/-- Only the counter of a LOADED window counts (R52). -/
theorem hit_sound {b : Bank} (h : b.Sound) (i : WindowIx) : (b.hit i).Sound := by
  obtain ⟨windows, -, others⟩ := hit_frame b i
  intro j
  obtain ⟨formed, empty⟩ := h j
  rw [windows]
  refine ⟨formed, fun e => ?_⟩
  rcases eq_or_ne j i with rfl | hne
  · rw [hit_of_empty e]
    exact empty e
  · rw [others j hne]
    exact empty e

theorem clearHits_sound {b : Bank} (h : b.Sound) : b.clearHits.Sound :=
  fun i => ⟨(h i).1, fun _ => get_replicate _ i⟩

/-- A COPY_STEP brings a window of a sound bank, or a page entry (R144). -/
theorem copyEntry_sound {active staged : Bank} (ha : active.Sound) (hs : staged.Sound) (k : Fin 288) :
    (copyEntry active staged k).Sound := by
  unfold copyEntry
  split
  · exact setWindow_sound hs _ (ha _).1
  · exact setPage_sound hs _ _

/-- A CLEAR_STEP is a COPY_STEP from a cleared bank (R146). -/
theorem clearEntry_sound {staged : Bank} (hs : staged.Sound) (k : Fin 288) : (clearEntry staged k).Sound :=
  copyEntry_cleared staged k ▸ copyEntry_sound cleared_sound hs k

/-- What a LOAD WINDOW writes has passed the checks of R38. -/
theorem loadableWindow_wellFormed {r : List Byte} {e : WindowEntry} (h : loadableWindow r = some e) : e.wellFormed = true :=
  (Option.filter_eq_some_iff.mp h).2

/-! ### The banks of a state -/

/-- The plans are sound wherever the Plan Store is the same. -/
theorem State.PlansSound.of_ps {s t : State} (h : s.PlansSound) (e : t.ps = s.ps) : t.PlansSound := by
  unfold State.PlansSound
  rw [e]
  exact h

theorem State.PlansSound.bank {s : State} (h : s.PlansSound) (k : BankId) : (s.ps.bank k).Sound := by
  obtain ⟨a, b⟩ := h
  cases k
  · exact a
  · exact b

/-- A sound bank takes the place of another. -/
theorem State.PlansSound.setBank {s : State} (h : s.PlansSound) (k : BankId) {b : Bank} (hb : b.Sound) :
    ({ s with ps := s.ps.setBank k b } : State).PlansSound := by
  obtain ⟨bankA, bankB⟩ := h
  cases k
  · exact ⟨hb, bankB⟩
  · exact ⟨bankA, hb⟩

theorem State.PlansSound.setStaged {s : State} (h : s.PlansSound) {b : Bank} (hb : b.Sound) :
    ({ s with ps := s.ps.setStaged b } : State).PlansSound := h.setBank _ hb

/-- The plan operation is apart from the banks. -/
theorem State.PlansSound.setOp {s : State} (h : s.PlansSound) (op : PlanOp) :
    ({ s with ps := { s.ps with op := op } } : State).PlansSound := h

/-- The data path does not reach the Plan Store. -/
theorem State.PlansSound.of_carries {s t : State} (h : s.PlansSound) (c : s.Carries t) : t.PlansSound := h.of_ps c.ps

/-! ### The Plan Store apart -/

theorem arrive_ps (s : State) (frame : List Byte) : (s.arrive frame).ps = s.ps := by
  obtain ⟨frame, -⟩ := arrive_frame s frame
  rw [frame]

theorem placeCopies_ps (s : State) (t : Tag) (cs : List Copy) : (s.placeCopies t cs).ps = s.ps := (State.placeCopies_carries cs s t).ps

/-- The head is answered, admitted or passed on without a write to a bank. -/
theorem attempt_ps (s : State) (credit : CreditPath) : (s.attempt credit).ps = s.ps := by
  unfold State.attempt
  split
  · rfl
  · split
    · simp
    · split
      · rfl
      · simp [State.answerHead]
      · simp [State.takeIn, placeCopies_ps]

theorem returnWaking_ps (s : State) : s.returnWaking.ps = s.ps := s.returnWaking_carries.ps

theorem strikeDeadline_ps (s : State) (p : PortId) (failed : List Job) (o : Order) : (s.strikeDeadline p failed o).ps = s.ps := by
  unfold State.strikeDeadline
  simp only
  split
  · rw [(State.quarantine_carries _ p _ failed o).ps, State.countTimeout_ps]
  · rw [(State.serve_carries _ p).ps, (State.runJobs_carries failed _ p).ps, State.capture_ps, State.countTimeout_ps]

theorem failWake_ps (s : State) (p : PortId) (o : Order) : (s.failWake p o).ps = s.ps := by
  unfold State.failWake
  simp only
  rw [(State.serve_carries _ p).ps, (State.runJobs_carries _ _ p).ps]
  split
  all_goals rfl

theorem strikesCleared_ps (cleared : BitVec 8) (ps : List PortId) (s : State) : (s.strikesCleared cleared ps).ps = s.ps := by
  induction ps generalizing s with
  | nil => rfl
  | cons p ps ih =>
    rw [State.strikesCleared, ih]
    split
    · exact State.settleIdle_ps s p
    · rfl

/-- The requester of an abort learns of it apart from the Plan Store. -/
theorem abortTaken_ps (s : State) (a : AbortSource) : (s.abortTaken a).ps = s.ps := by rw [abortTaken_frame]

/-! ### Control requests -/

/-- A command's meaning keeps the plans sound. -/
def KeepsPlansSound (carry : State → Tag → List Byte → State) : Prop :=
  ∀ (s : State) (t : Tag) (payload : List Byte), s.PlansSound → (carry s t payload).PlansSound

/-- A meaning that leaves the Plan Store alone keeps the plans sound. -/
theorem keepsPlansSound_of_ps {carry : State → Tag → List Byte → State}
    (h : ∀ (s : State) (t : Tag) (payload : List Byte), (carry s t payload).ps = s.ps) : KeepsPlansSound carry :=
  fun s t payload k => k.of_ps (h s t payload)

theorem State.PlansSound.reply {s : State} (h : s.PlansSound) (t : Tag) (st : Status) (c : List Byte) :
    (s.reply t st c).PlansSound := h.of_ps (State.reply_ps s t st c)

theorem withLength_keepsPlansSound (n : Nat) {carry : State → Tag → List Byte → State} (h : KeepsPlansSound carry) :
    KeepsPlansSound (withLength n carry) := by
  intro s t payload k
  unfold withLength
  split
  · exact h s t payload k
  · exact k.reply t _ _

theorem loadPagesLength_keepsPlansSound {carry : State → Tag → List Byte → State} (h : KeepsPlansSound carry) :
    KeepsPlansSound (loadPagesLength carry) := by
  intro s t payload k
  unfold loadPagesLength
  split
  · exact h s t payload k
  · exact k.reply t _ _

theorem unlessBusy_keepsPlansSound {carry : State → Tag → List Byte → State} (h : KeepsPlansSound carry) :
    KeepsPlansSound (unlessBusy carry) := by
  intro s t payload k
  unfold unlessBusy
  split
  · exact h s t payload k
  · exact k.reply t _ _

/-- A port command reaches ports alone. -/
theorem onPort_keepsPlansSound {carry : State → Tag → List Byte → PortId → State}
    (h : ∀ (s : State) (t : Tag) (payload : List Byte) (p : PortId), (carry s t payload p).ps = s.ps) : KeepsPlansSound (onPort carry) := by
  refine keepsPlansSound_of_ps fun s t payload => ?_
  unfold onPort
  split
  · rw [h, State.clearAutoEnable_ps]
  · exact State.reply_ps s t _ _

theorem writeStaged_plansSound {s : State} (h : s.PlansSound) {b : Bank} (hb : b.Sound) (t : Tag) : (s.writeStaged b t).PlansSound :=
  (h.setStaged hb).reply t _ _

theorem loadWindow_keepsPlansSound : KeepsPlansSound State.loadWindow := by
  intro s t payload h
  unfold State.loadWindow
  split
  · next loadable => exact writeStaged_plansSound h (setWindow_sound (h.bank _) _ (loadableWindow_wellFormed loadable)) t
  · exact h.reply t _ _

theorem clearWindow_keepsPlansSound : KeepsPlansSound State.clearWindow := by
  intro s t payload h
  unfold State.clearWindow
  split
  · exact writeStaged_plansSound h (setWindow_sound (h.bank _) _ rfl) t
  · exact h.reply t _ _

theorem loadPages_keepsPlansSound : KeepsPlansSound State.loadPages := by
  intro s t payload h
  unfold State.loadPages
  simp only
  split
  · exact writeStaged_plansSound h (loadPages_sound _ (h.bank _) _ _) t
  · exact h.reply t _ _

theorem startPlanOp_keepsPlansSound (op : Tag → PlanOp) (c : HeldCommand) :
    KeepsPlansSound fun s t _ => s.startPlanOp (op t) t c :=
  fun _ t _ h => h.setOp (op t)

/-- The swap exchanges the roles of the banks and writes neither (R151). -/
theorem State.PlansSound.swap {s : State} (h : s.PlansSound) (escalated : Bool) : (s.swap escalated).PlansSound := by
  let s1 : State := { s with ps := { s.ps with active := s.ps.active.other, generation := s.ps.generation + 1, op := .idle } }
  have roles : s1.PlansSound := h
  have exchanged : s.exchange.ps = s1.ps := by simp [State.exchange, s1]
  refine roles.of_ps ?_
  unfold State.swap
  simp only
  split
  · rw [State.report_ps, State.report_ps, exchanged]
  · rw [State.report_ps, exchanged]

theorem switchPlan_keepsPlansSound : KeepsPlansSound State.switchPlan := by
  intro s t payload h
  have atOnce : (s.switchAtOnce t).PlansSound := (h.swap false).reply t _ _
  have drain (m : SwitchMode) (timer : Option Nat) : (s.startDrain m timer t).PlansSound := h
  unfold State.switchPlan
  split
  · split
    · exact atOnce
    · exact drain _ _
  · split
    · exact atOnce
    · exact drain _ _
  · exact h.reply t _ _

theorem setPlanTiming_keepsPlansSound : KeepsPlansSound State.setPlanTiming := by
  intro s t payload h
  have set (v : Nat) : ({ s with ps := { s.ps with drainTimeout := v } } : State).PlansSound := h
  unfold State.setPlanTiming
  simp only
  split
  · exact h.reply t _ _
  · exact (set _).reply t _ _

theorem clearCounters_keepsPlansSound : KeepsPlansSound State.clearCounters := by
  intro s t payload h
  have hits : s.clearHits.PlansSound := ⟨clearHits_sound h.1, clearHits_sound h.2⟩
  have ports {u : State} (k : u.PlansSound) : u.clearPortCounters.PlansSound := k
  unfold State.clearCounters
  split
  · exact hits.reply t _ _
  · exact (ports h).reply t _ _
  · exact (ports hits).reply t _ _
  · exact h.reply t _ _

theorem readWindow_ps (s : State) (t : Tag) (payload : List Byte) : (s.readWindow t payload).ps = s.ps := by
  unfold State.readWindow
  split
  all_goals exact State.reply_ps s t _ _

theorem readPage_ps (s : State) (t : Tag) (payload : List Byte) : (s.readPage t payload).ps = s.ps := by
  unfold State.readPage
  simp only
  split
  all_goals exact State.reply_ps s t _ _

theorem readPort_ps (due : List (BitVec 16)) (s : State) (t : Tag) (payload : List Byte) :
    (State.readPort due s t payload).ps = s.ps := by
  unfold State.readPort
  split
  all_goals exact State.reply_ps s t _ _

theorem enablePort_ps (s : State) (t : Tag) (payload : List Byte) (p : PortId) : (s.enablePort t payload p).ps = s.ps := by
  have enabled : (if s.pins.link.get p = true then (s.activate p).reply t .done [] else s.reply t .linkNotReady []).ps = s.ps := by
    split
    all_goals simp
  unfold State.enablePort
  split
  · exact State.reply_ps s t _ _
  · exact State.reply_ps s t _ _
  · exact State.reply_ps s t _ _
  · exact enabled
  · exact enabled

theorem disablePort_ps (order : Order) (s : State) (t : Tag) (payload : List Byte) (p : PortId) :
    (State.disablePort order s t payload p).ps = s.ps := by
  unfold State.disablePort
  split
  · exact State.reply_ps s t _ _
  all_goals exact (s.leaveService_carries p .disabled none [.reply t .done] order).ps

theorem parkPort_ps (s : State) (t : Tag) (payload : List Byte) (p : PortId) : (s.parkPort t payload p).ps = s.ps := by
  unfold State.parkPort
  split
  · split
    · exact State.reply_ps s t _ _
    · split
      · rw [State.reply_ps, State.park_ps]
      · exact State.reply_ps s t _ _
  all_goals exact State.reply_ps s t _ _

theorem setTimeouts_ps (s : State) (t : Tag) (payload : List Byte) (p : PortId) : (s.setTimeouts t payload p).ps = s.ps := by
  unfold State.setTimeouts
  simp only
  split
  · rw [State.reply_ps, State.settleIdle_ps, State.setPort_ps]
  · exact State.reply_ps s t _ _

theorem clearEvents_ps (s : State) (t : Tag) (payload : List Byte) : (s.clearEvents t payload).ps = s.ps := by
  unfold State.clearEvents
  simp only
  rw [State.reply_ps, strikesCleared_ps]

theorem setTimebase_ps (s : State) (t : Tag) (payload : List Byte) : (s.setTimebase t payload).ps = s.ps := by
  unfold State.setTimebase
  split
  · rw [State.reply_ps]
  · exact State.reply_ps s t _ _

theorem resetTraffic_ps (s : State) (t : Tag) : (s.resetTraffic t).ps = s.ps := by
  rw [State.resetTraffic, returnWaking_ps, State.requestAbort_ps, State.reply_ps]

/-- A RESET FULL abandons the operation, and leaves the banks to the start-up (R156, R172). -/
theorem State.PlansSound.resetFull {s : State} (h : s.PlansSound) (t : Tag) (sel : PlanSel) (credit : CreditPath) (o : FullOrder) :
    (s.resetFull t sel credit o).PlansSound := by
  rw [resetFull_eq]
  exact h

/-- The Control Unit takes a request, and then the packets that arrived behind it. -/
theorem takeRequest_plansSound (accepts : List Byte → Bool) {carry : State → Tag → List Byte → State} (h : KeepsPlansSound carry)
    {s : State} (k : s.PlansSound) : (s.takeRequest accepts carry).PlansSound := by
  have packets (frames : List (List Byte)) (u : State) : (frames.foldl State.arrive u).ps = u.ps := by
    induction frames generalizing u with
    | nil => rfl
    | cons f fs ih => exact (ih _).trans (arrive_ps u f)
  have taken : s.takeUp.PlansSound := k
  unfold State.takeRequest
  split
  · exact k
  · split
    · exact (h _ _ _ taken).of_ps (packets _ _)
    · exact k

/-! ### Resets and start-up -/

theorem execStartUp_plansSound (sel : PlanSel) {s : State} (h : s.PlansSound) :
    ∃ t, execStartUp sel s = .next t ∧ t.PlansSound := by
  refine ⟨_, rfl, ?_⟩
  split
  · exact ⟨cleared_sound, cleared_sound⟩
  · exact ⟨cleared_sound, cleared_sound⟩
  · split
    · exact ⟨cleared_sound, cleared_sound⟩
    · exact h

theorem passWindow_wellFormed : (WindowEntry.loaded passWindow).wellFormed = true := by decide

/-- The start plan is loaded into bank A, if there is one to load (R192). -/
theorem State.PlansSound.loadStartPlan {s : State} (h : s.PlansSound) : s.loadStartPlan.PlansSound := by
  cases plan : s.rs.sample with
  | empty =>
    rw [loadStartPlan_empty plan]
    exact h
  | pass =>
    have loaded : s.passBank.PlansSound := h.setBank .a (setWindow_sound h.1 0 passWindow_wellFormed)
    exact loaded.of_ps (loadStartPlan_ps_of_pass plan)

theorem State.PlansSound.startValues {s : State} (h : s.PlansSound) : s.startValues.PlansSound := by
  let values : State := { s with
    ports := .replicate 8 .startUp, eu := .startUp, tb := { exponent := Config.exponent, pendingExponent := none }
    ps := { s.ps with active := .a, generation := 0, op := .idle, drainTimeout := Config.drainTimeout } }
  have set : values.PlansSound := h
  exact set.of_ps (State.openGate_ps values)

theorem execStartUpComplete_plansSound {s : State} (h : s.PlansSound) :
    ∃ t, execStartUpComplete s = .next t ∧ t.PlansSound := by
  refine ⟨_, rfl, ?_⟩
  split
  · exact h.startValues.loadStartPlan.of_ps (startedUp_ps s)
  · exact h

/-! ### The link -/

theorem execCarrierGained_ps (s : State) : ∃ t, execCarrierGained s = .next t ∧ t.ps = s.ps := by
  refine ⟨_, rfl, ?_⟩
  split
  · rfl
  · rw [State.settleLink_ps]

theorem execCarrierLost_ps (s : State) : ∃ t, execCarrierLost s = .next t ∧ t.ps = s.ps := by
  refine ⟨_, rfl, ?_⟩
  split
  all_goals rfl

theorem execLinkLossIq_ps (s : State) : ∃ t, execLinkLossIq s = .next t ∧ t.ps = s.ps := by
  refine ⟨_, rfl, ?_⟩
  split
  all_goals rfl

/-- The operation in progress owes no reply any more; the banks stay (R155). -/
theorem execLinkLossPlanStore_plansSound {s : State} (h : s.PlansSound) :
    ∃ t, execLinkLossPlanStore s = .next t ∧ t.PlansSound := by
  refine ⟨_, rfl, ?_⟩
  split
  · exact (h.setOp s.ps.op.oweNothing).of_ps (by rw [State.settleLink_ps])
  · exact h

theorem execLinkLossControlUnit_ps (s : State) : ∃ t, execLinkLossControlUnit s = .next t ∧ t.ps = s.ps := by
  refine ⟨_, rfl, ?_⟩
  split
  · rw [State.settleLink_ps]
  · rfl

theorem execLinkLossPorts_ps (s : State) : ∃ t, execLinkLossPorts s = .next t ∧ t.ps = s.ps := by
  refine ⟨_, rfl, ?_⟩
  split
  · rw [State.settleLink_ps]
    exact returnWaking_ps s
  · rfl

theorem execPacketArrival_ps (frame : List Byte) (s : State) : ∃ t, execPacketArrival frame s = .next t ∧ t.ps = s.ps := by
  refine ⟨_, rfl, ?_⟩
  split
  · rfl
  · exact arrive_ps s frame

theorem execCreditReturn_ps (s : State) : ∃ t, execCreditReturn s = .next t ∧ t.ps = s.ps := by
  refine ⟨_, rfl, ?_⟩
  split
  all_goals rfl

theorem execTransmitDone_ps (s : State) : ∃ t, execTransmitDone s = .next t ∧ t.ps = s.ps := by
  refine ⟨_, rfl, ?_⟩
  split
  all_goals rfl

theorem execHeadAttempt_ps (k : Nat) (credit : CreditPath) (s : State) : ∃ t, execHeadAttempt k credit s = .next t ∧ t.ps = s.ps := by
  refine ⟨_, rfl, ?_⟩
  split
  · rfl
  · split
    · rfl
    · simp only
      split
      · exact attempt_ps _ credit
      · rfl

theorem execHeldReplyRelease_ps (k : Nat) (s : State) : ∃ t, execHeldReplyRelease k s = .next t ∧ t.ps = s.ps := by
  refine ⟨_, rfl, ?_⟩
  split
  · rfl
  · simp only
    split
    · rw [State.reply_ps]
    · rfl

/-! ### Ports, events and time -/

theorem execTargetResponse_ps (p : PortId) (f : TargetFrame) (s : State) : ∃ t, execTargetResponse p f s = .next t ∧ t.ps = s.ps := by
  obtain ⟨t, done, carries⟩ := execTargetResponse_carries p f s
  exact ⟨t, done, carries.ps⟩

theorem execDeadlineExpiry_ps (p : PortId) (i : SlotId) (o : Order) (s : State) :
    ∃ t, execDeadlineExpiry p i o s = .next t ∧ t.ps = s.ps := by
  refine ⟨_, rfl, ?_⟩
  split
  · rw [strikeDeadline_ps, State.setSlot_ps]
  · rw [strikeDeadline_ps, State.setSlot_ps]
  all_goals rfl

theorem execIdleTimeout_ps (p : PortId) (s : State) : ∃ t, execIdleTimeout p s = .next t ∧ t.ps = s.ps := by
  refine ⟨_, rfl, ?_⟩
  split
  · exact State.park_ps s p
  · rfl

theorem execWakeTimeout_ps (p : PortId) (o : Order) (s : State) : ∃ t, execWakeTimeout p o s = .next t ∧ t.ps = s.ps := by
  refine ⟨_, rfl, ?_⟩
  split
  · simp only
    split
    · rw [(State.quarantine_carries _ p _ [] o).ps, State.countTimeout_ps]
    · rw [failWake_ps, State.countTimeout_ps]
  · rfl

theorem execTargetLinkUp_ps (p : PortId) (s : State) : ∃ t, execTargetLinkUp p s = .next t ∧ t.ps = s.ps := by
  refine ⟨_, rfl, ?_⟩
  split
  · rfl
  · split
    · rfl
    · rw [(State.linkUp_carries _ p).ps, State.setLink_ps]

theorem execTargetLinkDown_ps (p : PortId) (o : Order) (s : State) : ∃ t, execTargetLinkDown p o s = .next t ∧ t.ps = s.ps := by
  refine ⟨_, rfl, ?_⟩
  split
  · rw [(State.linkDown_carries _ p o).ps, State.setLink_ps]
  · rfl

theorem execEventOccurrence_ps (k : Nat) (s : State) : ∃ t, execEventOccurrence k s = .next t ∧ t.ps = s.ps := by
  refine ⟨_, rfl, ?_⟩
  split
  all_goals rfl

theorem execHoldoffExpiry_ps (s : State) : ∃ t, execHoldoffExpiry s = .next t ∧ t.ps = s.ps := by
  refine ⟨_, rfl, ?_⟩
  split
  all_goals rfl

/-- A tick reaches the drain timer alone (R187). -/
theorem execTickBoundary_plansSound {s : State} (h : s.PlansSound) : ∃ t, execTickBoundary s = .next t ∧ t.PlansSound := by
  refine ⟨_, rfl, ?_⟩
  split
  all_goals exact h

theorem execDrainTimeout_plansSound {s : State} (h : s.PlansSound) : ∃ t, execDrainTimeout s = .next t ∧ t.PlansSound := by
  refine ⟨_, rfl, ?_⟩
  split
  all_goals exact h

/-! ### The OTT and the Plan Store -/

theorem execOttAbort_ps (r : AbortTaking) (s : State) : ∃ t, execOttAbort r s = .next t ∧ t.ps = s.ps := by
  refine ⟨_, rfl, ?_⟩
  split
  · rfl
  · rw [abortTaken_ps, (State.abort_carries _ r.order).ps]

/-- The end of a drain is a swap (R149). -/
theorem State.PlansSound.endDrain {s : State} (h : s.PlansSound) (escalated owed : Bool) (t : Tag) :
    (s.endDrain escalated owed t).PlansSound := (h.swap escalated).of_ps (State.reportEnd_ps _ owed t _ _)

theorem execOttEmptyReport_plansSound {s : State} (h : s.PlansSound) :
    ∃ t, execOttEmptyReport s = .next t ∧ t.PlansSound := by
  let s1 : State := { s with mail := { s.mail with emptyReports := s.mail.emptyReports - 1 } }
  have taken : s1.PlansSound := h
  refine ⟨_, rfl, ?_⟩
  split
  · exact h
  · simp only
    split
    · split
      · exact (taken.endDrain _ _ _).of_ps (State.settleLink_ps _)
      · exact taken
    all_goals exact taken

theorem execHitReport_plansSound (k : Nat) {s : State} (h : s.PlansSound) : ∃ t, execHitReport k s = .next t ∧ t.PlansSound := by
  refine ⟨_, rfl, ?_⟩
  split
  · exact h
  · exact h.setBank _ (hit_sound (h.bank _) _)

/-- The last step of a copy or clear ends the operation and writes no more. -/
theorem State.PlansSound.finishPlanOp {s : State} (h : s.PlansSound) (owed : Bool) (t : Tag) : (s.finishPlanOp owed t).PlansSound :=
  (h.setOp .idle).of_ps (State.reportEnd_ps _ owed t .done [])

theorem execCopyStep_plansSound {s : State} (h : s.PlansSound) : ∃ t, execCopyStep s = .next t ∧ t.PlansSound := by
  have copied (k : Fin 288) := h.setStaged (copyEntry_sound (h.bank s.ps.active) (h.bank s.ps.active.other) k)
  refine ⟨_, rfl, ?_⟩
  split
  · next k owed t _ =>
    simp only
    split
    · exact (copied k).setOp _
    · exact (copied k).finishPlanOp owed t
  · exact h

theorem execClearStep_plansSound {s : State} (h : s.PlansSound) : ∃ t, execClearStep s = .next t ∧ t.PlansSound := by
  have cleared (k : Fin 288) := h.setStaged (clearEntry_sound (h.bank s.ps.active.other) k)
  refine ⟨_, rfl, ?_⟩
  split
  · next k owed t _ =>
    simp only
    split
    · exact (cleared k).setOp _
    · exact (cleared k).finishPlanOp owed t
  · exact h

/-! ### Every step -/

/-- A command that leaves the Plan Store alone keeps the plans sound. -/
theorem State.PlansSound.kept {s : State} (h : s.PlansSound) {o : Host.Outcome State Fault Refusal}
    (k : ∃ t, o = .next t ∧ t.ps = s.ps) : ∃ t, o = .next t ∧ t.PlansSound := by
  obtain ⟨t, done, same⟩ := k
  exact ⟨t, done, h.of_ps same⟩

/-- A control request keeps the plans sound, if its meaning does. -/
theorem request_plansSound {c : Instr} (accepts : List Byte → Bool) {carry : State → Tag → List Byte → State} (h : KeepsPlansSound carry)
    (he : ∀ s : State, exec c s = .next (s.takeRequest accepts carry)) {s : State} (k : s.PlansSound) :
    ∃ t, exec c s = .next t ∧ t.PlansSound :=
  ⟨_, he s, takeRequest_plansSound accepts h k⟩

/-- Every command keeps both plans sound: most leave the Plan Store alone, and the others write to a bank only what is sound. -/
theorem exec_plansSound (c : Instr) {s : State} (h : s.PlansSound) : ∃ t, exec c s = .next t ∧ t.PlansSound := by
  have replies (st : Status) (contents : State → List Byte) : KeepsPlansSound fun s t _ => s.reply t st (contents s) :=
    fun _ t _ k => k.reply t st _
  have apart (n : Nat) {carry : State → Tag → List Byte → State}
      (k : ∀ (s : State) (t : Tag) (payload : List Byte), (carry s t payload).ps = s.ps) : KeepsPlansSound (withLength n carry) :=
    withLength_keepsPlansSound n (keepsPlansSound_of_ps k)
  have plan (n : Nat) {carry : State → Tag → List Byte → State} (k : KeepsPlansSound carry) :
      KeepsPlansSound (withLength n (unlessBusy carry)) := withLength_keepsPlansSound n (unlessBusy_keepsPlansSound k)
  have port (n : Nat) {carry : State → Tag → List Byte → PortId → State}
      (k : ∀ (s : State) (t : Tag) (payload : List Byte) (p : PortId), (carry s t payload p).ps = s.ps) :
      KeepsPlansSound (withLength n (onPort carry)) := withLength_keepsPlansSound n (onPort_keepsPlansSound k)
  have events (n : Nat) (eu : EventUnit → List Byte → EventUnit) :
      KeepsPlansSound (withLength n fun s t payload => ({ s with eu := eu s.eu payload } : State).reply t .done []) :=
    apart n fun _ _ _ => State.reply_ps _ _ _ _
  cases c with
  | powerOn => exact ⟨_, rfl, h⟩
  | resetNAssert => exact ⟨_, rfl, h⟩
  | startUp sel => exact execStartUp_plansSound sel h
  | startUpComplete => exact execStartUpComplete_plansSound h
  | carrierGained => exact h.kept (execCarrierGained_ps s)
  | carrierLost => exact h.kept (execCarrierLost_ps s)
  | linkLossIq => exact h.kept (execLinkLossIq_ps s)
  | linkLossPlanStore => exact execLinkLossPlanStore_plansSound h
  | linkLossControlUnit => exact h.kept (execLinkLossControlUnit_ps s)
  | linkLossPorts => exact h.kept (execLinkLossPorts_ps s)
  | packetArrival frame => exact h.kept (execPacketArrival_ps frame s)
  | packetDiscardNotUp frame => exact ⟨s, rfl, h⟩
  | creditReturn => exact h.kept (execCreditReturn_ps s)
  | transmitDone => exact h.kept (execTransmitDone_ps s)
  | headAttempt k credit => exact h.kept (execHeadAttempt_ps k credit s)
  | hitReport k => exact execHitReport_plansSound k h
  | eventOccurrence k => exact h.kept (execEventOccurrence_ps k s)
  | targetResponse p f => exact h.kept (execTargetResponse_ps p f s)
  | deadlineExpiry p i o => exact h.kept (execDeadlineExpiry_ps p i o s)
  | idleTimeout p => exact h.kept (execIdleTimeout_ps p s)
  | wakeTimeout p o => exact h.kept (execWakeTimeout_ps p o s)
  | targetLinkUp p => exact h.kept (execTargetLinkUp_ps p s)
  | targetLinkDown p o => exact h.kept (execTargetLinkDown_ps p o s)
  | tickBoundary => exact execTickBoundary_plansSound h
  | holdoffExpiry => exact h.kept (execHoldoffExpiry_ps s)
  | drainTimeout => exact execDrainTimeout_plansSound h
  | ottAbort r => exact h.kept (execOttAbort_ps r s)
  | ottEmptyReport => exact execOttEmptyReport_plansSound h
  | copyStep => exact execCopyStep_plansSound h
  | clearStep => exact execClearStep_plansSound h
  | heldReplyRelease k => exact h.kept (execHeldReplyRelease_ps k s)
  | resetTraffic =>
    refine request_plansSound _ (fun s t payload k => ?_) (fun _ => rfl) h
    split
    · exact k.of_ps (resetTraffic_ps s t)
    · exact k.reply t _ _
  | resetFull sel credit o =>
    refine request_plansSound _ (fun s t payload k => ?_) (fun _ => rfl) h
    split
    · exact k.resetFull t sel credit o
    · exact k.reply t _ _
  | readStatus => exact request_plansSound _ (withLength_keepsPlansSound 1 (replies _ _)) (fun _ => rfl) h
  | readWindow => exact request_plansSound _ (apart 3 readWindow_ps) (fun _ => rfl) h
  | readPage => exact request_plansSound _ (apart 4 readPage_ps) (fun _ => rfl) h
  | readPort due => exact request_plansSound _ (apart 2 (readPort_ps due)) (fun _ => rfl) h
  | readEvents => exact request_plansSound _ (withLength_keepsPlansSound 1 (replies _ _)) (fun _ => rfl) h
  | readResetCause => exact request_plansSound _ (withLength_keepsPlansSound 1 (replies _ _)) (fun _ => rfl) h
  | clearCounters => exact request_plansSound _ (withLength_keepsPlansSound 2 clearCounters_keepsPlansSound) (fun _ => rfl) h
  | loadWindow => exact request_plansSound _ (plan 34 loadWindow_keepsPlansSound) (fun _ => rfl) h
  | clearWindow => exact request_plansSound _ (plan 2 clearWindow_keepsPlansSound) (fun _ => rfl) h
  | loadPages =>
    exact request_plansSound _ (loadPagesLength_keepsPlansSound (unlessBusy_keepsPlansSound loadPages_keepsPlansSound))
      (fun _ => rfl) h
  | copyPlan => exact request_plansSound _ (plan 1 (startPlanOp_keepsPlansSound (.copying 0 true) .copyPlan)) (fun _ => rfl) h
  | clearPlan => exact request_plansSound _ (plan 1 (startPlanOp_keepsPlansSound (.clearing 0 true) .clearPlan)) (fun _ => rfl) h
  | switchPlanDrain => exact request_plansSound _ (plan 2 switchPlan_keepsPlansSound) (fun _ => rfl) h
  | switchPlanForce => exact request_plansSound _ (plan 2 switchPlan_keepsPlansSound) (fun _ => rfl) h
  | setPlanTiming => exact request_plansSound _ (withLength_keepsPlansSound 3 setPlanTiming_keepsPlansSound) (fun _ => rfl) h
  | portEnable => exact request_plansSound _ (port 2 enablePort_ps) (fun _ => rfl) h
  | portDisable o => exact request_plansSound _ (port 2 (disablePort_ps o)) (fun _ => rfl) h
  | parkPort => exact request_plansSound _ (port 2 parkPort_ps) (fun _ => rfl) h
  | setPort => exact request_plansSound _ (port 8 setTimeouts_ps) (fun _ => rfl) h
  | setEventEnables =>
    exact request_plansSound _ (events 3 fun eu payload => { eu with enables := eventField payload &&& enableBits }) (fun _ => rfl) h
  | clearEvents => exact request_plansSound _ (apart 5 clearEvents_ps) (fun _ => rfl) h
  | setHoldoff => exact request_plansSound _ (events 2 fun eu payload => { eu with holdoffSetting := byteAt payload 1 }) (fun _ => rfl) h
  | setTimebase => exact request_plansSound _ (apart 2 setTimebase_ps) (fun _ => rfl) h
  | unknownCommand => exact request_plansSound _ (replies _ _) (fun _ => rfl) h

/-- Settles O7: the queue is apart from the plans, and each command keeps them sound. -/
theorem stepKeepsPlansSound : Obligations.StepKeepsPlansSound := by
  unfold Obligations.StepKeepsPlansSound
  intro s t sound h
  unfold step at h
  split at h
  · cases h
    exact sound
  · next c rest _ =>
    have queued : ({ s with pending := rest } : State).PlansSound := sound
    obtain ⟨u, done, kept⟩ := exec_plansSound c queued
    rw [done] at h
    cases h
    exact kept

end Sys2Proof.Machine
end

section
/-! PROOFS. Mode resolution: the copies that each mode gives by the ports in service, and the range that its translation keeps
to. -/

namespace Sys2Proof.Machine

section Modes

variable {s : State} {w : Window} {kind : MemKind} {a : Addr}

/-! ### The modes (R58) -/

theorem resolve_direct {p : PortId} {base : UnitNo} {f : Option PortId} (hm : w.mode = .direct p base f) :
    s.resolve w kind a = s.resolveDirect p f (targetAt base (w.offset a)) := by
  simp only [State.resolve, hm]

theorem resolve_paged {start : PageIx} {count : Nat} (hm : w.mode = .paged start count) :
    s.resolve w kind a = s.resolvePaged start (w.offset a) := by
  simp only [State.resolve, hm]

theorem resolve_interleaved {ms : List PortId} {st : Stride} {base : UnitNo} (hm : w.mode = .interleaved ms st base) :
    s.resolve w kind a = s.resolveInterleaved ms st base (w.offset a) := by
  simp only [State.resolve, hm]

theorem resolve_mirroredWrite {ms : List PortId} {base : UnitNo} (hm : w.mode = .mirrored ms base) :
    s.resolve w .write a = s.resolveMirrorWrite ms (targetAt base (w.offset a)) := by
  simp only [State.resolve, hm]

theorem resolve_mirroredRead {ms : List PortId} {base : UnitNo} (hm : w.mode = .mirrored ms base) :
    s.resolve w .read a = s.resolveMirrorRead ms (targetAt base (w.offset a)) := by
  simp only [State.resolve, hm]

/-! ### DIRECT (R61) -/

theorem resolveDirect_port {p : PortId} (f : Option PortId) (target : Addr) (up : s.serves p = true) :
    s.resolveDirect p f target = singleCopy p target :=
  if_pos up

theorem resolveDirect_fallback {p q : PortId} (target : Addr) (down : s.serves p = false) (up : s.serves q = true) :
    s.resolveDirect p (some q) target = singleCopy q target := by
  simp [State.resolveDirect, down, up]

theorem resolveDirect_down {p : PortId} {f : Option PortId} (target : Addr) (down : s.serves p = false)
    (none_up : ∀ q, f = some q → s.serves q = false) : s.resolveDirect p f target = .portDown := by
  cases f with
  | none => simp [State.resolveDirect, down]
  | some q => simp [State.resolveDirect, down, none_up q rfl]

/-! ### PAGED (R66) -/

/-- An index that the page table has is taken as it is. -/
theorem pageIndex_eq {n : Nat} {i : PageIx} (h : i.val = n) : pageIndex n = i :=
  Fin.ext (h ▸ Nat.mod_eq_of_lt i.isLt)

theorem resolvePaged_absent {start i : PageIx} {offset : Nat} (hi : i.val = start.val + offset / Config.pageBytes)
    (absent : s.ps.activeBank.pages.get i = .absent) : s.resolvePaged start offset = .notMapped := by
  rw [State.resolvePaged, pageIndex_eq hi, absent]

/-- A PRESENT page entry names the one port, whose service alone decides. -/
theorem resolvePaged_present {start i : PageIx} {offset : Nat} (hi : i.val = start.val + offset / Config.pageBytes) {p : PortId}
    {page : PageNo} (present : s.ps.activeBank.pages.get i = .present p page) :
    s.resolvePaged start offset =
      if s.serves p then singleCopy p (BitVec.ofNat 36 (page.toNat * 16384 + offset % 16384)) else .portDown := by
  rw [State.resolvePaged, pageIndex_eq hi, present]
  rfl

/-! ### INTERLEAVED (R70, R71) -/

/-- The member of the block is the one port, whose service alone decides. -/
theorem resolveInterleaved_member {ms : List PortId} {st : Stride} (base : UnitNo) {offset : Nat} {p : PortId}
    (hp : ms[offset / st.bytes % ms.length]? = some p) :
    s.resolveInterleaved ms st base offset =
      if s.serves p then singleCopy p (targetAt base (offset / st.bytes / ms.length * st.bytes + offset % st.bytes))
      else .portDown := by
  simp only [State.resolveInterleaved, hp]

/-! ### MIRRORED (R73, R74) -/

/-- A member stands in the list at its position. -/
theorem mem_memberList {ms : List PortId} {m : PortId × Nat} (h : m ∈ memberList ms) : ms[m.2]? = some m.1 :=
  List.mk_mem_zipIdx_iff_getElem?.mp h

/-- In a list of at most four members a member's place is its position. -/
theorem position_of_place {ms : List PortId} (few : ms.length ≤ 4) {n : Nat} {p : PortId} (place : ms[n]? = some p) :
    (memberPosition n).val = n :=
  Nat.mod_eq_of_lt (Nat.lt_of_lt_of_le (List.getElem?_eq_some_iff.mp place).1 few)

/-- The members in service, with their positions left off. -/
theorem serving_ports (s : State) (ms : List PortId) :
    ((memberList ms).filter fun m => s.serves m.1).map (·.1) = ms.filter s.serves := by
  rw [← Function.comp_def s.serves, ← List.filter_map, memberList, List.zipIdx_map_fst]

theorem resolveMirrorWrite_down {ms : List PortId} (target : Addr) (down : ∀ p ∈ ms, s.serves p = false) :
    s.resolveMirrorWrite ms target = .portDown := by
  have none_serves : (memberList ms).filter (fun m => s.serves m.1) = [] := by
    rw [← List.map_eq_nil_iff, serving_ports]
    simpa using down
  rw [State.resolveMirrorWrite, none_serves]

theorem resolveMirrorWrite_up {ms : List PortId} (target : Addr) (up : ∃ p ∈ ms, s.serves p = true) :
    s.resolveMirrorWrite ms target =
      .copies .mirrorWrite (((memberList ms).filter fun m => s.serves m.1).map (mirrorCopy target))
        (ms.filter fun p => !s.serves p) := by
  rw [State.resolveMirrorWrite]
  split
  · next none_serves =>
    rw [← List.map_eq_nil_iff, serving_ports] at none_serves
    obtain ⟨p, member, serves⟩ := up
    exact absurd serves (List.filter_eq_nil_iff.mp none_serves p member)
  · next serving =>
    rw [serving]

theorem resolveMirrorRead_down {ms : List PortId} (target : Addr) (down : ∀ p ∈ ms, s.serves p = false) :
    s.resolveMirrorRead ms target = .portDown := by
  have none_serves : (memberList ms).find? (fun m => s.serves m.1) = none :=
    List.find?_eq_none.mpr fun m hm => by simp [down m.1 (List.mem_of_getElem? (mem_memberList hm))]
  rw [State.resolveMirrorRead, none_serves]

/-- A read goes to the member in service at the lowest position. -/
theorem resolveMirrorRead_up {ms : List PortId} (target : Addr) (up : ∃ p ∈ ms, s.serves p = true) :
    ∃ n p, ms[n]? = some p ∧ s.serves p = true ∧ (∀ q ∈ ms.take n, s.serves q = false)
      ∧ s.resolveMirrorRead ms target = .copies .mirrorRead [mirrorCopy target (p, n)] [] := by
  cases found : (memberList ms).find? fun m => s.serves m.1 with
  | none =>
    obtain ⟨p, member, serves⟩ := up
    obtain ⟨n, place⟩ := List.getElem?_of_mem member
    exact absurd serves (List.find?_eq_none.mp found _ (List.mk_mem_zipIdx_iff_getElem?.mpr place))
  | some m =>
    obtain ⟨serves, n, bound, here, before⟩ := List.find?_eq_some_iff_getElem.mp found
    have place : m = (ms[n]'(by simpa [memberList] using bound), n) := by simpa [memberList] using here.symm
    refine ⟨m.2, m.1, mem_memberList (List.mem_of_find?_eq_some found), serves, fun q hq => ?_, ?_⟩
    · rw [place] at hq
      obtain ⟨j, hj, rfl⟩ := List.mem_take_iff_getElem.mp hq
      simpa [memberList] using before j (by omega)
    · rw [State.resolveMirrorRead, found]

/-! ### The window offset (R59) -/

/-- The masked address of a window that contains it is its base and the offset. -/
theorem maskedAddr_eq_base_add_offset (h : w.contains a = true) :
    (w.maskedAddr a).toNat = w.base.toNat * 4096 + w.offset a := by
  have unit : w.base.toNat ≤ (w.maskedAddr a).toNat / 4096 := by
    rw [← unitOf_toNat, unitOf_maskedAddr]
    exact ((contains_iff w a).mp h).1
  simp only [Window.offset, Config.unitBytes]
  omega

/-- The offset lies within the window. -/
theorem offset_lt_size (h : w.contains a = true) : w.offset a < w.size := by
  have unit : (w.maskedAddr a).toNat / 4096 ≤ w.limit.toNat := by
    rw [← unitOf_toNat, unitOf_maskedAddr]
    exact ((contains_iff w a).mp h).2
  have sum := maskedAddr_eq_base_add_offset h
  simp only [Window.size, Config.unitBytes]
  omega

/-! ### The target of each copy (R58) -/

variable {cls : ModeClass} {cs : List Copy} {skipped : List PortId}

/-- A SINGLE request has one copy. -/
theorem copy_of_single {p : PortId} {target : Addr} (h : singleCopy p target = .copies cls cs skipped) {c : Copy}
    (hc : c ∈ cs) : c.port = p ∧ c.target = target := by
  cases h
  cases List.mem_singleton.mp hc
  exact ⟨rfl, rfl⟩

/-- The port or the fallback, at the same target address (R61). -/
theorem target_of_direct {p : PortId} {f : Option PortId} {target : Addr}
    (h : s.resolveDirect p f target = .copies cls cs skipped) {c : Copy} (hc : c ∈ cs) : c.target = target := by
  unfold State.resolveDirect at h
  split at h
  · exact (copy_of_single h hc).2
  · split at h
    · split at h
      · exact (copy_of_single h hc).2
      · cases h
    · cases h

/-- The page that the PRESENT entry names (R66). -/
theorem target_of_paged {start i : PageIx} {offset : Nat} (hi : i.val = start.val + offset / Config.pageBytes)
    (h : s.resolvePaged start offset = .copies cls cs skipped) {c : Copy} (hc : c ∈ cs) :
    ∃ page, s.ps.activeBank.pages.get i = .present c.port page
      ∧ c.target = BitVec.ofNat 36 (page.toNat * 16384 + offset % 16384) := by
  cases entry : s.ps.activeBank.pages.get i with
  | absent =>
    rw [resolvePaged_absent hi entry] at h
    cases h
  | present p page =>
    rw [resolvePaged_present hi entry] at h
    split at h
    · obtain ⟨port, target⟩ := copy_of_single h hc
      exact ⟨page, by rw [port], target⟩
    · cases h

/-- The block's place in its member's share (R70). -/
theorem target_of_interleaved {ms : List PortId} {st : Stride} {base : UnitNo} {offset : Nat}
    (h : s.resolveInterleaved ms st base offset = .copies cls cs skipped) {c : Copy} (hc : c ∈ cs) :
    c.target = targetAt base (offset / st.bytes / ms.length * st.bytes + offset % st.bytes) := by
  cases member : ms[offset / st.bytes % ms.length]? with
  | none =>
    simp only [State.resolveInterleaved, member] at h
    cases h
  | some p =>
    rw [resolveInterleaved_member base member] at h
    split at h
    · exact (copy_of_single h hc).2
    · cases h

/-- Every member has the same target address (R73). -/
theorem target_of_mirrored {ms : List PortId} {base : UnitNo} (hm : w.mode = .mirrored ms base)
    (h : s.resolve w kind a = .copies cls cs skipped) {c : Copy} (hc : c ∈ cs) : c.target = targetAt base (w.offset a) := by
  by_cases up : ∃ p ∈ ms, s.serves p = true
  · cases kind with
    | write =>
      rw [resolve_mirroredWrite hm, resolveMirrorWrite_up _ up] at h
      cases h
      obtain ⟨m, -, rfl⟩ := List.mem_map.mp hc
      rfl
    | read =>
      obtain ⟨n, p, -, -, -, resolved⟩ := resolveMirrorRead_up (targetAt base (w.offset a)) up
      rw [resolve_mirroredRead hm, resolved] at h
      cases h
      cases List.mem_singleton.mp hc
      rfl
  · have down : ∀ p ∈ ms, s.serves p = false := by simpa using up
    cases kind with
    | write =>
      rw [resolve_mirroredWrite hm, resolveMirrorWrite_down _ down] at h
      cases h
    | read =>
      rw [resolve_mirroredRead hm, resolveMirrorRead_down _ down] at h
      cases h

/-! ### The target address space (R78) -/

/-- A target address within a range that fits is the sum itself. -/
theorem targetAt_toNat {base : UnitNo} {size offset : Nat} (fits : rangeFits base size = true) (within : offset < size) :
    (targetAt base offset).toNat = base.toNat * 4096 + offset := by
  have last := (rangeFits_iff base size).mp fits
  have sum : base.toNat * Config.unitBytes + offset < 2 ^ 36 := by
    simp only [Config.unitBytes]
    omega
  exact Nat.mod_eq_of_lt sum

/-- Every page lies within the target address space (R64). -/
theorem page_toNat (page : PageNo) (offset : Nat) :
    (BitVec.ofNat 36 (page.toNat * 16384 + offset % 16384)).toNat = page.toNat * 16384 + offset % 16384 := by
  have := page.isLt
  exact Nat.mod_eq_of_lt (by omega)

/-- The places of a window's blocks in a share lie within the share, which is the window's size divided by the member count
(R70). -/
theorem share_lt {offset size stride n : Nat} (pos : 0 < stride) (within : offset < size) (whole : size % (stride * n) = 0) :
    offset / stride / n * stride + offset % stride < size / n := by
  obtain ⟨rounds, rfl⟩ := Nat.dvd_of_mod_eq_zero whole
  have round : offset / stride / n < rounds := by
    rw [Nat.div_div_eq_div_mul]
    exact Nat.div_lt_of_lt_mul within
  have members : 0 < n := Nat.pos_of_ne_zero fun nobody => by simp [nobody] at within
  have share : stride * n * rounds / n = rounds * stride := by
    rw [Nat.mul_right_comm, Nat.mul_div_cancel _ members, Nat.mul_comm]
  calc offset / stride / n * stride + offset % stride
    _ < offset / stride / n * stride + stride := Nat.add_lt_add_left (Nat.mod_lt _ pos) _
    _ = (offset / stride / n + 1) * stride := (Nat.succ_mul _ _).symm
    _ ≤ rounds * stride := Nat.mul_le_mul_right _ round
    _ = stride * n * rounds / n := share.symm

theorem Stride.bytes_pos (st : Stride) : 0 < st.bytes := by
  cases st <;> decide

/-- A well-formed window meets the conditions of its mode. -/
theorem mode_wellFormed (formed : w.wellFormed = true) {m : Mode} (hm : w.mode = m) : m.wellFormed w = true := by
  rw [Window.wellFormed, Bool.and_eq_true] at formed
  obtain ⟨-, conditions⟩ := formed
  exact hm ▸ conditions

theorem direct_fits {p : PortId} {base : UnitNo} {f : Option PortId} (h : (Mode.direct p base f).wellFormed w = true) :
    rangeFits base w.size = true := by
  rw [Mode.wellFormed, Bool.and_eq_true] at h
  exact h.2

/-- The pages of a window stand in the page table (R68). -/
theorem paged_index_lt {start : PageIx} {count offset : Nat} (h : (Mode.paged start count).wellFormed w = true)
    (within : offset < w.size) : start.val + offset / Config.pageBytes < 256 := by
  rw [Mode.wellFormed, Bool.and_eq_true, Bool.and_eq_true, decide_eq_true_iff, decide_eq_true_iff] at h
  obtain ⟨⟨-, entries⟩, pages⟩ := h
  have page : offset / Config.pageBytes < count :=
    Nat.div_lt_of_lt_mul (Nat.mul_comm _ _ ▸ Nat.lt_of_lt_of_le within pages)
  omega

theorem interleaved_fits {ms : List PortId} {st : Stride} {base : UnitNo}
    (h : (Mode.interleaved ms st base).wellFormed w = true) :
    w.size % (st.bytes * ms.length) = 0 ∧ rangeFits base (w.size / ms.length) = true := by
  rw [Mode.wellFormed, Bool.and_eq_true, Bool.and_eq_true, beq_iff_eq] at h
  obtain ⟨⟨-, whole⟩, fits⟩ := h
  exact ⟨whole, fits⟩

theorem mirrored_fits {ms : List PortId} {base : UnitNo} (h : (Mode.mirrored ms base).wellFormed w = true) :
    rangeFits base w.size = true := by
  rw [Mode.wellFormed, Bool.and_eq_true] at h
  exact h.2

end Modes

/-! ### What mode resolution ends in (R61, R66, R70, R73, R78) -/

/-- Settles O29: the window's port is asked first, and the fallback only where it is present and that port is out of service. -/
theorem directResolution : Obligations.DirectResolution := by
  unfold Obligations.DirectResolution
  intro s w kind a p base f hm
  rw [resolve_direct hm]
  refine ⟨fun up => resolveDirect_port f _ up, fun down q hf up => ?_, fun down hf => resolveDirect_down _ down fun q hq => ?_⟩
  · subst hf
    exact resolveDirect_fallback _ down up
  · rcases hf with absent | ⟨r, present, out⟩
    · rw [absent] at hq
      cases hq
    · rw [present] at hq
      cases hq
      exact out

/-- Settles O30: the page entry is read before any port is asked. -/
theorem pagedResolution : Obligations.PagedResolution := by
  unfold Obligations.PagedResolution
  intro s w kind a start count i hm hi
  rw [resolve_paged hm]
  refine ⟨resolvePaged_absent hi, fun p page present => ?_⟩
  rw [resolvePaged_present hi present]
  exact ⟨fun up => if_pos up, fun down => if_neg (ne_true_of_eq_false down)⟩

/-- Settles O31: no port but the member of the block is asked. -/
theorem interleavedResolution : Obligations.InterleavedResolution := by
  unfold Obligations.InterleavedResolution
  intro s w kind a ms st base p hm hp
  rw [resolve_interleaved hm, resolveInterleaved_member base hp]
  exact ⟨fun up => if_pos up, fun down => if_neg (ne_true_of_eq_false down)⟩

/-- Settles O32: a write keeps the members in service in their order, each with its place in the list, and a read stops at the
first of them. -/
theorem mirroredResolution : Obligations.MirroredResolution := by
  unfold Obligations.MirroredResolution
  intro s w a ms base hm few up target
  rw [resolve_mirroredWrite hm, resolve_mirroredRead hm]
  refine ⟨fun down => ⟨resolveMirrorWrite_down _ down, resolveMirrorRead_down _ down⟩, fun serving => ⟨?_, ?_⟩⟩
  · refine ⟨_, resolveMirrorWrite_up target serving, ?_, fun c hc => ?_⟩
    · rw [List.map_map]
      exact serving_ports s ms
    · obtain ⟨m, member, rfl⟩ := List.mem_map.mp hc
      have place := mem_memberList (List.mem_filter.mp member).1
      exact ⟨rfl, rfl, rfl, memberPosition m.2, rfl, by rwa [position_of_place few place]⟩
  · obtain ⟨n, p, place, serves, before, resolved⟩ := resolveMirrorRead_up target serving
    have position := position_of_place few place
    exact ⟨memberPosition n, p, by rwa [position], serves, by rwa [position], resolved⟩

/-- Settles O33: in each mode every copy has the target that the rule gives, and the window's range condition keeps that sum below
2 ^ 36. -/
theorem translationStaysInRange : Obligations.TranslationStaysInRange := by
  unfold Obligations.TranslationStaysInRange
  intro s w kind a cls cs skipped formed contains
  have within := offset_lt_size contains
  refine ⟨maskedAddr_eq_base_add_offset contains, within, fun resolved c hc => ?_⟩
  cases hm : w.mode with
  | direct p base f =>
    rw [resolve_direct hm] at resolved
    rw [target_of_direct resolved hc]
    exact targetAt_toNat (direct_fits (mode_wellFormed formed hm)) within
  | paged start count =>
    rw [resolve_paged hm] at resolved
    have index := paged_index_lt (mode_wellFormed formed hm) within
    obtain ⟨page, present, target⟩ := target_of_paged (i := ⟨_, index⟩) rfl resolved hc
    refine ⟨⟨_, index⟩, page, rfl, present, ?_⟩
    rw [target]
    exact page_toNat page _
  | interleaved ms st base =>
    rw [resolve_interleaved hm] at resolved
    obtain ⟨whole, fits⟩ := interleaved_fits (mode_wellFormed formed hm)
    rw [target_of_interleaved resolved hc]
    exact targetAt_toNat fits (share_lt st.bytes_pos within whole)
  | mirrored ms base =>
    rw [target_of_mirrored hm resolved hc]
    exact targetAt_toNat (mirrored_fits (mode_wellFormed formed hm)) within

end Sys2Proof.Machine
end

section
/-! PROOFS. The ports as every step keeps them: a port record and its idle timer apart, the operations of the data path, and the
commands one by one. -/

namespace Sys2Proof.Machine

/-! ### A port record, its idle timer apart -/

/-- The record of the port `p` is sound but for its idle timer, auto-enable included (R81 to R83, R105, R193). -/
structure Port.Steady (q : Port) (p : PortId) : Prop where
  slots : q.state ≠ .active → ∀ i, q.slots.get i = .free
  silent : q.state.inService = false ∨ q.state = .parked → q.egress = []
  places : q.egress.length ≤ 8
  cause : q.cause ≠ none ↔ q.state = .quarantined
  wake : q.wake ≠ none ↔ q.state = .waking
  responseRange : 1 ≤ q.responseTimeout ∧ q.responseTimeout ≤ 65535
  wakeRange : 1 ≤ q.wakeTimeout ∧ q.wakeTimeout ≤ 4095
  idleRange : q.idlePark ≤ 65535
  auto : q.autoEnable = true → p = 0 ∧ q.state = .disabled

/-- The idle timer runs exactly in its conditions (R96). -/
def Port.Timed (q : Port) (strike : Bool) : Prop := q.idle ≠ none ↔ q.idles strike = true

theorem sound_iff_steady_timed (q : Port) (p : PortId) (strike : Bool) :
    (q.Sound strike ∧ (q.autoEnable = true → p = 0 ∧ q.state = .disabled)) ↔ q.Steady p ∧ q.Timed strike := by
  constructor
  · rintro ⟨⟨slots, silent, places, cause, wake, timed, response, wakes, idle⟩, auto⟩
    exact ⟨⟨slots, silent, places, cause, wake, response, wakes, idle, auto⟩, timed⟩
  · rintro ⟨⟨slots, silent, places, cause, wake, response, wakes, idle, auto⟩, timed⟩
    exact ⟨⟨slots, silent, places, cause, wake, timed, response, wakes, idle⟩, auto⟩

namespace Port.Steady

variable {q : Port} {p : PortId}

/-- Any idle timer leaves the record steady. -/
theorem idle (h : q.Steady p) (timer : Option Nat) : ({ q with idle := timer } : Port).Steady p := { h with }

/-- The counters of a port are apart from its soundness. -/
theorem counters (h : q.Steady p) (sent : BitVec 32) (timeouts strays errors : BitVec 16) :
    ({ q with copiesSent := sent, timeouts := timeouts, strays := strays, targetErrors := errors } : Port).Steady p := { h with }

/-- A port that names a command loses its auto-enable flag at most. -/
theorem autoCleared (h : q.Steady p) : ({ q with autoEnable := false } : Port).Steady p := { h with auto := nofun }

/-- A copy joins the FIFO of a port in service that is not PARKED. -/
theorem queued (h : q.Steady p) (serves : q.state.inService = true) (awake : q.state ≠ .parked) (room : q.egress.length < 8) (t : Tag) :
    ({ q with egress := q.egress ++ [t] } : Port).Steady p :=
  { h with
    silent := fun k => by
      rcases k with k | k
      · exact absurd (serves.symm.trans k) (by decide)
      · exact absurd k awake
    places := by
      rw [List.length_append, List.length_singleton]
      exact room }

/-- A port that holds its slots FREE wakes, with whatever copies wait for it. -/
theorem waking (h : q.Steady p) (notActive : q.state ≠ .active) {egress : List Tag} (few : egress.length ≤ 8)
    (auto : q.autoEnable = false) (cause : q.cause = none) (ticks : Nat) :
    ({ q with state := .waking, wake := some ticks, egress := egress } : Port).Steady p :=
  { h with
    slots := fun _ => h.slots notActive
    silent := fun k => by rcases k with k | k <;> cases k
    places := few
    cause := by simp [cause]
    wake := by simp
    auto := fun k => absurd (auto.symm.trans k) (by decide) }

/-- A wake completes. -/
theorem awake (h : q.Steady p) {egress : List Tag} (few : egress.length ≤ 8) (auto : q.autoEnable = false) (cause : q.cause = none) :
    ({ q with state := .active, wake := none, egress := egress } : Port).Steady p :=
  { h with
    slots := fun k => absurd rfl k
    silent := fun k => by rcases k with k | k <;> cases k
    places := few
    cause := by simp [cause]
    wake := by simp
    auto := fun k => absurd (auto.symm.trans k) (by decide) }

/-- A port whose slots are FREE parks with nothing queued and its wake timer stopped. -/
theorem parks (h : q.Steady p) (free : ∀ i, q.slots.get i = .free) (auto : q.autoEnable = false) (cause : q.cause = none)
    {timer : Option Nat} (stopped : timer = none) {egress : List Tag} (empty : egress = []) :
    ({ q with state := .parked, wake := timer, egress := egress } : Port).Steady p :=
  { h with
    slots := fun _ => free
    silent := fun _ => empty
    places := by simp [empty]
    cause := by simp [cause]
    wake := by simp [stopped]
    auto := fun k => absurd (auto.symm.trans k) (by decide) }

/-- A port with nothing held, in a state that is not WAKING. -/
theorem outOfService (h : q.Steady p) {st : PortState} {c : Option QuarantineCause} (waking : st ≠ .waking)
    (cause : c ≠ none ↔ st = .quarantined) (auto : q.autoEnable = true → p = 0 ∧ st = .disabled) :
    (q.outOfService st c).Steady p :=
  { h with
    slots := fun _ => get_replicate _
    silent := fun _ => rfl
    places := Nat.zero_le _
    cause := cause
    wake := by simp [Port.outOfService, waking]
    auto := auto }

/-- The slots of an ACTIVE port may hold anything. -/
theorem activeSlots (h : q.Steady p) (active : q.state = .active) (slots : Vector Slot 16) : ({ q with slots := slots } : Port).Steady p :=
  { h with slots := fun k => absurd active k }

/-- The head of the FIFO goes out on a slot. -/
theorem sent (h : q.Steady p) (active : q.state = .active) {t : Tag} {rest : List Tag} (queue : q.egress = t :: rest)
    (slots : Vector Slot 16) (count : BitVec 32) : ({ q with egress := rest, slots := slots, copiesSent := count } : Port).Steady p :=
  { h with
    slots := fun k => absurd active k
    silent := fun k => by
      rw [show ({ q with egress := rest, slots := slots, copiesSent := count } : Port).state = .active from active] at k
      exact absurd k (by decide)
    places := by
      have := h.places
      rw [queue, List.length_cons] at this
      exact Nat.le_of_succ_le this }

/-- Slots that are FREE where they were, with the FIFO as it was or emptied. -/
theorem slotsMapped (h : q.Steady p) {f : Slot → Slot} (free : f .free = .free) {egress : List Tag}
    (fewer : egress = q.egress ∨ egress = []) :
    ({ q with egress := egress, slots := q.slots.map f } : Port).Steady p :=
  { h with
    slots := fun k i => by
      rw [get_map, h.slots k, free]
    silent := fun k => by
      rcases fewer with rfl | rfl
      · exact h.silent k
      · rfl
    places := by
      rcases fewer with rfl | rfl
      · exact h.places
      · exact Nat.zero_le _ }

/-- A port in service has no auto-enable flag. -/
theorem noAuto (h : q.Steady p) (enabled : q.state ≠ .disabled) : q.autoEnable = false := by
  by_contra k
  exact enabled (h.auto (by simpa using k)).2

theorem noCause (h : q.Steady p) (serves : q.state ≠ .quarantined) : q.cause = none := by
  by_contra k
  exact serves (h.cause.mp k)

theorem noWake (h : q.Steady p) (settled : q.state ≠ .waking) : q.wake = none := by
  by_contra k
  exact settled (h.wake.mp k)

end Port.Steady

/-- A port that is not ACTIVE has its idle timer stopped. -/
theorem timed_of_notActive {q : Port} {strike : Bool} (h : q.state ≠ .active) (stopped : q.idle = none) : q.Timed strike := by
  simp [Port.Timed, stopped, idles_state q strike h]

theorem Port.Timed.stopped {q : Port} {strike : Bool} (h : q.Timed strike) (k : q.state ≠ .active) : q.idle = none := by
  by_contra running
  have := h.mp running
  rw [idles_state q strike k] at this
  cases this

/-! ### The ports of a state -/

/-- The ports are sound, but that the idle timers of the ports listed have still to be brought to their conditions. -/
structure State.PortsSoundBut (s : State) (ps : List PortId) : Prop where
  steady : ∀ p, (s.port p).Steady p
  timed : ∀ p, p ∉ ps → (s.port p).Timed (s.strikeFlag p)
  strikes : ∀ p, Occurrence.strike p ∉ s.mail.occurrences

theorem portsSound_iff (s : State) : s.PortsSound ↔ s.PortsSoundBut [] := by
  constructor
  · rintro ⟨sound, auto, strikes⟩
    have both (p : PortId) := (sound_iff_steady_timed (s.port p) p (s.strikeFlag p)).mp ⟨sound p, auto p⟩
    exact ⟨fun p => (both p).1, fun p _ => (both p).2, strikes⟩
  · rintro ⟨steady, timed, strikes⟩
    have both (p : PortId) := (sound_iff_steady_timed (s.port p) p (s.strikeFlag p)).mpr ⟨steady p, timed p (by simp)⟩
    exact ⟨fun p => (both p).1, fun p => (both p).2, strikes⟩

/-- From `s` to `t` nothing changes that the soundness of a port rests on. -/
structure State.KeepsPorts (s t : State) : Prop where
  ports : t.ports = s.ports
  flags : t.eu.strikes = s.eu.strikes
  strikes : ∀ p, Occurrence.strike p ∈ t.mail.occurrences → Occurrence.strike p ∈ s.mail.occurrences

theorem State.KeepsPorts.refl (s : State) : s.KeepsPorts s := ⟨rfl, rfl, fun _ h => h⟩

theorem State.KeepsPorts.trans {s t u : State} (a : s.KeepsPorts t) (b : t.KeepsPorts u) : s.KeepsPorts u :=
  ⟨b.ports.trans a.ports, b.flags.trans a.flags, fun p h => a.strikes p (b.strikes p h)⟩

theorem State.KeepsPorts.ofCarries {s t : State} (c : s.Carries t) (h : t.ports = s.ports) : s.KeepsPorts t :=
  ⟨h, congrArg EventUnit.strikes c.eu, c.strikes⟩

/-- Nothing that a port rests on is touched, and no report is made. -/
theorem State.KeepsPorts.ofSame {s t : State} (ports : t.ports = s.ports) (flags : t.eu.strikes = s.eu.strikes)
    (occurrences : t.mail.occurrences = s.mail.occurrences) : s.KeepsPorts t :=
  ⟨ports, flags, fun _ h => occurrences ▸ h⟩

namespace State.PortsSoundBut

variable {s t : State} {p : PortId} {ps : List PortId}

theorem keep (h : s.PortsSoundBut ps) (k : s.KeepsPorts t) : t.PortsSoundBut ps := by
  have port (q : PortId) : t.port q = s.port q := State.port_congr k.ports q
  have flag (q : PortId) : t.strikeFlag q = s.strikeFlag q := by rw [State.strikeFlag, k.flags, State.strikeFlag]
  refine ⟨fun q => ?_, fun q hq => ?_, fun q hq => h.strikes q (k.strikes q hq)⟩
  · rw [port]
    exact h.steady q
  · rw [port, flag]
    exact h.timed q hq

theorem mono (h : s.PortsSoundBut ps) {qs : List PortId} (sub : ∀ q ∈ ps, q ∈ qs) : s.PortsSoundBut qs :=
  { h with timed := fun q hq => h.timed q fun k => hq (sub q k) }

/-- A port whose record is written has its idle timer still to be brought to its conditions. -/
theorem setPort (h : s.PortsSoundBut ps) {x : Port} (steady : x.Steady p) : (s.setPort p x).PortsSoundBut (p :: ps) := by
  refine ⟨fun q => ?_, fun q hq => ?_, h.strikes⟩
  · rw [State.port_setPort_if]
    split
    · next e => exact e ▸ steady
    · exact h.steady q
  · rw [List.mem_cons, not_or] at hq
    rw [State.port_setPort_ne _ _ (Ne.symm hq.1), State.strikeFlag_setPort]
    exact h.timed q hq.2

/-- A port has its timer in its conditions. -/
theorem settled (h : s.PortsSoundBut (p :: ps)) (timed : (s.port p).Timed (s.strikeFlag p)) : s.PortsSoundBut ps := by
  refine { h with timed := fun q hq => ?_ }
  by_cases e : q = p
  · exact e ▸ timed
  · exact h.timed q (by simp [e, hq])

theorem settleIdle (h : s.PortsSoundBut (p :: ps)) : (s.settleIdle p).PortsSoundBut ps := by
  have written : (s.settleIdle p).PortsSoundBut (p :: ps) :=
    (h.setPort ((h.steady p).idle _)).mono (by simp)
  refine written.settled ?_
  rw [settleIdle_port]
  unfold Port.Timed
  split
  · next idles => exact iff_of_true (by simp) idles
  · next busy => exact iff_of_false (by simp) busy

/-- What serving a port may change leaves the other ports sound. -/
theorem ofServesOnly (h : s.PortsSoundBut ps) (only : ServesOnly p s t) (steady : (t.port p).Steady p) : t.PortsSoundBut (p :: ps) := by
  have eu : t.eu = s.eu := by rw [only.only]
  refine ⟨fun q => ?_, fun q hq => ?_, fun q => ?_⟩
  · by_cases e : q = p
    · exact e ▸ steady
    · rw [only.other q e]
      exact h.steady q
  · rw [List.mem_cons, not_or] at hq
    rw [only.other q hq.1, State.strikeFlag, eu]
    exact h.timed q hq.2
  · rw [only.occ]
    exact h.strikes q

end State.PortsSoundBut

end Sys2Proof.Machine
end

section
/-! PROOFS. The data path keeps the ports sound: what serves a port, what becomes of copies, and what takes a port out of service. -/

namespace Sys2Proof.Machine

/-! ### Operations that touch no port -/

theorem place_keepsPorts (s : State) (r : Response) : s.KeepsPorts (s.place r) := .ofCarries (s.place_carries r) (State.place_ports s r)

theorem reply_keepsPorts (s : State) (t : Tag) (st : Status) (c : List Byte) : s.KeepsPorts (s.reply t st c) := place_keepsPorts s _

theorem attemptDue_keepsPorts (s : State) (e : AttemptEvent) : s.KeepsPorts (s.attemptDue e) := .ofSame rfl rfl rfl

theorem emit_keepsPorts (s : State) (o : Output) : s.KeepsPorts (s.emit o) := .ofSame rfl rfl rfl

theorem setEntry_keepsPorts (s : State) (e : Entry) : s.KeepsPorts (s.setEntry e) := .ofSame rfl rfl rfl

theorem complete_keepsPorts (s : State) (e : Entry) (st : Status) : s.KeepsPorts (s.complete e st) :=
  .ofCarries (s.complete_carries e st) (complete_does s e st).2.2.1

theorem report_keepsPorts (s : State) {o : Occurrence} (h : ∀ p, o ≠ .strike p) : s.KeepsPorts (s.report o) :=
  .ofCarries (s.report_carries o h) (State.report_ports s o)

/-! ### Strike flags -/

theorem portBit_getLsbD (p q : PortId) : (portBit p).getLsbD q.val = decide (q = p) := by
  revert p q
  decide

/-- A captured strike sets the flag of its port alone (R177). -/
theorem strikeFlag_capture_strike (s : State) (p q : PortId) :
    (s.capture (.strike p)).strikeFlag q = (s.strikeFlag q || decide (q = p)) := by
  change (s.eu.strikes ||| portBit p).getLsbD q.val = _
  rw [BitVec.getLsbD_or, portBit_getLsbD]
  rfl

/-- No other occurrence sets one. -/
theorem take_strikes {o : Occurrence} (h : ∀ p, o ≠ .strike p) (eu : EventUnit) : (eu.take o).strikes = eu.strikes := by
  unfold EventUnit.take
  split
  · cases o with
    | strike p => exact absurd rfl (h p)
    | _ => rfl
  · rfl

theorem capture_keepsPorts (s : State) {o : Occurrence} (h : ∀ p, o ≠ .strike p) : s.KeepsPorts (s.capture o) :=
  .ofSame rfl (take_strikes h s.eu) rfl

/-! ### The acts of the arbiter and the sender -/

/-- The arbiter acts for a port in service with a free place. -/
theorem arbitrate_acts {s u : State} {p : PortId} (h : s.arbitrate? p = some u) :
    (s.port p).state.inService = true ∧ (s.port p).egress.length < 8 ∧ ∃ t, u = s.placeCopy p t := by
  unfold State.arbitrate? at h
  split at h
  · next can =>
    split at h
    · next t _ _ => exact ⟨can.1, can.2, t, (Option.some.inj h).symm⟩
    · cases h
  · cases h

/-- The sender acts for an ACTIVE port. -/
theorem send_acts {s u : State} {p : PortId} (h : s.send? p = some u) :
    ∃ t rest i, (s.port p).state = .active ∧ (s.port p).egress = t :: rest ∧ u = s.sendOn p t rest i := by
  unfold State.send? at h
  split at h
  · next t rest i active queue _ => exact ⟨t, rest, i, active, queue, (Option.some.inj h).symm⟩
  · cases h

/-- A copy that is placed leaves its port steady, at a PARKED port with the wake it starts. -/
theorem Port.Steady.placeCopy {s : State} {p : PortId} (h : (s.port p).Steady p) (serves : (s.port p).state.inService = true)
    (room : (s.port p).egress.length < 8) (t : Tag) : ((s.placeCopy p t).port p).Steady p := by
  by_cases parked : (s.port p).state = .parked
  · have few : ((s.port p).egress ++ [t]).length ≤ 8 := by simp [h.silent (.inr parked)]
    have auto := h.noAuto (by simp [parked])
    have cause := h.noCause (by simp [parked])
    have queued := placed_port s p t
    rw [placeCopy_parked s p t parked]
    set queue := (s.setPort p { s.port p with egress := (s.port p).egress ++ [t] }).markCopy t p .queued none
    cases link : queue.pins.link.get p with
    | true =>
      rw [(startWake_up queue p link).1, queued]
      exact h.awake few auto cause
    | false =>
      rw [(startWake_down queue p link).1, queued]
      exact h.waking (by simp [parked]) few auto cause _
  · rw [placeCopy_notParked s p t parked, placed_port]
    exact h.queued serves parked room t

namespace State.PortsSoundBut

variable {s : State} {p : PortId} {ps : List PortId}

/-- The idle timer of a port listed may be told again. -/
theorem again (h : s.PortsSoundBut (p :: p :: ps)) : s.PortsSoundBut (p :: ps) := h.mono (by simp)

theorem weaken (h : s.PortsSoundBut ps) : s.PortsSoundBut (p :: ps) := h.mono (by simp_all)

/-- A port whose record is written with its idle timer in its conditions. -/
theorem write (h : s.PortsSoundBut (p :: ps)) {x : Port} (steady : x.Steady p) (timed : x.Timed (s.strikeFlag p)) :
    (s.setPort p x).PortsSoundBut ps := by
  refine (h.setPort steady).again.settled ?_
  rwa [State.port_setPort, State.strikeFlag_setPort]

/-- A port whose record is written with nothing changed that the idle timer follows. -/
theorem rewrite (h : s.PortsSoundBut ps) {x : Port} (steady : x.Steady p)
    (timed : ∀ strike, (s.port p).Timed strike → x.Timed strike) : (s.setPort p x).PortsSoundBut ps := by
  by_cases listed : p ∈ ps
  · exact (h.setPort steady).mono (by simp [listed])
  · exact h.weaken.write steady (timed _ (h.timed p listed))

theorem placeCopy (h : s.PortsSoundBut ps) (serves : (s.port p).state.inService = true) (room : (s.port p).egress.length < 8)
    (t : Tag) : (s.placeCopy p t).PortsSoundBut (p :: ps) :=
  h.ofServesOnly (servesOnly_place p s t) ((h.steady p).placeCopy serves room t)

theorem sendOn (h : s.PortsSoundBut ps) (active : (s.port p).state = .active) {t : Tag} {rest : List Tag}
    (queue : (s.port p).egress = t :: rest) (i : SlotId) : (s.sendOn p t rest i).PortsSoundBut (p :: ps) := by
  refine h.ofServesOnly (servesOnly_sendOn p s t rest i) ?_
  rw [sendOn_port]
  exact (h.steady p).sent active queue _ _

theorem serveN (h : s.PortsSoundBut (p :: ps)) (n : Nat) : (State.serveN n s p).PortsSoundBut (p :: ps) := by
  induction n generalizing s with
  | zero => exact h
  | succ n ih =>
    unfold State.serveN
    split
    · next u act =>
      obtain ⟨serves, room, t, rfl⟩ := arbitrate_acts act
      exact ih (h.placeCopy serves room t).again
    · split
      · next u act =>
        obtain ⟨t, rest, i, active, queue, rfl⟩ := send_acts act
        exact ih (h.sendOn active queue i).again
      · exact h

/-- A port that is served has its idle timer in its conditions. -/
theorem serve (h : s.PortsSoundBut (p :: ps)) : (s.serve p).PortsSoundBut ps := (h.serveN 80).settleIdle

/-! ### What becomes of copies -/

theorem reissue (h : s.PortsSoundBut ps) {q : PortId} (serves : (s.port q).state.inService = true) (e : Entry) (i : Nat) (a : Addr) :
    (s.reissue e q i a).PortsSoundBut ps := by
  unfold State.reissue
  simp only
  split
  · next can => exact ((h.keep (setEntry_keepsPorts s _)).placeCopy serves can.1 _).serve
  · exact h.keep (setEntry_keepsPorts s _)

theorem failover (h : s.PortsSoundBut ps) (e : Entry) (q : PortId) (o : CopyState) : (s.failover e q o).PortsSoundBut ps := by
  unfold State.failover
  split
  · split
    · next member => exact h.reissue (nextMember_serves member) _ _ _
    · exact h.keep (complete_keepsPorts s _ _)
  · exact h.keep (complete_keepsPorts s _ _)

theorem outcome (h : s.PortsSoundBut ps) (t : Tag) (q : PortId) (o : CopyState) (d : List Byte) : (s.outcome t q o d).PortsSoundBut ps := by
  have written (e : Entry) : (s.setEntry e).PortsSoundBut ps := h.keep (setEntry_keepsPorts s e)
  have completed (e x : Entry) (st : Status) : ((s.setEntry e).complete x st).PortsSoundBut ps :=
    (written e).keep (complete_keepsPorts _ x st)
  unfold State.outcome
  split
  · exact h
  · extract_lets _ e _
    split
    · exact completed _ _ _
    · split
      · exact written e
      · exact completed _ _ _
    · split
      · exact completed _ _ _
      · exact completed _ _ _
      all_goals exact (written _).failover _ _ _

theorem runJob (h : s.PortsSoundBut ps) (q : PortId) (j : Job) : (s.runJob q j).PortsSoundBut ps := by
  unfold State.runJob
  split
  · exact h.outcome _ _ _ _
  · split
    · exact h.outcome _ _ _ _
    · exact h
  · exact h.keep (reply_keepsPorts s _ _ [])

theorem runJobs (h : s.PortsSoundBut ps) (q : PortId) (js : List Job) : (s.runJobs q js).PortsSoundBut ps := by
  induction js generalizing s with
  | nil => exact h
  | cons j js ih => exact ih (h.runJob q j)

/-! ### Ports that change their state -/

/-- A port that leaves service lets its idle timer stop (R94, R104). -/
theorem leaveService (h : s.PortsSoundBut (p :: ps)) (enabled : (s.port p).state ≠ .disabled) {st : PortState}
    {c : Option QuarantineCause}
    (out : st.inService = false) (cause : c ≠ none ↔ st = .quarantined) (more : List Job) (order : Order) :
    (s.leaveService p st c more order).PortsSoundBut ps := by
  have waking : st ≠ .waking := by rintro rfl; cases out
  have active : st ≠ .active := by rintro rfl; cases out
  have auto : (s.port p).autoEnable = true → p = 0 ∧ st = .disabled := fun k => by simp [(h.steady p).noAuto enabled] at k
  have written := h.write ((h.steady p).outOfService waking cause auto) (timed_of_notActive active rfl)
  exact (written.keep (attemptDue_keepsPorts _ _)).runJobs p _

theorem quarantine (h : s.PortsSoundBut (p :: ps)) (enabled : (s.port p).state ≠ .disabled) (c : QuarantineCause) (more : List Job)
    (order : Order) : (s.quarantine p c more order).PortsSoundBut ps := by
  have same : (s.report (.quarantine p)).port p = s.port p := State.port_congr (State.report_ports s _) p
  exact (h.keep (report_keepsPorts s (by simp))).leaveService (same ▸ enabled) rfl (by simp) more order

/-- A port becomes ACTIVE with nothing held (R103). -/
theorem activate (h : s.PortsSoundBut ps) : (s.activate p).PortsSoundBut ps := by
  have steady := (h.steady p).autoCleared.outOfService (st := .active) (c := none) (by simp) (by simp) nofun
  exact ((h.setPort steady).keep (attemptDue_keepsPorts _ _)).settleIdle

/-- An ACTIVE port with nothing held parks (R97, R98). -/
theorem park (h : s.PortsSoundBut (p :: ps)) (active : (s.port p).state = .active) (empty : (s.port p).egress = [])
    (free : ∀ i, (s.port p).slots.get i = .free) : (s.park p).PortsSoundBut ps := by
  have port := h.steady p
  have steady := (port.parks free (port.noAuto (by simp [active])) (port.noCause (by simp [active]))
    (port.noWake (by simp [active])) empty).idle none
  have written := h.write steady (timed_of_notActive (by simp) rfl)
  exact (written.keep (emit_keepsPorts _ _)).keep (attemptDue_keepsPorts _ _)

/-- A WAKING port with its link UP becomes ACTIVE (R100). -/
theorem completeWake (h : s.PortsSoundBut ps) (waking : (s.port p).state = .waking) : (s.completeWake p).PortsSoundBut (p :: ps) := by
  have port := h.steady p
  have steady := port.awake port.places (port.noAuto (by simp [waking])) (port.noCause (by simp [waking]))
  exact (h.setPort steady).keep (attemptDue_keepsPorts _ _)

/-- A captured strike leaves the idle timer of its port to be brought to its conditions (R96, R177). -/
theorem capture_strike (h : s.PortsSoundBut ps) : (s.capture (.strike p)).PortsSoundBut (p :: ps) := by
  refine ⟨h.steady, fun q hq => ?_, h.strikes⟩
  rw [List.mem_cons, not_or] at hq
  rw [strikeFlag_capture_strike, decide_eq_false hq.1, Bool.or_false]
  exact h.timed q hq.2

/-- Every port at once. -/
theorem ofPorts {t : State} (h : s.PortsSoundBut ps)
    (strikes : ∀ p, Occurrence.strike p ∈ t.mail.occurrences → Occurrence.strike p ∈ s.mail.occurrences)
    (steady : ∀ q, (s.port q).Steady q → (t.port q).Steady q)
    (timed : ∀ q, (s.port q).Steady q → (s.port q).Timed (s.strikeFlag q) → (t.port q).Timed (t.strikeFlag q)) : t.PortsSoundBut ps :=
  ⟨fun q => steady q (h.steady q), fun q hq => timed q (h.steady q) (h.timed q hq), fun q k => h.strikes q (strikes q k)⟩

/-- WAKING ports with nothing queued return to PARKED (R108). -/
theorem parkWaking (h : s.PortsSoundBut []) {qs : List PortId} (empty : ∀ q ∈ qs, (s.port q).egress = []) :
    (s.parkWaking qs).PortsSoundBut [] := by
  have carries := State.parkWaking_carries qs s
  have flag (q : PortId) : (s.parkWaking qs).strikeFlag q = s.strikeFlag q := by rw [State.strikeFlag, carries.eu, State.strikeFlag]
  refine h.ofPorts carries.strikes (fun q steady => ?_) (fun q steady timed => ?_)
  all_goals
    rw [parkWaking_port]
    split
  · next returns =>
    have waking : (s.port q).state = .waking := returns.2
    exact steady.parks (steady.slots (by simp [waking])) (steady.noAuto (by simp [waking])) (steady.noCause (by simp [waking])) rfl
      (empty q returns.1)
  · exact steady
  · next returns =>
    have waking : (s.port q).state = .waking := returns.2
    exact timed_of_notActive (by simp) (timed.stopped (by simp [waking]))
  · exact flag q ▸ timed

theorem returnWaking (h : s.PortsSoundBut []) : s.returnWaking.PortsSoundBut [] := by
  unfold State.returnWaking
  extract_lets waiting
  refine parkWaking (h.keep ?_) fun q hq => ((nothingWaits_iff s q).mp (List.mem_filter.mp hq).2).1
  exact .ofSame rfl rfl rfl

/-! ### The abort (R107, R130) -/

theorem abortPort (h : s.PortsSoundBut ps) (claimed : Bool) : (s.abortPort p claimed).PortsSoundBut ps := by
  have reached := (h.setPort ((h.steady p).slotsMapped (f := Slot.orphaned) rfl (.inr rfl))).settleIdle
  unfold State.abortPort
  simp only
  split
  · exact reached.keep (attemptDue_keepsPorts _ _)
  · exact reached

theorem abortPorts (h : s.PortsSoundBut ps) (claimed : PortId → Bool) (qs : List PortId) : (s.abortPorts claimed qs).PortsSoundBut ps := by
  induction qs generalizing s with
  | nil => exact h
  | cons q qs ih => exact ih (h.abortPort _)

end State.PortsSoundBut

end Sys2Proof.Machine
end

section
/-! PROOFS. The ports through the commands: the abort, what reaches a target port, time, resets, events and the head. -/

namespace Sys2Proof.Machine

/-! ### The abort (R107, R130 to R132) -/

theorem answerAborted_keepsPorts (s : State) (as : List AbortedAnswer) : s.KeepsPorts (s.answerAborted as) :=
  .ofCarries (State.answerAborted_carries as s) (by rw [(State.answerAborted_spec as s).1])

theorem abortTaken_keepsPorts (s : State) (a : AbortSource) : s.KeepsPorts (s.abortTaken a) := by
  rw [abortTaken_frame]
  exact .ofSame rfl rfl rfl

namespace State.PortsSoundBut

variable {s : State} {p : PortId} {ps : List PortId}

/-- The ports deal with the copies first, so that a port that returns to PARKED holds nothing. -/
theorem abort (h : s.PortsSoundBut []) (order : Order) : (s.abort order).PortsSoundBut [] := by
  have answered : (s.abortAnswered order).PortsSoundBut [] := by
    refine keep (h.keep ?_) (answerAborted_keepsPorts _ _)
    exact .ofSame rfl rfl rfl
  have empty (q : PortId) : ((s.abortReached order).port q).egress = [] := by
    rw [State.abortReached, abortPorts_port _ _ (by decide) _ q (mem_allPorts q)]
    rfl
  have parked := (answered.abortPorts (fun q => !(s.claims q).isEmpty) allPorts).parkWaking (qs := s.mail.returns) fun q _ => empty q
  exact parked.keep (.ofSame rfl rfl rfl)

/-! ### What reaches a target port -/

/-- Only an ACTIVE port holds a slot in use (R82). -/
theorem active_of_slot (h : s.PortsSoundBut ps) {i : SlotId} (used : (s.port p).slots.get i ≠ .free) : (s.port p).state = .active := by
  by_contra k
  exact used ((h.steady p).slots k i)

/-- A slot of an ACTIVE port is written. -/
theorem setSlot (h : s.PortsSoundBut ps) (active : (s.port p).state = .active) (i : SlotId) (x : Slot) :
    (s.setSlot p i x).PortsSoundBut (p :: ps) := h.setPort ((h.steady p).activeSlots active _)

theorem countTimeout (h : s.PortsSoundBut ps) (p : PortId) : (s.countTimeout p).PortsSoundBut ps :=
  h.rewrite ((h.steady p).counters _ _ _ _) fun _ timed => timed

theorem countTargetError (h : s.PortsSoundBut ps) (p : PortId) : (s.countTargetError p).PortsSoundBut ps :=
  h.rewrite ((h.steady p).counters _ _ _ _) fun _ timed => timed

theorem strayResponse (h : s.PortsSoundBut ps) (p : PortId) : (s.strayResponse p).PortsSoundBut ps := by
  unfold State.strayResponse
  refine keep (h.rewrite ?_ ?_) (report_keepsPorts _ (by simp))
  · exact (h.steady p).counters _ _ _ _
  · exact fun _ timed => timed

theorem malformedTarget (h : s.PortsSoundBut ps) (p : PortId) (tag : Option SlotId) : (s.malformedTarget p tag).PortsSoundBut ps :=
  h.keep (report_keepsPorts s (by simp))

theorem answerCopy (h : s.PortsSoundBut ps) (active : (s.port p).state = .active) (i : SlotId) (t : Tag) (ok : Bool) (d : List Byte) :
    (s.answerCopy p i t ok d).PortsSoundBut ps := by
  have freed := h.setSlot active i .free
  have told : (if s.refusesAnswer t ok d = true then (s.setSlot p i .free).malformedTarget p (some i) else s.setSlot p i .free).PortsSoundBut
      (p :: ps) := by
    split
    · exact freed.malformedTarget p _
    · exact freed
  unfold State.answerCopy
  simp only
  split
  · exact (told.outcome _ _ _ _).serve
  · exact ((told.countTargetError p).outcome _ _ _ _).serve

theorem matchResponse (h : s.PortsSoundBut ps) (p : PortId) (i : SlotId) (ok : Bool) (d : List Byte) :
    (s.matchResponse p i ok d).PortsSoundBut ps := by
  unfold State.matchResponse
  split
  · next active =>
    split
    · exact h.strayResponse p
    · exact (h.setSlot active i .free).serve
    · exact h.answerCopy active _ _ _ _
  · exact h.strayResponse p

/-- A strike is taken with the idle timer of its port to settle: a quarantine stops it, and a port that stays ACTIVE is served. -/
theorem strikeDeadline (h : s.PortsSoundBut (p :: ps)) (active : (s.port p).state = .active) (failed : List Job) (order : Order) :
    (s.strikeDeadline p failed order).PortsSoundBut ps := by
  have counted := h.countTimeout p
  unfold State.strikeDeadline
  simp only
  split
  · refine counted.quarantine ?_ _ _ _
    rw [State.countTimeout, State.port_setPort]
    simp [active]
  · exact (counted.capture_strike.again.runJobs p failed).serve

theorem deadline (h : s.PortsSoundBut ps) {i : SlotId} (used : (s.port p).slots.get i ≠ .free) (failed : List Job) (order : Order) :
    ((s.setSlot p i .free).strikeDeadline p failed order).PortsSoundBut ps := by
  have active := h.active_of_slot used
  refine (h.setSlot active i .free).strikeDeadline ?_ failed order
  rw [State.setSlot, State.port_setPort]
  exact active

theorem failWake (h : s.PortsSoundBut []) (waking : (s.port p).state = .waking) (order : Order) : (s.failWake p order).PortsSoundBut [] := by
  have port := h.steady p
  have stopped := (h.timed p (by simp)).stopped (by simp [waking])
  have steady := port.parks (port.slots (by simp [waking])) (port.noAuto (by simp [waking])) (port.noCause (by simp [waking])) rfl
    (egress := []) rfl
  have parked := h.capture_strike.write steady (timed_of_notActive (by simp) stopped)
  have told := parked.keep (attemptDue_keepsPorts _ (.portChanged p))
  unfold State.failWake
  extract_lets jobs _ parkedState placedState
  have placed : placedState.PortsSoundBut [] := by
    unfold placedState
    split
    · exact told.keep (attemptDue_keepsPorts _ _)
    · exact told
  exact (placed.runJobs p _).weaken.serve

theorem linkUp (h : s.PortsSoundBut ps) (p : PortId) : (s.linkUp p).PortsSoundBut ps := by
  unfold State.linkUp
  split
  · exact h
  · exact h.keep (emit_keepsPorts s _)
  · next waking => exact (h.completeWake waking).serve
  · split
    · exact h.activate
    · exact h
  · exact h

theorem linkDown (h : s.PortsSoundBut ps) (p : PortId) (order : Order) : (s.linkDown p order).PortsSoundBut ps := by
  unfold State.linkDown
  split
  · next active => exact h.weaken.quarantine (by simp [active]) _ _ _
  all_goals exact h

end State.PortsSoundBut

/-! ### Time (R187) -/

@[simp] theorem Slot.tick_eq_free (x : Slot) : x.tick = .free ↔ x = .free := by cases x <;> simp [Slot.tick]

/-- A tick brings no idle timer out of its conditions or into them. -/
theorem idles_tick (q : Port) (strike : Bool) : q.tick.idles strike = q.idles strike := by
  have slots : (q.slots.map Slot.tick).toList.all (· == .free) = q.slots.toList.all (· == .free) := by
    have free (x : Slot) : (x.tick == .free) = (x == .free) := by rw [Bool.eq_iff_iff, beq_iff_eq, beq_iff_eq, Slot.tick_eq_free]
    rw [Vector.toList_map, List.all_map]
    exact congrArg q.slots.toList.all (funext free)
  unfold Port.idles
  simp only [Port.tick, slots]

theorem Port.Steady.tick {q : Port} {p : PortId} (h : q.Steady p) : q.tick.Steady p := by
  have ticked := h.slotsMapped (f := Slot.tick) rfl (.inl rfl)
  exact { ticked with wake := by simpa [Port.tick, tickTimer] using h.wake }

theorem Port.Timed.tick {q : Port} {strike : Bool} (h : q.Timed strike) : q.tick.Timed strike := by
  unfold Port.Timed at h ⊢
  rw [idles_tick, ← h]
  simp [Port.tick, tickTimer]

theorem execTickBoundary_portsSound {s : State} (h : s.PortsSoundBut []) : ∃ t, execTickBoundary s = .next t ∧ t.PortsSoundBut [] := by
  refine ⟨_, rfl, ?_⟩
  split
  · exact h
  · have port (q : PortId) : (s.ports.map Port.tick).get q = (s.port q).tick := get_map _ _ q
    refine h.ofPorts (fun _ k => k) (fun q steady => ?_) (fun q _ timed => ?_)
    · change ((s.ports.map Port.tick).get q).Steady q
      exact (port q).symm ▸ steady.tick
    · change ((s.ports.map Port.tick).get q).Timed (s.strikeFlag q)
      exact (port q).symm ▸ timed.tick

/-! ### Resets and start-up -/

theorem Port.Steady.disabled {q : Port} {p : PortId} (h : q.Steady p) : (q.outOfService .disabled none).Steady p :=
  h.outOfService (by simp) (by simp) fun k => ⟨(h.auto k).1, rfl⟩

/-- At the assertion of a reset every port is DISABLED with nothing held and no strike is pending (R109, R185). -/
theorem State.PortsSoundBut.assertReset {s : State} (h : s.PortsSoundBut []) (c : HeldCondition) : (s.assertReset c).PortsSoundBut [] := by
  have none (q : PortId) : Occurrence.strike q ∉ (s.assertReset c).mail.occurrences := nofun
  refine h.ofPorts (fun q k => absurd k (none q)) (fun q steady => ?_) (fun q _ _ => ?_)
  all_goals rw [assertReset_port]
  · exact Port.Steady.disabled steady
  · exact timed_of_notActive (by simp [Port.outOfService]) rfl

/-- Start-up sets every port to its start values (R81). -/
theorem State.PortsSoundBut.startValues {s : State} (h : s.PortsSoundBut []) : s.startValues.PortsSoundBut [] := by
  have noStrike (q : PortId) : s.startValues.strikeFlag q = false := BitVec.getLsbD_zero
  have start (q : PortId) := (sound_iff_steady_timed Port.startUp q false).mp ⟨startUp_sound, nofun⟩
  refine h.ofPorts (fun _ k => k) (fun q _ => ?_) (fun q _ _ => ?_)
  all_goals rw [startValues_port]
  · exact (start q).1
  · exact noStrike q ▸ (start q).2

/-- Under the start plan PASS T0 is activated, or gets its auto-enable flag while it is DISABLED (R192). -/
theorem State.PortsSoundBut.loadStartPlan {s : State} (h : s.PortsSoundBut []) (disabled : (s.port 0).state = .disabled) :
    s.loadStartPlan.PortsSoundBut [] := by
  cases plan : s.rs.sample with
  | empty =>
    rw [loadStartPlan_empty plan]
    exact h
  | pass =>
    have loaded : s.passBank.PortsSoundBut [] := h.keep (.ofSame rfl rfl rfl)
    rw [loadStartPlan_pass plan]
    split
    · exact loaded.activate
    · exact loaded.rewrite { loaded.steady 0 with auto := fun _ => ⟨rfl, disabled⟩ } fun _ timed => timed

theorem ulcStart_keepsPorts (s : State) : s.KeepsPorts s.ulcStart := by
  unfold State.ulcStart
  split
  · split
    all_goals exact .ofSame rfl rfl rfl
  · exact .refl s

theorem execStartUpComplete_portsSound {s : State} (h : s.PortsSoundBut []) :
    ∃ t, execStartUpComplete s = .next t ∧ t.PortsSoundBut [] := by
  refine ⟨_, rfl, ?_⟩
  split
  · have disabled : (s.startValues.port 0).state = .disabled := by rw [startValues_port]; rfl
    have captured := (h.startValues.loadStartPlan disabled).keep (capture_keepsPorts _ (o := .resetDone) (by simp))
    refine ((captured.keep ?_).keep (ulcStart_keepsPorts _)).keep (attemptDue_keepsPorts _ _)
    exact .ofSame rfl rfl rfl
  · exact h

/-! ### Events (R177, R182) -/

/-- A strike flag outlives a CLEAR EVENTS unless it is cleared. -/
theorem clear_strikes (eu : EventUnit) (events : BitVec 16) (strikes quarantines : BitVec 8) (i : Nat) :
    let c := eu.clearable events strikes quarantines
    (eu.clear c).strikes.getLsbD i = (eu.strikes.getLsbD i && !c.strikes.getLsbD i) := by
  intro c
  unfold EventUnit.clear
  split
  · change (eu.strikes &&& ~~~c.strikes).getLsbD i = _
    rw [BitVec.getLsbD_and, BitVec.getLsbD_not]
    by_cases inside : i < 8
    · simp [inside]
    · simp [BitVec.getLsbD_of_ge eu.strikes i (by omega)]
  · next nothing =>
    have none : c.strikes = 0 := by simp [ClearedEvents.any] at nothing; exact nothing.1.2
    simp [none]

/-- Each port whose strike is cleared has its idle timer brought to its conditions (R96). -/
theorem State.PortsSoundBut.strikesCleared {cleared : BitVec 8} {ps : List PortId} {s : State}
    (h : s.PortsSoundBut (ps.filter fun p => cleared.getLsbD p.val)) : (s.strikesCleared cleared ps).PortsSoundBut [] := by
  induction ps generalizing s with
  | nil => exact h
  | cons p ps ih =>
    unfold State.strikesCleared
    apply ih
    rw [List.filter_cons] at h
    split at h
    · next struck =>
      rw [if_pos struck]
      exact h.settleIdle
    · next spared => rwa [if_neg spared]

theorem State.PortsSoundBut.clearEvents {s : State} (h : s.PortsSoundBut []) (t : Tag) (payload : List Byte) :
    (s.clearEvents t payload).PortsSoundBut [] := by
  set c := s.eu.clearable (eventField payload) (byteAt payload 3) (byteAt payload 4) with hc
  have cleared : ({ s with eu := s.eu.clear c } : State).PortsSoundBut (allPorts.filter fun p => c.strikes.getLsbD p.val) := by
    refine ⟨h.steady, fun q hq => ?_, h.strikes⟩
    have spared : c.strikes.getLsbD q.val = false := by
      simpa [mem_allPorts] using hq
    have flag : ({ s with eu := s.eu.clear c } : State).strikeFlag q = s.strikeFlag q := by
      change (s.eu.clear c).strikes.getLsbD q.val = _
      rw [hc, clear_strikes, ← hc, spared, Bool.not_false, Bool.and_true]
      rfl
    rw [flag]
    exact h.timed q (by simp)
  exact cleared.strikesCleared.keep (reply_keepsPorts _ t _ _)

end Sys2Proof.Machine
end

section
/-! PROOFS. The ports as every step keeps them: the copies of an admitted request, the control requests, and each command. -/

namespace Sys2Proof.Machine

/-! ### The ports of an admitted request (R28, R58, R60) -/

/-- The copies of a mode resolution go to ports in service, one copy to each. -/
structure State.GivesCopies (s : State) (cs : List Copy) : Prop where
  serve : ∀ c ∈ cs, s.serves c.port = true
  apart : (cs.map (·.port)).Nodup

theorem givesCopies_single {s : State} {p : PortId} {target : Addr} {cls : ModeClass} {cs : List Copy} {skipped : List PortId}
    (serves : s.serves p = true) (h : singleCopy p target = .copies cls cs skipped) : s.GivesCopies cs := by
  cases h
  exact ⟨by simpa using serves, by simp⟩

theorem givesCopies_direct {s : State} {p : PortId} {f : Option PortId} {target : Addr} {cls : ModeClass} {cs : List Copy}
    {skipped : List PortId} (h : s.resolveDirect p f target = .copies cls cs skipped) : s.GivesCopies cs := by
  unfold State.resolveDirect at h
  split at h
  · next serves => exact givesCopies_single serves h
  · split at h
    · split at h
      · next serves => exact givesCopies_single serves h
      · cases h
    · cases h

theorem givesCopies_paged {s : State} {start : PageIx} {offset : Nat} {cls : ModeClass} {cs : List Copy} {skipped : List PortId}
    (h : s.resolvePaged start offset = .copies cls cs skipped) : s.GivesCopies cs := by
  unfold State.resolvePaged at h
  split at h
  · cases h
  · split at h
    · next serves => exact givesCopies_single serves h
    · cases h

theorem givesCopies_interleaved {s : State} {ms : List PortId} {st : Stride} {base : UnitNo} {offset : Nat} {cls : ModeClass}
    {cs : List Copy} {skipped : List PortId} (h : s.resolveInterleaved ms st base offset = .copies cls cs skipped) : s.GivesCopies cs := by
  unfold State.resolveInterleaved at h
  simp only at h
  split at h
  · split at h
    · next serves => exact givesCopies_single serves h
    · cases h
  · cases h

/-- The members of a well-formed mirrored window are distinct (R76), so a write gives each port one copy. -/
theorem givesCopies_mirrorWrite {s : State} {ms : List PortId} {target : Addr} {cls : ModeClass} {cs : List Copy} {skipped : List PortId}
    (distinct : ms.Nodup) (h : s.resolveMirrorWrite ms target = .copies cls cs skipped) : s.GivesCopies cs := by
  have serving := serving_ports s ms
  unfold State.resolveMirrorWrite at h
  split at h
  · cases h
  · next m rest up =>
    cases h
    have ports : ((m :: rest).map (mirrorCopy target)).map (·.port) = ms.filter fun p => s.serves p := by
      rw [← up, List.map_map, ← serving]
      rfl
    refine ⟨fun c hc => ?_, ports ▸ distinct.filter _⟩
    have listed : c.port ∈ ms.filter fun p => s.serves p := ports ▸ List.mem_map_of_mem hc
    exact (List.mem_filter.mp listed).2

theorem givesCopies_mirrorRead {s : State} {ms : List PortId} {target : Addr} {cls : ModeClass} {cs : List Copy} {skipped : List PortId}
    (h : s.resolveMirrorRead ms target = .copies cls cs skipped) : s.GivesCopies cs := by
  unfold State.resolveMirrorRead at h
  split at h
  · next m first =>
    cases h
    have serves : s.serves m.1 = true := by simpa using List.find?_some first
    exact ⟨by simpa [mirrorCopy] using serves, by simp⟩
  · cases h

theorem resolve_givesCopies {s : State} {w : Window} (formed : w.wellFormed = true) {kind : MemKind} {a : Addr} {cls : ModeClass}
    {cs : List Copy} {skipped : List PortId} (h : s.resolve w kind a = .copies cls cs skipped) : s.GivesCopies cs := by
  have mode := mode_wellFormed formed rfl
  unfold State.resolve at h
  simp only at h
  split at h
  · exact givesCopies_direct h
  · exact givesCopies_paged h
  · exact givesCopies_interleaved h
  · next ms base hm =>
    rw [hm] at mode
    have distinct : ms.Nodup := by
      simp only [Mode.wellFormed, Bool.and_eq_true, decide_eq_true_eq] at mode
      exact mode.1.2
    exact givesCopies_mirrorWrite distinct h
  · exact givesCopies_mirrorRead h

/-- A lookup finds a window of the bank (R42). -/
theorem lookup_wellFormed {b : Bank} (h : b.Sound) {a : Addr} {i : WindowIx} {w : Window} (found : b.lookup a = some (i, w)) :
    w.wellFormed = true := by
  unfold Bank.lookup at found
  split at found
  · next j _ =>
    split at found
    · next hw =>
      have formed := (h j).1
      rw [hw] at formed
      cases found
      exact formed
    · cases found
  · cases found

/-- A request is taken in under the window that a lookup finds, with the copies of its mode resolution and a place for each (R25, R28). -/
theorem decideMemory_takeIn_found {s : State} {kind : MemKind} {a : Addr} {length : Nat} {i : WindowIx} {cls : ModeClass}
    {cs : List Copy} {skipped : List PortId} (h : s.decideMemory kind a length = .takeIn i cls cs skipped) :
    ∃ w, s.ps.activeBank.lookup a = some (i, w) ∧ s.resolve w kind a = .copies cls cs skipped
      ∧ ∀ c ∈ cs, 1 ≤ s.placesAvailable c.port := by
  unfold State.decideMemory at h
  split at h
  · cases h
  split at h
  · cases h
  split at h
  · cases h
  next w found =>
  split at h
  · cases h
  unfold State.decideMode at h
  split at h
  · cases h
  · cases h
  next copies =>
  split at h
  · next places =>
    cases h
    exact ⟨w, found, copies, by simpa using places⟩
  · cases h

theorem decideMemory_takeIn_ports {s : State} (h : s.PlansSound) {kind : MemKind} {a : Addr} {length : Nat} {i : WindowIx} {cls : ModeClass}
    {cs : List Copy} {skipped : List PortId} (k : s.decideMemory kind a length = .takeIn i cls cs skipped) :
    s.GivesCopies cs ∧ ∀ c ∈ cs, (s.port c.port).egress.length < 8 := by
  obtain ⟨w, found, copies, places⟩ := decideMemory_takeIn_found k
  refine ⟨resolve_givesCopies (lookup_wellFormed (h.bank s.ps.active) found) copies, fun c hc => ?_⟩
  have place := places c hc
  unfold State.placesAvailable Config.egressPlaces at place
  omega

/-- Copies are placed one after another at ports of their own, each of them in service and with a place. -/
theorem State.PortsSoundBut.placeCopies {s : State} {cs : List Copy} (h : s.PortsSoundBut []) (gives : s.GivesCopies cs)
    (places : ∀ c ∈ cs, (s.port c.port).egress.length < 8) (t : Tag) : (s.placeCopies t cs).PortsSoundBut [] := by
  induction cs generalizing s with
  | nil => exact h
  | cons c cs ih =>
    obtain ⟨serve, apart⟩ := gives
    rw [List.map_cons, List.nodup_cons] at apart
    have placed := (h.placeCopy (serve c (by simp)) (places c (by simp)) t).serve
    have other (d : Copy) (hd : d ∈ cs) : ((s.placeCopy c.port t).serve c.port).port d.port = s.port d.port := by
      refine (placed_serves s c.port t).other d.port fun k => apart.1 ?_
      exact List.mem_singleton.mp k ▸ List.mem_map_of_mem hd
    refine ih placed ⟨fun d hd => ?_, apart.2⟩ fun d hd => ?_
    · rw [State.serves, other d hd]
      exact serve d (.tail _ hd)
    · rw [other d hd]
      exact places d (.tail _ hd)

/-! ### The head (R23, R25) -/

theorem returnCredits_keepsPorts (s : State) (path : CreditPath) (n : Nat) : s.KeepsPorts (s.returnCredits path n) := by
  cases path <;> exact .ofSame rfl rfl rfl

theorem leaveHead_keepsPorts (s : State) (rest : List Request) (credit : CreditPath) : s.KeepsPorts (s.leaveHead rest credit) :=
  .trans (t := { s with iq := { s.iq with fifo := rest } }) (.ofSame rfl rfl rfl) (returnCredits_keepsPorts _ credit 1)

theorem newHead_keepsPorts (s : State) : s.KeepsPorts s.newHead := by
  unfold State.newHead
  split
  · exact .ofSame rfl rfl rfl
  · split
    · exact .ofSame rfl rfl rfl
    · exact .ofSame rfl rfl rfl

theorem reportHit_keepsPorts (s : State) (w : Option WindowIx) : s.KeepsPorts (s.reportHit w) := by
  cases w <;> exact .ofSame rfl rfl rfl

theorem answerHead_keepsPorts (s : State) (kind : MemKind) (t : Tag) (a : Addr) (st : Status) (w : Option WindowIx)
    (ev : Option FaultKind) :
    s.KeepsPorts (s.answerHead kind t a st w ev) := by
  have told : (s.reportHit w).KeepsPorts ((s.reportHit w).reportRefused ev kind t a w) := by
    unfold State.reportRefused
    split
    · exact report_keepsPorts _ (by simp)
    · exact .refl _
  exact ((reportHit_keepsPorts s w).trans told).trans (place_keepsPorts _ _)

theorem State.GivesCopies.congr {s t : State} {cs : List Copy} (h : s.GivesCopies cs) (ports : t.ports = s.ports) : t.GivesCopies cs :=
  ⟨fun c hc => by
    rw [State.serves, State.port_congr ports]
    exact h.serve c hc, h.apart⟩

theorem attempt_portsSound {s : State} (plans : s.PlansSound) (h : s.PortsSoundBut []) (credit : CreditPath) :
    (s.attempt credit).PortsSoundBut [] := by
  unfold State.attempt
  split
  · exact h
  · next r rest _ =>
    have left := leaveHead_keepsPorts s rest credit
    split
    · refine State.PortsSoundBut.keep ((h.keep left).keep ?_) (newHead_keepsPorts _)
      exact .ofSame rfl rfl rfl
    · next kind a length data _ =>
      split
      · exact h.keep (.ofSame rfl rfl rfl)
      · exact h.keep ((left.trans (answerHead_keepsPorts _ _ _ _ _ _ _)).trans (newHead_keepsPorts _))
      · next i cls cs skipped taken =>
        obtain ⟨gives, places⟩ := decideMemory_takeIn_ports plans taken
        set e := s.newEntry r.tag kind length data i cls cs skipped
        let entered : State := ({ s.leaveHead rest credit with ott := (s.leaveHead rest credit).ott ++ [e] } : State).reportHit (some e.window)
        have enters : s.KeepsPorts entered := left.trans (.ofSame rfl rfl rfl)
        have placed := (h.keep enters).placeCopies (gives.congr enters.ports)
          (fun c hc => by rw [State.port_congr enters.ports]; exact places c hc) r.tag
        exact placed.keep (newHead_keepsPorts _)

theorem execHeadAttempt_portsSound (k : Nat) (credit : CreditPath) {s : State} (plans : s.PlansSound) (h : s.PortsSoundBut []) :
    ∃ t, execHeadAttempt k credit s = .next t ∧ t.PortsSoundBut [] := by
  refine ⟨_, rfl, ?_⟩
  split
  · exact h
  · split
    · exact h
    · next rest _ =>
      let s1 : State := { s with mail := { s.mail with attempts := rest } }
      have taken : s1.PortsSoundBut [] := h.keep (.ofSame rfl rfl rfl)
      simp only
      split
      · exact attempt_portsSound (s := s1) plans taken credit
      · exact taken

/-! ### Packets (R5, R20) -/

theorem arrive_keepsPorts (s : State) (frame : List Byte) : s.KeepsPorts (s.arrive frame) := by
  have fault (u : State) (same : s.KeepsPorts u) (kind : LinkFaultKind) (t : Option Tag) : s.KeepsPorts (u.upstreamFault kind t) :=
    same.trans (report_keepsPorts u (by simp))
  have discarded : s.KeepsPorts s.discardPacket := .ofSame rfl rfl rfl
  unfold State.arrive
  split
  · exact .refl s
  split
  · exact fault s (.refl s) _ _
  split
  · exact fault _ discarded _ _
  split
  · exact fault _ discarded _ _
  unfold State.enqueue
  simp only
  split
  · refine State.KeepsPorts.trans ?_ (newHead_keepsPorts _)
    exact .ofSame rfl rfl rfl
  · exact .ofSame rfl rfl rfl

theorem arrivals_keepsPorts (frames : List (List Byte)) (s : State) : s.KeepsPorts (frames.foldl State.arrive s) := by
  induction frames generalizing s with
  | nil => exact .refl s
  | cons f fs ih => exact (arrive_keepsPorts s f).trans (ih _)

/-! ### Control requests -/

/-- What the Control Unit carries out keeps the ports sound. -/
def KeepsPortsSound (carry : State → Tag → List Byte → State) : Prop :=
  ∀ (s : State) (t : Tag) (payload : List Byte), s.PortsSoundBut [] → (carry s t payload).PortsSoundBut []

theorem keepsPortsSound_of {carry : State → Tag → List Byte → State}
    (h : ∀ (s : State) (t : Tag) (payload : List Byte), s.KeepsPorts (carry s t payload)) : KeepsPortsSound carry :=
  fun s t payload k => k.keep (h s t payload)

theorem State.PortsSoundBut.reply {s : State} {ps : List PortId} (h : s.PortsSoundBut ps) (t : Tag) (st : Status) (c : List Byte) :
    (s.reply t st c).PortsSoundBut ps := h.keep (reply_keepsPorts s t st c)

theorem State.KeepsPorts.reply {s u : State} (h : s.KeepsPorts u) (t : Tag) (st : Status) (c : List Byte) : s.KeepsPorts (u.reply t st c) :=
  h.trans (reply_keepsPorts u t st c)

theorem withLength_keepsPortsSound (n : Nat) {carry : State → Tag → List Byte → State} (h : KeepsPortsSound carry) :
    KeepsPortsSound (withLength n carry) := by
  intro s t payload k
  unfold withLength
  split
  · exact h s t payload k
  · exact k.reply t _ _

theorem loadPagesLength_keepsPortsSound {carry : State → Tag → List Byte → State} (h : KeepsPortsSound carry) :
    KeepsPortsSound (loadPagesLength carry) := by
  intro s t payload k
  unfold loadPagesLength
  split
  · exact h s t payload k
  · exact k.reply t _ _

theorem unlessBusy_keepsPortsSound {carry : State → Tag → List Byte → State} (h : KeepsPortsSound carry) :
    KeepsPortsSound (unlessBusy carry) := by
  intro s t payload k
  unfold unlessBusy
  split
  · exact h s t payload k
  · exact k.reply t _ _

/-- A port command that names port 0 takes its auto-enable flag at most (R193). -/
theorem State.PortsSoundBut.clearAutoEnable {s : State} {ps : List PortId} (h : s.PortsSoundBut ps) (p : PortId) :
    (s.clearAutoEnable p).PortsSoundBut ps := by
  unfold State.clearAutoEnable
  split
  · exact h.rewrite (h.steady p).autoCleared fun _ timed => timed
  · exact h

theorem onPort_keepsPortsSound {carry : State → Tag → List Byte → PortId → State}
    (h : ∀ (s : State) (t : Tag) (payload : List Byte) (p : PortId), s.PortsSoundBut [] → (carry s t payload p).PortsSoundBut []) :
    KeepsPortsSound (onPort carry) := by
  intro s t payload k
  unfold onPort
  split
  · next p _ => exact h _ t payload p (k.clearAutoEnable p)
  · exact k.reply t _ _

/-- The Control Unit takes a request, and then the packets that arrived behind it. -/
theorem takeRequest_portsSound (accepts : List Byte → Bool) {carry : State → Tag → List Byte → State} (h : KeepsPortsSound carry)
    {s : State} (k : s.PortsSoundBut []) : (s.takeRequest accepts carry).PortsSoundBut [] := by
  have taken : s.takeUp.PortsSoundBut [] := k.keep (.ofSame rfl rfl rfl)
  unfold State.takeRequest
  split
  · exact k
  · split
    · exact (h _ _ _ taken).keep (arrivals_keepsPorts _ _)
    · exact k

namespace State.PortsSoundBut

variable {s : State}

theorem enablePort (h : s.PortsSoundBut []) (t : Tag) (payload : List Byte) (p : PortId) : (s.enablePort t payload p).PortsSoundBut [] := by
  have enabled : (if s.pins.link.get p = true then (s.activate p).reply t .done [] else s.reply t .linkNotReady []).PortsSoundBut [] := by
    split
    · exact h.activate.reply t _ _
    · exact h.reply t _ _
  unfold State.enablePort
  split
  · exact h.reply t _ _
  · exact h.reply t _ _
  · exact h.reply t _ _
  · exact enabled
  · exact enabled

theorem disablePort (h : s.PortsSoundBut []) (order : Order) (t : Tag) (payload : List Byte) (p : PortId) :
    (s.disablePort order t payload p).PortsSoundBut [] := by
  have leaves (enabled : (s.port p).state ≠ .disabled) := h.weaken.leaveService enabled (st := .disabled) (c := none) rfl (by simp)
    [.reply t .done] order
  unfold State.disablePort
  split
  · exact h.reply t _ _
  all_goals
    next state => exact leaves (by simp [state])

theorem parkPort (h : s.PortsSoundBut []) (t : Tag) (payload : List Byte) (p : PortId) : (s.parkPort t payload p).PortsSoundBut [] := by
  unfold State.parkPort
  split
  · next active =>
    split
    · exact h.reply t _ _
    · split
      · next nothing =>
        have held : (s.port p).egress = [] ∧ ∀ i, (s.port p).slots.get i = .free := by
          simp only [Port.holdsNothing, Bool.and_eq_true, List.isEmpty_iff, List.all_eq_true, beq_iff_eq] at nothing
          exact ⟨nothing.1, fun i => nothing.2 _ (by simp [vget])⟩
        exact (h.weaken.park active held.1 held.2).reply t _ _
      · exact h.reply t _ _
  all_goals exact h.reply t _ _

end State.PortsSoundBut

end Sys2Proof.Machine
end

section
/-! PROOFS. Every step keeps the ports sound, command by command. -/

namespace Sys2Proof.Machine

/-! ### What the other control requests write -/

theorem leField_two_le (bs : List Byte) (i : Nat) : leField bs i 2 ≤ 65535 := by
  rw [leField_succ, leField_succ, leField_zero]
  omega

/-- SET PORT writes timeouts in their ranges and brings the idle timer to its conditions (R105). -/
theorem State.PortsSoundBut.setTimeouts {s : State} (h : s.PortsSoundBut []) (t : Tag) (payload : List Byte) (p : PortId) :
    (s.setTimeouts t payload p).PortsSoundBut [] := by
  unfold State.setTimeouts
  simp only
  split
  · next ranges =>
    have steady : ({ s.port p with
        responseTimeout := leField payload 2 2, wakeTimeout := leField payload 4 2, idlePark := leField payload 6 2 } : Port).Steady p :=
      { h.steady p with
        responseRange := ⟨ranges.1, leField_two_le _ _⟩, wakeRange := ⟨ranges.2.1, ranges.2.2⟩, idleRange := leField_two_le _ _ }
    exact (h.setPort steady).settleIdle.reply t _ _
  · exact h.reply t _ _

theorem State.PortsSoundBut.clearPortCounters {s : State} (h : s.PortsSoundBut []) : s.clearPortCounters.PortsSoundBut [] := by
  have port (q : PortId) : s.clearPortCounters.port q = (s.port q).clearCounters := get_map _ _ q
  refine h.ofPorts (fun _ k => k) (fun q steady => ?_) (fun q _ timed => ?_)
  all_goals rw [port]
  · exact steady.counters _ _ _ _
  · exact timed

theorem clearHits_keepsPorts (s : State) : s.KeepsPorts s.clearHits := .ofSame rfl rfl rfl

theorem clearCounters_keepsPortsSound : KeepsPortsSound State.clearCounters := by
  intro s t payload h
  have hits := h.keep (clearHits_keepsPorts s)
  unfold State.clearCounters
  split
  · exact hits.reply t _ _
  · exact h.clearPortCounters.reply t _ _
  · exact hits.clearPortCounters.reply t _ _
  · exact h.reply t _ _

theorem readWindow_keepsPorts (s : State) (t : Tag) (payload : List Byte) : s.KeepsPorts (s.readWindow t payload) := by
  unfold State.readWindow
  split
  all_goals exact reply_keepsPorts s t _ _

theorem readPage_keepsPorts (s : State) (t : Tag) (payload : List Byte) : s.KeepsPorts (s.readPage t payload) := by
  unfold State.readPage
  simp only
  split
  all_goals exact reply_keepsPorts s t _ _

theorem readPort_keepsPorts (due : List (BitVec 16)) (s : State) (t : Tag) (payload : List Byte) :
    s.KeepsPorts (s.readPort due t payload) := by
  unfold State.readPort
  split
  all_goals exact reply_keepsPorts s t _ _

theorem planStore_keepsPorts (s : State) (ps : PlanStore) : s.KeepsPorts { s with ps := ps } := .ofSame rfl rfl rfl

theorem writeStaged_keepsPorts (s : State) (b : Bank) (t : Tag) : s.KeepsPorts (s.writeStaged b t) :=
  (planStore_keepsPorts s _).reply t _ _

theorem loadWindow_keepsPorts (s : State) (t : Tag) (payload : List Byte) : s.KeepsPorts (s.loadWindow t payload) := by
  unfold State.loadWindow
  split
  · exact writeStaged_keepsPorts s _ t
  · exact reply_keepsPorts s t _ _

theorem clearWindow_keepsPorts (s : State) (t : Tag) (payload : List Byte) : s.KeepsPorts (s.clearWindow t payload) := by
  unfold State.clearWindow
  split
  · exact writeStaged_keepsPorts s _ t
  · exact reply_keepsPorts s t _ _

theorem loadPages_keepsPorts (s : State) (t : Tag) (payload : List Byte) : s.KeepsPorts (s.loadPages t payload) := by
  unfold State.loadPages
  simp only
  split
  · exact writeStaged_keepsPorts s _ t
  · exact reply_keepsPorts s t _ _

theorem startPlanOp_keepsPorts (op : PlanOp) (c : HeldCommand) (s : State) (t : Tag) : s.KeepsPorts (s.startPlanOp op t c) :=
  .ofSame rfl rfl rfl

theorem swap_keepsPorts (s : State) (escalated : Bool) : s.KeepsPorts (s.swap escalated) := by
  have exchanged : s.KeepsPorts s.exchange := .ofSame rfl rfl rfl
  have told := exchanged.trans (report_keepsPorts _ (o := .switchDone) (by simp))
  unfold State.swap
  simp only
  split
  · exact told.trans (report_keepsPorts _ (by simp))
  · exact told

theorem switchPlan_keepsPorts (s : State) (t : Tag) (payload : List Byte) : s.KeepsPorts (s.switchPlan t payload) := by
  unfold State.switchPlan
  split
  · split
    · exact (swap_keepsPorts s false).reply t _ _
    · exact .ofSame rfl rfl rfl
  · split
    · exact (swap_keepsPorts s false).reply t _ _
    · exact .ofSame rfl rfl rfl
  · exact reply_keepsPorts s t _ _

theorem setPlanTiming_keepsPorts (s : State) (t : Tag) (payload : List Byte) : s.KeepsPorts (s.setPlanTiming t payload) := by
  unfold State.setPlanTiming
  simp only
  split
  · exact reply_keepsPorts s t _ _
  · exact (planStore_keepsPorts s _).reply t _ _

theorem setTimebase_keepsPorts (s : State) (t : Tag) (payload : List Byte) : s.KeepsPorts (s.setTimebase t payload) := by
  have set (tb : Timebase) : s.KeepsPorts { s with tb := tb } := .ofSame rfl rfl rfl
  unfold State.setTimebase
  split
  · exact (set _).reply t _ _
  · exact reply_keepsPorts s t _ _

theorem State.PortsSoundBut.resetTraffic {s : State} (h : s.PortsSoundBut []) (t : Tag) : (s.resetTraffic t).PortsSoundBut [] := by
  exact ((h.reply t .done []).keep (t := (s.reply t .done []).requestAbort .resetTraffic) (.ofSame rfl rfl rfl)).returnWaking

theorem resetFull_keepsPorts (s : State) (t : Tag) (sel : PlanSel) (credit : CreditPath) (o : FullOrder) :
    s.KeepsPorts (s.resetFull t sel credit o) := by
  have begun := ((reply_keepsPorts s t .done []).trans (planStore_keepsPorts _ { (s.reply t .done []).ps with op := .idle })).trans
    (returnCredits_keepsPorts _ credit s.iq.fifo.length)
  refine (begun.trans (answerAborted_keepsPorts _ ((s.fullAnswers o.order).take ((s.fullAnswers o.order).length - o.late)))).trans ?_
  exact .ofSame rfl rfl rfl

/-! ### The link and the Plan Store -/

theorem settleLink_keepsPorts (s : State) : s.KeepsPorts s.settleLink := by
  unfold State.settleLink
  split
  · exact .ofSame rfl rfl rfl
  · exact .refl s

theorem pins_keepsPorts (s : State) (p : Pins) : s.KeepsPorts { s with pins := p } := .ofSame rfl rfl rfl

theorem execCarrierGained_keepsPorts (s : State) : ∃ t, execCarrierGained s = .next t ∧ s.KeepsPorts t := by
  refine ⟨_, rfl, ?_⟩
  split
  · exact .refl s
  · exact (pins_keepsPorts s _).trans (settleLink_keepsPorts _)

theorem execCarrierLost_keepsPorts (s : State) : ∃ t, execCarrierLost s = .next t ∧ s.KeepsPorts t := by
  refine ⟨_, rfl, ?_⟩
  split
  · exact .ofSame rfl (take_strikes (o := .uplinkLoss) (by simp) s.eu) rfl
  · exact pins_keepsPorts s _

theorem execLinkLossIq_keepsPorts (s : State) : ∃ t, execLinkLossIq s = .next t ∧ s.KeepsPorts t := by
  refine ⟨_, rfl, ?_⟩
  split
  · exact .ofSame rfl rfl rfl
  · exact .refl s

theorem execLinkLossPlanStore_keepsPorts (s : State) : ∃ t, execLinkLossPlanStore s = .next t ∧ s.KeepsPorts t := by
  have taken : s.KeepsPorts s.planStoreLoss := .ofSame rfl rfl rfl
  refine ⟨_, rfl, ?_⟩
  split
  · exact taken.trans (settleLink_keepsPorts _)
  · exact .refl s

theorem execLinkLossControlUnit_keepsPorts (s : State) : ∃ t, execLinkLossControlUnit s = .next t ∧ s.KeepsPorts t := by
  have taken : s.KeepsPorts s.controlUnitLoss := .ofSame rfl rfl rfl
  refine ⟨_, rfl, ?_⟩
  split
  · exact taken.trans (settleLink_keepsPorts _)
  · exact .refl s

theorem execPacketArrival_keepsPorts (frame : List Byte) (s : State) : ∃ t, execPacketArrival frame s = .next t ∧ s.KeepsPorts t := by
  refine ⟨_, rfl, ?_⟩
  split
  · exact .ofSame rfl rfl rfl
  · exact arrive_keepsPorts s frame

theorem execCreditReturn_keepsPorts (s : State) : ∃ t, execCreditReturn s = .next t ∧ s.KeepsPorts t := by
  refine ⟨_, rfl, ?_⟩
  split
  · exact .refl s
  · exact .ofSame rfl rfl rfl

theorem execTransmitDone_keepsPorts (s : State) : ∃ t, execTransmitDone s = .next t ∧ s.KeepsPorts t := by
  refine ⟨_, rfl, ?_⟩
  split
  all_goals exact .ofSame rfl rfl rfl

theorem execStartUp_keepsPorts (sel : PlanSel) (s : State) : ∃ t, execStartUp sel s = .next t ∧ s.KeepsPorts t := by
  refine ⟨_, rfl, ?_⟩
  split
  · exact .ofSame rfl rfl rfl
  · exact .ofSame rfl rfl rfl
  · split
    all_goals exact .ofSame rfl rfl rfl

theorem execHitReport_keepsPorts (k : Nat) (s : State) : ∃ t, execHitReport k s = .next t ∧ s.KeepsPorts t := by
  refine ⟨_, rfl, ?_⟩
  split
  all_goals exact .ofSame rfl rfl rfl

theorem execDrainTimeout_keepsPorts (s : State) : ∃ t, execDrainTimeout s = .next t ∧ s.KeepsPorts t := by
  refine ⟨_, rfl, ?_⟩
  split
  all_goals exact .ofSame rfl rfl rfl

theorem execHoldoffExpiry_keepsPorts (s : State) : ∃ t, execHoldoffExpiry s = .next t ∧ s.KeepsPorts t := by
  refine ⟨_, rfl, ?_⟩
  split
  all_goals exact .ofSame rfl rfl rfl

theorem reportEnd_keepsPorts (s : State) (owed : Bool) (t : Tag) (st : Status) (c : List Byte) : s.KeepsPorts (s.reportEnd owed t st c) := by
  unfold State.reportEnd
  split
  all_goals exact .ofSame rfl rfl rfl

theorem execOttEmptyReport_keepsPorts (s : State) : ∃ t, execOttEmptyReport s = .next t ∧ s.KeepsPorts t := by
  let s1 : State := { s with mail := { s.mail with emptyReports := s.mail.emptyReports - 1 } }
  have taken : s.KeepsPorts s1 := .ofSame rfl rfl rfl
  refine ⟨_, rfl, ?_⟩
  split
  · exact .refl s
  · simp only
    split
    · split
      · exact ((taken.trans (swap_keepsPorts s1 _)).trans (reportEnd_keepsPorts _ _ _ _ _)).trans (settleLink_keepsPorts _)
      · exact taken
    all_goals exact taken

theorem finishPlanOp_keepsPorts (s : State) (owed : Bool) (t : Tag) : s.KeepsPorts (s.finishPlanOp owed t) :=
  (planStore_keepsPorts s _).trans (reportEnd_keepsPorts _ _ _ _ _)

theorem execCopyStep_keepsPorts (s : State) : ∃ t, execCopyStep s = .next t ∧ s.KeepsPorts t := by
  refine ⟨_, rfl, ?_⟩
  split
  · simp only
    split
    · exact .ofSame rfl rfl rfl
    · exact (planStore_keepsPorts s _).trans (finishPlanOp_keepsPorts _ _ _)
  · exact .refl s

theorem execClearStep_keepsPorts (s : State) : ∃ t, execClearStep s = .next t ∧ s.KeepsPorts t := by
  refine ⟨_, rfl, ?_⟩
  split
  · simp only
    split
    · exact .ofSame rfl rfl rfl
    · exact (planStore_keepsPorts s _).trans (finishPlanOp_keepsPorts _ _ _)
  · exact .refl s

theorem execHeldReplyRelease_keepsPorts (k : Nat) (s : State) : ∃ t, execHeldReplyRelease k s = .next t ∧ s.KeepsPorts t := by
  refine ⟨_, rfl, ?_⟩
  split
  · exact .refl s
  · next e rest _ =>
    have taken (cu : ControlUnit) : s.KeepsPorts { s with cu := cu, mail := { s.mail with ends := rest } } := .ofSame rfl rfl rfl
    simp only
    split
    · exact (taken _).reply _ _ _
    · exact taken s.cu

/-! ### What reaches the ports -/

theorem execLinkLossPorts_portsSound {s : State} (h : s.PortsSoundBut []) : ∃ t, execLinkLossPorts s = .next t ∧ t.PortsSoundBut [] := by
  have taken : s.portsLoss.PortsSoundBut [] := h.returnWaking.keep (.ofSame rfl rfl rfl)
  refine ⟨_, rfl, ?_⟩
  split
  · exact taken.keep (settleLink_keepsPorts _)
  · exact h

/-- An occurrence that the Event Unit takes is no strike, since no strike is on its way (R177). -/
theorem execEventOccurrence_portsSound (k : Nat) {s : State} (h : s.PortsSoundBut []) :
    ∃ t, execEventOccurrence k s = .next t ∧ t.PortsSoundBut [] := by
  refine ⟨_, rfl, ?_⟩
  split
  · exact h
  · next o rest found =>
    have items (x : Occurrence) := (takeAt_perm found).mem_iff (a := x)
    have noStrike (p : PortId) : o ≠ .strike p := fun e => h.strikes p ((items _).mp (by simp [e]))
    have left : ({ s with mail := { s.mail with occurrences := rest } } : State).PortsSoundBut [] :=
      h.keep ⟨rfl, rfl, fun p hp => (items _).mp (.tail _ hp)⟩
    exact left.keep (capture_keepsPorts _ noStrike)

theorem execTargetResponse_portsSound (p : PortId) (f : TargetFrame) {s : State} (h : s.PortsSoundBut []) :
    ∃ t, execTargetResponse p f s = .next t ∧ t.PortsSoundBut [] := by
  refine ⟨_, rfl, ?_⟩
  split
  · exact h.malformedTarget p _
  · exact h.malformedTarget p _
  · exact h.matchResponse p _ _ _
  · exact h.matchResponse p _ _ _

theorem execDeadlineExpiry_portsSound (p : PortId) (i : SlotId) (o : Order) {s : State} (h : s.PortsSoundBut []) :
    ∃ t, execDeadlineExpiry p i o s = .next t ∧ t.PortsSoundBut [] := by
  refine ⟨_, rfl, ?_⟩
  split
  · next used => exact h.deadline (by simp [used]) _ o
  · next used => exact h.deadline (by simp [used]) _ o
  all_goals exact h

/-- A port whose idle timer runs is in its idle conditions, and so has nothing to give up when it parks (R96, R97). -/
theorem execIdleTimeout_portsSound (p : PortId) {s : State} (h : s.PortsSoundBut []) :
    ∃ t, execIdleTimeout p s = .next t ∧ t.PortsSoundBut [] := by
  refine ⟨_, rfl, ?_⟩
  split
  · next expired =>
    have idles := (h.timed p (by simp)).mp (by simp [expired.2])
    simp only [Port.idles, Bool.and_eq_true, List.isEmpty_iff, List.all_eq_true, beq_iff_eq] at idles
    obtain ⟨⟨⟨⟨-, empty⟩, free⟩, -⟩, -⟩ := idles
    exact h.weaken.park expired.1 empty fun i => free _ (by simp [vget])
  · exact h

theorem execWakeTimeout_portsSound (p : PortId) (o : Order) {s : State} (h : s.PortsSoundBut []) :
    ∃ t, execWakeTimeout p o s = .next t ∧ t.PortsSoundBut [] := by
  refine ⟨_, rfl, ?_⟩
  split
  · next expired =>
    have counted := h.countTimeout p
    have waking : ((s.countTimeout p).port p).state = .waking := by
      rw [State.countTimeout, State.port_setPort]
      exact expired.1
    simp only
    split
    · exact counted.weaken.quarantine (by simp [waking]) _ _ _
    · exact counted.failWake waking o
  · exact h

theorem setLink_keepsPorts (s : State) (p : PortId) (up : Bool) : s.KeepsPorts (s.setLink p up) := .ofSame rfl rfl rfl

theorem execTargetLinkUp_portsSound (p : PortId) {s : State} (h : s.PortsSoundBut []) :
    ∃ t, execTargetLinkUp p s = .next t ∧ t.PortsSoundBut [] := by
  have set := h.keep (setLink_keepsPorts s p true)
  refine ⟨_, rfl, ?_⟩
  split
  · exact h
  · split
    · exact set
    · exact set.linkUp p

theorem execTargetLinkDown_portsSound (p : PortId) (o : Order) {s : State} (h : s.PortsSoundBut []) :
    ∃ t, execTargetLinkDown p o s = .next t ∧ t.PortsSoundBut [] := by
  refine ⟨_, rfl, ?_⟩
  split
  · exact (h.keep (setLink_keepsPorts s p false)).linkDown p o
  · exact h

theorem execOttAbort_portsSound (r : AbortTaking) {s : State} (h : s.PortsSoundBut []) :
    ∃ t, execOttAbort r s = .next t ∧ t.PortsSoundBut [] := by
  refine ⟨_, rfl, ?_⟩
  split
  · exact h
  · next a rest _ =>
    let s1 : State := { s with mail := { s.mail with aborts := rest } }
    have taken : s1.PortsSoundBut [] := h.keep (.ofSame rfl rfl rfl)
    exact (taken.abort r.order).keep (abortTaken_keepsPorts _ a)

/-! ### Every step -/

/-- A command that touches nothing that the ports rest on keeps them sound. -/
theorem State.PortsSoundBut.kept {s : State} (h : s.PortsSoundBut []) {o : Host.Outcome State Fault Refusal}
    (k : ∃ t, o = .next t ∧ s.KeepsPorts t) : ∃ t, o = .next t ∧ t.PortsSoundBut [] := by
  obtain ⟨t, done, same⟩ := k
  exact ⟨t, done, h.keep same⟩

theorem request_portsSound {c : Instr} (accepts : List Byte → Bool) {carry : State → Tag → List Byte → State} (h : KeepsPortsSound carry)
    (he : ∀ s : State, exec c s = .next (s.takeRequest accepts carry)) {s : State} (k : s.PortsSoundBut []) :
    ∃ t, exec c s = .next t ∧ t.PortsSoundBut [] :=
  ⟨_, he s, takeRequest_portsSound accepts h k⟩

/-- Every command keeps the ports sound; the plans are needed by the head alone, whose copies go to distinct members (R76). -/
theorem exec_portsSound (c : Instr) {s : State} (plans : s.PlansSound) (h : s.PortsSoundBut []) :
    ∃ t, exec c s = .next t ∧ t.PortsSoundBut [] := by
  have replies (st : Status) (contents : State → List Byte) : KeepsPortsSound fun s t _ => s.reply t st (contents s) :=
    fun _ t _ k => k.reply t st _
  have apart (n : Nat) {carry : State → Tag → List Byte → State}
      (k : ∀ (s : State) (t : Tag) (payload : List Byte), s.KeepsPorts (carry s t payload)) : KeepsPortsSound (withLength n carry) :=
    withLength_keepsPortsSound n (keepsPortsSound_of k)
  have plan (n : Nat) {carry : State → Tag → List Byte → State}
      (k : ∀ (s : State) (t : Tag) (payload : List Byte), s.KeepsPorts (carry s t payload)) :
      KeepsPortsSound (withLength n (unlessBusy carry)) :=
    withLength_keepsPortsSound n (unlessBusy_keepsPortsSound (keepsPortsSound_of k))
  have port (n : Nat) {carry : State → Tag → List Byte → PortId → State}
      (k : ∀ (s : State) (t : Tag) (payload : List Byte) (p : PortId), s.PortsSoundBut [] → (carry s t payload p).PortsSoundBut []) :
      KeepsPortsSound (withLength n (onPort carry)) := withLength_keepsPortsSound n (onPort_keepsPortsSound k)
  have events (n : Nat) (eu : EventUnit → List Byte → EventUnit) (same : ∀ x payload, (eu x payload).strikes = x.strikes) :
      KeepsPortsSound (withLength n fun s t payload => ({ s with eu := eu s.eu payload } : State).reply t .done []) :=
    apart n fun s t payload =>
      State.KeepsPorts.reply (s := s) (u := { s with eu := eu s.eu payload }) ⟨rfl, same s.eu payload, fun _ k => k⟩ t _ _
  cases c with
  | powerOn => exact ⟨_, rfl, h.assertReset _⟩
  | resetNAssert => exact ⟨_, rfl, (h.assertReset s.rs.pinHeld).keep (pins_keepsPorts _ _)⟩
  | startUp sel => exact h.kept (execStartUp_keepsPorts sel s)
  | startUpComplete => exact execStartUpComplete_portsSound h
  | carrierGained => exact h.kept (execCarrierGained_keepsPorts s)
  | carrierLost => exact h.kept (execCarrierLost_keepsPorts s)
  | linkLossIq => exact h.kept (execLinkLossIq_keepsPorts s)
  | linkLossPlanStore => exact h.kept (execLinkLossPlanStore_keepsPorts s)
  | linkLossControlUnit => exact h.kept (execLinkLossControlUnit_keepsPorts s)
  | linkLossPorts => exact execLinkLossPorts_portsSound h
  | packetArrival frame => exact h.kept (execPacketArrival_keepsPorts frame s)
  | packetDiscardNotUp frame => exact ⟨s, rfl, h⟩
  | creditReturn => exact h.kept (execCreditReturn_keepsPorts s)
  | transmitDone => exact h.kept (execTransmitDone_keepsPorts s)
  | headAttempt k credit => exact execHeadAttempt_portsSound k credit plans h
  | hitReport k => exact h.kept (execHitReport_keepsPorts k s)
  | eventOccurrence k => exact execEventOccurrence_portsSound k h
  | targetResponse p f => exact execTargetResponse_portsSound p f h
  | deadlineExpiry p i o => exact execDeadlineExpiry_portsSound p i o h
  | idleTimeout p => exact execIdleTimeout_portsSound p h
  | wakeTimeout p o => exact execWakeTimeout_portsSound p o h
  | targetLinkUp p => exact execTargetLinkUp_portsSound p h
  | targetLinkDown p o => exact execTargetLinkDown_portsSound p o h
  | tickBoundary => exact execTickBoundary_portsSound h
  | holdoffExpiry => exact h.kept (execHoldoffExpiry_keepsPorts s)
  | drainTimeout => exact h.kept (execDrainTimeout_keepsPorts s)
  | ottAbort r => exact execOttAbort_portsSound r h
  | ottEmptyReport => exact h.kept (execOttEmptyReport_keepsPorts s)
  | copyStep => exact h.kept (execCopyStep_keepsPorts s)
  | clearStep => exact h.kept (execClearStep_keepsPorts s)
  | heldReplyRelease k => exact h.kept (execHeldReplyRelease_keepsPorts k s)
  | resetTraffic =>
    refine request_portsSound _ (fun s t payload k => ?_) (fun _ => rfl) h
    split
    · exact k.resetTraffic t
    · exact k.reply t _ _
  | resetFull sel credit o =>
    refine request_portsSound _ (fun s t payload k => ?_) (fun _ => rfl) h
    split
    · exact k.keep (resetFull_keepsPorts s t sel credit o)
    · exact k.reply t _ _
  | readStatus => exact request_portsSound _ (withLength_keepsPortsSound 1 (replies _ _)) (fun _ => rfl) h
  | readWindow => exact request_portsSound _ (apart 3 readWindow_keepsPorts) (fun _ => rfl) h
  | readPage => exact request_portsSound _ (apart 4 readPage_keepsPorts) (fun _ => rfl) h
  | readPort due => exact request_portsSound _ (apart 2 (readPort_keepsPorts due)) (fun _ => rfl) h
  | readEvents => exact request_portsSound _ (withLength_keepsPortsSound 1 (replies _ _)) (fun _ => rfl) h
  | readResetCause => exact request_portsSound _ (withLength_keepsPortsSound 1 (replies _ _)) (fun _ => rfl) h
  | clearCounters => exact request_portsSound _ (withLength_keepsPortsSound 2 clearCounters_keepsPortsSound) (fun _ => rfl) h
  | loadWindow => exact request_portsSound _ (plan 34 loadWindow_keepsPorts) (fun _ => rfl) h
  | clearWindow => exact request_portsSound _ (plan 2 clearWindow_keepsPorts) (fun _ => rfl) h
  | loadPages =>
    exact request_portsSound _ (loadPagesLength_keepsPortsSound (unlessBusy_keepsPortsSound (keepsPortsSound_of loadPages_keepsPorts)))
      (fun _ => rfl) h
  | copyPlan => exact request_portsSound _ (plan 1 fun s t _ => startPlanOp_keepsPorts (.copying 0 true t) .copyPlan s t) (fun _ => rfl) h
  | clearPlan => exact request_portsSound _ (plan 1 fun s t _ => startPlanOp_keepsPorts (.clearing 0 true t) .clearPlan s t) (fun _ => rfl) h
  | switchPlanDrain => exact request_portsSound _ (plan 2 switchPlan_keepsPorts) (fun _ => rfl) h
  | switchPlanForce => exact request_portsSound _ (plan 2 switchPlan_keepsPorts) (fun _ => rfl) h
  | setPlanTiming => exact request_portsSound _ (apart 3 setPlanTiming_keepsPorts) (fun _ => rfl) h
  | portEnable => exact request_portsSound _ (port 2 fun _ t payload p k => k.enablePort t payload p) (fun _ => rfl) h
  | portDisable o => exact request_portsSound _ (port 2 fun _ t payload p k => k.disablePort o t payload p) (fun _ => rfl) h
  | parkPort => exact request_portsSound _ (port 2 fun _ t payload p k => k.parkPort t payload p) (fun _ => rfl) h
  | setPort => exact request_portsSound _ (port 8 fun _ t payload p k => k.setTimeouts t payload p) (fun _ => rfl) h
  | setEventEnables =>
    exact request_portsSound _ (events 3 (fun eu payload => { eu with enables := eventField payload &&& enableBits }) fun _ _ => rfl)
      (fun _ => rfl) h
  | clearEvents =>
    exact request_portsSound _ (withLength_keepsPortsSound 5 fun _ t payload k => k.clearEvents t payload) (fun _ => rfl) h
  | setHoldoff =>
    exact request_portsSound _ (events 2 (fun eu payload => { eu with holdoffSetting := byteAt payload 1 }) fun _ _ => rfl)
      (fun _ => rfl) h
  | setTimebase => exact request_portsSound _ (apart 2 setTimebase_keepsPorts) (fun _ => rfl) h
  | unknownCommand => exact request_portsSound _ (replies _ _) (fun _ => rfl) h

/-- Settles O8: the queue is apart from the ports, and each command keeps them sound. -/
theorem stepKeepsPortsSound : Obligations.StepKeepsPortsSound := by
  unfold Obligations.StepKeepsPortsSound
  intro s t plans sound h
  rw [portsSound_iff] at sound ⊢
  unfold step at h
  split at h
  · cases h
    exact sound
  · next c rest _ =>
    have queued : ({ s with pending := rest } : State).PortsSoundBut [] := sound.keep (.ofSame rfl rfl rfl)
    obtain ⟨u, done, kept⟩ := exec_portsSound c (s := { s with pending := rest }) plans queued
    rw [done] at h
    cases h
    exact kept

end Sys2Proof.Machine
end

section
/-! PROOFS. The control requests that their commands refuse: by length, by scope or mode, at a busy Plan Store, for a port above 7. -/

namespace Sys2Proof.Machine

/-! ### The checks of a control request (R102, R140, R159) -/

/-- A command whose request the Control Unit has in hand carries it out. -/
theorem exec_request {s : State} {c : Instr} {t : Tag} {payload : List Byte} {accepts : List Byte → Bool}
    {carry : State → Tag → List Byte → State} (h : s.Takes t payload) (he : exec c s = .next (s.takeRequest accepts carry))
    (ha : accepts payload = true) : exec c s = .next (carry s.inHand t payload) := by
  rw [he, State.takeRequest_takes h ha]

section Checks

variable {n : Nat} {carry : State → Tag → List Byte → State} {s : State} {t : Tag} {payload : List Byte}

theorem withLength_right (h : payload.length = n) : withLength n carry s t payload = carry s t payload := if_pos h

theorem withLength_wrong (h : payload.length ≠ n) : withLength n carry s t payload = s.reply t .badArgument [] := if_neg h

theorem unlessBusy_busy (h : s.ps.op ≠ .idle) : unlessBusy carry s t payload = s.reply t .busy [] := if_neg h

theorem unlessBusy_idle (h : s.ps.op = .idle) : unlessBusy carry s t payload = carry s t payload := if_pos h

theorem loadPagesLength_wrong (h : ¬(3 ≤ payload.length ∧ payload.length = 3 + 4 * (byteAt payload 2).toNat)) :
    loadPagesLength carry s t payload = s.reply t .badArgument [] := if_neg h

theorem loadPagesLength_right (h : 3 ≤ payload.length ∧ payload.length = 3 + 4 * (byteAt payload 2).toNat) :
    loadPagesLength carry s t payload = carry s t payload := if_pos h

end Checks

theorem portNumber_eq {b : Byte} {p : PortId} (h : b.toNat = p.val) : portNumber b = some p := by
  have low : b.toNat < 8 := h ▸ p.isLt
  rw [portNumber, dif_pos low]
  exact congrArg some (Fin.ext h)

theorem portNumber_none {b : Byte} (h : 7 < b.toNat) : portNumber b = none := dif_neg (by omega)

/-- A request names a scope or a mode only with a second byte alone behind its identifier. -/
theorem namesScope_of_length {scope id : Byte} {args : List Byte} (h : args.length ≠ 1) : namesScope scope (id :: args) = false := by
  simp [namesScope, h]

theorem namesMode_of_length {mode id : Byte} {args : List Byte} (h : args.length ≠ 1) : namesMode mode (id :: args) = false := by
  simp [namesMode, h]

theorem namesScope_above {scope id b : Byte} (hs : scope.toNat ≤ 1) (h : 1 < b.toNat) : namesScope scope [id, b] = false := by
  have other : b ≠ scope := by rintro rfl; omega
  simpa [namesScope, byteAt] using other

theorem namesMode_above {mode id b : Byte} (hs : mode.toNat ≤ 1) (h : 1 < b.toNat) : namesMode mode [id, b] = false := by
  have other : b ≠ mode := by rintro rfl; omega
  simpa [namesMode, byteAt] using other

/-- A mode byte that is neither DRAIN nor FORCE (R147, R148). -/
theorem switchPlan_noMode {s : State} {t : Tag} {id mode : Byte} (h : 1 < mode.toNat) :
    s.switchPlan t [id, mode] = s.reply t .badArgument [] := by
  have second : (byteAt [id, mode] 1).toNat = mode.toNat := rfl
  unfold State.switchPlan
  rw [second]
  split
  · omega
  · omega
  · rfl

/-! ### The identifiers (R159) -/

/-- The identifiers of the commands. -/
theorem commandOf_none_iff (id : Byte) (args : List Byte) :
    id.toNat ∉ [0x01, 0x10, 0x11, 0x12, 0x13, 0x14, 0x15, 0x16, 0x20, 0x21, 0x22, 0x23, 0x24, 0x25, 0x26, 0x30, 0x31, 0x32, 0x33,
      0x40, 0x41, 0x42, 0x50] ↔ commandOf (id :: args) = none := by
  have first : (byteAt (id :: args) 0).toNat = id.toNat := rfl
  unfold commandOf
  rw [first]
  split
  case h_24 => simp_all
  all_goals
    next known => simp [known]

/-! ### Refusals -/

/-- A row that leaves one scope or mode to another takes a request that does not name it (log 19). -/
theorem accepts_unnamed {names : Bool} (h : names = false) : (true && !names) = true := by
  rw [h]
  rfl

section Refused

variable {s : State} {t : Tag} {id : Byte} {args : List Byte} {c : Instr} {accepts : List Byte → Bool}
  {carry : State → Tag → List Byte → State}

/-- A request of another length than its command's. -/
theorem exec_wrongLength (h : s.Takes t (id :: args)) {n : Nat} (hl : args.length ≠ n)
    (he : exec c s = .next (s.takeRequest accepts (withLength (n + 1) carry))) (ha : accepts (id :: args) = true) :
    exec c s = .next (s.inHand.reply t .badArgument []) := by
  rw [exec_request h he ha, withLength_wrong (by simpa using hl)]

/-- A plan command of the right length while an operation is in progress. -/
theorem exec_busy (h : s.Takes t (id :: args)) (busy : s.ps.op ≠ .idle) {n : Nat} (hl : args.length = n)
    (he : exec c s = .next (s.takeRequest accepts (withLength (n + 1) (unlessBusy carry)))) (ha : accepts (id :: args) = true) :
    exec c s = .next (s.inHand.reply t .busy []) := by
  rw [exec_request h he ha, withLength_right (by simpa using hl), unlessBusy_busy (by exact busy)]

/-- A port command of the right length for a port above 7. -/
theorem exec_noPort {port : Byte} {rest : List Byte} (h : s.Takes t (id :: port :: rest)) (above : 7 < port.toNat) {n : Nat}
    (hl : rest.length = n) {carry : State → Tag → List Byte → PortId → State}
    (he : exec c s = .next (s.takeRequest accepts (withLength (n + 2) (onPort carry)))) (ha : accepts (id :: port :: rest) = true) :
    exec c s = .next (s.inHand.reply t .badArgument []) := by
  have second : byteAt (id :: port :: rest) 1 = port := rfl
  rw [exec_request h he ha, withLength_right (by simp [hl]), onPort, second, portNumber_none above]

/-- A RESET that names no scope, by either row (R170, log 19). -/
theorem exec_noScope (h : s.Takes t (0x01 :: args)) (none : ∀ scope : Byte, scope.toNat ≤ 1 → namesScope scope (0x01 :: args) = false)
    (sel : PlanSel) (credit : CreditPath) (answers : FullOrder) :
    exec .resetTraffic s = .next (s.inHand.reply t .badArgument [])
      ∧ exec (.resetFull sel credit answers) s = .next (s.inHand.reply t .badArgument []) := by
  have traffic := none 0 (by decide)
  have full := none 1 (by decide)
  constructor
  · rw [exec_request h rfl (accepts_unnamed full), traffic]
    rfl
  · rw [exec_request h rfl (accepts_unnamed traffic), full]
    rfl

end Refused

/-- Settles O58, check by check. -/
theorem requestsRefused : Obligations.RequestsRefused := by
  unfold Obligations.RequestsRefused
  intro s t id args due order sel credit answers h
  refine ⟨fun c n row hl => ?_, ?_, fun busy => ⟨fun c n row hl => ?_, ?_, ?_, ?_, ?_⟩, ?_, ?_, ?_, fun none => ?_,
    commandOf_none_iff id args⟩
  · simp only [List.mem_cons, Prod.mk.injEq, List.not_mem_nil, or_false] at row
    iterate 11
      obtain ⟨rfl, rfl, rfl⟩ | row := row
      · exact exec_wrongLength h hl rfl rfl
    iterate 2
      obtain ⟨rfl, rfl, rfl⟩ | row := row
      · exact exec_wrongLength h hl rfl (accepts_unnamed (namesMode_of_length hl))
    iterate 9
      obtain ⟨rfl, rfl, rfl⟩ | row := row
      · exact exec_wrongLength h hl rfl rfl
    rcases row with ⟨rfl, rfl, rfl⟩ | ⟨rfl, rfl, rfl⟩
    · exact (exec_noScope h (fun _ _ => namesScope_of_length hl) sel credit answers).1
    · exact (exec_noScope h (fun _ _ => namesScope_of_length hl) sel credit answers).2
  · rintro rfl hl
    have wrong : ¬(3 ≤ (0x22 :: args).length ∧ (0x22 :: args).length = 3 + 4 * (byteAt (0x22 :: args) 2).toNat) := by
      rintro ⟨least, exact⟩
      rw [List.length_cons] at least exact
      rcases hl with short | ⟨b, second, other⟩
      · omega
      · have count : byteAt (0x22 :: args) 2 = b := by simp [byteAt, second]
        rw [count] at exact
        omega
    rw [exec_request h rfl rfl, loadPagesLength_wrong wrong]
  · simp only [List.mem_cons, Prod.mk.injEq, List.not_mem_nil, or_false] at row
    rcases row with ⟨rfl, rfl, rfl⟩ | ⟨rfl, rfl, rfl⟩ | ⟨rfl, rfl, rfl⟩ | ⟨rfl, rfl, rfl⟩
    all_goals exact exec_busy h busy hl rfl rfl
  · rintro rfl rfl
    exact exec_busy h busy rfl rfl rfl
  · rintro rfl rfl
    exact exec_busy h busy rfl rfl rfl
  · rintro mode rfl rfl above
    exact ⟨exec_busy h busy rfl rfl (accepts_unnamed (namesMode_above (by decide) above)),
      exec_busy h busy rfl rfl (accepts_unnamed (namesMode_above (by decide) above))⟩
  · rintro start count rest rfl rfl hl
    have count : byteAt (0x22 :: start :: count :: rest) 2 = count := rfl
    rw [exec_request h rfl rfl, loadPagesLength_right (by rw [count]; simp only [List.length_cons]; omega), unlessBusy_busy (by exact busy)]
  · rintro scope rfl rfl above
    exact exec_noScope h (fun _ low => namesScope_above low above) sel credit answers
  · rintro port rest rfl above
    refine ⟨?_, ?_, ?_, ?_⟩
    all_goals
      rintro rfl hl
    · exact exec_noPort h above (n := 0) (by simp [hl]) rfl rfl
    · exact exec_noPort h above (n := 0) (by simp [hl]) rfl rfl
    · exact exec_noPort h above (n := 0) (by simp [hl]) rfl rfl
    · exact exec_noPort h above (n := 6) hl rfl rfl
  · rintro mode rfl rfl above idle
    have refused : unlessBusy State.switchPlan s.inHand t [0x25, mode] = s.inHand.reply t .badArgument [] := by
      rw [unlessBusy_idle (by exact idle), switchPlan_noMode above]
    constructor
    · rw [exec_request h rfl (accepts_unnamed (namesMode_above (by decide) above)), withLength_right (n := 2) rfl, refused]
    · rw [exec_request h rfl (accepts_unnamed (namesMode_above (by decide) above)), withLength_right (n := 2) rfl, refused]
  · exact exec_request (accepts := fun payload => commandOf payload == Option.none) (carry := fun s t _ => s.reply t .unknownCommand []) h
      rfl (by simp [none])

end Sys2Proof.Machine
end

section
/-! PROOFS. The port commands: the port that a command names, PORT ENABLE, PARK PORT, SET PORT and PORT DISABLE. -/

namespace Sys2Proof.Machine

/-! ### The port that a command names (R102, R193) -/

/-- The record of the port `p` as a port command that names it finds it: port 0 has lost its auto-enable flag. -/
def State.namedPort (s : State) (p : PortId) : Port := if p = 0 then { s.port p with autoEnable := false } else s.port p

theorem State.setPort_self (s : State) (p : PortId) : s.setPort p (s.port p) = s := by
  have same : s.ports.set p.val (s.port p) p.isLt = s.ports := by
    unfold State.port
    rw [vget, Vector.set_getElem_self]
  unfold State.setPort
  rw [same]

theorem clearAutoEnable_eq (s : State) (p : PortId) : s.clearAutoEnable p = s.setPort p (s.namedPort p) := by
  unfold State.clearAutoEnable State.namedPort
  split
  · rfl
  · exact (s.setPort_self p).symm

/-- The port holds what it held. -/
theorem namedPort_holds (s : State) (p : PortId) :
    (s.namedPort p).egress = (s.port p).egress ∧ (s.namedPort p).slots = (s.port p).slots := by
  unfold State.namedPort
  split
  all_goals exact ⟨rfl, rfl⟩

/-- A port command of the right length for one of the ports is carried out with its flag cleared. -/
theorem exec_portCommand {s : State} {t : Tag} {id b : Byte} {rest : List Byte} {p : PortId} (h : s.Takes t (id :: b :: rest))
    (hb : b.toNat = p.val) {c : Instr} {n : Nat} (hl : rest.length = n) {carry : State → Tag → List Byte → PortId → State}
    {accepts : List Byte → Bool} (he : exec c s = .next (s.takeRequest accepts (withLength (n + 2) (onPort carry))))
    (ha : accepts (id :: b :: rest) = true) :
    exec c s = .next (carry (s.inHand.setPort p (s.namedPort p)) t (id :: b :: rest) p) := by
  have second : byteAt (id :: b :: rest) 1 = b := rfl
  rw [exec_request h he ha, withLength_right (by simp [hl]), onPort, second, portNumber_eq hb]
  exact congrArg (fun u => Host.Outcome.next (carry u t (id :: b :: rest) p)) (clearAutoEnable_eq s.inHand p)

/-! ### Ports that a command moves -/

theorem inService_iff (st : PortState) : st.inService = true ↔ st = .active ∨ st = .parked ∨ st = .waking := by
  cases st <;> simp [PortState.inService]

theorem outOfService_iff (st : PortState) : st.inService = false ↔ st = .disabled ∨ st = .quarantined := by
  cases st <;> simp [PortState.inService]

theorem settleIdle_port_ne (s : State) {p q : PortId} (h : q ≠ p) : (s.settleIdle p).port q = s.port q :=
  State.port_setPort_ne _ _ h.symm

theorem attemptDue_port (s : State) (e : AttemptEvent) (q : PortId) : (s.attemptDue e).port q = s.port q :=
  State.port_congr (State.attemptDue_ports s e) q

theorem reply_port (s : State) (t : Tag) (st : Status) (c : List Byte) (q : PortId) : (s.reply t st c).port q = s.port q :=
  State.port_congr (State.reply_ports s t st c) q

/-- A reply does to the ULC what it would have done in another state with the same ULC and the same events. -/
theorem reply_ulc_congr {s u : State} (ulc : u.ulc = s.ulc) (eu : u.eu = s.eu) (t : Tag) (st : Status) (c : List Byte) :
    (u.reply t st c).ulc = (s.reply t st c).ulc := by
  unfold State.reply
  rw [eu]
  exact place_ulc_congr ulc _

/-- A port with nothing held idles in ACTIVE if its strike flag is clear and idle parking is on (R96). -/
theorem idles_outOfService (q : Port) (cause : Option QuarantineCause) (strike : Bool) :
    (q.outOfService .active cause).idles strike = (!strike && q.idlePark != 0) := by
  simp [Port.idles, Port.outOfService]

/-- The port that has been activated (R96, R103). -/
theorem activate_port_self (s : State) (p : PortId) : (s.activate p).port p =
    { s.port p with
      state := .active, cause := none, egress := [], slots := .replicate 16 .free, wake := none, autoEnable := false,
      idle := if s.strikeFlag p = false ∧ (s.port p).idlePark ≠ 0 then some (s.port p).idlePark else none } := by
  let x : Port := { (s.port p).outOfService .active none with autoEnable := false }
  have idles (strike : Bool) : x.idles strike = (!strike && (s.port p).idlePark != 0) := idles_outOfService _ none strike
  have written : ((s.setPort p x).attemptDue (.portChanged p)).port p = x := by rw [attemptDue_port, State.port_setPort]
  change (((s.setPort p x).attemptDue (.portChanged p)).settleIdle p).port p = _
  rw [settleIdle_port, written, idles]
  simp only [Bool.and_eq_true, Bool.not_eq_true', bne_iff_ne]
  rfl

theorem activate_port_ne (s : State) {p q : PortId} (h : q ≠ p) : (s.activate p).port q = s.port q := by
  unfold State.activate
  rw [settleIdle_port_ne _ h, attemptDue_port, State.port_setPort_ne _ _ h.symm]

theorem activate_portChanged (s : State) (p : PortId) : AttemptEvent.portChanged p ∈ (s.activate p).mail.attempts :=
  attemptDue_mem _ _

theorem activate_ott (s : State) (p : PortId) : (s.activate p).ott = s.ott := rfl

theorem park_port (s : State) (p q : PortId) :
    (s.park p).port q = if p = q then { s.port p with state := .parked, idle := none } else s.port q := by
  unfold State.park
  rw [attemptDue_port]
  exact State.port_setPort_if s p q _

/-! ### PORT ENABLE, PARK PORT, SET PORT -/

section Commands

variable {s : State} {t : Tag} {payload : List Byte} {p : PortId}

theorem enablePort_serving (h : (s.port p).state.inService = true) : s.enablePort t payload p = s.reply t .done [] := by
  unfold State.enablePort
  rcases (inService_iff _).mp h with k | k | k
  all_goals rw [k]

theorem enablePort_linkDown (h : (s.port p).state.inService = false) (link : s.pins.link.get p = false) :
    s.enablePort t payload p = s.reply t .linkNotReady [] := by
  unfold State.enablePort
  rcases (outOfService_iff _).mp h with k | k
  all_goals
    rw [k]
    exact if_neg (by simp [link])

theorem enablePort_linkUp (h : (s.port p).state.inService = false) (link : s.pins.link.get p = true) :
    s.enablePort t payload p = (s.activate p).reply t .done [] := by
  unfold State.enablePort
  rcases (outOfService_iff _).mp h with k | k
  all_goals
    rw [k]
    exact if_pos link

theorem parkPort_struck (h : (s.port p).state = .active) (struck : s.strikeFlag p = true) :
    s.parkPort t payload p = s.reply t .pendingEvent [] := by
  unfold State.parkPort
  rw [h]
  exact if_pos struck

theorem parkPort_holding (h : (s.port p).state = .active) (clear : s.strikeFlag p = false) (holds : (s.port p).holdsNothing = false) :
    s.parkPort t payload p = s.reply t .portBusy [] := by
  unfold State.parkPort
  rw [h]
  simp [clear, holds]

theorem parkPort_idle (h : (s.port p).state = .active) (clear : s.strikeFlag p = false) (nothing : (s.port p).holdsNothing = true) :
    s.parkPort t payload p = (s.park p).reply t .done [] := by
  unfold State.parkPort
  rw [h]
  simp [clear, nothing]

theorem parkPort_parked (h : (s.port p).state = .parked) : s.parkPort t payload p = s.reply t .done [] := by
  unfold State.parkPort
  rw [h]

theorem parkPort_waking (h : (s.port p).state = .waking) : s.parkPort t payload p = s.reply t .portBusy [] := by
  unfold State.parkPort
  rw [h]

theorem parkPort_outOfService (h : (s.port p).state.inService = false) : s.parkPort t payload p = s.reply t .notInService [] := by
  unfold State.parkPort
  rcases (outOfService_iff _).mp h with k | k
  all_goals rw [k]

/-- The timeouts of a SET PORT, least significant byte first (R105). -/
theorem setTimeouts_fields (id b r0 r1 w0 w1 i0 i1 : Byte) :
    let payload := [id, b, r0, r1, w0, w1, i0, i1]
    leField payload 2 2 = r0.toNat + 256 * r1.toNat ∧ leField payload 4 2 = w0.toNat + 256 * w1.toNat
      ∧ leField payload 6 2 = i0.toNat + 256 * i1.toNat := by
  simp only [leField_succ, leField_zero]
  exact ⟨rfl, rfl, rfl⟩

end Commands

/-- Settles O44: each command by the record of the port that it finds. -/
theorem portCommands : Obligations.PortCommands := by
  unfold Obligations.PortCommands
  intro s t b p hb q s1
  have record : s1.port p = q := State.port_setPort _ _ _
  have others (x : PortId) (hx : x ≠ p) : s1.port x = s.port x := State.port_setPort_ne _ _ hx.symm
  have carries : s.inHand.Carries s1 := State.setPort_carries _ _ _
  have struck : s1.strikeFlag p = s.strikeFlag p := rfl
  have ulc (u : State) (same : s1.Carries u) (k : u.ulc = s1.ulc) : (u.reply t .done []).ulc = (s.reply t .done []).ulc :=
    reply_ulc_congr (s := s) k same.eu t _ _
  refine ⟨fun h => ?_, fun h => ?_, fun r0 r1 w0 w1 i0 i1 h => ?_⟩
  · have done : exec .portEnable s = .next (s1.enablePort t [0x30, b] p) := exec_portCommand h hb rfl rfl rfl
    rw [done]
    refine ⟨fun serves => ?_, fun out link => ?_, fun out link => ⟨_, rfl, ?_⟩⟩
    · rw [enablePort_serving (s := s1) (record ▸ serves)]
    · rw [enablePort_linkDown (s := s1) (record ▸ out) link]
    · rw [enablePort_linkUp (s := s1) (record ▸ out) link]
      refine ⟨?_, fun x hx => ?_, ?_, ?_, ?_, ?_⟩
      · rw [reply_port, activate_port_self, record, struck]
      · rw [reply_port, activate_port_ne _ hx, others x hx]
      · rw [State.reply_mail]
        exact activate_portChanged s1 p
      · exact ulc _ (State.activate_carries s1 p) rfl
      · rw [State.reply_ott]
        rfl
      · exact onlyDataPath_of_carries ((carries.trans (State.activate_carries s1 p)).trans (State.reply_carries _ _ _ _))
  · have done : exec .parkPort s = .next (s1.parkPort t [0x32, b] p) := exec_portCommand h hb rfl rfl rfl
    rw [done]
    refine ⟨fun active flag => ?_, fun active flag holds => ?_, fun active flag nothing => ⟨_, rfl, ?_⟩, fun parked => ?_,
      fun waking => ?_, fun out => ?_⟩
    · rw [parkPort_struck (s := s1) (record ▸ active) flag]
    · rw [parkPort_holding (s := s1) (record ▸ active) flag (record ▸ holds)]
    · rw [parkPort_idle (s := s1) (record ▸ active) flag (record ▸ nothing)]
      refine ⟨?_, fun x hx => ?_, ?_, ?_, ?_, ?_, ?_⟩
      · rw [reply_port, park_port, if_pos rfl, record]
      · rw [reply_port, park_port, if_neg hx.symm, others x hx]
      · rw [State.reply_wire]
        rfl
      · rw [State.reply_mail]
        exact attemptDue_mem _ _
      · exact ulc _ (State.park_carries s1 p) rfl
      · rw [State.reply_ott]
        rfl
      · exact onlyDataPath_of_carries ((carries.trans (State.park_carries s1 p)).trans (State.reply_carries _ _ _ _))
    · rw [parkPort_parked (s := s1) (record ▸ parked)]
    · rw [parkPort_waking (s := s1) (record ▸ waking)]
    · rw [parkPort_outOfService (s := s1) (record ▸ out)]
  · have done : exec .setPort s = .next (s1.setTimeouts t [0x33, b, r0, r1, w0, w1, i0, i1] p) := exec_portCommand h hb rfl rfl rfl
    obtain ⟨response, wake, idle⟩ := setTimeouts_fields 0x33 b r0 r1 w0 w1 i0 i1
    rw [done]
    unfold State.setTimeouts
    simp only
    rw [response, wake, idle, record]
    refine ⟨fun bad => ?_, fun one two three => ?_⟩
    · rw [if_neg (by omega)]
    · rw [if_pos ⟨one, two, three⟩]

end Sys2Proof.Machine
end

section
/-! PROOFS. A port that leaves service, by PORT DISABLE: its record, the outcomes of what it held, and the reply among them. -/

namespace Sys2Proof.Machine

/-! ### Outcomes taken in turn -/

/-- The job that carries out an act of `State.FailsInTurn`. -/
def Job.ofAct : Option (Tag × CopyState) → Job
  | some (x, o) => .fail x o
  | none => .failClaim

theorem act_ofAct (act : Option (Tag × CopyState)) : (Job.ofAct act).act = act := by
  rcases act with _ | ⟨x, o⟩ <;> rfl

theorem ofAct_noReply (act : Option (Tag × CopyState)) (t : Tag) (st : Status) : Job.ofAct act ≠ .reply t st := by
  rcases act with _ | ⟨x, o⟩ <;> exact nofun

theorem State.FailsInTurn.jobs {s u : State} {p : PortId} {failed : List (Option (Tag × CopyState))} (h : s.FailsInTurn u p failed) :
    ∃ js : List Job, u = s.runJobs p js := by
  obtain ⟨acts, -, done⟩ := h
  have back : (acts.map Job.ofAct).map Job.act = acts := by
    rw [List.map_map]
    exact (List.map_congr_left fun act _ => act_ofAct act).trans (List.map_id _)
  have run := runJobs_acts (p := p) (acts.map Job.ofAct) s fun j hj t st => by
    obtain ⟨act, -, rfl⟩ := List.mem_map.mp hj
    exact ofAct_noReply act t st
  rw [back] at run
  exact ⟨acts.map Job.ofAct, done.trans run.symm⟩

theorem State.FailsInTurn.carries {s u : State} {p : PortId} {failed : List (Option (Tag × CopyState))} (h : s.FailsInTurn u p failed) :
    s.Carries u := by
  obtain ⟨js, rfl⟩ := h.jobs
  exact State.runJobs_carries js s p

theorem State.FailsInTurn.appends {s u : State} {p : PortId} {failed : List (Option (Tag × CopyState))} (h : s.FailsInTurn u p failed) :
    Appends s u := by
  obtain ⟨js, rfl⟩ := h.jobs
  exact appends_jobs js s p

/-! ### What leaves with a port -/

/-- What leaves with a port leaves in another state too, if the port holds there no more than it does here. -/
theorem State.LetsGo.congr {s a u : State} {p : PortId} {but : Option Tag} (h : a.LetsGo u p but)
    (held : ∀ x, some x ≠ but → (s.port p).Held x → (a.port p).Held x) (ott : a.ott = s.ott) (ulc : a.ulc = s.ulc) :
    s.LetsGo u p but := by
  refine ⟨fun x hx holds => ?_, h.2⟩
  obtain ⟨copies, single⟩ := h.1 x hx (held x hx holds)
  rw [ulc] at single
  exact ⟨copies, fun e he => single e ((entry_congr ott x).trans he)⟩

theorem held_congr {q r : Port} (egress : r.egress = q.egress) (slots : r.slots = q.slots) (x : Tag) : r.Held x ↔ q.Held x := by
  unfold Port.Held
  rw [egress, slots]

theorem letGoActs_congr {s a : State} {p : PortId} (egress : (a.port p).egress = (s.port p).egress) (ott : a.ott = s.ott)
    (slots : Vector Slot 16) : a.letGoActs p slots = s.letGoActs p slots := by
  unfold State.letGoActs
  rw [egress, claims_congr ott]

theorem not_mem_drop_of_append {s u : State} {w : List Output} (h : u.wire = s.wire ++ w) {o : Output} (ho : o ∉ w) :
    o ∉ u.wire.drop s.wire.length := by
  rwa [h, List.drop_left]

/-! ### PORT DISABLE (R104) -/

theorem disablePort_disabled {s : State} {t : Tag} {payload : List Byte} {p : PortId} {order : Order} (h : (s.port p).state = .disabled) :
    s.disablePort order t payload p = s.reply t .done [] := by
  unfold State.disablePort
  rw [h]

theorem disablePort_enabled {s : State} {t : Tag} {payload : List Byte} {p : PortId} {order : Order} (h : (s.port p).state ≠ .disabled) :
    s.disablePort order t payload p = s.leaveService p .disabled none [.reply t .done] order := by
  unfold State.disablePort
  split
  · next disabled => exact absurd disabled h
  all_goals rfl

/-- A reply placed in UP stands in the response queue from then on. -/
theorem reply_mem_queue {s mid u : State} {p : PortId} {failed : List (Option (Tag × CopyState))} {t : Tag} {st : Status}
    (eu : mid.eu = s.eu) (up : mid.ulc.state = .up) (after : (mid.reply t st []).FailsInTurn u p failed) :
    ⟨.control, t, st, s.eu.summary, []⟩ ∈ u.ulc.queue := by
  obtain ⟨-, more, queue⟩ := after.appends
  have placed := (State.place_up mid ⟨.control, t, st, mid.eu.summary, []⟩ up).1
  rw [queue]
  change _ ∈ (mid.place _).ulc.queue ++ more
  rw [placed, eu]
  simp

/-- Settles O45: the port leaves service at once, and what it held fails before and after the reply. -/
theorem portDisableTakesOutOfService : Obligations.PortDisableTakesOutOfService := by
  unfold Obligations.PortDisableTakesOutOfService
  intro s t b p order hb h q
  let named : State := s.inHand.setPort p q
  have done : exec (.portDisable order) s = .next (named.disablePort order t [0x31, b] p) := exec_portCommand h hb rfl rfl rfl
  have record : named.port p = q := State.port_setPort _ _ _
  have egress : (named.port p).egress = (s.port p).egress := by
    rw [record]
    exact (namedPort_holds s p).1
  have slots : (named.port p).slots = (s.port p).slots := by
    rw [record]
    exact (namedPort_holds s p).2
  rw [done]
  refine ⟨fun disabled => ?_, fun enabled => ?_⟩
  · rw [disablePort_disabled (s := named) (record ▸ disabled)]
  · rw [disablePort_enabled (s := named) (record ▸ enabled)]
    obtain ⟨mid, before, after, acts, first, second⟩ := leaveService_reply named p .disabled none t .done order
    obtain ⟨port, changed, ⟨w, wire, lowPower, wake⟩, -⟩ := leaveService_does named p .disabled none [.reply t .done] order rfl
    obtain ⟨letsGo, -⟩ := leaveService_letsGo named p .disabled none [.reply t .done] order rfl none (by simp)
    set u := named.leaveService p .disabled none [.reply t .done] order
    have carries : s.inHand.Carries u := (State.setPort_carries _ p q).trans (State.leaveService_carries named p _ _ _ _)
    have lets : s.LetsGo u p none := letsGo.congr (fun x _ holds => (held_congr egress slots x).mpr holds) rfl rfl
    rw [letGoActs_congr egress rfl, slots] at acts
    refine ⟨_, mid, u, before, after, rfl, ?_, fun x hx => ?_, rfl, acts, first, second, not_mem_drop_of_append wire lowPower,
      not_mem_drop_of_append wire wake, ?_, changed, fun up => ?_, fun x e he single held => ?_, lets, carries.eu,
      onlyDataPath_of_carries carries⟩
    · rw [attemptDue_port, State.port_setPort, record]
      rfl
    · rw [attemptDue_port, State.port_setPort_ne _ _ hx.symm]
      exact State.port_setPort_ne _ _ hx.symm
    · rw [port, record]
      rfl
    · exact reply_mem_queue first.carries.eu (first.carries.ulcState.trans up) second
    · have heldThere : (s.port p).Held x := (held_congr egress slots x).mp (record.symm ▸ held)
      exact ((lets.1 x nofun heldThere).2 e he single).1

end Sys2Proof.Machine
end

section
/-! PROOFS. A port that is quarantined, by a second strike or a link loss; and a link that comes up. -/

namespace Sys2Proof.Machine

/-! ### A quarantine (R94) -/

/-- From `v` to `u` the port `p` is quarantined: at `out` it is out of service, and then the acts of `acts` are taken in turn. -/
structure State.Quarantines (v out u : State) (p : PortId) (cause : QuarantineCause) (acts : List (Option (Tag × CopyState))) : Prop where
  outPort : out.port p = (v.port p).outOfService .quarantined (some cause)
  outOther : ∀ q, q ≠ p → out.port q = v.port q
  outFrame : out = { v with ports := out.ports, mail := out.mail }
  fails : out.FailsInTurn u p acts
  port : u.port p = (v.port p).outOfService .quarantined (some cause)
  told : v.underReset = false → Occurrence.quarantine p ∈ u.mail.occurrences
  changed : AttemptEvent.portChanged p ∈ u.mail.attempts
  lowPower : Output.lowPower p ∉ u.wire.drop v.wire.length
  wake : Output.wake p ∉ u.wire.drop v.wire.length
  carries : v.Carries u

theorem report_frame (s : State) (o : Occurrence) : s.report o = { s with mail := (s.report o).mail } := by
  unfold State.report
  split <;> rfl

theorem report_port (s : State) (o : Occurrence) (q : PortId) : (s.report o).port q = s.port q :=
  State.port_congr (State.report_ports s o) q

theorem quarantine_quarantines (v : State) (p : PortId) (cause : QuarantineCause) (more : List Job) (order : Order)
    (noReply : ∀ j ∈ more, ∀ t st, j ≠ .reply t st) :
    ∃ out, v.Quarantines out (v.quarantine p cause more order) p cause (more.map Job.act ++ v.letGoActs p (v.port p).slots) := by
  obtain ⟨port, changed, ⟨w, wire, lowPower, wake⟩, told⟩ := quarantine_does v p cause more order
  have fails := leaveService_failsInTurn (v.report (.quarantine p)) p .quarantined (some cause) more order noReply
  rw [letGoActs_congr (congrArg Port.egress (report_port v _ p)) (by rw [report_frame]), report_port] at fails
  refine ⟨_, ?_, fun q hq => ?_, ?_, fails, port, told, changed, not_mem_drop_of_append wire lowPower,
    not_mem_drop_of_append wire wake, State.quarantine_carries v p cause more order⟩
  · rw [attemptDue_port, State.port_setPort]
  · rw [attemptDue_port, State.port_setPort_ne _ _ hq.symm, report_port]
  · rw [report_frame]
    rfl

/-- What a quarantine lets go, but for a copy that has failed of itself. -/
theorem quarantine_letsGo (v : State) (p : PortId) (cause : QuarantineCause) (more : List Job) (order : Order) (but : Option Tag)
    (only : ∀ j ∈ more, ∃ t, but = some t ∧ j = .fail t .timeout) : v.LetsGo (v.quarantine p cause more order) p but := by
  have lets := (leaveService_letsGo (v.report (.quarantine p)) p .quarantined (some cause) more order rfl but
    fun j hj => .inl (only j hj)).1
  exact lets.congr (fun x _ holds => (report_port v _ p).symm ▸ holds) (by rw [report_frame]) (by rw [report_frame])

/-- The copy that has failed of itself, if the port holds no other of its entry (R87, R117, R121). -/
theorem quarantine_timeout {v : State} {p : PortId} {t : Tag} (cause : QuarantineCause) (order : Order) {e : Entry}
    (he : v.entry? t = some e)
    (queued : t ∉ (v.port p).egress) (claims : t ∉ v.claims p) (sent : ∀ j d, (v.port p).slots.get j ≠ .inFlight t d) :
    let u := v.quarantine p cause [.fail t .timeout] order
    (e.modeClass = .single →
        (∀ x ∈ u.ott, x.tag ≠ t)
          ∧ (v.ulc.state = .up → ⟨e.kind.response, t, .timeout, 0, []⟩ ∈ u.ulc.queue.drop v.ulc.queue.length))
      ∧ ∀ y ∈ u.ott, y.tag = t → ∀ c ∈ y.copies, c.port = p → c.state = .timeout := by
  intro u
  set r := v.report (.quarantine p) with hr
  have port : r.port p = v.port p := report_port v _ p
  have ott : r.ott = v.ott := by rw [hr, report_frame]
  have ulc : r.ulc = v.ulc := by rw [hr, report_frame]
  have noClaim : t ∉ r.claims p := by rwa [claims_congr ott]
  have single := (leaveService_letsGo r p .quarantined (some cause) [.fail t .timeout] order rfl (some t) (by simp)).2 t e rfl (by simp)
    ((entry_congr ott t).trans he)
  rw [port, ulc] at single
  exact ⟨fun hm => single hm queued noClaim sent,
    leaveService_timeout r p .quarantined (some cause) _ order rfl t rfl (by rwa [port]) noClaim (by rwa [port])⟩

/-! ### A second strike (R92 to R94) -/

theorem countTimeout_port (s : State) (p q : PortId) :
    (s.countTimeout p).port q = if p = q then { s.port p with timeouts := satInc (s.port p).timeouts } else s.port q :=
  State.port_setPort_if s p q _

/-- The state in which slot `i` of the port has expired and the timeout has been counted. -/
def State.expired (s : State) (p : PortId) (i : SlotId) : State := (s.setSlot p i .free).countTimeout p

theorem expired_port_self (s : State) (p : PortId) (i : SlotId) : (s.expired p i).port p =
    { s.port p with slots := (s.port p).slots.set i.val .free i.isLt, timeouts := satInc (s.port p).timeouts } := by
  rw [State.expired, countTimeout_port, if_pos rfl, State.setSlot, State.port_setPort]

theorem expired_port_ne (s : State) {p q : PortId} (i : SlotId) (h : q ≠ p) : (s.expired p i).port q = s.port q := by
  rw [State.expired, countTimeout_port, if_neg h.symm, State.setSlot, State.port_setPort_ne _ _ h.symm]

theorem exec_deadlineExpiry_orphan {s : State} {p : PortId} {i : SlotId} (order : Order) (h : (s.port p).slots.get i = .orphan 0) :
    exec (.deadlineExpiry p i order) s = .next ((s.setSlot p i .free).strikeDeadline p [] order) := by
  change execDeadlineExpiry p i order s = _
  unfold execDeadlineExpiry
  rw [h]

theorem exec_deadlineExpiry_inFlight {s : State} {p : PortId} {i : SlotId} {t : Tag} (order : Order)
    (h : (s.port p).slots.get i = .inFlight t 0) :
    exec (.deadlineExpiry p i order) s = .next ((s.setSlot p i .free).strikeDeadline p [.fail t .timeout] order) := by
  change execDeadlineExpiry p i order s = _
  unfold execDeadlineExpiry
  rw [h]

theorem strikeDeadline_second {s : State} {p : PortId} {i : SlotId} (struck : s.strikeFlag p = true) (failed : List Job) (order : Order) :
    (s.setSlot p i .free).strikeDeadline p failed order = (s.expired p i).quarantine p .secondStrike failed order := if_pos struck

theorem exec_wakeTimeout {s : State} {p : PortId} (order : Order) (waking : (s.port p).state = .waking) (timer : (s.port p).wake = some 0) :
    exec (.wakeTimeout p order) s = .next (if s.strikeFlag p = true then (s.countTimeout p).quarantine p .secondStrike [] order
      else (s.countTimeout p).failWake p order) :=
  congrArg Host.Outcome.next (if_pos ⟨waking, timer⟩)

/-- A list with an item replaced, seen through a function that takes both for the same. -/
theorem filterMap_set {α β : Type} (f : α → Option β) (l : List α) (i : Nat) (x : α) (h : ∀ y, l[i]? = some y → f x = f y) :
    (l.set i x).filterMap f = l.filterMap f := by
  induction l generalizing i with
  | nil => rfl
  | cons y l ih =>
    cases i with
    | zero =>
      rw [List.set_cons_zero, List.filterMap_cons, List.filterMap_cons, h y rfl]
    | succ i =>
      rw [List.set_cons_succ, List.filterMap_cons, List.filterMap_cons, ih i fun z hz => h z hz]

/-- An ORPHAN that is freed is nothing that the port lets go. -/
theorem letGoActs_set {s : State} {p : PortId} {slots : Vector Slot 16} {i : SlotId} {d : Nat} (h : slots.get i = .orphan d) :
    s.letGoActs p (slots.set i.val .free i.isLt) = s.letGoActs p slots := by
  have here : slots.toList[i.val]? = some (.orphan d) := by
    rw [← h, vget]
    simp
  unfold State.letGoActs
  rw [Vector.toList_set, filterMap_set]
  intro y hy
  rw [here] at hy
  cases hy
  rfl

/-- A slot that is freed takes from what the port holds at most the copy that was in it. -/
theorem held_of_freed {q r : Port} {i : SlotId} (egress : r.egress = q.egress) (slots : r.slots = q.slots.set i.val .free i.isLt) {x : Tag}
    (other : ∀ d, q.slots.get i ≠ .inFlight x d) (h : q.Held x) : r.Held x := by
  rcases h with queued | ⟨j, d, sent⟩
  · exact .inl (egress ▸ queued)
  · have apart : i ≠ j := fun e => other d (e ▸ sent)
    exact .inr ⟨j, d, by rw [slots, get_set, if_neg apart]; exact sent⟩

/-- `v` is `s` with the timeout of the port counted and its slots as given. -/
structure State.Counted (s v : State) (p : PortId) (slots : Vector Slot 16) : Prop where
  frame : v = { s with ports := v.ports }
  port : v.port p = { s.port p with slots := slots, timeouts := satInc (s.port p).timeouts }
  other : ∀ q, q ≠ p → v.port q = s.port q

theorem expired_counted (s : State) (p : PortId) (i : SlotId) :
    s.Counted (s.expired p i) p ((s.port p).slots.set i.val .free i.isLt) :=
  ⟨rfl, expired_port_self s p i, fun _ hq => expired_port_ne s i hq⟩

theorem countTimeout_counted (s : State) (p : PortId) : s.Counted (s.countTimeout p) p (s.port p).slots := by
  refine ⟨rfl, ?_, fun q hq => ?_⟩
  · rw [countTimeout_port, if_pos rfl]
  · rw [countTimeout_port, if_neg hq.symm]

/-- The quarantine that a second strike comes to: what has failed of itself, and the slots that are left. -/
theorem secondStrike_quarantines {s : State} {p : PortId} {i : SlotId} {order : Order} {c : Instr} (struck : s.strikeFlag p = true)
    (h : (c = .deadlineExpiry p i order ∧ ((s.port p).slots.get i = .orphan 0 ∨ ∃ t, (s.port p).slots.get i = .inFlight t 0))
      ∨ (c = .wakeTimeout p order ∧ (s.port p).state = .waking ∧ (s.port p).wake = some 0)) :
    ∃ v slots more, s.Counted v p slots ∧ exec c s = .next (v.quarantine p .secondStrike more order)
      ∧ (∀ j ∈ more, ∃ t, j = .fail t .timeout)
      ∧ (c = .wakeTimeout p order ∨ (s.port p).slots.get i = .orphan 0 →
          more = [] ∧ s.letGoActs p slots = s.letGoActs p (s.port p).slots ∧ ∀ x, (s.port p).Held x → (v.port p).Held x)
      ∧ (∀ t, c = .deadlineExpiry p i order → (s.port p).slots.get i = .inFlight t 0 →
          more = [.fail t .timeout] ∧ slots = (s.port p).slots.set i.val .free i.isLt) := by
  have port := expired_port_self s p i
  rcases h with ⟨rfl, orphan | ⟨t, sent⟩⟩ | ⟨rfl, waking, timer⟩
  · refine ⟨_, _, [], expired_counted s p i, ?_, by simp, fun _ => ⟨rfl, letGoActs_set orphan, fun x held => ?_⟩, fun t _ sent => ?_⟩
    · rw [exec_deadlineExpiry_orphan order orphan, strikeDeadline_second struck]
    · exact held_of_freed (q := s.port p) (i := i) (by rw [port]) (by rw [port]) (by simp [orphan]) held
    · cases orphan.symm.trans sent
  · refine ⟨_, _, [.fail t .timeout], expired_counted s p i, ?_, by simp, fun plain => ?_, fun t' _ sent' => ?_⟩
    · rw [exec_deadlineExpiry_inFlight order sent, strikeDeadline_second struck]
    · rcases plain with other | orphan
      · cases other
      · cases orphan.symm.trans sent
    · cases sent.symm.trans sent'
      exact ⟨rfl, rfl⟩
  · have counted := countTimeout_counted s p
    refine ⟨_, _, [], counted, ?_, by simp, fun _ => ⟨rfl, rfl, fun x held => ?_⟩, nofun⟩
    · rw [exec_wakeTimeout order waking timer, if_pos struck]
    · exact (held_congr (congrArg Port.egress counted.port) (congrArg Port.slots counted.port) x).mpr held

/-- Settles O41: both commands come to a quarantine of the port with the timeout counted. -/
theorem secondStrikeQuarantines : Obligations.SecondStrikeQuarantines := by
  unfold Obligations.SecondStrikeQuarantines
  intro s p i order c struck h
  obtain ⟨v, slots, more, ⟨frame, port, other⟩, done, timeouts, plain, inFlight⟩ := secondStrike_quarantines struck h
  have ott : v.ott = s.ott := by rw [frame]
  have ulc : v.ulc = s.ulc := by rw [frame]
  have egressV : (v.port p).egress = (s.port p).egress := by rw [port]
  have slotsV : (v.port p).slots = slots := by rw [port]
  have noReply : ∀ j ∈ more, ∀ t st, j ≠ .reply t st := fun j hj t st => by
    obtain ⟨x, rfl⟩ := timeouts j hj
    exact nofun
  obtain ⟨out, outPort, outOther, outFrame, fails, final, told, changed, lowPower, wake, carries⟩ :=
    quarantine_quarantines v p .secondStrike more order noReply
  rw [slotsV, letGoActs_congr egressV ott] at fails
  rw [port] at outPort final
  set u := v.quarantine p .secondStrike more order
  have only : s.OnlyDataPath u := onlyDataPath_trans (by rw [frame]; rfl) (onlyDataPath_of_carries carries)
  refine ⟨out, u, done, outPort, fun x hx => (outOther x hx).trans (other x hx), ?_, fun k => ?_, fun t hc sent => ?_, final,
    fun up => told ?_, changed, ?_, ?_, ?_, fun k => ?_, fun t hc sent => ⟨?_, fun e he queued claims alone => ?_⟩, only⟩
  · rw [outFrame, frame]
  · obtain ⟨rfl, same, -⟩ := plain k
    rw [← same]
    exact fails
  · obtain ⟨rfl, rfl⟩ := inFlight t hc sent
    exact fails
  · rw [frame]
    exact up
  · rw [carries.eu, frame]
  · rwa [frame] at lowPower
  · rwa [frame] at wake
  · obtain ⟨rfl, -, held⟩ := plain k
    exact (quarantine_letsGo v p .secondStrike [] order none (by simp)).congr (fun x _ => held x) ott ulc
  · obtain ⟨rfl, rfl⟩ := inFlight t hc sent
    refine (quarantine_letsGo v p .secondStrike _ order (some t) (by simp)).congr (fun x hx => ?_) ott ulc
    exact held_of_freed (q := s.port p) (i := i) egressV slotsV fun d here => hx (by
      cases sent.symm.trans here
      rfl)
  · obtain ⟨rfl, rfl⟩ := inFlight t hc sent
    have free : ∀ j d, (v.port p).slots.get j ≠ .inFlight t d := fun j d => by
      rw [slotsV, get_set]
      split
      · exact nofun
      · next apart => exact alone j d (Ne.symm apart)
    have failed := quarantine_timeout .secondStrike order ((entry_congr ott t).trans he) (egressV ▸ queued)
      (claims_congr ott p ▸ claims) free
    rwa [ulc] at failed

end Sys2Proof.Machine
end

section
/-! PROOFS. The link of a target port: it comes UP in each port state, and it goes DOWN. -/

namespace Sys2Proof.Machine

/-! ### An ACTIVE port that is served -/

/-- The arbiter and the sender leave the wake timer of an ACTIVE port as it is. -/
theorem serveN_active_wake (n : Nat) (s : State) (p : PortId) (active : (s.port p).state = .active) :
    ((State.serveN n s p).port p).wake = (s.port p).wake := by
  induction n generalizing s with
  | zero => rfl
  | succ n ih =>
    unfold State.serveN
    split
    · next u act =>
      obtain ⟨t, -, -, rfl⟩ := arbitrate_some act
      rw [ih _ ((servesOnly_place p s t).active active), placeCopy_notParked s p t (by simp [active]), placed_port]
    · split
      · next u act =>
        obtain ⟨t, rest, i, -, rfl⟩ := send_some act
        rw [ih _ ((servesOnly_sendOn p s t rest i).active active), sendOn_port]
      · rfl

theorem serve_active_wake (s : State) (p : PortId) (active : (s.port p).state = .active) :
    ((s.serve p).port p).wake = (s.port p).wake := by
  unfold State.serve
  rw [settleIdle_port]
  exact serveN_active_wake 80 s p active

/-- An ACTIVE port that holds no more than it has places, with every slot FREE and no claim on it, sends all of it when it is served
(R86). -/
theorem serve_sendsAll (s : State) (p : PortId) (active : (s.port p).state = .active) (free : ∀ i, (s.port p).slots.get i = .free)
    (few : (s.port p).egress.length ≤ 8) (claims : s.claims p = [])
    (entries : ∀ x ∈ (s.port p).egress, ∃ e c, s.entry? x = some e ∧ e.copyAt p = some c) :
    ((s.serve p).port p).egress = []
      ∧ ∃ sent, (s.serve p).wire = s.wire ++ sent ∧ sent.length = (s.port p).egress.length
          ∧ ∀ (i : SlotId) (x : Tag), (s.port p).egress[i.val]? = some x →
              ((s.serve p).port p).slots.get i = .inFlight x (s.port p).responseTimeout
              ∧ ∀ e c, s.entry? x = some e → e.copyAt p = some c →
                  sent[i.val]? = some (.downstream p e.kind i c.target e.length e.writeData) := by
  obtain ⟨empty, -, sent, wire, length, all⟩ := serveN_sendsAll p (s.port p).egress 80 0 s active rfl claims
    (fun i => by simp [free i]) (by omega) (by omega) entries
  unfold State.serve
  rw [settleIdle_port, settleIdle_wire]
  exact ⟨empty, sent, wire, length, fun i x hx => all i x (Nat.zero_le _) hx⟩

/-! ### The link (R95) -/

theorem exec_targetLinkUp {s : State} {p : PortId} (down : s.pins.link.get p = false) (running : s.underReset = false) :
    exec (.targetLinkUp p) s = .next ((s.setLink p true).linkUp p) := by
  change execTargetLinkUp p s = _
  unfold execTargetLinkUp
  rw [down, running]
  rfl

theorem exec_targetLinkUp_underReset {s : State} {p : PortId} (down : s.pins.link.get p = false) (reset : s.underReset = true) :
    exec (.targetLinkUp p) s = .next (s.setLink p true) := by
  change execTargetLinkUp p s = _
  unfold execTargetLinkUp
  rw [down, reset]
  rfl

theorem exec_targetLinkDown {s : State} {p : PortId} (order : Order) (up : s.pins.link.get p = true) :
    exec (.targetLinkDown p order) s = .next ((s.setLink p false).linkDown p order) := by
  change execTargetLinkDown p order s = _
  unfold execTargetLinkDown
  rw [up]
  rfl

theorem linkUp_quiet {s : State} {p : PortId} (h : (s.port p).state = .active ∨ (s.port p).state = .quarantined
    ∨ (s.port p).state = .disabled ∧ (s.port p).autoEnable = false) : s.linkUp p = s := by
  unfold State.linkUp
  rcases h with k | k | ⟨k, auto⟩
  · rw [k]
  · rw [k]
  · rw [k, auto]
    rfl

theorem linkUp_parked {s : State} {p : PortId} (h : (s.port p).state = .parked) : s.linkUp p = s.emit (.lowPower p) := by
  unfold State.linkUp
  rw [h]

theorem linkUp_waking {s : State} {p : PortId} (h : (s.port p).state = .waking) : s.linkUp p = (s.completeWake p).serve p := by
  unfold State.linkUp
  rw [h]

theorem linkUp_autoEnable {s : State} {p : PortId} (h : (s.port p).state = .disabled) (auto : (s.port p).autoEnable = true) :
    s.linkUp p = s.activate p := by
  unfold State.linkUp
  rw [h, auto]
  rfl

theorem linkDown_quiet {s : State} {p : PortId} {order : Order} (h : (s.port p).state ≠ .active) : s.linkDown p order = s := by
  unfold State.linkDown
  split
  · next active => exact absurd active h
  all_goals rfl

theorem linkDown_active {s : State} {p : PortId} {order : Order} (h : (s.port p).state = .active) :
    s.linkDown p order = s.quarantine p .linkLoss [] order := by
  unfold State.linkDown
  rw [h]

theorem completeWake_port (s : State) (p q : PortId) :
    (s.completeWake p).port q = if p = q then { s.port p with state := .active, wake := none } else s.port q := by
  unfold State.completeWake
  rw [attemptDue_port]
  exact State.port_setPort_if s p q _

/-- A wake that completes at a link UP (R86, R100). -/
theorem linkUp_wakes {v : State} {p : PortId} (waking : (v.port p).state = .waking) :
    let u := v.linkUp p
    (u.port p).state = .active ∧ (u.port p).wake = none ∧ AttemptEvent.portChanged p ∈ u.mail.attempts ∧ u.ulc = v.ulc
      ∧ v.Carries u
      ∧ (∃ s1 : State, u = s1.serve p ∧ s1.port p = { v.port p with state := .active, wake := none }
          ∧ s1 = { v with ports := s1.ports, mail := s1.mail } ∧ ∀ q, q ≠ p → s1.port q = v.port q)
      ∧ ((∀ i, (v.port p).slots.get i = .free) → (v.port p).egress.length ≤ 8 → v.claims p = [] →
          (∀ x ∈ (v.port p).egress, ∃ e c, v.entry? x = some e ∧ e.copyAt p = some c) →
          (u.port p).egress = []
          ∧ ∃ sent, u.wire = v.wire ++ sent ∧ sent.length = (v.port p).egress.length
              ∧ ∀ (i : SlotId) (x : Tag), (v.port p).egress[i.val]? = some x →
                  (u.port p).slots.get i = .inFlight x (v.port p).responseTimeout
                  ∧ ∀ e c, v.entry? x = some e → e.copyAt p = some c →
                      sent[i.val]? = some (.downstream p e.kind i c.target e.length e.writeData)) := by
  intro u
  have served : u = (v.completeWake p).serve p := linkUp_waking waking
  have port : (v.completeWake p).port p = { v.port p with state := .active, wake := none } := by rw [completeWake_port, if_pos rfl]
  have active : ((v.completeWake p).port p).state = .active := by rw [port]
  have only := servesOnly_serve p (v.completeWake p)
  rw [served]
  refine ⟨only.active active, ?_, only.att _ (attemptDue_mem _ _), only.ulc,
    (State.completeWake_carries v p).trans (State.serve_carries _ p), ⟨_, rfl, port, rfl, fun q hq => ?_⟩,
    fun free few claims entries => ?_⟩
  · rw [serve_active_wake _ p active, port]
  · rw [completeWake_port, if_neg hq.symm]
  · have all := serve_sendsAll (v.completeWake p) p active (by rw [port]; exact free) (by rw [port]; exact few) claims
      (by rw [port]; exact entries)
    rw [port] at all
    exact all

/-- Settles O43: each port state in turn. -/
theorem targetLinkChanges : Obligations.TargetLinkChanges := by
  unfold Obligations.TargetLinkChanges
  intro s p order
  refine ⟨exec_targetLinkUp_underReset, fun down running => ?_, fun up => ?_⟩
  · rw [exec_targetLinkUp down running]
    set v := s.setLink p true
    refine ⟨fun quiet => ?_, fun parked => ?_, fun waking => ?_, fun disabled auto => ?_⟩
    · rw [linkUp_quiet (s := v) quiet]
    · rw [linkUp_parked (s := v) parked]
    · obtain ⟨active, wake, changed, ulc, carries, served, sends⟩ := linkUp_wakes (v := v) waking
      exact ⟨_, rfl, active, wake, changed, ulc, carries.eu, onlyDataPath_of_carries carries, served, sends⟩
    · rw [linkUp_autoEnable (s := v) disabled auto]
      have port := activate_port_self v p
      refine ⟨_, rfl, by rw [port], by rw [port], by rw [port], fun i => ?_, ?_, activate_portChanged v p, rfl⟩
      · rw [port]
        simp [vget]
      · rfl
  · rw [exec_targetLinkDown order up]
    refine ⟨fun notActive => ?_, fun active => ?_⟩
    · rw [linkDown_quiet (s := s.setLink p false) notActive]
    · rw [linkDown_active (s := s.setLink p false) active]
      set v := s.setLink p false
      obtain ⟨out, outPort, outOther, outFrame, fails, port, told, changed, lowPower, wake, carries⟩ :=
        quarantine_quarantines v p .linkLoss [] order (by simp)
      have lets := (quarantine_letsGo v p .linkLoss [] order none (by simp)).congr (s := s) (fun _ _ held => held) rfl rfl
      exact ⟨out, _, rfl, outPort, outOther, outFrame, fails, lowPower, wake, port, told, lets, changed, carries.eu,
        onlyDataPath_of_carries carries⟩

end Sys2Proof.Machine
end

section
/-! PROOFS. What an outcome may do to the ports, wherever its entry goes, and which copies of an entry stand while a port in service
is served. -/

namespace Sys2Proof.Machine

/-! ### An outcome and the ports -/

/-- The entry whose copy at `p` has taken the final state `o`, with the data it returned. -/
def Entry.settled (e : Entry) (p : PortId) (o : CopyState) (d : List Byte) : Entry :=
  if e.kind = .read ∧ o = .ok then { e.setCopy p o none with readData := some d } else e.setCopy p o none

theorem Entry.settled_eq (e : Entry) (p : PortId) (o : CopyState) (d : List Byte) :
    e.settled p o d = { e.setCopy p o none with readData := (e.settled p o d).readData } := by
  unfold Entry.settled
  split
  all_goals rfl

theorem Entry.settled_tag (e : Entry) (p : PortId) (o : CopyState) (d : List Byte) : (e.settled p o d).tag = e.tag := by
  rw [Entry.settled_eq]
  rfl

/-- The copies at the port have taken the final state. -/
theorem Entry.settled_copies {e : Entry} {p : PortId} {o : CopyState} {d : List Byte} {c : Copy} (hc : c ∈ (e.settled p o d).copies)
    (port : c.port = p) : c.state = o := by
  rw [Entry.settled_eq] at hc
  simp only [Entry.setCopy, List.mem_map] at hc
  obtain ⟨c0, -, rfl⟩ := hc
  split at port
  · next here => rw [if_pos here]
  · next away => exact absurd port away

/-- What an outcome comes to: the entry stands with its copy settled, or completes, or is a mirrored read that fails over. -/
theorem outcome_cases {s : State} {t : Tag} {e : Entry} (he : s.entry? t = some e) (p : PortId) (o : CopyState) (d : List Byte) :
    let f := e.settled p o d
    s.outcome t p o d = s.setEntry f ∨ (∃ st, s.outcome t p o d = (s.setEntry f).complete f st)
      ∨ e.modeClass = .mirrorRead ∧ s.outcome t p o d = (s.setEntry f).failover f p o := by
  intro f
  have mode : f.modeClass = e.modeClass := by
    simp only [f]
    rw [Entry.settled_eq]
    rfl
  unfold State.outcome
  rw [he]
  simp only
  generalize written : (if e.kind = .read ∧ o = .ok then { e.setCopy p o none with readData := some d }
    else e.setCopy p o none : Entry) = g
  have same : f = g := written
  clear_value f
  subst same
  split
  · exact .inr (.inl ⟨_, rfl⟩)
  · split
    · exact .inl rfl
    · exact .inr (.inl ⟨_, rfl⟩)
  · next read =>
    split
    · exact .inr (.inl ⟨_, rfl⟩)
    · exact .inr (.inl ⟨_, rfl⟩)
    all_goals exact .inr (.inr ⟨mode.symm.trans read, rfl⟩)

theorem outcome_absent {s : State} {t : Tag} (h : s.entry? t = none) (p : PortId) (o : CopyState) (d : List Byte) :
    s.outcome t p o d = s := by
  unfold State.outcome
  rw [h]

/-- The copy at `p` of the entry of tag `t` belongs to a mirrored read that has the port `q` to fail over to (R125). -/
def State.FailsOverTo (s : State) (t : Tag) (p q : PortId) : Prop :=
  ∃ e c j n, s.entry? t = some e ∧ e.modeClass = .mirrorRead ∧ e.copyAt p = some c ∧ c.position = some j
    ∧ s.nextMember e.window j.val = some (q, n)

theorem failsOverTo_of_settled {s : State} {t : Tag} {p q : PortId} {o : CopyState} {d : List Byte} {e : Entry} {c : Copy} {j : Fin 4}
    {n : Nat} (he : s.entry? t = some e) (mode : e.modeClass = .mirrorRead) (copy : (e.settled p o d).copyAt p = some c)
    (position : c.position = some j) (member : s.nextMember (e.settled p o d).window j.val = some (q, n)) : s.FailsOverTo t p q := by
  rw [Entry.settled_eq] at copy member
  change (e.setCopy p o none).copyAt p = some c at copy
  rw [copyAt_setCopy, Option.map_eq_some_iff] at copy
  obtain ⟨c0, copy, rfl⟩ := copy
  have kept : c0.position = some j := by
    split at position
    all_goals exact position
  exact ⟨e, c0, j, n, he, mode, copy, kept, member⟩

/-- From `s` to `u` no port has changed, or just `q` has been served, and attempt events on their way stay so. -/
def State.ServesAtMost (s u : State) (q : PortId) : Prop :=
  ∃ v : State, v.ports = s.ports ∧ v.mail = s.mail ∧ ServesOnly q v u

/-- From `s` to `u` neither a port nor an attempt event has changed. -/
def State.SamePorts (s u : State) : Prop := u.ports = s.ports ∧ u.mail.attempts = s.mail.attempts

theorem complete_samePorts (s : State) (e : Entry) (st : Status) : s.SamePorts (s.complete e st) := by
  obtain ⟨-, -, ports, -, -, attempts, -⟩ := complete_does s e st
  exact ⟨ports, attempts⟩

theorem reissue_serves (s : State) (e : Entry) (q : PortId) (i : Nat) (a : Addr) : s.ServesAtMost (s.reissue e q i a) q := by
  unfold State.reissue
  simp only
  split
  · exact ⟨s.setEntry _, rfl, rfl, (servesOnly_place q (s.setEntry _) e.tag).trans (servesOnly_serve q _)⟩
  · exact ⟨s.setEntry _, rfl, rfl, .refl q _⟩

theorem failover_serves (s : State) (e : Entry) (p : PortId) (o : CopyState) : s.SamePorts (s.failover e p o)
    ∨ ∃ c j q n, e.copyAt p = some c ∧ c.position = some j ∧ s.nextMember e.window j.val = some (q, n)
        ∧ s.ServesAtMost (s.failover e p o) q := by
  unfold State.failover
  split
  · next a j _ _ copy =>
    split
    · next q n member => exact .inr ⟨_, j, q, n, copy, rfl, member, reissue_serves s e q n a⟩
    · exact .inl (complete_samePorts s e _)
  · exact .inl (complete_samePorts s e _)

/-- An outcome serves at most the port that a mirrored read fails over to (R125, R126). -/
theorem outcome_serves (s : State) (t : Tag) (p : PortId) (o : CopyState) (d : List Byte) : s.SamePorts (s.outcome t p o d)
    ∨ ∃ q, s.FailsOverTo t p q ∧ s.ServesAtMost (s.outcome t p o d) q := by
  cases he : s.entry? t with
  | none =>
    rw [outcome_absent he]
    exact .inl ⟨rfl, rfl⟩
  | some e =>
    rcases outcome_cases he p o d with done | ⟨st, done⟩ | ⟨read, done⟩
    · rw [done]
      exact .inl ⟨rfl, rfl⟩
    · rw [done]
      exact .inl (complete_samePorts (s.setEntry _) _ _)
    · rw [done]
      rcases failover_serves (s.setEntry (e.settled p o d)) (e.settled p o d) p o with
        stands | ⟨c, j, q, n, copy, position, member, serves⟩
      · exact .inl stands
      · exact .inr ⟨q, failsOverTo_of_settled he read copy position member, serves⟩

section
variable (s : State) (t : Tag) (p : PortId) (o : CopyState) (d : List Byte)

/-- A port that no failover comes to is left as it is. -/
theorem outcome_port {r : PortId} (apart : ∀ q, s.FailsOverTo t p q → q ≠ r) : (s.outcome t p o d).port r = s.port r := by
  rcases outcome_serves s t p o d with ⟨ports, -⟩ | ⟨q, goes, v, ports, -, serves⟩
  · exact State.port_congr ports r
  · rw [serves.other r (apart q goes).symm, State.port_congr ports r]

theorem outcome_attempts {a : AttemptEvent} (h : a ∈ s.mail.attempts) : a ∈ (s.outcome t p o d).mail.attempts := by
  rcases outcome_serves s t p o d with ⟨-, attempts⟩ | ⟨q, -, v, -, mail, serves⟩
  · rwa [attempts]
  · exact serves.att a (mail ▸ h)

/-- Whatever an outcome serves, an ACTIVE port stays ACTIVE and the count of timeouts stands. -/
theorem outcome_port_stays (r : PortId) : ((s.outcome t p o d).port r).timeouts = (s.port r).timeouts
    ∧ ((s.port r).state = .active → ((s.outcome t p o d).port r).state = .active) := by
  rcases outcome_serves s t p o d with ⟨ports, -⟩ | ⟨q, -, v, ports, -, serves⟩
  · rw [State.port_congr ports r]
    exact ⟨rfl, id⟩
  · rw [← State.port_congr ports r]
    by_cases here : r = q
    · rw [here]
      exact ⟨by rw [serves.same], serves.active⟩
    · rw [serves.other r here]
      exact ⟨rfl, id⟩

end

/-! ### The copies of an entry that a port neither holds nor claims -/

/-- No copy of the entry of tag `x` is queued at the port `p`, and every copy of it there is in a state that a test allows. -/
def State.Rests (s : State) (p : PortId) (x : Tag) (Ψ : CopyState → Prop) : Prop := x ∉ (s.port p).egress ∧ CopiesAt p x Ψ s

section
variable {s : State} {p q : PortId} {t x : Tag} {Ψ : CopyState → Prop}

theorem copiesAt_mark_apart {st : CopyState} {sl : Option SlotId} (h : q ≠ p ∨ t ≠ x) (a : CopiesAt p x Ψ s) :
    CopiesAt p x Ψ (s.markCopy t q st sl) := by
  rcases h with apart | apart
  · exact copiesAt_mark (.inl apart) a
  · intro e he tag
    simp only [State.markCopy, List.mem_map] at he
    obtain ⟨y, hy, rfl⟩ := he
    split at tag
    · next marked => exact absurd (marked.symm.trans tag) apart
    · next other =>
      rw [if_neg other]
      exact a y hy tag

namespace State.Rests

theorem placeCopy (h : s.Rests p x Ψ) (apart : q ≠ p ∨ t ≠ x) : (s.placeCopy q t).Rests p x Ψ := by
  refine ⟨?_, copiesAt_congr (placeCopy_ott s q t) (copiesAt_mark_apart apart h.2)⟩
  by_cases here : p = q
  · subst here
    have other : t ≠ x := apart.resolve_left (by simp)
    rw [(placeCopy_port s p t).1]
    simpa [other.symm] using h.1
  · rw [(servesOnly_place q s t).other p here]
    exact h.1

theorem sendOn (h : s.Rests p x Ψ) {rest : List Tag} (queue : (s.port q).egress = t :: rest) (i : SlotId) :
    (s.sendOn q t rest i).Rests p x Ψ := by
  by_cases here : p = q
  · subst here
    obtain ⟨queued, copies⟩ := h
    rw [queue, List.mem_cons, not_or] at queued
    exact ⟨by rw [sendOn_port]; exact queued.2,
      copiesAt_congr (sendOn_ott s p t rest i) (copiesAt_mark_apart (.inr (Ne.symm queued.1)) copies)⟩
  · refine ⟨?_, copiesAt_send (.inl (Ne.symm here)) h.2⟩
    rw [(servesOnly_sendOn q s t rest i).other p here]
    exact h.1

theorem noClaim (h : s.Rests p x Ψ) (waits : ¬ Ψ .reissueWait) : x ∉ s.claims p :=
  not_claim_iff.mpr fun e he tag c hc port state => waits (state ▸ h.2 e he tag c hc port)

theorem serveN (h : s.Rests p x Ψ) (waits : ¬ Ψ .reissueWait) (n : Nat) (q : PortId) : (State.serveN n s q).Rests p x Ψ := by
  induction n generalizing s with
  | zero => exact h
  | succ n ih =>
    unfold State.serveN
    split
    · next u act =>
      obtain ⟨t, ts, claims, rfl⟩ := arbitrate_some act
      refine ih (h.placeCopy ?_)
      by_cases here : q = p
      · refine .inr fun same => h.noClaim waits ?_
        rw [← here, claims, same]
        simp
      · exact .inl here
    · split
      · next u act =>
        obtain ⟨t, rest, i, -, queue, rfl⟩ := send_acts act
        exact ih (h.sendOn queue i)
      · exact h

theorem settleIdle (h : s.Rests p x Ψ) (q : PortId) : (s.settleIdle q).Rests p x Ψ := by
  refine ⟨?_, copiesAt_congr rfl h.2⟩
  by_cases here : p = q
  · subst here
    rw [settleIdle_port]
    exact h.1
  · rw [settleIdle_port_ne s here]
    exact h.1

theorem serve (h : s.Rests p x Ψ) (waits : ¬ Ψ .reissueWait) (q : PortId) : (s.serve q).Rests p x Ψ :=
  (h.serveN waits 80 q).settleIdle q

theorem complete (h : s.Rests p x Ψ) (e : Entry) (st : Status) : (s.complete e st).Rests p x Ψ := by
  refine ⟨?_, copiesAt_complete h.2⟩
  rw [State.port_congr (complete_samePorts s e st).1 p]
  exact h.1

theorem setEntry (h : s.Rests p x Ψ) {e : Entry} (apart : e.tag ≠ x) : (s.setEntry e).Rests p x Ψ :=
  ⟨h.1, copiesAt_setEntry (fun tag => absurd tag apart) h.2⟩

theorem reissue (h : s.Rests p x Ψ) (waits : ¬ Ψ .reissueWait) {e : Entry} (apart : e.tag ≠ x) (q : PortId) (i : Nat) (a : Addr) :
    (s.reissue e q i a).Rests p x Ψ := by
  have written (copies : List Copy) : (s.setEntry { e with copies := copies }).Rests p x Ψ := h.setEntry apart
  unfold State.reissue
  simp only
  split
  · exact ((written _).placeCopy (.inr apart)).serve waits q
  · exact written _

theorem failover (h : s.Rests p x Ψ) (waits : ¬ Ψ .reissueWait) {e : Entry} (apart : e.tag ≠ x) (r : PortId) (o : CopyState) :
    (s.failover e r o).Rests p x Ψ := by
  unfold State.failover
  split
  · split
    · exact h.reissue waits apart _ _ _
    · exact h.complete e _
  · exact h.complete e _

/-- The outcome of another entry's copy. -/
theorem outcome (h : s.Rests p x Ψ) (waits : ¬ Ψ .reissueWait) (apart : t ≠ x) (r : PortId) (o : CopyState) (d : List Byte) :
    (s.outcome t r o d).Rests p x Ψ := by
  cases he : s.entry? t with
  | none => rwa [outcome_absent he]
  | some e =>
    have other : (e.settled r o d).tag ≠ x := by rwa [Entry.settled_tag, entry_has_tag he]
    rcases outcome_cases he r o d with done | ⟨st, done⟩ | ⟨-, done⟩
    · rw [done]
      exact h.setEntry other
    · rw [done]
      exact (h.setEntry other).complete _ st
    · rw [done]
      exact (h.setEntry other).failover waits other r o

end State.Rests

theorem copiesAt_reissue (a : CopiesAt p x Ψ s) {e : Entry} (copies : ∀ c ∈ e.copies, c.port = p → Ψ c.state) (apart : q ≠ p) (i : Nat)
    (target : Addr) : CopiesAt p x Ψ (s.reissue e q i target) := by
  have written : CopiesAt p x Ψ (s.setEntry { e with
      copies := e.copies ++ [⟨q, target, some (memberPosition i), .reissueWait, none⟩] }) := by
    refine copiesAt_setEntry (fun _ c hc port => ?_) a
    rcases List.mem_append.mp hc with old | new
    · exact copies c old port
    · rw [List.mem_singleton.mp new] at port
      exact absurd port apart
  unfold State.reissue
  simp only
  split
  · exact copiesAt_serve apart (copiesAt_place (.inl apart) written)
  · exact written

/-- An outcome gives the copies of its entry at its port their final state, if no failover comes back to the port. -/
theorem copiesAt_outcome_settled (apart : ∀ q, s.FailsOverTo x p q → q ≠ p) (o : CopyState) (d : List Byte) :
    CopiesAt p x (· = o) (s.outcome x p o d) := by
  cases he : s.entry? x with
  | none =>
    rw [outcome_absent he]
    exact fun e mem tag => absurd he (entry_ne_none mem tag)
  | some e =>
    have written : CopiesAt p x (· = o) (s.setEntry (e.settled p o d)) := by
      intro y hy hx c hc port
      simp only [State.setEntry, List.mem_map] at hy
      obtain ⟨z, -, rfl⟩ := hy
      have replaced : z.tag = (e.settled p o d).tag := by
        by_contra stands
        rw [if_neg stands] at hx
        exact stands (by rw [hx, Entry.settled_tag, entry_has_tag he])
      rw [if_pos replaced] at hc
      exact Entry.settled_copies hc port
    rcases outcome_cases he p o d with done | ⟨st, done⟩ | ⟨read, done⟩
    · rwa [done]
    · rw [done]
      exact copiesAt_complete written
    · rw [done]
      unfold State.failover
      split
      · next a j _ _ copy =>
        split
        · next q n member =>
          exact copiesAt_reissue written (fun c hc port => Entry.settled_copies hc port)
            (apart q (failsOverTo_of_settled he read copy rfl member)) n a
        · exact copiesAt_complete written
      · exact copiesAt_complete written

end

/-- Only a mirrored read fails over. -/
theorem failsOverTo_mode {s : State} {t : Tag} {p q : PortId} {e : Entry} (h : s.FailsOverTo t p q) (he : s.entry? t = some e) :
    e.modeClass = .mirrorRead := by
  obtain ⟨e', c, j, n, he', mode, -⟩ := h
  cases he.symm.trans he'
  exact mode

end Sys2Proof.Machine
end

section
/-! PROOFS. A first strike, by the deadline of a tag slot. -/

namespace Sys2Proof.Machine

/-! ### A strike (R92, R177) -/

theorem take_strike (eu : EventUnit) (p : PortId) :
    (eu.take (.strike p)).strikes = eu.strikes ||| portBit p ∧ (eu.take (.strike p)).pending = eu.pending
      ∧ (eu.take (.strike p)).holdoff = eu.holdoff := by
  refine ⟨rfl, ?_, rfl⟩
  change eu.pending ||| 0 = eu.pending
  simp

theorem portBit_ne_zero (p : PortId) : portBit p ≠ 0 := by
  revert p
  decide

/-- A strike asserts ALERT_N, but for the holdoff (R184). -/
theorem take_strike_alert (eu : EventUnit) (p : PortId) (h : eu.holdoff = none) : (eu.take (.strike p)).alert = true := by
  have bit : (eu.strikes ||| portBit p).getLsbD p.val = true := by
    rw [BitVec.getLsbD_or, portBit_getLsbD]
    simp
  have some : (eu.strikes ||| portBit p != 0) = true := bne_iff_ne.mpr fun zero => by
    rw [zero] at bit
    simp at bit
  change ((_ || (eu.strikes ||| portBit p != 0) || _) && eu.holdoff.isNone) = true
  rw [some, h]
  simp

/-- A set strike flag keeps the idle timer stopped (R96). -/
theorem idles_struck (q : Port) : q.idles true = false := by simp [Port.idles]

/-- A port whose strike flag is set runs no idle timer when it has been served (R96). -/
theorem serve_struck_idle {s : State} {p : PortId} (flag : s.strikeFlag p = true) : ((s.serve p).port p).idle = none := by
  have kept : (State.serveN 80 s p).strikeFlag p = true := by
    unfold State.strikeFlag
    rw [(State.serveN_carries 80 s p).eu]
    exact flag
  unfold State.serve
  rw [settleIdle_port, kept, idles_struck]
  rfl

/-- An ACTIVE port with its strike flag set, and its record as it was but for what an outcome may have moved, is served. -/
theorem serve_struck {s w : State} {p : PortId} (carries : s.Carries w) (timeouts : (w.port p).timeouts = (s.port p).timeouts)
    (active : (w.port p).state = .active) (flag : s.strikeFlag p = true) :
    let u := w.serve p
    u.eu = s.eu ∧ (u.port p).timeouts = (s.port p).timeouts ∧ (u.port p).state = .active ∧ (u.port p).idle = none ∧ s.OnlyDataPath u := by
  have served := servesOnly_serve p w
  have whole := carries.trans (State.serve_carries w p)
  refine ⟨whole.eu, ?_, served.active active, serve_struck_idle ?_, onlyDataPath_of_carries whole⟩
  · rw [served.same]
    exact timeouts
  · unfold State.strikeFlag
    rw [carries.eu]
    exact flag

/-! ### The deadline of a slot with the strike flag clear -/

/-- The state in which slot `i` of the port has expired and the port has been struck. -/
def State.struck (s : State) (p : PortId) (i : SlotId) : State := (s.expired p i).capture (.strike p)

theorem struck_port_self (s : State) (p : PortId) (i : SlotId) : (s.struck p i).port p =
    { s.port p with slots := (s.port p).slots.set i.val .free i.isLt, timeouts := satInc (s.port p).timeouts } :=
  expired_port_self s p i

theorem struck_port_ne (s : State) {p q : PortId} (i : SlotId) (h : q ≠ p) : (s.struck p i).port q = s.port q := expired_port_ne s i h

/-- A strike moves no port in or out of service. -/
theorem struck_nextMember (s : State) (p : PortId) (i : SlotId) (w : WindowIx) (k : Nat) :
    (s.struck p i).nextMember w k = s.nextMember w k := by
  have serves (q : PortId) : ((s.struck p i).port q).state = (s.port q).state := by
    by_cases here : q = p
    · subst here
      rw [struck_port_self]
    · rw [struck_port_ne s i here]
  unfold State.nextMember
  simp only [serves]
  rfl

theorem struck_strikeFlag (s : State) (p : PortId) (i : SlotId) : (s.struck p i).strikeFlag p = true := by
  rw [State.struck, strikeFlag_capture_strike]
  simp

theorem strikeDeadline_first {s : State} {p : PortId} {i : SlotId} (clear : s.strikeFlag p = false) (failed : List Job) (order : Order) :
    (s.setSlot p i .free).strikeDeadline p failed order = ((s.struck p i).runJobs p failed).serve p :=
  if_neg (show ¬ s.strikeFlag p = true by simp [clear])

variable {s : State} {p : PortId} {i : SlotId} {order : Order} {t : Tag}

theorem exec_deadlineExpiry_firstOrphan (clear : s.strikeFlag p = false) (h : (s.port p).slots.get i = .orphan 0) :
    exec (.deadlineExpiry p i order) s = .next ((s.struck p i).serve p) := by
  rw [exec_deadlineExpiry_orphan order h, strikeDeadline_first clear]
  rfl

theorem exec_deadlineExpiry_firstInFlight (clear : s.strikeFlag p = false) (h : (s.port p).slots.get i = .inFlight t 0) :
    exec (.deadlineExpiry p i order) s = .next (((s.struck p i).outcome t p .timeout []).serve p) := by
  rw [exec_deadlineExpiry_inFlight order h, strikeDeadline_first clear]
  rfl

/-- What every first strike leaves of the port that is struck. -/
structure State.FirstStrike (s u : State) (p : PortId) : Prop where
  eu : u.eu = s.eu.take (.strike p)
  timeouts : (u.port p).timeouts = satInc (s.port p).timeouts
  active : (u.port p).state = .active
  idle : (u.port p).idle = none
  only : ({ s with eu := u.eu } : State).OnlyDataPath u

/-- The port is served after the strike, whatever the expired copy has come to in between. -/
theorem firstStrike_of {w : State} (active : (s.port p).state = .active) (carries : (s.struck p i).Carries w)
    (timeouts : (w.port p).timeouts = ((s.struck p i).port p).timeouts)
    (stays : ((s.struck p i).port p).state = .active → (w.port p).state = .active) : s.FirstStrike (w.serve p) p := by
  have record := struck_port_self s p i
  have awake : ((s.struck p i).port p).state = .active := by rw [record]; exact active
  obtain ⟨eu, count, state, idle, only⟩ := serve_struck carries timeouts (stays awake) (struck_strikeFlag s p i)
  refine ⟨eu, by rw [count, record], state, idle, onlyDataPath_trans ?_ only⟩
  rw [eu]
  rfl

theorem firstStrike_orphan (active : (s.port p).state = .active) : s.FirstStrike ((s.struck p i).serve p) p :=
  firstStrike_of active (.refl _) rfl id

theorem firstStrike_inFlight (active : (s.port p).state = .active) (t : Tag) :
    s.FirstStrike (((s.struck p i).outcome t p .timeout []).serve p) p :=
  have stays := outcome_port_stays (s.struck p i) t p .timeout [] p
  firstStrike_of active (State.outcome_carries _ t p .timeout []) stays.1 stays.2

/-- A first strike in the Event Unit (R92, R177, R184; log 22). -/
theorem firstStrike_captured {u : State} (struck : s.FirstStrike u p) :
    u.eu.strikes = s.eu.strikes ||| portBit p ∧ u.eu.pending = s.eu.pending ∧ u.strikeFlag p = true
      ∧ (s.eu.holdoff = none → u.eu.alert = true) := by
  obtain ⟨strikes, pending, -⟩ := take_strike s.eu p
  have flag : (s.capture (.strike p)).strikeFlag p = true := by rw [strikeFlag_capture_strike]; simp
  rw [State.strikeFlag, struck.eu]
  exact ⟨strikes, pending, flag, take_strike_alert s.eu p⟩

/-- The copy of a mirrored write that has expired stands as TIMEOUT, for the port that is served does not hold it (R121). -/
theorem firstStrike_mirrorWrite {e : Entry} (he : s.entry? t = some e) (mode : e.modeClass = .mirrorWrite)
    (queued : t ∉ (s.port p).egress) : CopiesAt p t (· = .timeout) (((s.struck p i).outcome t p .timeout []).serve p) := by
  have apart : ∀ q, (s.struck p i).FailsOverTo t p q → q ≠ p := fun q goes => by
    have read := failsOverTo_mode (s := s.struck p i) goes he
    exact absurd (mode.symm.trans read) (by decide)
  have rests : ((s.struck p i).outcome t p .timeout []).Rests p t (· = .timeout) := by
    refine ⟨?_, copiesAt_outcome_settled apart .timeout []⟩
    rw [outcome_port _ t p .timeout [] apart, struck_port_self]
    exact queued
  exact (rests.serve (by decide) p).2

theorem claims_eq_nil_iff (s : State) (p : PortId) : s.claims p = [] ↔ ∀ x, CopiesAt p x (· ≠ .reissueWait) s := by
  rw [List.eq_nil_iff_forall_not_mem]
  exact forall_congr' fun x => not_claim_iff

/-- A port with nothing queued and no claim on it has no claim on it either after an outcome that does not come back to it. -/
theorem outcome_noClaim {v : State} (empty : (v.port p).egress = []) (claims : v.claims p = [])
    (apart : ∀ q, v.FailsOverTo t p q → q ≠ p) : (v.outcome t p .timeout []).claims p = [] := by
  rw [claims_eq_nil_iff] at claims ⊢
  intro x
  by_cases same : t = x
  · subst same
    exact fun e he tag c hc port => by simp [copiesAt_outcome_settled apart .timeout [] e he tag c hc port]
  · have rests : v.Rests p x (· ≠ .reissueWait) := ⟨by simp [empty], claims x⟩
    exact (rests.outcome (by simp) same p .timeout []).2

/-- With nothing waiting for the port, and no failover that comes back to it, the strike frees the slot and no more (R87). -/
theorem firstStrike_quiet (empty : (s.port p).egress = []) (claims : s.claims p = [])
    (apart : ∀ q, (s.struck p i).FailsOverTo t p q → q ≠ p) : ((((s.struck p i).outcome t p .timeout []).serve p)).port p =
      { s.port p with slots := (s.port p).slots.set i.val .free i.isLt, timeouts := satInc (s.port p).timeouts, idle := none } := by
  have record := struck_port_self s p i
  have stands := outcome_port (s.struck p i) t p .timeout [] apart
  have idle := serve_idle ((s.struck p i).outcome t p .timeout []) p (by rw [stands, record]; exact empty)
    (outcome_noClaim (by rw [record]; exact empty) claims apart)
  have flag : ((s.struck p i).outcome t p .timeout []).strikeFlag p = true := by
    rw [State.strikeFlag, (State.outcome_carries _ t p .timeout []).eu]
    exact struck_strikeFlag s p i
  rw [idle, settleIdle_port, flag, idles_struck, stands, record]
  rfl

/-- Settles O40: an ORPHAN's expiry serves the port at once, a copy's after its outcome. -/
theorem deadlineFirstStrike : Obligations.DeadlineFirstStrike := by
  unfold Obligations.DeadlineFirstStrike
  intro s p i order active clear
  refine ⟨fun u done due => ?_, fun orphan => ?_, fun t sent => ?_, fun t e sent he apart empty claims => ?_,
    fun t e sent he single => ?_⟩
  · rcases due with orphan | ⟨t, sent⟩
    · cases done.symm.trans (exec_deadlineExpiry_firstOrphan clear orphan)
      exact firstStrike_captured (firstStrike_orphan active)
    · cases done.symm.trans (exec_deadlineExpiry_firstInFlight clear sent)
      exact firstStrike_captured (firstStrike_inFlight active t)
  · obtain ⟨-, timeouts, stays, idle, only⟩ := firstStrike_orphan (i := i) active
    have served := servesOnly_serve p (s.struck p i)
    have record := struck_port_self s p i
    refine ⟨_, exec_deadlineExpiry_firstOrphan clear orphan, timeouts, stays, idle, served.ulc, served.tags,
      fun empty claims => ?_, only⟩
    rw [serve_idle (s.struck p i) p (by rw [record]; exact empty) claims, settleIdle_port, record]
  · obtain ⟨-, timeouts, stays, idle, only⟩ := firstStrike_inFlight (i := i) active t
    exact ⟨s.struck p i, _, exec_deadlineExpiry_firstInFlight clear sent, rfl, struck_port_self s p i, fun q hq => struck_port_ne s i hq,
      rfl, timeouts, stays, idle, only, fun e he mode queued => firstStrike_mirrorWrite he mode queued⟩
  · refine ⟨_, exec_deadlineExpiry_firstInFlight clear sent, firstStrike_quiet empty claims fun q goes => ?_⟩
    obtain ⟨e', c, j, n, he', mode, copy, position, member⟩ := goes
    cases he.symm.trans he'
    rw [struck_nextMember] at member
    exact apart mode c j q n copy position member
  · obtain ⟨-, timeouts, stays, idle, only⟩ := firstStrike_inFlight (i := i) active t
    obtain ⟨ulc, gone, -, -, -, quiet, -, -⟩ :=
      single_outcome_served (v := s.struck p i) (p := p) (o := .timeout) (data := []) he single
    have record := struck_port_self s p i
    refine ⟨_, exec_deadlineExpiry_firstInFlight clear sent, timeouts, stays, idle, fun empty claims => ?_, ?_, gone, only⟩
    · rw [quiet (by rw [record]; exact empty) claims, record]
    · rw [if_neg (by simp), if_neg (by simp [CopyState.status])] at ulc
      exact ulc.trans (respond_ulc_congr (s := s) (s' := s.struck p i) rfl _ _ _ _)

end Sys2Proof.Machine
end

section
/-! PROOFS. The timers of a port: one that is idle parks, and one whose wake times out with the strike flag clear is struck and parks. -/

namespace Sys2Proof.Machine

/-! ### Failures with TIMEOUT, one after another -/

theorem takeAt_map {α β : Type} (f : α → β) (k : Nat) (xs : List α) :
    takeAt k (xs.map f) = (takeAt k xs).map fun x => (f x.1, x.2.map f) := by
  unfold takeAt
  rw [List.getElem?_map, List.eraseIdx_map]
  cases xs[k]? with
  | none => rfl
  | some x => rfl

theorem permute_map {α β : Type} (f : α → β) (order : Order) (xs : List α) : permute order (xs.map f) = (permute order xs).map f := by
  induction order generalizing xs with
  | nil => rfl
  | cons k ks ih =>
    rw [permute, permute, List.length_map, takeAt_map]
    cases takeAt (k % xs.length) xs with
    | none => rfl
    | some x =>
      rw [Option.map_some]
      simp only [List.map_cons, ih]

/-- The copies at the port of the entries of the tags fail with TIMEOUT, one after another. -/
def State.timeOut (s : State) (p : PortId) (ts : List Tag) : State := ts.foldl (fun a t => a.outcome t p .timeout []) s

theorem runJobs_timeOut (p : PortId) (ts : List Tag) (s : State) : s.runJobs p (ts.map (Job.fail · .timeout)) = s.timeOut p ts := by
  induction ts generalizing s with
  | nil => rfl
  | cons t ts ih => exact ih _

theorem timeOut_carries (s : State) (p : PortId) (ts : List Tag) : s.Carries (s.timeOut p ts) := by
  rw [← runJobs_timeOut]
  exact State.runJobs_carries _ s p

theorem timeOut_attempts {s : State} {a : AttemptEvent} (h : a ∈ s.mail.attempts) (p : PortId) (ts : List Tag) :
    a ∈ (s.timeOut p ts).mail.attempts := by
  induction ts generalizing s with
  | nil => exact h
  | cons t ts ih => exact ih (outcome_attempts s t p .timeout [] h)

/-- The entry of a tag, if there is one, has the mode class given. -/
def State.HasMode (s : State) (x : Tag) (m : ModeClass) : Prop := ∀ e, s.entry? x = some e → e.modeClass = m

theorem hasMode_apart {s : State} {x : Tag} {m : ModeClass} (h : s.HasMode x m) (read : m ≠ .mirrorRead) {p q : PortId} :
    ¬ s.FailsOverTo x p q := by
  rintro ⟨e, -, -, -, he, mode, -⟩
  exact read ((h e he).symm.trans mode)

/-- An outcome leaves the mode class of every entry that stands, unless it fails over. -/
theorem State.HasMode.outcome {s : State} {x : Tag} {m : ModeClass} (h : s.HasMode x m) (read : m ≠ .mirrorRead) (t : Tag) (p : PortId)
    (o : CopyState) (d : List Byte) : (s.outcome t p o d).HasMode x m := by
  intro e' he'
  by_cases same : x = t
  · subst same
    cases he : s.entry? x with
    | none =>
      rw [outcome_absent he] at he'
      exact h e' he'
    | some e =>
      have mem := List.mem_of_find?_eq_some he'
      have tag : e'.tag = (e.settled p o d).tag := by rw [entry_has_tag he', Entry.settled_tag, entry_has_tag he]
      rcases outcome_cases he p o d with done | ⟨st, done⟩ | ⟨fails, -⟩
      · rw [done] at mem
        simp only [State.setEntry, List.mem_map] at mem
        obtain ⟨y, -, rfl⟩ := mem
        split at tag
        · next replaced =>
          rw [if_pos replaced, Entry.settled_eq]
          exact h e he
        · next stands => exact absurd tag stands
      · obtain ⟨-, gone, -⟩ := complete_does (s.setEntry (e.settled p o d)) (e.settled p o d) st
        rw [done] at mem
        exact absurd tag (gone e' mem)
      · exact absurd ((h e he).symm.trans fails) read
  · have kept := modeKind_outcome s t p o d x same
    unfold modeKind at kept
    rw [he', Option.map_some, eq_comm, Option.map_eq_some_iff] at kept
    obtain ⟨e, he, modes⟩ := kept
    have mode : e.modeClass = e'.modeClass := congrArg Prod.fst modes
    exact mode ▸ h e he

/-- The outcome of the copy of a SINGLE entry, or of none, takes the entry and moves no port. -/
theorem outcome_single {s : State} {t : Tag} (h : s.HasMode t .single) (p : PortId) (o : CopyState) (d : List Byte) :
    (s.outcome t p o d).ports = s.ports ∧ (s.outcome t p o d).wire = s.wire
      ∧ (s.outcome t p o d).ott = s.ott.filter fun y => y.tag != t := by
  cases he : s.entry? t with
  | none =>
    rw [outcome_absent he]
    have others : s.ott.filter (fun y => y.tag != t) = s.ott := List.filter_eq_self.mpr fun y hy => bne_iff_ne.mpr fun tag =>
      entry_ne_none hy tag he
    exact ⟨rfl, rfl, others.symm⟩
  | some e =>
    obtain ⟨-, -, ports, -, -, wire, -⟩ := outcome_single_does s t p o d e he (h e he)
    exact ⟨ports, wire, (outcome_single_leaves s t p o d e he (h e he)).1⟩

theorem timeOut_single {s : State} {ts : List Tag} (h : ∀ t ∈ ts, s.HasMode t .single) (p : PortId) :
    (s.timeOut p ts).ports = s.ports ∧ (s.timeOut p ts).wire = s.wire ∧ (s.timeOut p ts).ott = s.ott.filter fun y => y.tag ∉ ts := by
  induction ts generalizing s with
  | nil => exact ⟨rfl, rfl, by simp [State.timeOut]⟩
  | cons t ts ih =>
    obtain ⟨ports, wire, ott⟩ := outcome_single (h t (by simp)) p .timeout []
    obtain ⟨ports', wire', ott'⟩ := ih (s := s.outcome t p .timeout []) fun y hy =>
      (h y (List.mem_cons_of_mem t hy)).outcome (by decide) t p .timeout []
    refine ⟨ports'.trans ports, wire'.trans wire, ott'.trans ?_⟩
    rw [ott, List.filter_filter]
    refine List.filter_congr fun y _ => ?_
    by_cases same : y.tag = t
    · simp [same]
    · simp [same]

/-- The copy of a mirrored write that fails with TIMEOUT stands so, and is not queued at the port again (R121). -/
theorem timeOut_mirrorWrite {s : State} {p : PortId} {x : Tag} (ts : List Tag) (mode : s.HasMode x .mirrorWrite)
    (rests : s.Rests p x (· = .timeout) ∨ x ∈ ts ∧ s.Rests p x (· ≠ .reissueWait)) : (s.timeOut p ts).Rests p x (· = .timeout) := by
  induction ts generalizing s with
  | nil => exact rests.resolve_right (by simp)
  | cons t ts ih =>
    refine ih (mode.outcome (by decide) t p .timeout []) ?_
    by_cases same : t = x
    · subst same
      have apart : ∀ q, s.FailsOverTo t p q → q ≠ p := fun q goes => absurd goes (hasMode_apart mode (by decide))
      have queued : t ∉ (s.port p).egress := rests.elim (·.1) (·.2.1)
      exact .inl ⟨by rwa [outcome_port s t p .timeout [] apart], copiesAt_outcome_settled apart .timeout []⟩
    · refine rests.imp (fun stands => stands.outcome (by decide) same p .timeout []) fun ⟨due, stands⟩ => ⟨?_, ?_⟩
      · exact (List.mem_cons.mp due).resolve_left (Ne.symm same)
      · exact stands.outcome (by simp) same p .timeout []

/-- A SINGLE entry whose copy fails with TIMEOUT is answered so (R117). -/
theorem timeOut_answers {s : State} {p : PortId} {x : Tag} {ts : List Tag} {e : Entry} (he : s.entry? x = some e)
    (single : e.modeClass = .single) (due : x ∈ ts) :
    modeKind (s.timeOut p ts) x = none ∧ (s.ulc.state = .up →
      ⟨e.kind.response, x, .timeout, 0, []⟩ ∈ (s.timeOut p ts).ulc.queue.drop s.ulc.queue.length) := by
  have stood : modeKind s x = some (.single, e.kind) := by
    unfold modeKind
    rw [he, Option.map_some, single]
  have all := runJobs_single p x e.kind .timeout (by decide) (by decide) (ts.map (Job.fail · .timeout)) s stood
    (by simp only [List.mem_map]
        rintro j ⟨t, -, rfl⟩ o same
        cases same
        rfl)
    (.inr (by simp))
  rw [runJobs_timeOut] at all
  rcases all with ⟨-, none⟩ | ⟨gone, answered⟩
  · exact absurd rfl (none _ (List.mem_map_of_mem due))
  · refine ⟨gone, fun up => ?_⟩
    obtain ⟨m, queue, mem⟩ := answered up
    rw [queue, List.drop_left]
    exact mem

/-! ### A PARKED port with reissues that wait for it (R84, R99, R127) -/

/-- A PARKED and empty port that is served with its link DOWN wakes for the claims on it, of which the eight oldest get its places. -/
theorem serve_wakes {w : State} {p : PortId} (parked : (w.port p).state = .parked) (empty : (w.port p).egress = [])
    (down : w.pins.link.get p = false) (nodup : (w.ott.map (·.tag)).Nodup) (claims : w.claims p ≠ []) :
    (w.serve p).port p = { w.port p with
        state := .waking, wake := some (w.port p).wakeTimeout, egress := (w.claims p).take 8, idle := none }
      ∧ Output.wake p ∈ (w.serve p).wire.drop w.wire.length := by
  obtain ⟨c, cs, oldest⟩ := List.exists_cons_of_ne_nil claims
  have first : w.arbitrate? p = some (w.placeCopy p c) := by
    unfold State.arbitrate?
    rw [if_pos (by rw [parked, empty]; decide), oldest]
  have acts : State.serveN 80 w p = State.serveN 79 (w.placeCopy p c) p := by
    conv => lhs; rw [State.serveN]
    rw [first]
  have waking := startWake_down ((w.setPort p { w.port p with egress := (w.port p).egress ++ [c] }).markCopy c p .queued none) p down
  rw [← placeCopy_parked w p c parked, placed_port, empty] at waking
  obtain ⟨port, wire, -, -⟩ := waking
  have left : (w.placeCopy p c).claims p = cs := by
    rw [claims_congr (placeCopy_ott w p c)]
    exact claims_markCopy_head w p c cs oldest nodup
  have tags : ((w.placeCopy p c).ott.map (·.tag)).Nodup := by
    rw [placeCopy_ott, tags_markCopy]
    exact nodup
  have queued := serveN_waking 79 (w.placeCopy p c) p (by rw [port]) tags (by omega)
  obtain ⟨more, grown⟩ := serveN_wire 79 (w.placeCopy p c) p
  unfold State.serve
  rw [settleIdle_port, settleIdle_wire, acts]
  constructor
  · rw [idles_state _ _ (by rw [queued, port]; exact nofun), queued, left, port, oldest]
    rfl
  · rw [grown, wire]
    change _ ∈ (w.wire ++ [Output.wake p] ++ more).drop w.wire.length
    rw [List.append_assoc, List.drop_left]
    simp

/-- Entries that leave take no claim with them, if none of them waits for the port. -/
theorem claims_filter {s w : State} {p : PortId} {ts : List Tag} (ott : w.ott = s.ott.filter fun y => y.tag ∉ ts)
    (apart : ∀ x ∈ ts, x ∉ s.claims p) : w.claims p = s.claims p := by
  unfold State.claims
  rw [ott, List.filter_filter]
  refine congrArg _ (List.filter_congr fun y hy => ?_)
  by_cases waits : y.waitsFor p = true
  · have claim : y.tag ∈ s.claims p := List.mem_map_of_mem (List.mem_filter.mpr ⟨hy, waits⟩)
    have other : y.tag ∉ ts := fun due => apart _ due claim
    simp [waits, other]
  · simp [waits]

/-! ### The timers (R92, R97, R100) -/

/-- The state of a port whose wake has timed out, before its queued copies fail. -/
def State.wakeFailed (s : State) (p : PortId) : State :=
  let v := s.countTimeout p
  let s1 := ((v.capture (.strike p)).setPort p { v.port p with state := .parked, wake := none, egress := [] }).attemptDue
    (.portChanged p)
  if (v.port p).egress ≠ [] ∧ v.claims p = [] then s1.attemptDue (.placesRose p) else s1

section
variable (s : State) (p : PortId)

theorem wakeFailed_frame : s.wakeFailed p =
    { s with ports := (s.wakeFailed p).ports, eu := s.eu.take (.strike p), mail := (s.wakeFailed p).mail } := by
  unfold State.wakeFailed
  simp only
  split
  all_goals rfl

theorem wakeFailed_port (q : PortId) : (s.wakeFailed p).port q = if p = q then
    { s.port p with state := .parked, wake := none, egress := [], timeouts := satInc (s.port p).timeouts } else s.port q := by
  have record : ((s.countTimeout p).capture (.strike p) |>.setPort p { (s.countTimeout p).port p with
      state := .parked, wake := none, egress := [] }).port q = if p = q then
    { s.port p with state := .parked, wake := none, egress := [], timeouts := satInc (s.port p).timeouts } else s.port q := by
    rw [State.port_setPort_if]
    split
    · rw [countTimeout_port, if_pos rfl]
    · next away =>
      change (s.countTimeout p).port q = _
      rw [countTimeout_port, if_neg away]
  unfold State.wakeFailed
  simp only
  split
  all_goals exact record

theorem wakeFailed_portChanged : AttemptEvent.portChanged p ∈ (s.wakeFailed p).mail.attempts := by
  unfold State.wakeFailed
  simp only
  split
  · exact attemptDue_mono _ _ _ (attemptDue_mem _ _)
  · exact attemptDue_mem _ _

end

variable {s : State} {p : PortId}

theorem exec_idleTimeout (active : (s.port p).state = .active) (timer : (s.port p).idle = some 0) :
    exec (.idleTimeout p) s = .next (s.park p) := congrArg Host.Outcome.next (if_pos ⟨active, timer⟩)

theorem exec_wakeTimeout_first (order : Order) (waking : (s.port p).state = .waking) (timer : (s.port p).wake = some 0)
    (clear : s.strikeFlag p = false) : exec (.wakeTimeout p order) s
      = .next (((s.wakeFailed p).timeOut p (permute order (s.port p).egress)).serve p) := by
  have queue : ((s.countTimeout p).port p).egress = (s.port p).egress := by rw [countTimeout_port, if_pos rfl]
  have fails : (s.countTimeout p).failWake p order
      = ((s.wakeFailed p).runJobs p (permute order (((s.countTimeout p).port p).egress.map (Job.fail · .timeout)))).serve p := rfl
  rw [exec_wakeTimeout order waking timer, if_neg (by simp [clear]), fails, queue, permute_map, runJobs_timeOut]

/-- A port whose wake has timed out and whose queued entries are all SINGLE has failed them all, and no more (R117). -/
theorem wakeFailed_timeOut_single {ts : List Tag} (single : ∀ t ∈ ts, s.HasMode t .single) :
    let w := (s.wakeFailed p).timeOut p ts
    w.port p = { s.port p with state := .parked, wake := none, egress := [], timeouts := satInc (s.port p).timeouts }
      ∧ w.wire = s.wire ∧ w.ott = s.ott.filter fun y => y.tag ∉ ts := by
  have frame := wakeFailed_frame s p
  have ott : (s.wakeFailed p).ott = s.ott := by rw [frame]
  have wire : (s.wakeFailed p).wire = s.wire := by rw [frame]
  obtain ⟨ports, stands, left⟩ := timeOut_single (s := s.wakeFailed p) (fun t ht e he =>
    single t ht e ((entry_congr ott t).symm.trans he)) p
  exact ⟨by rw [State.port_congr ports, wakeFailed_port, if_pos rfl], stands.trans wire, by rw [left, ott]⟩

/-- The claims on the port stand, if none of the entries that go had one. -/
theorem wakeFailed_timeOut_claims {ts : List Tag} (single : ∀ t ∈ ts, s.HasMode t .single) (apart : ∀ t ∈ ts, t ∉ s.claims p) :
    ((s.wakeFailed p).timeOut p ts).claims p = s.claims p := by
  obtain ⟨-, -, ott⟩ := wakeFailed_timeOut_single (p := p) single
  exact claims_filter ott apart

/-- What every failed wake leaves (R92, R100). -/
theorem wakeFailed_served (s : State) (p : PortId) (ts : List Tag) :
    let u := ((s.wakeFailed p).timeOut p ts).serve p
    u.eu = s.eu.take (.strike p) ∧ AttemptEvent.portChanged p ∈ u.mail.attempts ∧ ({ s with eu := u.eu } : State).OnlyDataPath u := by
  intro u
  have carries : (s.wakeFailed p).Carries u := (timeOut_carries _ p ts).trans (State.serve_carries _ p)
  have frame := wakeFailed_frame s p
  have eu : u.eu = s.eu.take (.strike p) := by rw [carries.eu, frame]
  have struck : ({ s with eu := s.eu.take (.strike p) } : State).OnlyDataPath (s.wakeFailed p) := by
    rw [frame]
    rfl
  refine ⟨eu, (servesOnly_serve p _).att _ (timeOut_attempts (wakeFailed_portChanged s p) p ts), ?_⟩
  rw [eu]
  exact onlyDataPath_trans struck (onlyDataPath_of_carries carries)

/-- A SINGLE entry queued at the port is answered TIMEOUT (R117). -/
theorem wakeFailed_answers {x : Tag} {ts : List Tag} {e : Entry} (he : s.entry? x = some e) (single : e.modeClass = .single)
    (due : x ∈ ts) :
    let u := ((s.wakeFailed p).timeOut p ts).serve p
    (∀ y ∈ u.ott, y.tag ≠ x)
      ∧ (s.ulc.state = .up → ⟨e.kind.response, x, .timeout, 0, []⟩ ∈ u.ulc.queue.drop s.ulc.queue.length) := by
  intro u
  have frame := wakeFailed_frame s p
  have ott : (s.wakeFailed p).ott = s.ott := by rw [frame]
  have ulc : (s.wakeFailed p).ulc = s.ulc := by rw [frame]
  obtain ⟨gone, answered⟩ := timeOut_answers (p := p) ((entry_congr ott x).trans he) single due
  rw [ulc] at answered
  refine ⟨modeKind_of_none ((keepsModes_serve _ p x).trans gone), fun up => ?_⟩
  rw [(servesOnly_serve p _).ulc]
  exact answered up

/-- The copy of a mirrored write queued at the port stands as TIMEOUT (R121). -/
theorem wakeFailed_mirrorWrite {x : Tag} {ts : List Tag} {e : Entry} (he : s.entry? x = some e) (mode : e.modeClass = .mirrorWrite)
    (due : x ∈ ts) (claims : x ∉ s.claims p) : CopiesAt p x (· = .timeout) (((s.wakeFailed p).timeOut p ts).serve p) := by
  have ott : (s.wakeFailed p).ott = s.ott := by rw [wakeFailed_frame]
  have write : (s.wakeFailed p).HasMode x .mirrorWrite := fun e' he' => by
    cases he.symm.trans ((entry_congr ott x).symm.trans he')
    exact mode
  have rests : (s.wakeFailed p).Rests p x (· ≠ .reissueWait) := by
    refine ⟨by rw [wakeFailed_port, if_pos rfl]; simp, not_claim_iff.mp ?_⟩
    rwa [claims_congr ott]
  exact ((timeOut_mirrorWrite ts write (.inr ⟨due, rests⟩)).serve (by decide) p).2

/-- Settles O42: the copies that fail are the queued ones in the order chosen, and then the port is served. -/
theorem timersParkThePort : Obligations.TimersParkThePort := by
  unfold Obligations.TimersParkThePort
  intro s p order
  refine ⟨fun active timer => ?_, fun waking timer clear claims single => ?_, fun waking timer clear => ?_⟩
  · exact ⟨_, exec_idleTimeout active timer, by rw [park_port, if_pos rfl], fun q hq => by rw [park_port, if_neg hq.symm], rfl,
      attemptDue_mem _ _, rfl, rfl, onlyDataPath_of_carries (s.park_carries p)⟩
  · have perm := permute_perm order (s.port p).egress
    have done := exec_wakeTimeout_first order waking timer clear
    set ts := permute order (s.port p).egress
    have modes : ∀ t ∈ ts, s.HasMode t .single := fun t ht e he => by
      obtain ⟨e', he', mode⟩ := single t (perm.mem_iff.mp ht)
      cases he.symm.trans he'
      exact mode
    obtain ⟨eu, changed, only⟩ := wakeFailed_served s p ts
    obtain ⟨port, -, ott⟩ := wakeFailed_timeOut_single (p := p) modes
    have stands := (wakeFailed_timeOut_claims (p := p) modes (by simp [claims])).trans claims
    have idle := serve_idle ((s.wakeFailed p).timeOut p ts) p (by rw [port]) stands
    refine ⟨_, done, ?_, by rw [eu]; rfl, fun t ht y hy tag => ?_, changed, only⟩
    · rw [idle, settleIdle_port, port, idles_state _ _ (by exact nofun)]
      rfl
    · rw [idle] at hy
      change y ∈ ((s.wakeFailed p).timeOut p ts).ott at hy
      rw [ott] at hy
      simp [tag, perm.mem_iff, ht] at hy
  · have perm := permute_perm order (s.port p).egress
    have done := exec_wakeTimeout_first order waking timer clear
    set ts := permute order (s.port p).egress
    obtain ⟨eu, changed, only⟩ := wakeFailed_served s p ts
    have frame := wakeFailed_frame s p
    have eu1 : (s.wakeFailed p).eu = s.eu.take (.strike p) := by rw [frame]
    have flag : (s.capture (.strike p)).strikeFlag p = true := by rw [strikeFlag_capture_strike]; simp
    refine ⟨_, s.wakeFailed p, ts, done, perm, rfl, by rw [frame], by rw [wakeFailed_port, if_pos rfl], fun q hq => ?_,
      eu.trans eu1.symm, eu1, ?_, changed, only, fun x hx e he => ?_, fun single nodup down claims => ?_⟩
    · rw [wakeFailed_port, if_neg hq.symm]
    · rw [State.strikeFlag, eu]
      exact flag
    · have due : x ∈ ts := perm.mem_iff.mpr hx
      exact ⟨fun single => wakeFailed_answers he single due, fun write claim => wakeFailed_mirrorWrite he write due claim⟩
    · have modes : ∀ t ∈ ts, s.HasMode t .single := fun t ht e he => by
        obtain ⟨-, e', he', mode⟩ := single t (perm.mem_iff.mp ht)
        cases he.symm.trans he'
        exact mode
      obtain ⟨port, wire, ott⟩ := wakeFailed_timeOut_single (p := p) modes
      have stands := wakeFailed_timeOut_claims (p := p) modes fun t ht => (single t (perm.mem_iff.mp ht)).1
      have pins : ((s.wakeFailed p).timeOut p ts).pins = s.pins := by rw [(timeOut_carries _ p ts).pins, frame]
      have wakes := serve_wakes (w := (s.wakeFailed p).timeOut p ts) (p := p) (by rw [port]) (by rw [port]) (by rw [pins]; exact down)
        (by rw [ott]; exact nodup.sublist (List.filter_sublist.map _)) (by rw [stands]; exact claims)
      rw [port, wire, stands] at wakes
      exact wakes

end Sys2Proof.Machine
end

section
/-! PROOFS. The outcomes of mirrored copies: a write merges the outcomes of its copies, and a read fails over to the next member in
service. -/

namespace Sys2Proof.Machine

/-! ### An entry that has been replaced -/

@[simp] theorem Entry.setCopy_tag (e : Entry) (p : PortId) (st : CopyState) (sl : Option SlotId) : (e.setCopy p st sl).tag = e.tag := rfl
@[simp] theorem Entry.setCopy_kind (e : Entry) (p : PortId) (st : CopyState) (sl : Option SlotId) : (e.setCopy p st sl).kind = e.kind := rfl
@[simp] theorem Entry.setCopy_modeClass (e : Entry) (p : PortId) (st : CopyState) (sl : Option SlotId) :
    (e.setCopy p st sl).modeClass = e.modeClass := rfl

section
variable {s : State} {e f : Entry} {t : Tag} {p q : PortId}

/-- The last replacement of an entry counts. -/
theorem setEntry_setEntry (h : f.tag = e.tag) : (s.setEntry e).setEntry f = s.setEntry f := by
  unfold State.setEntry
  simp only [List.map_map, h]
  congr 1
  refine List.map_congr_left fun x _ => ?_
  by_cases same : x.tag = e.tag <;> simp [same]

/-- A copy marked in the entry just written is marked in what is written. -/
theorem markCopy_setEntry (s : State) (e : Entry) (p : PortId) (st : CopyState) (sl : Option SlotId) :
    (s.setEntry e).markCopy e.tag p st sl = s.setEntry (e.setCopy p st sl) := by
  unfold State.setEntry State.markCopy
  simp only [List.map_map, Entry.setCopy_tag]
  congr 1
  refine List.map_congr_left fun x _ => ?_
  by_cases same : x.tag = e.tag <;> simp [same]

/-- The entry written is the entry of its tag. -/
theorem entry_setEntry (h : s.entry? e.tag = some f) : (s.setEntry e).entry? e.tag = some e := by
  rw [State.entry?, State.setEntry]
  simp only
  rw [find_map_tag _ (by intro x; split <;> simp_all)]
  have found : s.ott.find? (fun x => x.tag == e.tag) = some f := h
  rw [found, Option.map_some, if_pos (entry_has_tag h)]

/-- An entry that waits for no reissue at the port makes no claim on it. -/
theorem claims_setEntry_nil (claims : s.claims q = []) (waits : e.waitsFor q = false) : (s.setEntry e).claims q = [] := by
  simp only [State.claims, List.map_eq_nil_iff, List.filter_eq_nil_iff, State.setEntry, List.mem_map] at claims ⊢
  rintro _ ⟨x, hx, rfl⟩
  split
  · simp [waits]
  · exact claims x hx

/-- The claim of another entry stands. -/
theorem mem_claims_setEntry {x : Tag} (claim : x ∈ s.claims q) (other : x ≠ e.tag) : x ∈ (s.setEntry e).claims q := by
  simp only [State.claims, List.mem_map, List.mem_filter, State.setEntry] at claim ⊢
  obtain ⟨y, ⟨mem, waits⟩, rfl⟩ := claim
  exact ⟨y, ⟨⟨y, mem, if_neg other⟩, waits⟩, rfl⟩

/-- With no claim on a port, an entry whose copy elsewhere has its outcome makes none. -/
theorem claims_settled_nil {o : CopyState} {sl : Option SlotId} (he : s.entry? t = some e) (claims : s.claims q = [])
    (o_ne : o ≠ .reissueWait) : (s.setEntry (e.setCopy p o sl)).claims q = [] := by
  refine claims_setEntry_nil claims (Bool.eq_false_iff.mpr fun waits => ?_)
  have claim : t ∈ s.claims q :=
    List.mem_map.mpr ⟨e, List.mem_filter.mpr ⟨List.mem_of_find?_eq_some he, waitsFor_setCopy o_ne waits⟩, entry_has_tag he⟩
  simp [claims] at claim

/-- An entry that is written and completes at once: it is answered and gone (R118, R119), and DEGRADED goes with OK_DEGRADED alone
(R123). -/
theorem setEntry_complete_does (s : State) (e : Entry) (st : Status) :
    let u := (s.setEntry e).complete e st
    u.ulc = (s.respond e.kind e.tag st (e.responseData st)).ulc
      ∧ (∀ x ∈ u.ott, x.tag ≠ e.tag)
      ∧ (st = .okDegraded → s.underReset = false → u.mail.occurrences = s.mail.occurrences ++ [.degraded])
      ∧ (st ≠ .okDegraded → u.mail.occurrences = s.mail.occurrences) := by
  obtain ⟨ulc, gone, -, quiet, degraded, -⟩ := complete_does (s.setEntry e) e st
  exact ⟨ulc.trans (respond_ulc_congr (s := s) (s' := s.setEntry e) rfl _ _ _ _), gone, degraded, quiet⟩

end

/-! ### A mirrored write (R121 to R123) -/

/-- The outcome of a copy is open in QUEUED, REISSUE_WAIT and SENT (R112). -/
theorem CopyState.isOpen_iff (st : CopyState) : st.isOpen = true ↔ st = .queued ∨ st = .reissueWait ∨ st = .sent := by
  cases st <;> decide

/-- The lines of R122 in their order. -/
theorem Entry.mergedStatus_eq (e : Entry) : e.mergedStatus =
    if (∀ c ∈ e.copies, c.state = .ok) ∧ e.skipped = [] then .ok
    else if ∃ c ∈ e.copies, c.state = .ok then .okDegraded
    else if ∃ c ∈ e.copies, c.state = .targetError then .targetError
    else if ∃ c ∈ e.copies, c.state = .timeout then .timeout
    else .portDown := by
  simp [Entry.mergedStatus]

/-- The outcome of a copy of a mirrored write is recorded, and completes the entry if no copy is open any more. -/
theorem outcome_mirrorWrite {s : State} {t : Tag} {e : Entry} (he : s.entry? t = some e) (write : e.kind = .write)
    (mode : e.modeClass = .mirrorWrite) (p : PortId) (o : CopyState) (d : List Byte) :
    s.outcome t p o d =
      if ∃ c ∈ (e.setCopy p o none).copies, c.state.isOpen = true then s.setEntry (e.setCopy p o none)
      else (s.setEntry (e.setCopy p o none)).complete (e.setCopy p o none) (e.setCopy p o none).mergedStatus := by
  unfold State.outcome
  simp [he, write, mode]

/-- Settles O48: the lines of R122 in turn, then the outcome with a copy still open and with none. -/
theorem mirroredWriteMerges : Obligations.MirroredWriteMerges := by
  unfold Obligations.MirroredWriteMerges
  refine ⟨fun e => ?_, fun s t p o data e he write mode => ?_⟩
  · rw [Entry.mergedStatus_eq]
    refine ⟨fun all none => if_pos ⟨all, none⟩, fun partly => ?_⟩
    rw [if_neg partly]
    refine ⟨fun ok => if_pos ok, fun noOk => ?_⟩
    rw [if_neg (by simpa using noOk)]
    refine ⟨fun error => if_pos error, fun noError => ?_⟩
    rw [if_neg (by simpa using noError)]
    exact ⟨fun timeout => if_pos timeout, fun noTimeout => if_neg (by simpa using noTimeout)⟩
  · rw [outcome_mirrorWrite he write mode]
    simp only [← CopyState.isOpen_iff]
    refine ⟨fun stillOpen => if_pos stillOpen, fun settled => ?_⟩
    rw [if_neg (by simpa using settled)]
    obtain ⟨ulc, gone, degraded, quiet⟩ := setEntry_complete_does s (e.setCopy p o none) (e.setCopy p o none).mergedStatus
    rw [Entry.setCopy_tag, entry_has_tag he] at ulc gone
    have noData : (e.setCopy p o none).responseData (e.setCopy p o none).mergedStatus = [] := by
      simp [Entry.responseData, write]
    rw [noData, Entry.setCopy_kind, write] at ulc
    exact ⟨ulc, gone, degraded, quiet⟩

end Sys2Proof.Machine
end

section
/-! PROOFS. A mirrored read, whose outcome completes it or moves it to the next member in service. -/

namespace Sys2Proof.Machine

/-! ### The next member (R125) -/

section
variable {s : State} {i : WindowIx} {k j : Nat} {q : PortId}

theorem membersOf_mirrored {w : Window} {ms : List PortId} {base : UnitNo} (loaded : s.ps.activeBank.windows.get i = .loaded w)
    (mode : w.mode = .mirrored ms base) : s.membersOf i = ms := by
  obtain ⟨_, _, _, _, _, _⟩ := w
  subst mode
  unfold State.membersOf
  rw [loaded]

/-- There is no next member if none after the position is in service. -/
theorem nextMember_none (out : ∀ x ∈ (s.membersOf i).drop (k + 1), (s.port x).state.inService = false) : s.nextMember i k = none := by
  unfold State.nextMember
  refine List.find?_eq_none.mpr fun m hm => ?_
  have member : m.1 ∈ (s.membersOf i).drop (k + 1) := by
    rw [← List.zipIdx_map_fst 0 (s.membersOf i), ← List.map_drop]
    exact List.mem_map_of_mem hm
  simp [out _ member]

/-- The next member is the first one in service after the position. -/
theorem nextMember_first (later : k < j) (member : (s.membersOf i)[j]? = some q) (serves : (s.port q).state.inService = true)
    (out : ∀ m, k < m → m < j → ∀ x, (s.membersOf i)[m]? = some x → (s.port x).state.inService = false) :
    s.nextMember i k = some (q, j) := by
  obtain ⟨bound, at_j⟩ := List.getElem?_eq_some_iff.mp member
  unfold State.nextMember
  rw [List.find?_eq_some_iff_getElem]
  refine ⟨serves, j - (k + 1), by simp; omega, ?_, fun n hn => ?_⟩
  · have place : k + 1 + (j - (k + 1)) = j := by omega
    simp [place, at_j]
  · have inside : k + 1 + n < (s.membersOf i).length := by omega
    simp [out (k + 1 + n) (by omega) (by omega) _ (List.getElem?_eq_getElem inside)]

end

/-! ### What the outcome of a mirrored read comes to (R124, R125) -/

section
variable {s : State} {t : Tag} {p : PortId} {o : CopyState} {e : Entry} {c : Copy} {i : Fin 4}

/-- An answer completes the read, whether OK or ERROR. -/
theorem outcome_mirrorRead_answered (he : s.entry? t = some e) (mode : e.modeClass = .mirrorRead) (answer : o = .ok ∨ o = .targetError)
    (d : List Byte) : s.outcome t p o d = (s.setEntry (e.settled p o d)).complete (e.settled p o d) o.status := by
  unfold State.outcome Entry.settled
  rcases answer with rfl | rfl
  all_goals
    by_cases read : e.kind = .read
    all_goals simp [he, mode, read]

/-- A failed copy makes the read fail over. -/
theorem outcome_mirrorRead_failed (he : s.entry? t = some e) (mode : e.modeClass = .mirrorRead) (failed : o = .timeout ∨ o = .portDown)
    (d : List Byte) : s.outcome t p o d = (s.setEntry (e.setCopy p o none)).failover (e.setCopy p o none) p o := by
  unfold State.outcome
  rcases failed with rfl | rfl
  all_goals simp [he, mode]

theorem failover_stops (copy : e.copyAt p = some c) (position : c.position = some i) (last : s.nextMember e.window i.val = none) :
    s.failover e p o = s.complete e o.status := by
  obtain ⟨_, _, _, _, _⟩ := c
  cases position
  unfold State.failover
  rw [copy]
  simp only [last]

theorem failover_moves {q : PortId} {j : Nat} (copy : e.copyAt p = some c) (position : c.position = some i)
    (found : s.nextMember e.window i.val = some (q, j)) : s.failover e p o = s.reissue e q j c.target := by
  obtain ⟨_, _, _, _, _⟩ := c
  cases position
  unfold State.failover
  rw [copy]
  simp only [found]

end

/-! ### The copy that a failover makes (R126) -/

/-- The entry with a copy that waits at the port for its reissue. -/
def Entry.reissued (e : Entry) (q : PortId) (position : Fin 4) (target : Addr) : Entry :=
  { e with copies := e.copies ++ [⟨q, target, some position, .reissueWait, none⟩] }

@[simp] theorem Entry.reissued_tag (e : Entry) (q : PortId) (i : Fin 4) (a : Addr) : (e.reissued q i a).tag = e.tag := rfl

/-- The state in which the reissued copy has been placed and its port served. -/
def State.reissuedAt (s : State) (e : Entry) (q : PortId) (j : Fin 4) (a : Addr) : State :=
  ((s.setEntry (e.reissued q j a)).placeCopy q e.tag).serve q

section
variable {s : State} {e : Entry} {q : PortId} {j : Fin 4} {a : Addr}

theorem memberPosition_val (j : Fin 4) : memberPosition j.val = j := Fin.ext (Nat.mod_eq_of_lt j.isLt)

/-- The reissue waits if the FIFO is full or another one waits. -/
theorem reissue_waits (full : ¬ ((s.port q).egress.length < 8 ∧ s.claims q = [])) :
    s.reissue e q j.val a = s.setEntry (e.reissued q j a) := by
  unfold State.reissue Config.egressPlaces
  rw [if_neg full, memberPosition_val]
  rfl

/-- Else its copy is placed, and the port served. -/
theorem reissue_placed (room : (s.port q).egress.length < 8) (claims : s.claims q = []) :
    s.reissue e q j.val a = s.reissuedAt e q j a := by
  unfold State.reissue Config.egressPlaces
  rw [if_pos ⟨room, claims⟩, memberPosition_val]
  rfl

/-- Once the new copy is QUEUED its entry waits at the port no more. -/
theorem claims_reissued_queued (claims : s.claims q = []) :
    ((s.setEntry (e.reissued q j a)).markCopy e.tag q .queued none).claims q = [] := by
  rw [← Entry.reissued_tag e q j a, markCopy_setEntry]
  exact claims_setEntry_nil claims (waitsFor_setCopy_self (by decide))

/-- The new copy is the entry's copy at the port if no older one is there. -/
theorem copyAt_reissued (fresh : ∀ c ∈ e.copies, c.port ≠ q) :
    (e.reissued q j a).copyAt q = some ⟨q, a, some j, .reissueWait, none⟩ := by
  refine copyAt_of_split (e := e.reissued q j a) (before := e.copies) (after := []) rfl fun older => ?_
  obtain ⟨c, mem, port⟩ := List.mem_map.mp older
  exact fresh c mem port

variable {old : Entry} (stands : s.entry? e.tag = some old) (claims : s.claims q = [])

include stands claims

/-- At a WAKING port the copy waits at the tail of the FIFO, wherever the entry's older copies are. -/
theorem reissuedAt_waking (waking : (s.port q).state = .waking) :
    ((s.reissuedAt e q j a).port q).egress = (s.port q).egress ++ [e.tag] := by
  obtain ⟨c, copy⟩ : ∃ c, (e.reissued q j a).copyAt q = some c := by
    refine Option.isSome_iff_exists.mp (List.find?_isSome.mpr ⟨⟨q, a, some j, .reissueWait, none⟩, ?_, by simp⟩)
    simp [Entry.reissued]
  obtain ⟨⟨port, -⟩, -⟩ := placeCopy_places (s.setEntry (e.reissued q j a)) q e.tag _ c (entry_setEntry stands) copy
    (claims_reissued_queued claims)
  exact congrArg Port.egress (port waking)

variable (fresh : ∀ c ∈ e.copies, c.port ≠ q)

include fresh

/-- A reissued copy is placed as `State.Places` says. -/
theorem reissuedAt_places :
    s.Places (s.reissuedAt e q j a) q e.tag (fun slot => .downstream q e.kind slot a e.length e.writeData) :=
  (placeCopy_places (s.setEntry (e.reissued q j a)) q e.tag _ _ (entry_setEntry stands) (copyAt_reissued fresh)
    (claims_reissued_queued claims)).1.congr rfl rfl rfl rfl rfl fun _ h => h

/-- The entry holds its older copies as they were and the new one, QUEUED at a WAKING port and SENT by an ACTIVE one with a FREE
slot and nothing queued ahead. -/
theorem reissuedAt_entry :
    ∃ f d, (s.reissuedAt e q j a).entry? e.tag = some f ∧ f.copies = e.copies ++ [d]
      ∧ d.port = q ∧ d.target = a ∧ d.position = some j
      ∧ ((s.port q).state = .waking → d.state = .queued)
      ∧ (∀ slot, (s.port q).LowestFree slot → (s.port q).egress = [] → (s.port q).state = .active →
          d.state = .sent ∧ d.slot = some slot) := by
  have written : (s.setEntry (e.reissued q j a)).entry? e.tag = some (e.reissued q j a) := entry_setEntry stands
  obtain ⟨h, recorded, marked⟩ := (placed_serves (s.setEntry (e.reissued q j a)) q e.tag).marks.entry written
  let new : Copy := ⟨q, a, some j, .reissueWait, none⟩
  have copies : (e.reissued q j a).copies.map h = e.copies ++ [h new] := by
    have older : e.copies.map h = e.copies :=
      (List.map_congr_left fun c hc => (marked c).other (by simpa using fresh c hc)).trans (List.map_id _)
    simp [Entry.reissued, new, older]
  obtain ⟨-, waking, sends⟩ := placeCopy_places (s.setEntry (e.reissued q j a)) q e.tag _ _ written (copyAt_reissued fresh)
    (claims_reissued_queued claims)
  have among {f : Entry} (hf : (s.reissuedAt e q j a).entry? e.tag = some f) : h new ∈ f.copies := by
    cases recorded.symm.trans hf
    simp [copies]
  exact ⟨_, h new, recorded, copies, (marked new).port, (marked new).target, (marked new).position,
    fun isWaking => (mem_setCopy (among (waking isWaking)) (marked new).port).1,
    fun slot free empty active => mem_setCopy (among (sends slot free empty active)) (marked new).port⟩

end

/-! ### The outcome of a mirrored read as a whole -/

section
variable {s : State} {t : Tag} {p : PortId} {o : CopyState} {e : Entry} {c : Copy} {i : Fin 4}

/-- The entry of tag `t`, however it has been written, completes: the answer bears the tag, and no entry of that tag stands (R119). -/
theorem setEntry_complete_answers (he : s.entry? t = some e) {f : Entry} (tag : f.tag = e.tag) (kind : f.kind = e.kind) {st : Status}
    {d : List Byte} (data : f.responseData st = d) :
    ((s.setEntry f).complete f st).ulc = (s.respond e.kind t st d).ulc ∧ ∀ x ∈ ((s.setEntry f).complete f st).ott, x.tag ≠ t := by
  obtain ⟨ulc, gone, -⟩ := setEntry_complete_does s f st
  rw [kind, data] at ulc
  rw [tag, entry_has_tag he] at ulc gone
  exact ⟨ulc, gone⟩

/-- Only an OK READ is answered with data. -/
theorem responseData_nil (e : Entry) {st : Status} (h : st ≠ .ok) : e.responseData st = [] := by
  simp [Entry.responseData, h]

theorem Entry.settled_kind (e : Entry) (p : PortId) (o : CopyState) (d : List Byte) : (e.settled p o d).kind = e.kind := by
  rw [Entry.settled_eq]
  rfl

/-- A READ whose copy is OK is answered with the data that the copy returned. -/
theorem Entry.settled_responseData (read : e.kind = .read) (d : List Byte) : (e.settled p .ok d).responseData .ok = d := by
  simp [Entry.settled, Entry.responseData, read]

/-- Marking a copy moves none to another port. -/
theorem setCopy_away {q : PortId} {sl : Option SlotId} (h : ∀ d ∈ e.copies, d.port ≠ q) :
    ∀ d ∈ (e.setCopy p o sl).copies, d.port ≠ q := by
  intro d hd
  obtain ⟨d0, mem, rfl⟩ := List.mem_map.mp hd
  split
  all_goals exact h d0 mem

/-- With no next member a failed copy completes the read with its final state. -/
theorem outcome_mirrorRead_stops (he : s.entry? t = some e) (mode : e.modeClass = .mirrorRead) (failed : o = .timeout ∨ o = .portDown)
    (copy : (e.setCopy p o none).copyAt p = some c) (position : c.position = some i) (last : s.nextMember e.window i.val = none)
    (d : List Byte) : s.outcome t p o d = (s.setEntry (e.setCopy p o none)).complete (e.setCopy p o none) o.status := by
  rw [outcome_mirrorRead_failed he mode failed]
  exact failover_stops copy position last

/-- The reissue of a failed copy, from the state before the outcome. -/
theorem outcome_mirrorRead_moves (he : s.entry? t = some e) (mode : e.modeClass = .mirrorRead) (failed : o = .timeout ∨ o = .portDown)
    (copy : (e.setCopy p o none).copyAt p = some c) (position : c.position = some i) {q : PortId} {j : Nat}
    (found : s.nextMember e.window i.val = some (q, j)) (d : List Byte) :
    s.outcome t p o d = (s.setEntry (e.setCopy p o none)).reissue (e.setCopy p o none) q j c.target := by
  rw [outcome_mirrorRead_failed he mode failed]
  exact failover_moves copy position found

/-- A reissue from the state in which its entry has just been written. -/
theorem reissuedAt_setEntry (s : State) (e : Entry) (q : PortId) (j : Fin 4) (a : Addr) :
    (s.setEntry e).reissuedAt e q j a = s.reissuedAt e q j a := by
  unfold State.reissuedAt
  rw [setEntry_setEntry (Entry.reissued_tag e q j a)]

/-- A reissue answers nothing. -/
theorem reissue_ulc (s : State) (e : Entry) (q : PortId) (j : Nat) (a : Addr) : (s.reissue e q j a).ulc = s.ulc := by
  unfold State.reissue
  simp only
  split
  · exact (placed_serves _ q e.tag).ulc
  · rfl

end

/-- Settles O49: the answer that ends the read, then a failure with no next member and with one, where the reissue waits or is
placed. -/
theorem mirroredReadFailsOver : Obligations.MirroredReadFailsOver := by
  unfold Obligations.MirroredReadFailsOver
  intro s t p o e c i ms w base he mode copy position loaded mirrored small
  have members : s.membersOf e.window = ms := membersOf_mirrored loaded mirrored
  refine ⟨fun error => ?_, fun ok read d => ?_, fun failed => ⟨fun out => ?_, fun j q later member serves out => ?_⟩⟩
  · subst error
    rw [outcome_mirrorRead_answered he mode (.inr rfl)]
    exact setEntry_complete_answers he (Entry.settled_tag e p _ []) (Entry.settled_kind e p _ []) (responseData_nil _ (by decide))
  · subst ok
    rw [outcome_mirrorRead_answered he mode (.inl rfl), ← read]
    exact setEntry_complete_answers he (Entry.settled_tag e p _ d) (Entry.settled_kind e p _ d) (Entry.settled_responseData read d)
  · have last : s.nextMember e.window i.val = none := nextMember_none (members.symm ▸ out)
    have noData : o.status ≠ .ok := by rcases failed with rfl | rfl <;> decide
    rw [outcome_mirrorRead_stops he mode failed copy position last]
    exact setEntry_complete_answers he (Entry.setCopy_tag e p o none) (Entry.setCopy_kind e p o none) (responseData_nil _ noData)
  · have found : s.nextMember e.window i.val = some (q, j.val) :=
      nextMember_first later (members.symm ▸ member) serves (members.symm ▸ out)
    have moved := outcome_mirrorRead_moves he mode failed copy position found []
    have tag : e.tag = t := entry_has_tag he
    set f := e.setCopy p o none
    change f.tag = t at tag
    have stands : s.entry? f.tag = some e := tag.symm ▸ he
    have placed (room : (s.port q).egress.length < 8) (claims : s.claims q = []) :
        s.outcome t p o [] = s.reissuedAt f q j c.target := by
      have unclaimed : (s.setEntry f).claims q = [] := claims_settled_nil he claims (by rcases failed with rfl | rfl <;> decide)
      rw [moved, reissue_placed (s := s.setEntry f) room unclaimed, reissuedAt_setEntry]
    refine ⟨by rw [moved, reissue_ulc]; rfl, fun full => ?_, fun room claims fresh => ?_, fun empty waking claims => ?_⟩
    · have waits : ¬ (((s.setEntry f).port q).egress.length < 8 ∧ (s.setEntry f).claims q = []) := by
        rintro ⟨room, none⟩
        rcases full with length | ⟨x, claim, other⟩
        · exact absurd length (Nat.ne_of_lt room)
        · have stays := mem_claims_setEntry (e := f) claim (tag ▸ other)
          simp [none] at stays
      rw [moved, reissue_waits waits, setEntry_setEntry (Entry.reissued_tag f q j c.target)]
      rfl
    · have away : ∀ d ∈ f.copies, d.port ≠ q := setCopy_away fresh
      rw [placed room claims]
      have places := reissuedAt_places (a := c.target) (j := j) stands claims away
      obtain ⟨g, d, entry, copies, port, target, at_j, isWaking, sends⟩ := reissuedAt_entry (a := c.target) (j := j) stands claims away
      rw [tag] at places entry
      exact ⟨places, g, d, entry, copies, port, target, at_j, fun waking _ => isWaking waking, sends⟩
    · have room : (s.port q).egress.length < 8 := by simp [empty]
      rw [placed room claims, reissuedAt_waking stands claims waking, empty, tag]
      rfl

end Sys2Proof.Machine
end

section
/-! PROOFS. The Plan Store's commands: a staged entry cleared, the steps of a copy and of a clear, a copy that runs to its end, the
switch with its drain, and the held replies. -/

namespace Sys2Proof.Machine

/-! ### CLEAR WINDOW (R142) -/

/-- A CLEAR WINDOW in IDLE is taken up. -/
theorem exec_clearWindow {s : State} {t : Tag} {b : Byte} (h : s.Takes t [0x21, b]) (idle : s.ps.op = .idle) :
    exec .clearWindow s = .next (s.inHand.clearWindow t [0x21, b]) := by
  rw [exec_request h rfl rfl, withLength_right (n := 2) rfl, unlessBusy_idle (by exact idle)]

theorem clearWindow_above (s : State) (t : Tag) {b : Byte} (above : 31 < b.toNat) :
    s.clearWindow t [0x21, b] = s.reply t .badArgument [] := by
  have index : byteAt [0x21, b] 1 = b := rfl
  rw [State.clearWindow, index, windowIndex_none above]

theorem clearWindow_at (s : State) (t : Tag) {b : Byte} {i : WindowIx} (hb : b.toNat = i.val) :
    s.clearWindow t [0x21, b] = s.writeStaged (s.ps.stagedBank.setWindow i .empty) t := by
  have index : byteAt [0x21, b] 1 = b := rfl
  rw [State.clearWindow, index, windowIndex_eq hb]

/-- A record whose state is EMPTY gives the EMPTY entry, whatever else it holds (R38, R141). -/
theorem parseWindow_stateEmpty {record : List Byte} (h : record[0]? = some 0) : parseWindow record = some .empty := by
  have state : (byteAt record 0).toNat = 0 := by simp [byteAt, h]
  unfold parseWindow
  rw [state]
  rfl

/-- Settles O51: the clear refused or carried out, and the LOAD WINDOW that writes the same entry. -/
theorem clearWindowClears : Obligations.ClearWindowClears := by
  unfold Obligations.ClearWindowClears
  intro s t b h idle
  rw [exec_clearWindow h idle]
  refine ⟨fun above => congrArg _ (clearWindow_above _ t above), fun i hb => ?_⟩
  rw [clearWindow_at _ t hb]
  refine ⟨?_, fun s' record hl state hs => ?_⟩
  · obtain ⟨ps, ulc, apart⟩ := writeStaged_does s.inHand (s.ps.stagedBank.setWindow i .empty) t
    obtain ⟨staged, active, -, -⟩ := setStaged_frame s.ps (s.ps.stagedBank.setWindow i .empty)
    rw [State.inHand_ps] at ps
    refine ⟨_, rfl, ?_⟩
    rw [ps] at apart
    rw [State.inHand_ps, ps, staged]
    exact ⟨rfl, rfl, rfl, active, rfl, ulc.trans (reply_ulc_congr (s := s) (u := s.inHand) rfl rfl t _ _), apart⟩
  · obtain ⟨-, returned, arrived⟩ := h
    have takes : s'.Takes t (0x20 :: b :: record) := by subst hs; exact ⟨rfl, returned, arrived⟩
    have inHand : s'.inHand = s.inHand := by subst hs; rfl
    rw [exec_loadWindow hl (by subst hs; exact idle) takes, inHand,
      (loadWindow_does s.inHand t b record).1 i .empty hb (parseWindow_stateEmpty state) rfl]

/-! ### The steps of a copy and of a clear (R144 to R146) -/

/-- The state after a step that leaves `staged` in the staged bank: `again` with the next progress, or the end of the operation. -/
def State.planStepped (s : State) (staged : Bank) (again : Fin 288 → PlanOp) (k : Fin 288) (owed : Bool) (t : Tag) : State :=
  let s1 := { s with ps := s.ps.setStaged staged }
  match nextProgress k with
  | some k1 => { s1 with ps := { s1.ps with op := again k1 } }
  | none => s1.finishPlanOp owed t

theorem exec_copyStep {s : State} {k : Fin 288} {owed : Bool} {t : Tag} (h : s.ps.op = .copying k owed t) :
    exec .copyStep s
      = .next (s.planStepped (copyEntry s.ps.activeBank s.ps.stagedBank k) (fun j => .copying j owed t) k owed t) := by
  change execCopyStep s = _
  unfold execCopyStep
  rw [h]
  rfl

/-- A clear writes what a copy of a cleared bank would. -/
theorem exec_clearStep {s : State} {k : Fin 288} {owed : Bool} {t : Tag} (h : s.ps.op = .clearing k owed t) :
    exec .clearStep s
      = .next (s.planStepped (copyEntry .cleared s.ps.stagedBank k) (fun j => .clearing j owed t) k owed t) := by
  change execClearStep s = _
  unfold execClearStep
  rw [h, copyEntry_cleared]
  rfl

theorem nextProgress_eq {k j : Fin 288} (h : j.val = k.val + 1) : nextProgress k = some j := by
  unfold nextProgress
  rw [dif_pos (by omega)]
  exact congrArg some (Fin.ext h.symm)

theorem nextProgress_last {k : Fin 288} (h : k.val = 287) : nextProgress k = none := dif_neg (by omega)

section PlanStepped

variable (s : State) (staged : Bank) (again : Fin 288 → PlanOp) (k : Fin 288) (owed : Bool) (t : Tag)

theorem planStepped_next {j : Fin 288} (h : j.val = k.val + 1) :
    s.planStepped staged again k owed t = { s with ps := { s.ps.setStaged staged with op := again j } } := by
  unfold State.planStepped
  rw [nextProgress_eq h]

theorem planStepped_last (h : k.val = 287) :
    s.planStepped staged again k owed t = { s with
      ps := { s.ps.setStaged staged with op := .idle }
      mail := { s.mail with ends := s.mail.ends ++ (if owed then [⟨t, .done, []⟩] else []) } } := by
  unfold State.planStepped
  rw [nextProgress_last h]
  cases owed
  · simp [State.finishPlanOp, State.reportEnd]
  · rfl

/-- Whether or not it is the last, a step writes the staged bank and leaves the rest of the Plan Store but for the operation. -/
theorem planStepped_writes :
    (s.planStepped staged again k owed t).ps.stagedBank = staged
      ∧ (s.planStepped staged again k owed t).ps.activeBank = s.ps.activeBank
      ∧ (s.planStepped staged again k owed t).ps.active = s.ps.active
      ∧ (s.planStepped staged again k owed t).ps.generation = s.ps.generation
      ∧ s.planStepped staged again k owed t
          = { s with ps := (s.planStepped staged again k owed t).ps, mail := (s.planStepped staged again k owed t).mail } := by
  obtain ⟨written, active, role, generation⟩ := setStaged_frame s.ps staged
  have apart (op : PlanOp) := banks_of_op (s.ps.setStaged staged) op
  rcases Nat.lt_or_ge k.val 287 with more | last
  · rw [planStepped_next s staged again k owed t (j := ⟨k.val + 1, by omega⟩) rfl]
    exact ⟨(apart _).1.trans written, (apart _).2.trans active, role, generation, rfl⟩
  · rw [planStepped_last s staged again k owed t (by omega)]
    exact ⟨(apart _).1.trans written, (apart _).2.trans active, role, generation, rfl⟩

end PlanStepped

/-- A plan operation that starts in IDLE holds its reply (R144, R146, R162). -/
theorem exec_startPlanOp {s : State} {t : Tag} {id : Byte} {c : Instr} {accepts : List Byte → Bool} {op : Tag → PlanOp}
    {held : HeldCommand} (h : s.Takes t [id]) (idle : s.ps.op = .idle)
    (he : exec c s = .next (s.takeRequest accepts (withLength 1 (unlessBusy fun s t _ => s.startPlanOp (op t) t held))))
    (ha : accepts [id] = true) :
    exec c s = .next { s with ps := { s.ps with op := op t }, cu := ⟨none, s.cu.held ++ [⟨t, held⟩]⟩ } := by
  rw [exec_request h he ha, withLength_right (n := 1) rfl, unlessBusy_idle (by exact idle)]
  rfl

/-- A step of a copy or of a clear, by what it copies from and what it goes on as. -/
theorem exec_planStep {s : State} {k : Fin 288} {owed : Bool} {t : Tag} (copy : Bool)
    (h : s.ps.op = (if copy then .copying k owed t else .clearing k owed t)) :
    exec (if copy then .copyStep else .clearStep) s
      = .next (s.planStepped (copyEntry (if copy then s.ps.activeBank else .cleared) s.ps.stagedBank k)
          (fun j => if copy then .copying j owed t else .clearing j owed t) k owed t) := by
  cases copy
  · exact exec_clearStep h
  · exact exec_copyStep h

/-- Settles O53: the starts, and a step of either operation as a copy of one entry from the active bank or from a cleared one. -/
theorem copyAndClearSteps : Obligations.CopyAndClearSteps := by
  unfold Obligations.CopyAndClearSteps
  intro s t k owed
  refine ⟨fun h idle => exec_startPlanOp (op := .copying 0 true) h idle rfl rfl,
    fun h idle => exec_startPlanOp (op := .clearing 0 true) h idle rfl rfl, fun copy h => ⟨_, exec_planStep copy h, ?_⟩⟩
  obtain ⟨staged, active, role, generation, apart⟩ := planStepped_writes s
    (copyEntry (if copy then s.ps.activeBank else .cleared) s.ps.stagedBank k)
    (fun j => if copy then .copying j owed t else .clearing j owed t) k owed t
  obtain ⟨windows, pages⟩ := copyEntry_does (if copy then s.ps.activeBank else .cleared) s.ps.stagedBank k
  rw [staged]
  refine ⟨fun i => ⟨(windows i).1.trans ?_, (windows i).2⟩, fun i => (pages i).trans ?_, active, role, generation,
    fun j hj => ?_, fun last => ?_, apart⟩
  · cases copy
    · simp [Bank.cleared]
    · rfl
  · cases copy
    · simp [Bank.cleared]
    · rfl
  · rw [planStepped_next _ _ _ k owed t hj]
    exact ⟨rfl, rfl⟩
  · rw [planStepped_last _ _ _ k owed t last]
    exact ⟨rfl, rfl⟩

/-! ### A copy that runs to its end (R144, R145) -/

/-- The first `n` of the 288 entries of the staged bank, windows before pages, stand as the active bank's, the windows with their
counters at 0. -/
structure Bank.CopiedBelow (active staged : Bank) (n : Nat) : Prop where
  windows : ∀ i : WindowIx, i.val < n → staged.windows.get i = active.windows.get i
  hits : ∀ i : WindowIx, i.val < n → staged.hits.get i = 0
  pages : ∀ i : PageIx, i.val + 32 < n → staged.pages.get i = active.pages.get i

theorem Bank.copiedBelow_zero (active staged : Bank) : Bank.CopiedBelow active staged 0 := ⟨nofun, nofun, nofun⟩

/-- A step of the copy adds the entry that it reaches. -/
theorem Bank.CopiedBelow.copyEntry {active staged : Bank} {k : Fin 288} (h : Bank.CopiedBelow active staged k.val) :
    Bank.CopiedBelow active (copyEntry active staged k) (k.val + 1) := by
  obtain ⟨windows, pages⟩ := copyEntry_does active staged k
  refine ⟨fun i hi => ?_, fun i hi => ?_, fun i hi => ?_⟩
  · rw [(windows i).1]
    split
    · rfl
    · exact h.windows i (by omega)
  · rw [(windows i).2]
    split
    · rfl
    · exact h.hits i (by omega)
  · rw [pages]
    split
    · rfl
    · exact h.pages i (by omega)

/-- With all 288 entries copied the staged bank is the active one but for its counters. -/
theorem Bank.CopiedBelow.isExactCopy {active staged : Bank} (h : Bank.CopiedBelow active staged 288) :
    staged.windows = active.windows ∧ staged.pages = active.pages ∧ ∀ i, staged.hits.get i = 0 :=
  ⟨Vector.ext fun i hi => h.windows ⟨i, hi⟩ (by simp; omega), Vector.ext fun i hi => h.pages ⟨i, hi⟩ (by simp; omega),
    fun i => h.hits i (by omega)⟩

/-- A run takes a step that goes on, and runs on from there. -/
theorem run_succ (M : Host.Core) {s u : M.State} (h : M.step s = .next u) (n : Nat) : M.run (n + 1) s = M.run n u := by
  rw [Host.Core.run, h]

/-- A run begins with the command at the front of the queue. -/
theorem run_front {s u : State} {c : Instr} {rest : List Instr} (h : s.pending = c :: rest)
    (he : exec c { s with pending := rest } = .next u) (n : Nat) : Sys2Proof.core.run (n + 1) s = Sys2Proof.core.run n u := by
  have stepped : step s = .next u := by
    rw [step, h]
    exact he
  exact run_succ Sys2Proof.core stepped n

/-- A COPY_STEP adds its entry to those copied, and goes on or ends the operation (R144, R145). -/
theorem exec_copyStep_copies {s : State} {k : Fin 288} {owed : Bool} {t : Tag} (op : s.ps.op = .copying k owed t)
    (copied : Bank.CopiedBelow s.ps.activeBank s.ps.stagedBank k.val) :
    ∃ u, exec .copyStep s = .next u
      ∧ u.pending = s.pending ∧ u.ps.activeBank = s.ps.activeBank ∧ u.ps.active = s.ps.active
      ∧ Bank.CopiedBelow u.ps.activeBank u.ps.stagedBank (k.val + 1)
      ∧ (∀ j : Fin 288, j.val = k.val + 1 → u.ps.op = .copying j owed t ∧ u.mail = s.mail)
      ∧ (k.val = 287 → u.ps.op = .idle ∧ u.mail.ends = s.mail.ends ++ (if owed then [⟨t, .done, []⟩] else [])) := by
  obtain ⟨staged, active, role, -, apart⟩ := planStepped_writes s (copyEntry s.ps.activeBank s.ps.stagedBank k)
    (fun j => .copying j owed t) k owed t
  refine ⟨_, exec_copyStep op, by rw [apart], active, role, ?_, fun j hj => ?_, fun last => ?_⟩
  · rw [active, staged]
    exact copied.copyEntry
  · rw [planStepped_next _ _ _ k owed t hj]
    exact ⟨rfl, rfl⟩
  · rw [planStepped_last _ _ _ k owed t last]
    exact ⟨rfl, rfl⟩

/-- From `s` to `u` a copy has come to its end, with the commands of `rest` left in the queue. -/
structure State.CopyEnds (s u : State) (owed : Bool) (t : Tag) (rest : List Instr) : Prop where
  pending : u.pending = rest
  op : u.ps.op = .idle
  staged : Bank.CopiedBelow u.ps.activeBank u.ps.stagedBank 288
  activeBank : u.ps.activeBank = s.ps.activeBank
  active : u.ps.active = s.ps.active
  ends : u.mail.ends = s.mail.ends ++ (if owed then [⟨t, .done, []⟩] else [])

/-- The last `n + 1` steps of a copy, with the entries before them copied. -/
theorem run_copy (n : Nat) {s : State} {k : Fin 288} {owed : Bool} {t : Tag} {rest : List Instr} (due : k.val + n = 287)
    (op : s.ps.op = .copying k owed t) (pending : s.pending = List.replicate (n + 1) .copyStep ++ rest)
    (copied : Bank.CopiedBelow s.ps.activeBank s.ps.stagedBank k.val) :
    ∃ u, Sys2Proof.core.run (n + 1) s = .next u ∧ s.CopyEnds u owed t rest := by
  induction n generalizing s k with
  | zero =>
    have last : k.val = 287 := due
    obtain ⟨u, stepped, queue, active, role, copied', -, ends⟩ := exec_copyStep_copies (s := { s with pending := rest }) op copied
    obtain ⟨idle, reported⟩ := ends last
    rw [last] at copied'
    exact ⟨u, run_front pending stepped 0, queue, idle, copied', active, role, reported⟩
  | succ n ih =>
    let behind := List.replicate (n + 1) Instr.copyStep ++ rest
    obtain ⟨u, stepped, queue, active, role, copied', goesOn, -⟩ :=
      exec_copyStep_copies (s := { s with pending := behind }) op copied
    obtain ⟨op', mail⟩ := goesOn ⟨k.val + 1, by omega⟩ rfl
    obtain ⟨v, run, ended⟩ := ih (by simp only; omega) op' queue copied'
    exact ⟨v, (run_front pending stepped (n + 1)).trans run, ended.pending, ended.op, ended.staged,
      ended.activeBank.trans active, ended.active.trans role, ended.ends.trans (by rw [mail])⟩

/-- Settles O54: the run of the 288 steps from the first, with no entry copied yet. -/
theorem copyRunMakesAnExactCopy : Obligations.CopyRunMakesAnExactCopy := by
  unfold Obligations.CopyRunMakesAnExactCopy
  intro s t owed rest op pending
  obtain ⟨u, run, ended⟩ := run_copy 287 rfl op pending (Bank.copiedBelow_zero _ _)
  obtain ⟨windows, pages, hits⟩ := ended.staged.isExactCopy
  rw [ended.activeBank] at windows pages
  exact ⟨u, run, ended.pending, ended.op, windows, pages, hits, ended.activeBank, ended.active, ended.ends⟩

/-! ### The switch (R147, R148, R151) -/

/-- Outside a power-on or pin reset the swap reports its end, and its escalation, behind what is on its way (R151). -/
theorem swap_eq {s : State} (running : s.underReset = false) (escalated : Bool) :
    s.swap escalated = { s.exchange with mail := { s.exchange.mail with
      occurrences := s.mail.occurrences ++ (if escalated then [.switchDone, .switchForced] else [.switchDone]) } } := by
  have swapping (o : List Occurrence) :
      ({ s.exchange with mail := { s.exchange.mail with occurrences := o } } : State).underReset = false := running
  unfold State.swap
  rw [report_sent (s := s.exchange) running, State.exchange_occurrences]
  cases escalated
  · rfl
  · simp only [if_true]
    rw [report_sent (swapping _)]
    simp

/-- What the exchange of the roles does to the Plan Store and the IQ (R151). -/
theorem exchange_does (s : State) :
    s.exchange.ps = { s.ps with active := s.ps.active.other, generation := s.ps.generation + 1, op := .idle }
      ∧ s.exchange.iq = { s.iq with gate := .opened }
      ∧ AttemptEvent.gateOpened ∈ s.exchange.mail.attempts
      ∧ s.exchange = { s with ps := s.exchange.ps, iq := s.exchange.iq, mail := s.exchange.mail } :=
  ⟨rfl, rfl, attemptDue_mem _ _, rfl⟩

/-- The contents of a SWITCH PLAN's reply, from the banks' roles before the swap (R151). -/
theorem switchContents_exchange (s : State) :
    s.exchange.ps.switchContents = [if s.ps.active = .a then 1 else 0, s.ps.generation + 1] := by
  have code (i : BankId) : i.other.code = if i = .a then 1 else 0 := by cases i <;> rfl
  exact congrArg (fun byte => [byte, s.ps.generation + 1]) (code s.ps.active)

/-- A SWITCH PLAN in IDLE is taken up by a row that accepts its mode byte (R147, R148). -/
theorem exec_switchRow {s : State} {t : Tag} {mode : Byte} {c : Instr} {accepts : List Byte → Bool} (h : s.Takes t [0x25, mode])
    (idle : s.ps.op = .idle) (he : exec c s = .next (s.takeRequest accepts (withLength 2 (unlessBusy State.switchPlan))))
    (ha : accepts [0x25, mode] = true) : exec c s = .next (s.inHand.switchPlan t [0x25, mode]) := by
  rw [exec_request h he ha, withLength_right (n := 2) rfl, unlessBusy_idle (by exact idle)]

/-- The row of each mode accepts its own mode byte. -/
theorem exec_switchPlan {s : State} {t : Tag} {force : Bool} (h : s.Takes t [0x25, if force then 1 else 0]) (idle : s.ps.op = .idle) :
    exec (if force then .switchPlanForce else .switchPlanDrain) s
      = .next (s.inHand.switchPlan t [0x25, if force then 1 else 0]) := by
  cases force
  · exact exec_switchRow h idle rfl rfl
  · exact exec_switchRow h idle rfl rfl

theorem switchPlan_empty {s : State} (empty : s.ott = []) (t : Tag) (force : Bool) :
    s.switchPlan t [0x25, if force then 1 else 0] = s.switchAtOnce t := by
  cases force
  · exact if_pos empty
  · exact if_pos empty

theorem switchPlan_drain {s : State} (busy : s.ott ≠ []) (t : Tag) :
    s.switchPlan t [0x25, 0] = s.startDrain .drain (some s.ps.drainTimeout) t := if_neg busy

theorem switchPlan_force {s : State} (busy : s.ott ≠ []) (t : Tag) :
    s.switchPlan t [0x25, 1] = (s.startDrain .force none t).requestAbort .planStore := if_neg busy

/-- Settles O55: the swap at once, or the start of a drain in either mode. -/
theorem switchPlanTaken : Obligations.SwitchPlanTaken := by
  unfold Obligations.SwitchPlanTaken
  intro s t force h idle c
  have taken : exec c s = _ := exec_switchPlan h idle
  rw [taken]
  refine ⟨fun empty running => ⟨_, rfl, ?_⟩, fun busy => ?_⟩
  · obtain ⟨plans, gate, attempt, -⟩ := exchange_does s.inHand
    rw [switchPlan_empty (s := s.inHand) empty]
    unfold State.switchAtOnce
    rw [swap_eq (s := s.inHand) running]
    simp only
    rw [switchContents_exchange]
    refine ⟨?_, ?_, ?_, ?_, ?_, ?_⟩
    · rw [State.reply_ps]
      exact plans.trans (by rw [State.inHand_ps, idle])
    · rw [State.reply_iq]
      exact gate
    · rw [State.reply_mail]
      rfl
    · rw [State.reply_mail]
      exact attempt
    · refine reply_ulc_congr (s := s) ?_ ?_ t _ _
      all_goals rfl
    · unfold State.reply
      rw [place_frame]
      rfl
  · cases force
    · simp only [Bool.false_eq_true, if_false, List.append_nil]
      exact congrArg _ (switchPlan_drain (s := s.inHand) busy t)
    · exact congrArg _ (switchPlan_force (s := s.inHand) busy t)

/-! ### The end of a drain (R149, R151) -/

theorem exec_ottEmptyReport_notDraining {s : State} (sent : s.mail.emptyReports ≠ 0) (h : ∀ m e d o x, s.ps.op ≠ .draining m e d o x) :
    exec .ottEmptyReport s = .next { s with mail := { s.mail with emptyReports := s.mail.emptyReports - 1 } } := by
  change execOttEmptyReport s = _
  unfold execOttEmptyReport
  rw [if_neg sent]
  simp only
  split
  · next draining => exact absurd draining (h _ _ _ _ _)
  all_goals rfl

theorem exec_ottEmptyReport_draining {s : State} (sent : s.mail.emptyReports ≠ 0) {m : SwitchMode} {escalated : Bool} {d : Option Nat}
    {owed : Bool} {t : Tag} (h : s.ps.op = .draining m escalated d owed t) :
    let s1 : State := { s with mail := { s.mail with emptyReports := s.mail.emptyReports - 1 } }
    exec .ottEmptyReport s = .next (if s.ott = [] then (s1.endDrain escalated owed t).settleLink else s1) := by
  change execOttEmptyReport s = _
  unfold execOttEmptyReport
  rw [if_neg sent, h]

/-- The reports that the end of a drain sends out, and what it leaves unchanged (R149, R151). -/
theorem endDrain_eq {s : State} (running : s.underReset = false) (escalated owed : Bool) (t : Tag) :
    s.endDrain escalated owed t = { s.exchange with mail := { s.exchange.mail with
      occurrences := s.mail.occurrences ++ (if escalated then [.switchDone, .switchForced] else [.switchDone])
      ends := s.mail.ends ++ (if owed then
        [⟨t, if escalated then .doneForced else .done, [if s.ps.active = .a then 1 else 0, s.ps.generation + 1]⟩] else []) } } := by
  unfold State.endDrain State.reportEnd
  rw [swap_eq running]
  simp only
  rw [switchContents_exchange]
  cases owed
  · simp
  · rfl

/-! ### Held replies (R162) -/

section HeldReplies

variable {s : State} {k : Nat} {e : OperationEnd} {rest : List OperationEnd}

theorem exec_heldReplyRelease_held (taken : takeAt k s.mail.ends = some (e, rest)) (held : ∃ h ∈ s.cu.held, h.tag = e.tag) :
    exec (.heldReplyRelease k) s = .next (({ s with
      mail := { s.mail with ends := rest }
      cu := { s.cu with held := s.cu.held.filter fun h => h.tag != e.tag } } : State).reply e.tag e.status e.contents) := by
  change execHeldReplyRelease k s = _
  unfold execHeldReplyRelease
  rw [taken]
  exact congrArg _ (if_pos (by simpa using held))

theorem exec_heldReplyRelease_dropped (taken : takeAt k s.mail.ends = some (e, rest)) (gone : ∀ h ∈ s.cu.held, h.tag ≠ e.tag) :
    exec (.heldReplyRelease k) s = .next { s with mail := { s.mail with ends := rest } } := by
  change execHeldReplyRelease k s = _
  unfold execHeldReplyRelease
  rw [taken]
  exact congrArg _ (if_neg (by simpa using gone))

end HeldReplies

/-- Settles O56: the empty report outside a drain and in one, and the report of its end as it is taken. -/
theorem drainEndsAndReplies : Obligations.DrainEndsAndReplies := by
  unfold Obligations.DrainEndsAndReplies
  intro s
  refine ⟨exec_ottEmptyReport_notDraining, fun m escalated d owed t sent draining busy => ?_,
    fun m escalated d owed t sent draining empty running waits => ?_,
    fun k e rest taken => ⟨exec_heldReplyRelease_held taken, exec_heldReplyRelease_dropped taken⟩⟩
  · exact (exec_ottEmptyReport_draining sent draining).trans (congrArg _ (if_neg busy))
  · let s1 : State := { s with mail := { s.mail with emptyReports := s.mail.emptyReports - 1 } }
    obtain ⟨ulc, pins, loss, -, -⟩ := endDrain_does s1 escalated owed t
    have noCarrier : (s1.endDrain escalated owed t).settleLink = s1.endDrain escalated owed t :=
      settleLink_waits _ (by rw [ulc, pins, loss]; tauto)
    obtain ⟨plans, gate, attempt, -⟩ := exchange_does s1
    refine ⟨_, (exec_ottEmptyReport_draining sent draining).trans (congrArg _ (if_pos empty)), ?_⟩
    rw [noCarrier, endDrain_eq (s := s1) running]
    exact ⟨plans, gate, attempt, rfl, rfl, rfl, rfl, rfl⟩

/-! ### Ticks and the drain timer (R150, R153, R187, R188) -/

theorem exec_tickBoundary_underReset {s : State} (h : s.underReset = true) : exec .tickBoundary s = .next s := congrArg _ (if_pos h)

/-- The state at a tick boundary that reaches the timers (R187). -/
def State.ticked (s : State) : State :=
  { s with
    ports := s.ports.map Port.tick
    ps := { s.ps with op := s.ps.op.tick }
    eu := { s.eu with holdoff := tickTimer s.eu.holdoff }
    tb := s.tb.tick }

theorem exec_tickBoundary {s : State} (h : s.underReset = false) : exec .tickBoundary s = .next s.ticked :=
  congrArg _ (if_neg (by simp [h]))

theorem ticked_port (s : State) (p : PortId) : s.ticked.port p = (s.port p).tick := get_map Port.tick s.ports p

/-- Only the drain timer is a timer of a plan operation (R187). -/
theorem PlanOp.tick_eq {op : PlanOp} (h : ∀ m e d o x, op ≠ .draining m e d o x) : op.tick = op := by
  cases op
  case draining => exact absurd rfl (h _ _ _ _ _)
  all_goals rfl

theorem exec_setTimebase {s : State} {t : Tag} {b : Byte} (h : s.Takes t [0x50, b]) :
    exec .setTimebase s = .next (s.inHand.setTimebase t [0x50, b]) := by
  rw [exec_request h rfl rfl, withLength_right (n := 2) rfl]

theorem setTimebase_above (s : State) (t : Tag) {b : Byte} (above : 7 < b.toNat) :
    s.setTimebase t [0x50, b] = s.reply t .badArgument [] := by
  have exponent : byteAt [0x50, b] 1 = b := rfl
  rw [State.setTimebase, exponent, portNumber_none above]

theorem setTimebase_at (s : State) (t : Tag) {b : Byte} {k : Fin 8} (hb : b.toNat = k.val) :
    s.setTimebase t [0x50, b] = ({ s with tb := { s.tb with pendingExponent := some k } } : State).reply t .done [] := by
  have exponent : byteAt [0x50, b] 1 = b := rfl
  rw [State.setTimebase, exponent, portNumber_eq hb]

theorem exec_setPlanTiming {s : State} {t : Tag} {a b : Byte} (h : s.Takes t [0x26, a, b]) :
    exec .setPlanTiming s = .next (s.inHand.setPlanTiming t [0x26, a, b]) := by
  rw [exec_request h rfl rfl, withLength_right (n := 3) rfl]

/-- The drain timeout of a SET PLAN TIMING, least significant byte first; 0 is refused (R153). -/
theorem setPlanTiming_eq (s : State) (t : Tag) (a b : Byte) :
    s.setPlanTiming t [0x26, a, b] =
      if a = 0 ∧ b = 0 then s.reply t .badArgument []
      else ({ s with ps := { s.ps with drainTimeout := a.toNat + 256 * b.toNat } } : State).reply t .done [] := by
  have timeout : leField [0x26, a, b] 1 2 = a.toNat + 256 * b.toNat := by
    simp only [leField_succ, leField_zero]
    rfl
  have zero : a.toNat + 256 * b.toNat = 0 ↔ a = 0 ∧ b = 0 := by bv_omega
  unfold State.setPlanTiming
  rw [timeout]
  exact if_congr zero rfl rfl

theorem exec_drainTimeout {s : State} {m : SwitchMode} {e o : Bool} {x : Tag} (h : s.ps.op = .draining m e (some 0) o x) :
    exec .drainTimeout s = .next (({ s with ps := { s.ps with op := .draining m true none o x } } : State).requestAbort .planStore) := by
  change execDrainTimeout s = _
  unfold execDrainTimeout
  rw [h]
  rfl

/-- Settles O46: the tick timer by timer, then the two settings and the escalation. -/
theorem ticksAndTimers : Obligations.TicksAndTimers := by
  unfold Obligations.TicksAndTimers
  intro s t a b
  refine ⟨exec_tickBoundary_underReset, fun running => ⟨_, exec_tickBoundary running, rfl, rfl, fun m e d o x h => ?_,
    fun h => PlanOp.tick_eq h, fun p => ?_⟩, fun h => ?_, fun h => ?_, fun m e o x h => exec_drainTimeout h⟩
  · exact congrArg PlanOp.tick h
  · rw [ticked_port]
    exact ⟨rfl, get_map Slot.tick _⟩
  · rw [exec_setTimebase h]
    exact ⟨fun above => congrArg _ (setTimebase_above _ t above), fun k hk => congrArg _ (setTimebase_at _ t hk)⟩
  · rw [exec_setPlanTiming h, setPlanTiming_eq]
    exact ⟨fun zero => congrArg _ (if_pos zero), fun some => congrArg _ (if_neg some)⟩

end Sys2Proof.Machine
end

section
/-! PROOFS. The queries reply with the state as it stands, and CLEAR COUNTERS clears the counters of its scope. -/

namespace Sys2Proof.Machine

/-! ### Taking a query (R158, R159) -/

/-- A request of the right length for its command, which nothing else checks, is carried out. -/
theorem exec_rightLength {s : State} {c : Instr} {t : Tag} {payload : List Byte} {accepts : List Byte → Bool} {n : Nat}
    {carry : State → Tag → List Byte → State} (h : s.Takes t payload) (hl : payload.length = n)
    (he : exec c s = .next (s.takeRequest accepts (withLength n carry))) (ha : accepts payload = true) :
    exec c s = .next (carry s.inHand t payload) := by
  rw [exec_request h he ha, withLength_right hl]

/-- A query without arguments is answered with what it reads. -/
theorem exec_query {s : State} {c : Instr} {t : Tag} {id : Byte} {accepts : List Byte → Bool} (contents : State → List Byte)
    (h : s.Takes t [id])
    (he : exec c s = .next (s.takeRequest accepts (withLength 1 fun s t _ => s.reply t .done (contents s))))
    (ha : accepts [id] = true) : exec c s = .next (s.inHand.reply t .done (contents s.inHand)) :=
  exec_rightLength (carry := fun s t _ => s.reply t .done (contents s)) h rfl he ha

/-! ### READ STATUS (R163) -/

/-- A request in hand has left its place in the FIFO (R163). -/
theorem fifo_le_of_takes {s : State} {t : Tag} {payload : List Byte} (h : s.Takes t payload) (balance : s.CreditsBalance) :
    s.iq.fifo.length ≤ 15 := by
  obtain ⟨-, -, -, -, -, places⟩ := balance
  obtain ⟨taken, -, -⟩ := h
  rw [taken] at places
  exact Nat.le_of_succ_le_succ places

/-- With no credit on its way, the credits and the requests in the FIFO are all there are in UP (R4, R163). -/
theorem credits_add_fifo_of_takes {s : State} {t : Tag} {payload : List Byte} (h : s.Takes t payload) (balance : s.CreditsBalance)
    (up : s.ulc.state = .up) : s.ulc.credits + s.iq.fifo.length = 16 := by
  obtain ⟨sum, -⟩ := balance
  obtain ⟨-, returned, -⟩ := h
  simpa [returned] using sum up

/-! ### READ WINDOW and READ PAGE (R164, R165) -/

theorem selectBank_eq {ps : PlanStore} {sel : Byte} {k : BankId}
    (h : (sel = 0 ∧ k = ps.active) ∨ (sel = 1 ∧ k = ps.active.other)) :
    ps.selectBank sel = some k := by
  rcases h with ⟨rfl, rfl⟩ | ⟨rfl, rfl⟩
  · rfl
  · rfl

theorem selectBank_none {ps : PlanStore} {sel : Byte} (h : 1 < sel.toNat) : ps.selectBank sel = none := by
  unfold PlanStore.selectBank
  split
  · omega
  · omega
  · rfl

theorem readWindow_refused (s : State) (t : Tag) {sel b : Byte} (h : 1 < sel.toNat ∨ 31 < b.toNat) :
    s.readWindow t [0x11, sel, b] = s.reply t .badArgument [] := by
  have selector : byteAt [0x11, sel, b] 1 = sel := rfl
  have index : byteAt [0x11, sel, b] 2 = b := rfl
  rw [State.readWindow, selector, index]
  rcases h with noBank | noWindow
  · rw [selectBank_none noBank]
  · rw [windowIndex_none noWindow]
    cases s.ps.selectBank sel <;> rfl

theorem readWindow_at {s : State} (t : Tag) {sel b : Byte} {k : BankId} {i : WindowIx}
    (bank : s.ps.selectBank sel = some k) (hb : b.toNat = i.val) :
    s.readWindow t [0x11, sel, b] = s.reply t .done (s.windowContents k i) := by
  have selector : byteAt [0x11, sel, b] 1 = sel := rfl
  have index : byteAt [0x11, sel, b] 2 = b := rfl
  rw [State.readWindow, selector, index, bank, windowIndex_eq hb]

theorem readPage_refused (s : State) (t : Tag) {sel start count : Byte}
    (h : 1 < sel.toNat ∨ pageRange start.toNat count.toNat = false) :
    s.readPage t [0x12, sel, start, count] = s.reply t .badArgument [] := by
  have selector : byteAt [0x12, sel, start, count] 1 = sel := rfl
  have first : byteAt [0x12, sel, start, count] 2 = start := rfl
  have entries : byteAt [0x12, sel, start, count] 3 = count := rfl
  rw [State.readPage, selector, first, entries]
  rcases h with noBank | noRange
  · rw [selectBank_none noBank]
  · rw [noRange]
    cases s.ps.selectBank sel <;> rfl

theorem readPage_at {s : State} (t : Tag) {sel start count : Byte} {k : BankId} (bank : s.ps.selectBank sel = some k)
    (range : pageRange start.toNat count.toNat = true) :
    s.readPage t [0x12, sel, start, count]
      = s.reply t .done (k.code :: (s.ps.bank k).pageRecords start.toNat count.toNat) := by
  have selector : byteAt [0x12, sel, start, count] 1 = sel := rfl
  have first : byteAt [0x12, sel, start, count] 2 = start := rfl
  have entries : byteAt [0x12, sel, start, count] 3 = count := rfl
  rw [State.readPage, selector, first, entries, bank, range]

/-- The first of a run of page records within the table. -/
theorem pageRecords_succ (b : Bank) {start : Nat} (h : start < 256) (n : Nat) :
    b.pageRecords start (n + 1) = (b.pages.get ⟨start, h⟩).record ++ b.pageRecords (start + 1) n := by
  rw [Bank.pageRecords, dif_pos h]

/-- A run of page records holds four bytes for each entry, those of its record (R165). -/
theorem pageRecords_does (b : Bank) (n start : Nat) (h : start + n ≤ 256) :
    (b.pageRecords start n).length = 4 * n
      ∧ ∀ i : PageIx, start ≤ i.val → i.val < start + n →
          ((b.pageRecords start n).drop (4 * (i.val - start))).take 4 = (b.pages.get i).record := by
  induction n generalizing start with
  | zero => exact ⟨rfl, fun i low high => absurd high (by omega)⟩
  | succ n ih =>
    obtain ⟨length, records⟩ := ih (start + 1) (by omega)
    have four (i : PageIx) : (b.pages.get i).record.length = 4 := (page_reads_back _).1
    rw [pageRecords_succ b (by omega)]
    refine ⟨by rw [List.length_append, four, length]; omega, fun i low high => ?_⟩
    rcases Nat.eq_or_lt_of_le low with rfl | later
    · rw [Nat.sub_self, Nat.mul_zero, List.drop_zero, List.take_left' (four _)]
    · have behind : 4 * (i.val - start) = (b.pages.get ⟨start, by omega⟩).record.length + 4 * (i.val - (start + 1)) := by
        rw [four]
        omega
      rw [behind, List.drop_length_add_append, records i later (by omega)]

/-! ### READ PORT (R166) -/

@[simp] theorem leBytes_length (n x : Nat) : (leBytes n x).length = n := by
  induction n generalizing x with
  | zero => rfl
  | succ n ih => rw [leBytes, List.length_cons, ih]

theorem timerBytes_length (due : List (BitVec 16)) (k : Nat) (timer : Option Nat) : (timerBytes due k timer).length = 3 := by
  cases timer <;> rfl

theorem slotBytes_length (due : List (BitVec 16)) (k : Nat) (slot : Slot) : (slotBytes due k slot).length = 4 := by
  cases slot <;> rfl

theorem portContents_length (s : State) (due : List (BitVec 16)) (p : PortId) : (s.portContents due p).length = 92 := by
  have slots : (allSlots.flatMap fun i => slotBytes due (2 + i.val) ((s.port p).slots.get i)).length = 64 := by
    simp [slotBytes_length, allSlots]
  unfold State.portContents
  simp only [List.length_append, slots, leBytes_length, timerBytes_length]
  rfl

theorem readPort_above (s : State) (due : List (BitVec 16)) (t : Tag) {b : Byte} (above : 7 < b.toNat) :
    s.readPort due t [0x13, b] = s.reply t .badArgument [] := by
  have port : byteAt [0x13, b] 1 = b := rfl
  rw [State.readPort, port, portNumber_none above]

theorem readPort_at (s : State) (due : List (BitVec 16)) (t : Tag) {b : Byte} {p : PortId} (hb : b.toNat = p.val) :
    s.readPort due t [0x13, b] = s.reply t .done (s.portContents due p) := by
  have port : byteAt [0x13, b] 1 = b := rfl
  rw [State.readPort, port, portNumber_eq hb]

/-! ### READ EVENTS (R167) -/

theorem faultBytes_length (r : Option FaultRecord) : (faultBytes r).length = 12 := by
  cases r <;> rfl

theorem linkFaultBytes_length (r : Option LinkFaultRecord) : (linkFaultBytes r).length = 5 := by
  cases r <;> rfl

theorem eventContents_length (eu : EventUnit) : eu.contents.length = 27 := by
  unfold EventUnit.contents
  simp only [List.length_append, leBytes_length, faultBytes_length, linkFaultBytes_length]
  rfl

/-! ### CLEAR COUNTERS (R169) -/

/-- The counters of a scope set to 0: the hit counters for 0, the ports' for 1, both for 2 (R169). -/
def State.countersCleared (s : State) (scope : Byte) : State :=
  let s1 := if scope = 1 then s else s.clearHits
  if scope = 0 then s1 else s1.clearPortCounters

theorem clearCounters_above (s : State) (t : Tag) {scope : Byte} (above : 2 < scope.toNat) :
    s.clearCounters t [0x16, scope] = s.reply t .badArgument [] := by
  have second : byteAt [0x16, scope] 1 = scope := rfl
  unfold State.clearCounters
  rw [second]
  split
  · omega
  · omega
  · omega
  · rfl

theorem scope_cases {scope : Byte} (h : scope.toNat ≤ 2) : scope = 0 ∨ scope = 1 ∨ scope = 2 := by bv_omega

theorem clearCounters_scope (s : State) (t : Tag) {scope : Byte} (h : scope.toNat ≤ 2) :
    s.clearCounters t [0x16, scope] = (s.countersCleared scope).reply t .done [] := by
  rcases scope_cases h with rfl | rfl | rfl
  · rfl
  · rfl
  · rfl

theorem clearHits_bank (s : State) (k : BankId) : s.clearHits.ps.bank k = (s.ps.bank k).clearHits := by
  cases k <;> rfl

theorem clearPortCounters_port (s : State) (p : PortId) : s.clearPortCounters.port p = (s.port p).clearCounters := get_map _ _ p

theorem countersCleared_ps (s : State) (scope : Byte) :
    (s.countersCleared scope).ps = if scope = 1 then s.ps else s.clearHits.ps := by
  unfold State.countersCleared
  split <;> split <;> rfl

theorem countersCleared_bank (s : State) (scope : Byte) (k : BankId) :
    (s.countersCleared scope).ps.bank k = if scope = 1 then s.ps.bank k else (s.ps.bank k).clearHits := by
  rw [countersCleared_ps]
  split
  · rfl
  · exact clearHits_bank s k

theorem countersCleared_port (s : State) (scope : Byte) (p : PortId) :
    (s.countersCleared scope).port p = if scope = 0 then s.port p else (s.port p).clearCounters := by
  have port : (if scope = 1 then s else s.clearHits).port p = s.port p := by split <;> rfl
  unfold State.countersCleared
  simp only
  split
  · exact port
  · rw [clearPortCounters_port, port]

theorem countersCleared_frame (s : State) (scope : Byte) :
    s.countersCleared scope
      = { s with ps := (s.countersCleared scope).ps, ports := (s.countersCleared scope).ports } := by
  unfold State.countersCleared
  split <;> split <;> rfl

/-- The reply of a CLEAR COUNTERS beside the counters that its scope clears, and what stands (R169). -/
theorem clearCounters_does (s : State) (t : Tag) (scope : Byte) :
    let u := (s.inHand.countersCleared scope).reply t .done []
    (∀ k i, (u.ps.bank k).hits.get i = if scope = 1 then (s.ps.bank k).hits.get i else 0)
      ∧ (∀ k, (u.ps.bank k).windows = (s.ps.bank k).windows ∧ (u.ps.bank k).pages = (s.ps.bank k).pages)
      ∧ (∀ p, u.port p = if scope = 0 then s.port p
          else { s.port p with copiesSent := 0, timeouts := 0, strays := 0, targetErrors := 0 })
      ∧ u.ps.active = s.ps.active ∧ u.ps.generation = s.ps.generation ∧ u.ps.op = s.ps.op
      ∧ u.ps.drainTimeout = s.ps.drainTimeout ∧ u.ulc = (s.reply t .done []).ulc
      ∧ u = { s.inHand with ps := u.ps, ports := u.ports, ulc := u.ulc } := by
  intro u
  have frame := countersCleared_frame s.inHand scope
  have ps : u.ps = (s.inHand.countersCleared scope).ps := State.reply_ps _ _ _ _
  have ports : u.ports = (s.inHand.countersCleared scope).ports := State.reply_ports _ _ _ _
  have placed : u = { s.inHand.countersCleared scope with ulc := u.ulc } := place_frame _ _
  have ulc : u.ulc = (s.reply t .done []).ulc :=
    reply_ulc_congr (s := s) (congrArg State.ulc frame :) (congrArg State.eu frame :) t _ _
  obtain ⟨active, generation, op, drainTimeout⟩ : u.ps.active = s.ps.active ∧ u.ps.generation = s.ps.generation
      ∧ u.ps.op = s.ps.op ∧ u.ps.drainTimeout = s.ps.drainTimeout := by
    rw [ps, countersCleared_ps]
    split
    all_goals exact ⟨rfl, rfl, rfl, rfl⟩
  refine ⟨fun k i => ?_, fun k => ?_, fun p => ?_, active, generation, op, drainTimeout, ulc, ?_⟩
  · rw [ps, countersCleared_bank]
    split
    · rfl
    · exact get_replicate _ _
  · rw [ps, countersCleared_bank]
    split
    all_goals exact ⟨rfl, rfl⟩
  · exact (reply_port _ t _ _ p).trans (countersCleared_port _ _ _)
  · rw [ps, ports, placed, frame]

/-- Settles O57: the replies of the six queries, the bytes of the status codes, then the scopes of CLEAR COUNTERS. -/
theorem queriesAndCounters : Obligations.QueriesAndCounters := by
  unfold Obligations.QueriesAndCounters
  intro s t scope
  refine ⟨fun h => ⟨exec_query State.statusContents h rfl rfl,
      fun balance => ⟨fifo_le_of_takes h balance, credits_add_fifo_of_takes h balance⟩⟩,
    ⟨rfl, rfl, rfl, rfl, rfl, rfl, fun k o x => ⟨rfl, rfl⟩, fun m e d o x => rfl⟩,
    fun sel b h => ?_, fun sel start count h => ?_, fun b due h => ?_, fun h => ?_, fun h => ?_, fun h => ?_⟩
  · have taken : exec .readWindow s = .next (s.inHand.readWindow t [0x11, sel, b]) := exec_rightLength h rfl rfl rfl
    rw [taken]
    exact ⟨fun refused => congrArg _ (readWindow_refused _ t refused),
      fun i k hb bank => congrArg _ (readWindow_at t (selectBank_eq bank) hb)⟩
  · have taken : exec .readPage s = .next (s.inHand.readPage t [0x12, sel, start, count]) := exec_rightLength h rfl rfl rfl
    have range := pageRange_iff start.toNat count.toNat
    rw [taken]
    refine ⟨fun refused => congrArg _ (readPage_refused _ t ?_), fun k bank low high fits => ?_⟩
    · have empty : count = 0 ↔ count.toNat = 0 := by bv_omega
      rw [Bool.eq_false_iff, ne_eq, range]
      rw [empty] at refused
      omega
    · exact ⟨_, congrArg _ (readPage_at t (selectBank_eq bank) (range.mpr ⟨low, high, fits⟩)),
        pageRecords_does (s.ps.bank k) count.toNat start.toNat fits⟩
  · have taken : exec (.readPort due) s = .next (s.inHand.readPort due t [0x13, b]) := exec_rightLength h rfl rfl rfl
    rw [taken]
    refine ⟨fun above => congrArg _ (readPort_above _ due t above), fun p hb => ?_⟩
    exact ⟨_, portContents_length s due p, congrArg _ (readPort_at _ due t hb), rfl⟩
  · have taken : exec .readEvents s = .next (s.inHand.reply t .done s.eu.contents) :=
      exec_query (fun s => s.eu.contents) h rfl rfl
    exact ⟨_, eventContents_length s.eu, taken, rfl⟩
  · have taken : exec .readResetCause s = .next (s.inHand.reply t .done s.rs.contents) :=
      exec_query (fun s => s.rs.contents) h rfl rfl
    rw [taken, ResetUnit.contents]
    cases s.rs.previousCause with
    | none => rfl
    | some c => rfl
  · have taken : exec .clearCounters s = .next (s.inHand.clearCounters t [0x16, scope]) := exec_rightLength h rfl rfl rfl
    rw [taken]
    exact ⟨fun above => congrArg _ (clearCounters_above _ t above),
      fun within => ⟨_, congrArg _ (clearCounters_scope _ t within), clearCounters_does s t scope⟩⟩

end Sys2Proof.Machine
end

section
/-! PROOFS. The Event Unit by itself: what it does with an occurrence and with a clear, and what keeps it sound. -/

namespace Sys2Proof.Machine

/-! ### Bits of a word -/

/-- A bit that stands in a word stands when others join it. -/
theorem or_and_ne_zero {n : Nat} {x b : BitVec n} (h : x &&& b ≠ 0) (y : BitVec n) : (x ||| y) &&& b ≠ 0 := by
  rw [BitVec.and_or_distrib_right]
  exact fun none => h (BitVec.or_eq_zero_iff.mp none).1

/-- What stands in a word apart from `c` stands when `c` is cleared. -/
theorem and_not_and {n : Nat} {c b : BitVec n} (h : c &&& b = 0) (x : BitVec n) : x &&& ~~~c &&& b = x &&& b := by
  ext i hi
  have apart := congrArg (fun v => v[i]) h
  simp only [BitVec.getElem_and, BitVec.getElem_not, BitVec.getElem_zero, BitVec.ofNat_eq_ofNat] at apart ⊢
  grind

/-- To clear from a word what a mask and the word share is to clear the mask. -/
theorem and_not_and_self {n : Nat} (x y : BitVec n) : x &&& ~~~(x &&& y) = x &&& ~~~y := by
  ext i hi
  simp only [BitVec.getElem_and, BitVec.getElem_not]
  grind

/-- A bit of a word, as the mask that names it finds it. -/
theorem and_twoPow_bne_zero {n i : Nat} (x : BitVec n) (h : i < n) : (x &&& BitVec.twoPow n i != 0) = x.getLsbD i := by
  have named : BitVec.twoPow n i ≠ 0 := fun zero => by
    have bit := congrArg (BitVec.getLsbD · i) zero
    simp [h] at bit
  rw [BitVec.and_twoPow]
  cases x.getLsbD i
  · simp
  · simpa using named

/-! ### An occurrence that is captured (R175 to R179) -/

section Take

variable (eu : EventUnit) {o : Occurrence}

theorem take_of_captures (h : eu.captures o = true) :
    eu.take o = ({ eu.fill o with pending := eu.pending ||| o.bit } : EventUnit).settleAlert := if_pos h

theorem take_of_not_captures (h : eu.captures o = false) : eu.take o = eu := if_neg (by simp [h])

theorem fill_enables (o : Occurrence) : (eu.fill o).enables = eu.enables := by cases o <;> rfl

theorem fill_holdoff (o : Occurrence) : (eu.fill o).holdoff = eu.holdoff := by cases o <;> rfl

theorem fill_holdoffSetting (o : Occurrence) : (eu.fill o).holdoffSetting = eu.holdoffSetting := by cases o <;> rfl

/-- The fault record changes with MISS, PROTECT and NOT_MAPPED alone (R178). -/
theorem fill_faultRecord (h : ∀ kind request tag addr window generation, o ≠ .refused kind request tag addr window generation) :
    (eu.fill o).faultRecord = eu.faultRecord := by
  cases o with
  | refused kind request tag addr window generation => exact absurd rfl (h kind request tag addr window generation)
  | _ => rfl

/-- The link fault record changes with LINK_FAULT alone (R179). -/
theorem fill_linkFaultRecord (h : ∀ kind port tag, o ≠ .linkFault kind port tag) :
    (eu.fill o).linkFaultRecord = eu.linkFaultRecord := by
  cases o with
  | linkFault kind port tag => exact absurd rfl (h kind port tag)
  | _ => rfl

theorem fill_quarantines (h : ∀ p, o ≠ .quarantine p) : (eu.fill o).quarantines = eu.quarantines := by
  cases o with
  | quarantine p => exact absurd rfl (h p)
  | _ => rfl

theorem fill_strayPorts (h : ∀ p, o ≠ .stray p) : (eu.fill o).strayPorts = eu.strayPorts := by
  cases o with
  | stray p => exact absurd rfl (h p)
  | _ => rfl

/-- An event is pending once an occurrence has set its flag: a per-port one for its port, any other in the pending form (R175, R177). -/
theorem anyPending_fill (o : Occurrence) : ({ eu.fill o with pending := eu.pending ||| o.bit } : EventUnit).anyPending = true := by
  have joined {n : Nat} (x : BitVec n) {y : BitVec n} (h : y ≠ 0) : (x ||| y != 0) = true :=
    bne_iff_ne.mpr fun none => h (BitVec.or_eq_zero_iff.mp none).2
  simp only [EventUnit.anyPending, Bool.or_eq_true]
  cases o with
  | strike p => exact .inl (.inr (joined _ (portBit_ne_zero p)))
  | quarantine p => exact .inr (joined _ (portBit_ne_zero p))
  | refused kind => cases kind <;> exact .inl (.inl (joined _ (by simp [Occurrence.bit])))
  | _ => exact .inl (.inl (joined _ (by simp [Occurrence.bit])))

/-- A captured occurrence asserts ALERT_N unless the holdoff timer runs (R184). -/
theorem take_alert (h : eu.captures o = true) : (eu.take o).alert = eu.holdoff.isNone := by
  rw [take_of_captures eu h]
  change (EventUnit.anyPending _ && (eu.fill o).holdoff.isNone) = _
  rw [anyPending_fill, fill_holdoff, Bool.true_and]

end Take

/-! ### What keeps the Event Unit sound -/

/-- The bit of a fault in the pending form is that of the kind its record holds (R178). -/
theorem refused_bit (kind : FaultKind) (request : MemKind) (tag : Tag) (addr : Addr) (window : Option WindowIx) (generation : BitVec 8) :
    (Occurrence.refused kind request tag addr window generation).bit = kind.bit := by cases kind <;> rfl

theorem FaultKind.bit_ne_zero (kind : FaultKind) : kind.bit ≠ 0 := by cases kind <;> decide

/-- Only events have bits in the pending form (R167). -/
theorem occurrence_bit_and_not_eventBits (o : Occurrence) : o.bit &&& ~~~eventBits = 0 := by
  cases o with
  | refused kind => cases kind <;> simp [Occurrence.bit, eventBits]
  | _ => simp [Occurrence.bit, eventBits]

/-- A fault record is of a kind that is pending, or that becomes pending with the occurrence that fills it (R178). -/
theorem fill_faultRecord_bit {eu : EventUnit} {o : Occurrence} (h : ∀ r, eu.faultRecord = some r → eu.pending &&& r.kind.bit ≠ 0)
    {r : FaultRecord} (hr : (eu.fill o).faultRecord = some r) : eu.pending &&& r.kind.bit ≠ 0 ∨ o.bit &&& r.kind.bit ≠ 0 := by
  cases o with
  | refused kind request tag addr window generation =>
    cases filled : eu.faultRecord with
    | none =>
      obtain rfl : (⟨kind, request, tag, addr, window, generation, 0⟩ : FaultRecord) = r := by
        simpa [EventUnit.fill, fillFault, filled] using hr
      rw [refused_bit, BitVec.and_self]
      exact .inr kind.bit_ne_zero
    | some old =>
      obtain rfl : { old with repeats := satInc old.repeats } = r := by simpa [EventUnit.fill, fillFault, filled] using hr
      exact .inl (h old filled)
  | _ => exact .inl (h r hr)

theorem fill_linkFaultRecord_bit {eu : EventUnit} {o : Occurrence} (h : eu.linkFaultRecord ≠ none → eu.pending &&& 0x040 ≠ 0)
    (filled : (eu.fill o).linkFaultRecord ≠ none) : eu.pending &&& 0x040 ≠ 0 ∨ o.bit &&& 0x040 ≠ 0 := by
  cases o with
  | linkFault kind port tag => exact .inr (by simp [Occurrence.bit])
  | _ => exact .inl (h filled)

theorem fill_strayPorts_bit {eu : EventUnit} {o : Occurrence} (h : eu.strayPorts ≠ 0 → eu.pending &&& 0x080 ≠ 0)
    (joined : (eu.fill o).strayPorts ≠ 0) : eu.pending &&& 0x080 ≠ 0 ∨ o.bit &&& 0x080 ≠ 0 := by
  cases o with
  | stray p => exact .inr (by simp [Occurrence.bit])
  | _ => exact .inl (h joined)

namespace EventUnit.Sound

variable {eu : EventUnit}

/-- A captured occurrence sets its flag beside the record or port set that it fills (R175). -/
theorem take (h : eu.Sound) (o : Occurrence) : (eu.take o).Sound := by
  cases captured : eu.captures o with
  | false => rwa [take_of_not_captures eu captured]
  | true =>
    obtain ⟨-, fault, link, stray, events, enables⟩ := h
    have flagged {b : BitVec 16} (k : eu.pending &&& b ≠ 0 ∨ o.bit &&& b ≠ 0) : (eu.pending ||| o.bit) &&& b ≠ 0 :=
      k.elim (or_and_ne_zero · _) fun new => BitVec.or_comm o.bit eu.pending ▸ or_and_ne_zero new _
    rw [take_of_captures eu captured]
    refine ⟨rfl, fun r hr => flagged (fill_faultRecord_bit fault hr), fun filled => flagged (fill_linkFaultRecord_bit link filled),
      fun joined => flagged (fill_strayPorts_bit stray joined), ?_, (fill_enables eu o).symm ▸ enables⟩
    change (eu.pending ||| o.bit) &&& ~~~eventBits = 0
    rw [BitVec.and_or_distrib_right, events, occurrence_bit_and_not_eventBits]
    rfl

/-- A clear takes an event's record and port set with it (R182). -/
theorem clear (h : eu.Sound) (c : ClearedEvents) : (eu.clear c).Sound := by
  unfold EventUnit.clear
  split
  · obtain ⟨-, fault, link, stray, events, enables⟩ := h
    refine ⟨rfl, fun r hr => ?_, fun filled => ?_, fun joined => ?_, ?_, enables⟩
    · obtain ⟨old, spared⟩ := Option.filter_eq_some_iff.mp hr
      exact (and_not_and (by simpa using spared) eu.pending).symm ▸ fault r old
    · obtain ⟨spared, old⟩ := ite_ne_right_iff.mp filled
      exact (and_not_and spared eu.pending).symm ▸ link old
    · obtain ⟨spared, old⟩ := ite_ne_right_iff.mp joined
      exact (and_not_and spared eu.pending).symm ▸ stray old
    · change eu.pending &&& ~~~c.events &&& ~~~eventBits = 0
      rw [BitVec.and_assoc, BitVec.and_comm (~~~c.events), ← BitVec.and_assoc, events]
      exact BitVec.zero_and
  · exact h

/-- The assertion of a power-on or pin reset leaves nothing pending (R185, log 8). -/
theorem underReset (h : eu.Sound) : eu.underReset.Sound := by
  obtain ⟨-, -, -, -, -, enables⟩ := h
  exact ⟨rfl, nofun, absurd rfl, absurd rfl, BitVec.zero_and, enables⟩

theorem startUp : EventUnit.startUp.Sound := ⟨rfl, nofun, absurd rfl, absurd rfl, rfl, rfl⟩

end EventUnit.Sound

end Sys2Proof.Machine
end

section
/-! PROOFS. What a step of the part does to the Event Unit: it takes an occurrence, is cleared, set or reset, or its holdoff timer
moves; every other command leaves it alone. -/

namespace Sys2Proof.Machine

/-- What one step can do to the Event Unit. -/
inductive EventUnit.Becomes : EventUnit → EventUnit → Prop
  | stays (eu : EventUnit) : Becomes eu eu
  | takes (eu : EventUnit) (o : Occurrence) : Becomes eu (eu.take o)
  | clears (eu : EventUnit) (c : ClearedEvents) : Becomes eu (eu.clear c)
  | resets (eu : EventUnit) : Becomes eu eu.underReset
  | starts (eu : EventUnit) : Becomes eu (EventUnit.startUp.take .resetDone)
  | enables (eu : EventUnit) (v : BitVec 16) : Becomes eu { eu with enables := v &&& enableBits }
  | setsHoldoff (eu : EventUnit) (v : BitVec 8) : Becomes eu { eu with holdoffSetting := v }
  | ticks (eu : EventUnit) : Becomes eu { eu with holdoff := tickTimer eu.holdoff }
  | expires (eu : EventUnit) : Becomes eu ({ eu with holdoff := none } : EventUnit).settleAlert

theorem EventUnit.Becomes.sound {a b : EventUnit} (h : a.Becomes b) (k : a.Sound) : b.Sound := by
  cases h with
  | stays => exact k
  | takes o => exact k.take o
  | clears c => exact k.clear c
  | resets => exact k.underReset
  | starts => exact EventUnit.Sound.startUp.take _
  | enables v =>
    obtain ⟨alert, fault, link, stray, events, -⟩ := k
    refine ⟨alert, fault, link, stray, events, ?_⟩
    change v &&& enableBits &&& ~~~enableBits = 0
    rw [BitVec.and_assoc, show enableBits &&& ~~~enableBits = 0 from rfl]
    exact BitVec.and_zero
  | setsHoldoff v => exact k
  | ticks =>
    obtain ⟨alert, rest⟩ := k
    refine ⟨alert.trans (congrArg (a.anyPending && ·) ?_), rest⟩
    cases a.holdoff <;> rfl
  | expires =>
    obtain ⟨-, rest⟩ := k
    exact ⟨rfl, rest⟩

/-- The state's Event Unit as a step leaves it. -/
def State.EventsBecome (s t : State) : Prop := s.eu.Becomes t.eu

namespace State.EventsBecome

theorem ofSame {s t : State} (h : t.eu = s.eu) : s.EventsBecome t := by
  unfold State.EventsBecome
  exact h ▸ .stays _

theorem capture (s : State) (o : Occurrence) : s.EventsBecome (s.capture o) := .takes s.eu o

/-- What leaves the Event Unit alone may come after. -/
theorem andThen {s t u : State} (h : s.EventsBecome t) (k : u.eu = t.eu) : s.EventsBecome u := by
  unfold State.EventsBecome
  exact k ▸ h

/-- A check that answers where it fails. -/
theorem orReply {c : Prop} [Decidable c] {s u : State} (h : s.EventsBecome u) (t : Tag) (st : Status) (contents : List Byte) :
    s.EventsBecome (if c then u else s.reply t st contents) := by
  split
  · exact h
  · exact ofSame (State.reply_eu s t st contents)

end State.EventsBecome

/-! ### The operations of the blocks -/

theorem arrivals_eu (frames : List (List Byte)) (s : State) : (frames.foldl State.arrive s).eu = s.eu := by
  obtain ⟨frame, -⟩ := arrivals_frame frames s
  rw [frame]

/-- The head is answered, admitted or passed on; what it reports is taken later (R175). -/
theorem attempt_eu (s : State) (credit : CreditPath) : (s.attempt credit).eu = s.eu := by
  unfold State.attempt
  split
  · rfl
  · split
    · simp
    · split
      · rfl
      · simp [State.answerHead]
      · rw [State.newHead_eu, State.takeIn, (State.placeCopies_carries _ _ _).eu, State.reportHit_eu]
        exact State.leaveHead_eu _ _ _

/-- Strike processing takes the strike in the same step, or quarantines the port (R92, R93, log 3). -/
theorem strikeDeadline_events (s : State) (p : PortId) (failed : List Job) (o : Order) :
    s.EventsBecome (s.strikeDeadline p failed o) := by
  unfold State.strikeDeadline
  simp only
  split
  · exact .ofSame (State.quarantine_carries _ p _ failed o).eu
  · exact (State.EventsBecome.capture (s.countTimeout p) (.strike p)).andThen
      ((State.serve_carries _ p).eu.trans (State.runJobs_carries failed _ p).eu)

theorem failWake_events (s : State) (p : PortId) (o : Order) : s.EventsBecome (s.failWake p o) := by
  refine (State.EventsBecome.capture s (.strike p)).andThen ?_
  unfold State.failWake
  simp only
  rw [(State.serve_carries _ p).eu, (State.runJobs_carries _ _ p).eu]
  split
  all_goals rfl

/-- The swap is reported, and what it reports is taken later (R151, R175). -/
theorem endDrain_eu (s : State) (escalated owed : Bool) (t : Tag) : (s.endDrain escalated owed t).eu = s.eu := by
  rw [State.endDrain, State.reportEnd_eu, State.swap_eu]

theorem finishPlanOp_eu (s : State) (owed : Bool) (t : Tag) : (s.finishPlanOp owed t).eu = s.eu := by
  rw [State.finishPlanOp, State.reportEnd_eu]

theorem strikesCleared_eu (cleared : BitVec 8) (ps : List PortId) (s : State) : (s.strikesCleared cleared ps).eu = s.eu := by
  induction ps generalizing s with
  | nil => rfl
  | cons p ps ih =>
    rw [State.strikesCleared, ih]
    split
    all_goals rfl

/-! ### Control requests -/

/-- A meaning under which the Event Unit becomes what one step can make of it. -/
def MovesEvents (carry : State → Tag → List Byte → State) : Prop :=
  ∀ (s : State) (t : Tag) (payload : List Byte), s.EventsBecome (carry s t payload)

section Requests

variable {carry : State → Tag → List Byte → State}

theorem withLength_movesEvents (n : Nat) (h : MovesEvents carry) : MovesEvents (withLength n carry) :=
  fun s t payload => (h s t payload).orReply t _ _

theorem unlessBusy_movesEvents (h : MovesEvents carry) : MovesEvents (unlessBusy carry) :=
  fun s t payload => (h s t payload).orReply t _ _

theorem loadPagesLength_movesEvents (h : MovesEvents carry) : MovesEvents (loadPagesLength carry) :=
  fun s t payload => (h s t payload).orReply t _ _

theorem onPort_movesEvents {carry : State → Tag → List Byte → PortId → State}
    (h : ∀ (s : State) (t : Tag) (payload : List Byte) (p : PortId), (carry s t payload p).eu = s.eu) : MovesEvents (onPort carry) := by
  intro s t payload
  refine .ofSame ?_
  unfold onPort
  split
  · rw [h, State.clearAutoEnable_eu]
  · exact State.reply_eu s t _ _

/-- The Control Unit takes a request, and then the packets that arrived behind it. -/
theorem takeRequest_events (accepts : List Byte → Bool) (h : MovesEvents carry) (s : State) :
    s.EventsBecome (s.takeRequest accepts carry) := by
  unfold State.takeRequest
  split
  · exact .ofSame rfl
  · split
    · exact (h s.takeUp _ _).andThen (arrivals_eu _ _)
    · exact .ofSame rfl

/-- A meaning that leaves the Event Unit alone. -/
theorem movesEvents_of_eu (h : ∀ (s : State) (t : Tag) (payload : List Byte), (carry s t payload).eu = s.eu) : MovesEvents carry :=
  fun s t payload => .ofSame (h s t payload)

end Requests

theorem readWindow_eu (s : State) (t : Tag) (payload : List Byte) : (s.readWindow t payload).eu = s.eu := by
  unfold State.readWindow
  split
  all_goals exact State.reply_eu s t _ _

theorem readPage_eu (s : State) (t : Tag) (payload : List Byte) : (s.readPage t payload).eu = s.eu := by
  unfold State.readPage
  simp only
  split
  all_goals exact State.reply_eu s t _ _

theorem readPort_eu (due : List (BitVec 16)) (s : State) (t : Tag) (payload : List Byte) : (s.readPort due t payload).eu = s.eu := by
  unfold State.readPort
  split
  all_goals exact State.reply_eu s t _ _

theorem clearCounters_eu (s : State) (t : Tag) (payload : List Byte) : (s.clearCounters t payload).eu = s.eu := by
  unfold State.clearCounters
  split
  all_goals rw [State.reply_eu]
  all_goals rfl

theorem writeStaged_eu (s : State) (b : Bank) (t : Tag) : (s.writeStaged b t).eu = s.eu := by rw [State.writeStaged, State.reply_eu]

theorem loadWindow_eu (s : State) (t : Tag) (payload : List Byte) : (s.loadWindow t payload).eu = s.eu := by
  unfold State.loadWindow
  split
  · exact writeStaged_eu s _ t
  · exact State.reply_eu s t _ _

theorem clearWindow_eu (s : State) (t : Tag) (payload : List Byte) : (s.clearWindow t payload).eu = s.eu := by
  unfold State.clearWindow
  split
  · exact writeStaged_eu s _ t
  · exact State.reply_eu s t _ _

theorem loadPages_eu (s : State) (t : Tag) (payload : List Byte) : (s.loadPages t payload).eu = s.eu := by
  unfold State.loadPages
  simp only
  split
  · exact writeStaged_eu s _ t
  · exact State.reply_eu s t _ _

theorem switchAtOnce_eu (s : State) (t : Tag) : (s.switchAtOnce t).eu = s.eu := by
  rw [State.switchAtOnce, State.reply_eu, State.swap_eu]

theorem switchPlan_eu (s : State) (t : Tag) (payload : List Byte) : (s.switchPlan t payload).eu = s.eu := by
  unfold State.switchPlan
  split
  · split
    · exact switchAtOnce_eu s t
    · rfl
  · split
    · exact switchAtOnce_eu s t
    · rfl
  · exact State.reply_eu s t _ _

theorem setPlanTiming_eu (s : State) (t : Tag) (payload : List Byte) : (s.setPlanTiming t payload).eu = s.eu := by
  unfold State.setPlanTiming
  simp only
  split
  all_goals exact State.reply_eu _ t _ _

theorem enablePort_eu (s : State) (t : Tag) (payload : List Byte) (p : PortId) : (s.enablePort t payload p).eu = s.eu := by
  unfold State.enablePort
  split
  case h_4 | h_5 =>
    split
    · rw [State.reply_eu, State.activate_eu]
    · exact State.reply_eu s t _ _
  all_goals exact State.reply_eu s t _ _

theorem disablePort_eu (order : Order) (s : State) (t : Tag) (payload : List Byte) (p : PortId) :
    (State.disablePort order s t payload p).eu = s.eu := by
  unfold State.disablePort
  split
  · exact State.reply_eu s t _ _
  all_goals exact (s.leaveService_carries p .disabled none [.reply t .done] order).eu

theorem parkPort_eu (s : State) (t : Tag) (payload : List Byte) (p : PortId) : (s.parkPort t payload p).eu = s.eu := by
  unfold State.parkPort
  split
  · split
    · exact State.reply_eu s t _ _
    · split
      · rw [State.reply_eu, State.park_eu]
      · exact State.reply_eu s t _ _
  all_goals exact State.reply_eu s t _ _

theorem setTimeouts_eu (s : State) (t : Tag) (payload : List Byte) (p : PortId) : (s.setTimeouts t payload p).eu = s.eu := by
  unfold State.setTimeouts
  simp only
  split
  all_goals exact State.reply_eu _ t _ _

theorem setTimebase_eu (s : State) (t : Tag) (payload : List Byte) : (s.setTimebase t payload).eu = s.eu := by
  unfold State.setTimebase
  split
  all_goals exact State.reply_eu _ t _ _

theorem resetTraffic_eu (s : State) (t : Tag) : (s.resetTraffic t).eu = s.eu := by
  rw [State.resetTraffic, returnWaking_frame, State.requestAbort_eu, State.reply_eu]

theorem resetFull_eu (s : State) (t : Tag) (sel : PlanSel) (credit : CreditPath) (o : FullOrder) :
    (s.resetFull t sel credit o).eu = s.eu := by rw [resetFull_eq]

theorem setEnables_movesEvents : MovesEvents fun s t payload =>
    ({ s with eu := { s.eu with enables := eventField payload &&& enableBits } } : State).reply t .done [] := by
  intro s t payload
  have set (v : BitVec 16) : s.EventsBecome { s with eu := { s.eu with enables := v &&& enableBits } } := .enables s.eu v
  exact (set _).andThen (State.reply_eu _ t _ _)

theorem setHoldoff_movesEvents : MovesEvents fun s t payload =>
    ({ s with eu := { s.eu with holdoffSetting := byteAt payload 1 } } : State).reply t .done [] := by
  intro s t payload
  have set (v : BitVec 8) : s.EventsBecome { s with eu := { s.eu with holdoffSetting := v } } := .setsHoldoff s.eu v
  exact (set _).andThen (State.reply_eu _ t _ _)

/-- CLEAR EVENTS clears events, and then tells the ports and replies (R182). -/
theorem clearEvents_movesEvents : MovesEvents State.clearEvents := by
  intro s t payload
  have cleared (c : ClearedEvents) : s.EventsBecome { s with eu := s.eu.clear c } := .clears s.eu c
  exact (cleared _).andThen ((State.reply_eu _ t _ _).trans (strikesCleared_eu _ _ _))

/-! ### The commands -/

/-- A control request that the Control Unit takes, or leaves as it is. -/
theorem request_events {c : Instr} (accepts : List Byte → Bool) {carry : State → Tag → List Byte → State} (h : MovesEvents carry)
    (he : ∀ s : State, exec c s = .next (s.takeRequest accepts carry)) (s : State) : ∃ t, exec c s = .next t ∧ s.EventsBecome t :=
  ⟨_, he s, takeRequest_events accepts h s⟩

theorem execStartUp_events (sel : PlanSel) (s : State) : ∃ t, execStartUp sel s = .next t ∧ s.EventsBecome t := by
  refine ⟨_, rfl, .ofSame ?_⟩
  split
  · rfl
  · rfl
  · split
    all_goals rfl

theorem execStartUpComplete_events (s : State) : ∃ t, execStartUpComplete s = .next t ∧ s.EventsBecome t := by
  have values : s.EventsBecome (s.startValues.capture .resetDone) := .starts s.eu
  refine ⟨_, rfl, ?_⟩
  split
  · refine values.andThen ?_
    simp only [State.attemptDue_eu, State.ulcStart_eu, State.capture_eu, State.loadStartPlan_eu]
  · exact .ofSame rfl

theorem execCarrierGained_events (s : State) : ∃ t, execCarrierGained s = .next t ∧ s.EventsBecome t := by
  refine ⟨_, rfl, .ofSame ?_⟩
  split
  · rfl
  · rw [State.settleLink_eu]

theorem execCarrierLost_events (s : State) : ∃ t, execCarrierLost s = .next t ∧ s.EventsBecome t := by
  refine ⟨_, rfl, ?_⟩
  split
  · exact (State.EventsBecome.capture s .uplinkLoss).andThen rfl
  · exact .ofSame rfl

theorem execLinkLossPlanStore_events (s : State) : ∃ t, execLinkLossPlanStore s = .next t ∧ s.EventsBecome t := by
  refine ⟨_, rfl, .ofSame ?_⟩
  split
  · rw [State.settleLink_eu]
  · rfl

theorem execLinkLossControlUnit_events (s : State) : ∃ t, execLinkLossControlUnit s = .next t ∧ s.EventsBecome t := by
  refine ⟨_, rfl, .ofSame ?_⟩
  split
  · rw [State.settleLink_eu]
  · rfl

theorem execLinkLossPorts_events (s : State) : ∃ t, execLinkLossPorts s = .next t ∧ s.EventsBecome t := by
  refine ⟨_, rfl, .ofSame ?_⟩
  split
  · rw [State.settleLink_eu]
    exact s.returnWaking_carries.eu
  · rfl

theorem execPacketArrival_events (frame : List Byte) (s : State) : ∃ t, execPacketArrival frame s = .next t ∧ s.EventsBecome t := by
  refine ⟨_, rfl, .ofSame ?_⟩
  split
  · rfl
  · exact arrivals_eu [frame] s

theorem execHeadAttempt_events (k : Nat) (credit : CreditPath) (s : State) :
    ∃ t, execHeadAttempt k credit s = .next t ∧ s.EventsBecome t := by
  refine ⟨_, rfl, .ofSame ?_⟩
  split
  · rfl
  · split
    · rfl
    · simp only
      split
      · exact attempt_eu _ credit
      · rfl

theorem execEventOccurrence_events (k : Nat) (s : State) : ∃ t, execEventOccurrence k s = .next t ∧ s.EventsBecome t := by
  refine ⟨_, rfl, ?_⟩
  split
  · exact .ofSame rfl
  · next o _ _ => exact (State.EventsBecome.capture s o).andThen rfl

theorem execTargetResponse_events (p : PortId) (f : TargetFrame) (s : State) :
    ∃ t, execTargetResponse p f s = .next t ∧ s.EventsBecome t := by
  obtain ⟨t, done, carries⟩ := execTargetResponse_carries p f s
  exact ⟨t, done, .ofSame carries.eu⟩

theorem execDeadlineExpiry_events (p : PortId) (i : SlotId) (o : Order) (s : State) :
    ∃ t, execDeadlineExpiry p i o s = .next t ∧ s.EventsBecome t := by
  refine ⟨_, rfl, ?_⟩
  split
  · exact strikeDeadline_events (s.setSlot p i .free) p _ o
  · exact strikeDeadline_events (s.setSlot p i .free) p _ o
  all_goals exact .ofSame rfl

theorem execIdleTimeout_events (p : PortId) (s : State) : ∃ t, execIdleTimeout p s = .next t ∧ s.EventsBecome t := by
  refine ⟨_, rfl, .ofSame ?_⟩
  split
  · exact State.park_eu s p
  · rfl

theorem execWakeTimeout_events (p : PortId) (o : Order) (s : State) : ∃ t, execWakeTimeout p o s = .next t ∧ s.EventsBecome t := by
  refine ⟨_, rfl, ?_⟩
  split
  · simp only
    split
    · exact .ofSame (State.quarantine_carries _ p _ [] o).eu
    · exact failWake_events (s.countTimeout p) p o
  · exact .ofSame rfl

theorem execTargetLinkUp_events (p : PortId) (s : State) : ∃ t, execTargetLinkUp p s = .next t ∧ s.EventsBecome t := by
  refine ⟨_, rfl, .ofSame ?_⟩
  split
  · rfl
  · split
    · rfl
    · exact (State.linkUp_carries _ p).eu

theorem execTargetLinkDown_events (p : PortId) (o : Order) (s : State) :
    ∃ t, execTargetLinkDown p o s = .next t ∧ s.EventsBecome t := by
  refine ⟨_, rfl, .ofSame ?_⟩
  split
  · exact (State.linkDown_carries _ p o).eu
  · rfl

theorem execTickBoundary_events (s : State) : ∃ t, execTickBoundary s = .next t ∧ s.EventsBecome t := by
  refine ⟨_, rfl, ?_⟩
  split
  · exact .ofSame rfl
  · exact .ticks s.eu

theorem execHoldoffExpiry_events (s : State) : ∃ t, execHoldoffExpiry s = .next t ∧ s.EventsBecome t := by
  refine ⟨_, rfl, ?_⟩
  split
  · exact .expires s.eu
  · exact .ofSame rfl

theorem execOttAbort_events (r : AbortTaking) (s : State) : ∃ t, execOttAbort r s = .next t ∧ s.EventsBecome t := by
  refine ⟨_, rfl, .ofSame ?_⟩
  split
  · rfl
  · rw [abortTaken_frame, (State.abort_carries _ r.order).eu]

theorem execOttEmptyReport_events (s : State) : ∃ t, execOttEmptyReport s = .next t ∧ s.EventsBecome t := by
  refine ⟨_, rfl, .ofSame ?_⟩
  split
  · rfl
  · simp only
    split
    · split
      · rw [State.settleLink_eu, endDrain_eu]
      · rfl
    all_goals rfl

theorem execCopyStep_events (s : State) : ∃ t, execCopyStep s = .next t ∧ s.EventsBecome t := by
  refine ⟨_, rfl, .ofSame ?_⟩
  split
  · simp only
    split
    · rfl
    · exact finishPlanOp_eu _ _ _
  · rfl

theorem execClearStep_events (s : State) : ∃ t, execClearStep s = .next t ∧ s.EventsBecome t := by
  refine ⟨_, rfl, .ofSame ?_⟩
  split
  · simp only
    split
    · rfl
    · exact finishPlanOp_eu _ _ _
  · rfl

theorem execHeldReplyRelease_events (k : Nat) (s : State) : ∃ t, execHeldReplyRelease k s = .next t ∧ s.EventsBecome t := by
  refine ⟨_, rfl, .ofSame ?_⟩
  split
  · rfl
  · simp only
    split
    · exact State.reply_eu _ _ _ _
    · rfl

/-! ### Every step -/

/-- Every command does to the Event Unit what one step can do, most of them nothing. -/
theorem exec_events (c : Instr) (s : State) : ∃ t, exec c s = .next t ∧ s.EventsBecome t := by
  have replies (st : Status) (contents : State → List Byte) : MovesEvents fun s t _ => s.reply t st (contents s) :=
    fun s t _ => .ofSame (s.reply_eu t st _)
  have apart (n : Nat) {carry : State → Tag → List Byte → State}
      (k : ∀ (s : State) (t : Tag) (payload : List Byte), (carry s t payload).eu = s.eu) : MovesEvents (withLength n carry) :=
    withLength_movesEvents n (movesEvents_of_eu k)
  have plan (n : Nat) {carry : State → Tag → List Byte → State}
      (k : ∀ (s : State) (t : Tag) (payload : List Byte), (carry s t payload).eu = s.eu) :
      MovesEvents (withLength n (unlessBusy carry)) := withLength_movesEvents n (unlessBusy_movesEvents (movesEvents_of_eu k))
  have port (n : Nat) {carry : State → Tag → List Byte → PortId → State}
      (k : ∀ (s : State) (t : Tag) (payload : List Byte) (p : PortId), (carry s t payload p).eu = s.eu) :
      MovesEvents (withLength n (onPort carry)) := withLength_movesEvents n (onPort_movesEvents k)
  cases c with
  | powerOn | resetNAssert => exact ⟨_, rfl, .resets s.eu⟩
  | startUp sel => exact execStartUp_events sel s
  | startUpComplete => exact execStartUpComplete_events s
  | carrierGained => exact execCarrierGained_events s
  | carrierLost => exact execCarrierLost_events s
  | linkLossPlanStore => exact execLinkLossPlanStore_events s
  | linkLossControlUnit => exact execLinkLossControlUnit_events s
  | linkLossPorts => exact execLinkLossPorts_events s
  | packetArrival frame => exact execPacketArrival_events frame s
  | packetDiscardNotUp frame => exact ⟨s, rfl, .ofSame rfl⟩
  | linkLossIq | creditReturn | transmitDone | hitReport | drainTimeout =>
    refine ⟨_, rfl, .ofSame ?_⟩
    split
    all_goals rfl
  | headAttempt k credit => exact execHeadAttempt_events k credit s
  | eventOccurrence k => exact execEventOccurrence_events k s
  | targetResponse p f => exact execTargetResponse_events p f s
  | deadlineExpiry p i o => exact execDeadlineExpiry_events p i o s
  | idleTimeout p => exact execIdleTimeout_events p s
  | wakeTimeout p o => exact execWakeTimeout_events p o s
  | targetLinkUp p => exact execTargetLinkUp_events p s
  | targetLinkDown p o => exact execTargetLinkDown_events p o s
  | tickBoundary => exact execTickBoundary_events s
  | holdoffExpiry => exact execHoldoffExpiry_events s
  | ottAbort r => exact execOttAbort_events r s
  | ottEmptyReport => exact execOttEmptyReport_events s
  | copyStep => exact execCopyStep_events s
  | clearStep => exact execClearStep_events s
  | heldReplyRelease k => exact execHeldReplyRelease_events k s
  | resetTraffic =>
    exact request_events _ (fun s t _ => State.EventsBecome.orReply (.ofSame (resetTraffic_eu s t)) t _ _) (fun _ => rfl) s
  | resetFull sel credit o =>
    exact request_events _ (fun s t _ => State.EventsBecome.orReply (.ofSame (resetFull_eu s t sel credit o)) t _ _) (fun _ => rfl) s
  | readStatus | readEvents | readResetCause => exact request_events _ (withLength_movesEvents 1 (replies _ _)) (fun _ => rfl) s
  | readWindow => exact request_events _ (apart 3 readWindow_eu) (fun _ => rfl) s
  | readPage => exact request_events _ (apart 4 readPage_eu) (fun _ => rfl) s
  | readPort due => exact request_events _ (apart 2 (readPort_eu due)) (fun _ => rfl) s
  | clearCounters => exact request_events _ (apart 2 clearCounters_eu) (fun _ => rfl) s
  | loadWindow => exact request_events _ (plan 34 loadWindow_eu) (fun _ => rfl) s
  | clearWindow => exact request_events _ (plan 2 clearWindow_eu) (fun _ => rfl) s
  | loadPages =>
    exact request_events _ (loadPagesLength_movesEvents (unlessBusy_movesEvents (movesEvents_of_eu loadPages_eu))) (fun _ => rfl) s
  | copyPlan => exact request_events _ (plan 1 fun s t _ => s.startPlanOp_eu (.copying 0 true t) t .copyPlan) (fun _ => rfl) s
  | clearPlan => exact request_events _ (plan 1 fun s t _ => s.startPlanOp_eu (.clearing 0 true t) t .clearPlan) (fun _ => rfl) s
  | switchPlanDrain | switchPlanForce => exact request_events _ (plan 2 switchPlan_eu) (fun _ => rfl) s
  | setPlanTiming => exact request_events _ (apart 3 setPlanTiming_eu) (fun _ => rfl) s
  | portEnable => exact request_events _ (port 2 enablePort_eu) (fun _ => rfl) s
  | portDisable o => exact request_events _ (port 2 (disablePort_eu o)) (fun _ => rfl) s
  | parkPort => exact request_events _ (port 2 parkPort_eu) (fun _ => rfl) s
  | setPort => exact request_events _ (port 8 setTimeouts_eu) (fun _ => rfl) s
  | setEventEnables => exact request_events _ (withLength_movesEvents 3 setEnables_movesEvents) (fun _ => rfl) s
  | clearEvents => exact request_events _ (withLength_movesEvents 5 clearEvents_movesEvents) (fun _ => rfl) s
  | setHoldoff => exact request_events _ (withLength_movesEvents 2 setHoldoff_movesEvents) (fun _ => rfl) s
  | setTimebase => exact request_events _ (apart 2 setTimebase_eu) (fun _ => rfl) s
  | unknownCommand => exact request_events _ (replies _ _) (fun _ => rfl) s

/-- Settles O4: whatever a step does to the Event Unit leaves it sound. -/
theorem stepKeepsEventsSound : Obligations.StepKeepsEventsSound := by
  unfold Obligations.StepKeepsEventsSound
  intro s t sound h
  unfold step at h
  split at h
  · cases h
    exact sound
  · next c rest _ =>
    obtain ⟨u, done, becomes⟩ := exec_events c { s with pending := rest }
    rw [done] at h
    cases h
    exact becomes.sound sound

end Sys2Proof.Machine
end

section
/-! PROOFS. The Event Unit's commands: an occurrence as it is captured, the settings, and CLEAR EVENTS with what it clears. -/

namespace Sys2Proof.Machine

/-! ### EVENT_OCCURRENCE (R174 to R179, R184) -/

theorem exec_eventOccurrence {s : State} {k : Nat} {o : Occurrence} {rest : List Occurrence}
    (h : takeAt k s.mail.occurrences = some (o, rest)) :
    exec (.eventOccurrence k) s = .next { s with eu := s.eu.take o, mail := { s.mail with occurrences := rest } } := by
  change execEventOccurrence k s = _
  unfold execEventOccurrence
  rw [h]
  rfl

/-- A repeat count stops at 255 (R178, R179). -/
theorem satInc_byte (c : BitVec 8) : satInc c = if c = 255 then 255 else c + 1 := by
  unfold satInc
  split
  · next full => rw [full]; rfl
  · next room => exact (if_neg room).symm

/-- The five events that have no capture enable (R174). -/
theorem captures_always (eu : EventUnit) {o : Occurrence}
    (h : o = .resetDone ∨ o = .uplinkLoss ∨ o = .switchForced ∨ (∃ p, o = .strike p) ∨ (∃ p, o = .quarantine p)) :
    eu.captures o = true := by
  obtain rfl | rfl | rfl | ⟨p, rfl⟩ | ⟨p, rfl⟩ := h
  all_goals rfl

section Captured

variable {eu : EventUnit} {o : Occurrence} (h : eu.captures o = true)

include h

theorem take_pending : (eu.take o).pending = eu.pending ||| o.bit := by rw [take_of_captures eu h]; rfl

/-- An occurrence touches neither the enables nor the holdoff (R181, R183). -/
theorem take_settings : (eu.take o).enables = eu.enables ∧ (eu.take o).holdoff = eu.holdoff
    ∧ (eu.take o).holdoffSetting = eu.holdoffSetting := by
  rw [take_of_captures eu h]
  exact ⟨fill_enables eu o, fill_holdoff eu o, fill_holdoffSetting eu o⟩

/-- A captured occurrence writes the records and port sets as `fill` does. -/
theorem take_fills : (eu.take o).strikes = (eu.fill o).strikes ∧ (eu.take o).quarantines = (eu.fill o).quarantines
    ∧ (eu.take o).strayPorts = (eu.fill o).strayPorts ∧ (eu.take o).faultRecord = (eu.fill o).faultRecord
    ∧ (eu.take o).linkFaultRecord = (eu.fill o).linkFaultRecord := by
  rw [take_of_captures eu h]
  exact ⟨rfl, rfl, rfl, rfl, rfl⟩

end Captured

theorem fillFault_eq (record : Option FaultRecord) (new : FaultRecord) :
    (record = none → fillFault record new = new)
      ∧ ∀ r, record = some r → fillFault record new = { r with repeats := if r.repeats = 255 then 255 else r.repeats + 1 } := by
  refine ⟨?_, ?_⟩
  · rintro rfl
    rfl
  · rintro r rfl
    rw [fillFault, satInc_byte]

theorem fillLinkFault_eq (record : Option LinkFaultRecord) (new : LinkFaultRecord) :
    (record = none → fillLinkFault record new = new)
      ∧ ∀ r, record = some r → fillLinkFault record new = { r with repeats := if r.repeats = 255 then 255 else r.repeats + 1 } := by
  refine ⟨?_, ?_⟩
  · rintro rfl
    rfl
  · rintro r rfl
    rw [fillLinkFault, satInc_byte]

/-- Settles O35: the enable's bit decides on the capture, and a captured occurrence fills its own record or port set alone. -/
theorem occurrenceIsCaptured : Obligations.OccurrenceIsCaptured := by
  unfold Obligations.OccurrenceIsCaptured
  intro s k o rest h
  have enabled {i : Nat} (hi : i < 16) := and_twoPow_bne_zero s.eu.enables hi
  refine ⟨fun lost => ?_, fun captured => ⟨s.eu.take o, exec_eventOccurrence h, ?_⟩, captures_always s.eu, ?_, ?_, ?_, ?_, ?_⟩
  · rw [exec_eventOccurrence h, take_of_not_captures s.eu lost]
  · obtain ⟨enables, holdoff, setting⟩ := take_settings captured
    obtain ⟨strikes, quarantines, strays, fault, link⟩ := take_fills captured
    rw [strikes, quarantines, strays, fault, link]
    refine ⟨take_pending captured, enables, holdoff, setting, take_alert s.eu captured, ?_, ?_, ?_, ?_, ?_,
      fill_faultRecord s.eu, fill_linkFaultRecord s.eu, fun other => strikes.symm.trans (take_strikes other s.eu),
      fill_quarantines s.eu, fill_strayPorts s.eu⟩
    · rintro p rfl
      rfl
    · rintro p rfl
      rfl
    · rintro p rfl
      rfl
    · rintro kind request tag addr window generation rfl
      obtain ⟨fills, repeats⟩ := fillFault_eq s.eu.faultRecord ⟨kind, request, tag, addr, window, generation, 0⟩
      exact ⟨fun empty => congrArg some (fills empty), fun r filled => congrArg some (repeats r filled)⟩
    · rintro kind port tag rfl
      obtain ⟨fills, repeats⟩ := fillLinkFault_eq s.eu.linkFaultRecord ⟨kind, port, tag, 0⟩
      exact ⟨fun empty => congrArg some (fills empty), fun r filled => congrArg some (repeats r filled)⟩
  · rintro rfl
    exact enabled (i := 5) (by decide)
  · rintro rfl
    exact enabled (i := 8) (by decide)
  · rintro p rfl
    exact enabled (i := 7) (by decide)
  · rintro kind port tag rfl
    exact enabled (i := 6) (by decide)
  · rintro request tag addr window generation
    refine ⟨?_, ?_, ?_⟩
    · rintro rfl
      exact enabled (i := 2) (by decide)
    · rintro rfl
      exact enabled (i := 3) (by decide)
    · rintro rfl
      exact enabled (i := 4) (by decide)

/-! ### The settings (R181, R183, R184) -/

/-- Two payload bytes in the form of bytes 0 and 1 of the pending form, least significant byte first (R180). -/
theorem eventField_eq (id a b : Byte) (rest : List Byte) :
    eventField (id :: a :: b :: rest) = BitVec.ofNat 16 (a.toNat + 256 * b.toNat) := by
  unfold eventField
  rw [leField_succ, leField_succ, leField_zero]
  rfl

/-- Settles O36: each setting writes its field and replies, and an expiry that is due brings ALERT_N to its level. -/
theorem eventSettings : Obligations.EventSettings := by
  unfold Obligations.EventSettings
  intro s t a b
  refine ⟨fun h => ?_, fun h => ?_, fun due => ?_⟩
  · have enables := eventField_eq 0x40 a b []
    rw [exec_rightLength h rfl rfl rfl, enables]
    rfl
  · rw [exec_rightLength h rfl rfl rfl]
    rfl
  · have expires : execHoldoffExpiry s = .next { s with eu := ({ s.eu with holdoff := none } : EventUnit).settleAlert } :=
      congrArg _ (if_pos due)
    have level : ({ s.eu with holdoff := none } : EventUnit).settleAlert = { s.eu with holdoff := none, alert := s.eu.anyPending } := by
      rw [EventUnit.settleAlert, Option.isNone_none, Bool.and_true]
      rfl
    exact expires.trans (by rw [level])

/-! ### CLEAR EVENTS (R182 to R184) -/

section Clear

variable (eu : EventUnit) (c : ClearedEvents)

/-- A choice on a bit of a word, by the mask that names it. -/
theorem ite_and_twoPow {n i : Nat} {α : Type} (x : BitVec n) (h : i < n) (a b : α) :
    (if x &&& BitVec.twoPow n i = 0 then a else b) = if x.getLsbD i then b else a := by
  rw [← and_twoPow_bne_zero x h]
  by_cases zero : x &&& BitVec.twoPow n i = 0 <;> simp [zero]

/-- Nothing is cleared where none of the named events is pending. -/
theorem eq_zero_of_any_false {c : ClearedEvents} (h : c.any = false) : c = ⟨0, 0, 0⟩ := by
  obtain ⟨events, strikes, quarantines⟩ := c
  simpa [ClearedEvents.any, and_assoc] using h

/-- The flags of the cleared events go, the others stay (R182). -/
theorem clear_flags : (eu.clear c).pending = eu.pending &&& ~~~c.events ∧ (eu.clear c).strikes = eu.strikes &&& ~~~c.strikes
    ∧ (eu.clear c).quarantines = eu.quarantines &&& ~~~c.quarantines := by
  cases any : c.any with
  | true =>
    rw [EventUnit.clear, if_pos any]
    exact ⟨rfl, rfl, rfl⟩
  | false =>
    obtain rfl := eq_zero_of_any_false any
    have kept {n : Nat} (x : BitVec n) : x = x &&& ~~~0 := by simp
    exact ⟨kept _, kept _, kept _⟩

/-- The records and the STRAY port set go with their events (R182). -/
theorem clear_records : (eu.clear c).faultRecord = eu.faultRecord.filter (fun r => c.events &&& r.kind.bit == 0)
    ∧ (eu.clear c).linkFaultRecord = (if c.events.getLsbD 6 then none else eu.linkFaultRecord)
    ∧ (eu.clear c).strayPorts = if c.events.getLsbD 7 then 0 else eu.strayPorts := by
  cases any : c.any with
  | true =>
    rw [EventUnit.clear, if_pos any]
    exact ⟨rfl, ite_and_twoPow c.events (i := 6) (by decide) _ _, ite_and_twoPow c.events (i := 7) (by decide) _ _⟩
  | false =>
    obtain rfl := eq_zero_of_any_false any
    refine ⟨?_, rfl, rfl⟩
    have spared : (fun r : FaultRecord => (0 : BitVec 16) &&& r.kind.bit == 0) = fun _ => true := funext fun r => by simp
    rw [spared]
    change eu.faultRecord = _
    cases eu.faultRecord <;> rfl

theorem clear_settings : (eu.clear c).enables = eu.enables ∧ (eu.clear c).holdoffSetting = eu.holdoffSetting := by
  unfold EventUnit.clear
  split
  all_goals exact ⟨rfl, rfl⟩

/-- A clear of at least one event restarts the holdoff, and ALERT_N follows; any other leaves both (R183, R184). -/
theorem clear_line :
    (eu.clear c).holdoff
        = (if c.any then (if eu.holdoffSetting = 0 then none else some eu.holdoffSetting.toNat) else eu.holdoff)
      ∧ (eu.clear c).alert = if c.any then (eu.clear c).anyPending && (eu.clear c).holdoff.isNone else eu.alert := by
  unfold EventUnit.clear
  split
  all_goals exact ⟨rfl, rfl⟩

end Clear

/-- Of the ports the clear of strikes reaches the idle timers alone, each where its strike was cleared (R96, R177). -/
theorem strikesCleared_port (cleared : BitVec 8) (ps : List PortId) (s : State) (p : PortId) :
    (s.strikesCleared cleared ps).port p = { s.port p with idle := ((s.strikesCleared cleared ps).port p).idle }
      ∧ (cleared.getLsbD p.val = false → (s.strikesCleared cleared ps).port p = s.port p) := by
  induction ps generalizing s with
  | nil => exact ⟨rfl, fun _ => rfl⟩
  | cons q ps ih =>
    obtain ⟨timer, spared⟩ := ih (if cleared.getLsbD q.val then s.settleIdle q else s)
    have settled : (s.settleIdle q).port p = { s.port p with idle := ((s.settleIdle q).port p).idle } := by
      rw [State.settleIdle, State.port_setPort_if]
      split
      · next same => rw [same]
      · rfl
    rw [State.strikesCleared]
    refine ⟨timer.trans ?_, fun none => (spared none).trans ?_⟩
    · split
      · rw [settled]
      · rfl
    · split
      · next struck =>
        have other : q ≠ p := by
          rintro rfl
          exact absurd none (by simp [struck])
        exact State.port_setPort_ne s _ other
      · rfl

theorem strikesCleared_frame (cleared : BitVec 8) (ps : List PortId) (s : State) :
    s.strikesCleared cleared ps = { s with ports := (s.strikesCleared cleared ps).ports } := by
  induction ps generalizing s with
  | nil => rfl
  | cons p ps ih =>
    rw [State.strikesCleared, ih]
    split
    all_goals rfl

/-- What CLEAR EVENTS does with the events that it clears: the Event Unit, the reply, the idle timers, and nothing else (R182). -/
theorem clearEvents_does (s : State) (t : Tag) (payload : List Byte) {c : ClearedEvents}
    (hc : s.eu.clearable (eventField payload) (byteAt payload 3) (byteAt payload 4) = c) :
    let u := s.clearEvents t payload
    u.eu = s.eu.clear c ∧ u.ulc = (({ s with eu := s.eu.clear c } : State).reply t .done c.contents).ulc
      ∧ (∀ p, u.port p = { s.port p with idle := (u.port p).idle } ∧ (c.strikes.getLsbD p.val = false → u.port p = s.port p))
      ∧ u = { s with eu := u.eu, ulc := u.ulc, ports := u.ports } := by
  subst hc
  let c := s.eu.clearable (eventField payload) (byteAt payload 3) (byteAt payload 4)
  let v : State := { s with eu := s.eu.clear c }
  have frame := strikesCleared_frame c.strikes allPorts v
  have done : s.clearEvents t payload = (v.strikesCleared c.strikes allPorts).reply t .done c.contents := rfl
  rw [done]
  refine ⟨?_, ?_, fun p => ?_, ?_⟩
  · rw [State.reply_eu, strikesCleared_eu]
  · exact reply_ulc_congr (by rw [frame]) (by rw [frame]) t _ _
  · rw [reply_port]
    exact strikesCleared_port c.strikes allPorts v p
  · unfold State.reply
    rw [place_frame, frame]

/-- Settles O37: the clear field by field, and then the ports and the reply. -/
theorem clearEventsClearsExactly : Obligations.ClearEventsClearsExactly := by
  unfold Obligations.ClearEventsClearsExactly
  intro s t b0 b1 b2 b3 h named cleared strikes quarantines some_
  have clearable : s.inHand.eu.clearable (eventField [0x41, b0, b1, b2, b3]) b2 b3 = ⟨cleared, strikes, quarantines⟩ := by
    rw [eventField_eq, EventUnit.clearable, BitVec.and_assoc]
    rfl
  have done : exec .clearEvents s = .next (s.inHand.clearEvents t [0x41, b0, b1, b2, b3]) := exec_rightLength h rfl rfl rfl
  obtain ⟨eu, ulc, ports, frame⟩ := clearEvents_does s.inHand t [0x41, b0, b1, b2, b3] clearable
  obtain ⟨pending, struck, quarantined⟩ := clear_flags s.eu ⟨cleared, strikes, quarantines⟩
  obtain ⟨fault, link, strays⟩ := clear_records s.eu ⟨cleared, strikes, quarantines⟩
  obtain ⟨enables, setting⟩ := clear_settings s.eu ⟨cleared, strikes, quarantines⟩
  obtain ⟨holdoff, alert⟩ := clear_line s.eu ⟨cleared, strikes, quarantines⟩
  have sent (e : EventUnit) (contents : List Byte) : (({ s.inHand with eu := e } : State).reply t .done contents).ulc
      = (({ s with eu := e } : State).reply t .done contents).ulc :=
    reply_ulc_congr (s := { s with eu := e }) (u := { s.inHand with eu := e }) rfl rfl t _ _
  refine ⟨_, done, ?_⟩
  rw [eu]
  exact ⟨pending, struck.trans (and_not_and_self _ _), quarantined.trans (and_not_and_self _ _), strays, link, fault, enables, setting,
    holdoff, alert, ulc.trans (sent _ _), ports, by rw [← eu]; exact frame⟩

end Sys2Proof.Machine
end

section
/-! PROOFS. The queue of commands: a step takes the one at its front, and no command puts another there or takes one away, so that
whatever a command does leaves the queue as it finds it. -/

namespace Sys2Proof.Machine

/-- Settles O1: the step by the queue's two forms. -/
theorem stepTakesFrontCommand : Obligations.StepTakesFrontCommand := by
  unfold Obligations.StepTakesFrontCommand
  refine ⟨fun c rest s front => ?_, fun s empty => ?_⟩
  · rw [step, front]
  · rw [step, empty]

/-! ### The operations of the blocks -/

theorem arrivals_pending (frames : List (List Byte)) (s : State) : (frames.foldl State.arrive s).pending = s.pending := by
  obtain ⟨frame, -⟩ := arrivals_frame frames s
  rw [frame]

/-- The head waits, is passed to the Control Unit, is answered, or is admitted with its copies placed (R24, R25). -/
theorem attempt_pending (s : State) (credit : CreditPath) : (s.attempt credit).pending = s.pending := by
  unfold State.attempt
  split
  · rfl
  · split
    · simp only [State.newHead_pending, State.leaveHead_pending]
    · split
      · rfl
      · simp only [State.answerHead, State.newHead_pending, State.respond_pending, State.reportRefused_pending,
          State.reportHit_pending, State.leaveHead_pending]
      · rw [State.newHead_pending, State.takeIn, (State.placeCopies_carries _ _ _).pending, State.reportHit_pending]
        exact State.leaveHead_pending _ _ _

/-- A strike is taken and the port serves on, or the port is quarantined (R92, R93). -/
theorem strikeDeadline_pending (s : State) (p : PortId) (failed : List Job) (o : Order) :
    (s.strikeDeadline p failed o).pending = s.pending := by
  unfold State.strikeDeadline
  simp only
  split
  · exact (State.quarantine_carries _ p _ failed o).pending
  · exact (State.serve_carries _ p).pending.trans (State.runJobs_carries failed _ p).pending

theorem failWake_pending (s : State) (p : PortId) (o : Order) : (s.failWake p o).pending = s.pending := by
  unfold State.failWake
  simp only
  rw [(State.serve_carries _ p).pending, (State.runJobs_carries _ _ p).pending]
  split
  all_goals rfl

theorem endDrain_pending (s : State) (escalated owed : Bool) (t : Tag) : (s.endDrain escalated owed t).pending = s.pending := by
  rw [State.endDrain, State.reportEnd_pending, State.swap_pending]

theorem finishPlanOp_pending (s : State) (owed : Bool) (t : Tag) : (s.finishPlanOp owed t).pending = s.pending := by
  rw [State.finishPlanOp, State.reportEnd_pending]

theorem switchAtOnce_pending (s : State) (t : Tag) : (s.switchAtOnce t).pending = s.pending := by
  rw [State.switchAtOnce, State.reply_pending, State.swap_pending]

/-! ### Control requests -/

/-- A meaning of a control request that leaves the queue of commands alone. -/
def LeavesQueue (carry : State → Tag → List Byte → State) : Prop :=
  ∀ (s : State) (t : Tag) (payload : List Byte), (carry s t payload).pending = s.pending

/-- A check that answers where it fails (R159). -/
theorem orReply_pending {c : Prop} [Decidable c] {s u : State} (h : u.pending = s.pending) (t : Tag) (st : Status)
    (contents : List Byte) : (if c then u else s.reply t st contents).pending = s.pending := by
  split
  · exact h
  · exact State.reply_pending s t st contents

/-- A reply whatever the payload, from what the state shows. -/
theorem reply_leavesQueue (st : Status) (contents : State → List Byte) : LeavesQueue fun s t _ => s.reply t st (contents s) :=
  fun s t _ => s.reply_pending t st (contents s)

/-- Setting the Event Unit, and a reply. -/
theorem events_leavesQueue (eu : EventUnit → List Byte → EventUnit) :
    LeavesQueue fun s t payload => ({ s with eu := eu s.eu payload } : State).reply t .done [] :=
  fun _ t _ => State.reply_pending _ t .done []

namespace LeavesQueue

variable {carry : State → Tag → List Byte → State}

theorem withLength (h : LeavesQueue carry) (n : Nat) : LeavesQueue (withLength n carry) :=
  fun s t payload => orReply_pending (h s t payload) t _ _

theorem loadPagesLength (h : LeavesQueue carry) : LeavesQueue (loadPagesLength carry) :=
  fun s t payload => orReply_pending (h s t payload) t _ _

theorem unlessBusy (h : LeavesQueue carry) : LeavesQueue (unlessBusy carry) :=
  fun s t payload => orReply_pending (h s t payload) t _ _

theorem onPort {carry : State → Tag → List Byte → PortId → State}
    (h : ∀ p, LeavesQueue fun s t payload => carry s t payload p) : LeavesQueue (onPort carry) := by
  intro s t payload
  unfold Machine.onPort
  split
  · next p _ => exact (h p _ t payload).trans (State.clearAutoEnable_pending s p)
  · exact State.reply_pending s t _ _

/-- The Control Unit takes a request, and then the packets that arrived behind it (log 6). -/
theorem takeRequest (h : LeavesQueue carry) (accepts : List Byte → Bool) (s : State) :
    (s.takeRequest accepts carry).pending = s.pending := by
  unfold State.takeRequest
  split
  · rfl
  · split
    · exact (arrivals_pending _ _).trans (h s.takeUp _ _)
    · rfl

end LeavesQueue

theorem readWindow_leavesQueue : LeavesQueue State.readWindow := by
  intro s t payload
  unfold State.readWindow
  split
  all_goals exact State.reply_pending s t _ _

theorem readPage_leavesQueue : LeavesQueue State.readPage := by
  intro s t payload
  unfold State.readPage
  simp only
  split
  all_goals exact State.reply_pending s t _ _

theorem readPort_leavesQueue (due : List (BitVec 16)) : LeavesQueue (State.readPort due) := by
  intro s t payload
  unfold State.readPort
  split
  all_goals exact State.reply_pending s t _ _

theorem clearCounters_leavesQueue : LeavesQueue State.clearCounters := by
  intro s t payload
  unfold State.clearCounters
  split
  all_goals exact State.reply_pending _ t _ _

theorem loadWindow_leavesQueue : LeavesQueue State.loadWindow := by
  intro s t payload
  unfold State.loadWindow
  split
  all_goals exact State.reply_pending _ t _ _

theorem clearWindow_leavesQueue : LeavesQueue State.clearWindow := by
  intro s t payload
  unfold State.clearWindow
  split
  all_goals exact State.reply_pending _ t _ _

theorem loadPages_leavesQueue : LeavesQueue State.loadPages := by
  intro s t payload
  unfold State.loadPages
  simp only
  split
  all_goals exact State.reply_pending _ t _ _

/-- The switch is taken at once, or waits for a drain (R147, R148). -/
theorem switchPlan_leavesQueue : LeavesQueue State.switchPlan := by
  intro s t payload
  unfold State.switchPlan
  split
  · split
    · exact switchAtOnce_pending s t
    · rfl
  · split
    · exact switchAtOnce_pending s t
    · rfl
  · exact State.reply_pending s t _ _

theorem setPlanTiming_leavesQueue : LeavesQueue State.setPlanTiming := by
  intro s t payload
  unfold State.setPlanTiming
  simp only
  split
  all_goals exact State.reply_pending _ t _ _

theorem enablePort_leavesQueue (p : PortId) : LeavesQueue fun s t payload => s.enablePort t payload p := by
  intro s t payload
  simp only [State.enablePort]
  split
  case h_4 | h_5 => exact orReply_pending ((State.reply_pending _ t _ _).trans (State.activate_pending s p)) t _ _
  all_goals exact State.reply_pending s t _ _

theorem disablePort_leavesQueue (order : Order) (p : PortId) :
    LeavesQueue fun s t payload => State.disablePort order s t payload p := by
  intro s t payload
  simp only [State.disablePort]
  split
  · exact State.reply_pending s t _ _
  all_goals exact (s.leaveService_carries p .disabled none [.reply t .done] order).pending

theorem parkPort_leavesQueue (p : PortId) : LeavesQueue fun s t payload => s.parkPort t payload p := by
  intro s t payload
  simp only [State.parkPort]
  split
  · split
    · exact State.reply_pending s t _ _
    · exact orReply_pending ((State.reply_pending _ t _ _).trans (State.park_pending s p)) t _ _
  all_goals exact State.reply_pending s t _ _

theorem setTimeouts_leavesQueue (p : PortId) : LeavesQueue fun s t payload => s.setTimeouts t payload p := by
  intro s t payload
  simp only [State.setTimeouts]
  split
  all_goals exact State.reply_pending _ t _ _

theorem clearEvents_leavesQueue : LeavesQueue State.clearEvents := by
  intro s t payload
  rw [State.clearEvents, State.reply_pending, strikesCleared_frame]

theorem setTimebase_leavesQueue : LeavesQueue State.setTimebase := by
  intro s t payload
  unfold State.setTimebase
  split
  all_goals exact State.reply_pending _ t _ _

theorem resetTraffic_pending (s : State) (t : Tag) : (s.resetTraffic t).pending = s.pending := by
  rw [State.resetTraffic, returnWaking_frame, State.requestAbort_pending, State.reply_pending]

theorem resetFull_pending (s : State) (t : Tag) (sel : PlanSel) (credit : CreditPath) (o : FullOrder) :
    (s.resetFull t sel credit o).pending = s.pending := by rw [resetFull_eq]

/-! ### The commands that have branches of their own -/

theorem startUp_completes (sel : PlanSel) (s : State) : ∃ t, execStartUp sel s = .next t ∧ t.pending = s.pending := by
  refine ⟨_, rfl, ?_⟩
  split
  · rfl
  · rfl
  · split
    all_goals rfl

theorem startUpComplete_completes (s : State) : ∃ t, execStartUpComplete s = .next t ∧ t.pending = s.pending := by
  refine ⟨_, rfl, ?_⟩
  split
  · simp only [State.attemptDue_pending, State.ulcStart_pending, State.capture_pending, State.loadStartPlan_pending,
      State.startValues_pending]
  · rfl

/-- A block's part in a link loss, where its signal is still to be taken, may be what a carrier waits for (R2). -/
theorem settleLink_orStays {c : Prop} [Decidable c] {s u : State} (h : u.pending = s.pending) :
    (if c then u.settleLink else s).pending = s.pending := by
  split
  · rw [State.settleLink_pending, h]
  · rfl

theorem headAttempt_completes (k : Nat) (credit : CreditPath) (s : State) :
    ∃ t, execHeadAttempt k credit s = .next t ∧ t.pending = s.pending := by
  refine ⟨_, rfl, ?_⟩
  split
  · rfl
  · split
    · rfl
    · simp only
      split
      · exact attempt_pending _ credit
      · rfl

theorem targetResponse_completes (p : PortId) (f : TargetFrame) (s : State) :
    ∃ t, execTargetResponse p f s = .next t ∧ t.pending = s.pending := by
  obtain ⟨t, done, carries⟩ := execTargetResponse_carries p f s
  exact ⟨t, done, carries.pending⟩

theorem deadlineExpiry_completes (p : PortId) (i : SlotId) (o : Order) (s : State) :
    ∃ t, execDeadlineExpiry p i o s = .next t ∧ t.pending = s.pending := by
  refine ⟨_, rfl, ?_⟩
  split
  · exact strikeDeadline_pending (s.setSlot p i .free) p _ o
  · exact strikeDeadline_pending (s.setSlot p i .free) p _ o
  all_goals rfl

theorem wakeTimeout_completes (p : PortId) (o : Order) (s : State) :
    ∃ t, execWakeTimeout p o s = .next t ∧ t.pending = s.pending := by
  refine ⟨_, rfl, ?_⟩
  split
  · simp only
    split
    · exact (State.quarantine_carries _ p _ [] o).pending
    · exact failWake_pending (s.countTimeout p) p o
  · rfl

theorem targetLinkUp_completes (p : PortId) (s : State) : ∃ t, execTargetLinkUp p s = .next t ∧ t.pending = s.pending := by
  refine ⟨_, rfl, ?_⟩
  split
  · rfl
  · split
    · rfl
    · exact (State.linkUp_carries _ p).pending

theorem targetLinkDown_completes (p : PortId) (o : Order) (s : State) :
    ∃ t, execTargetLinkDown p o s = .next t ∧ t.pending = s.pending := by
  refine ⟨_, rfl, ?_⟩
  split
  · exact (State.linkDown_carries _ p o).pending
  · rfl

theorem ottAbort_completes (r : AbortTaking) (s : State) : ∃ t, execOttAbort r s = .next t ∧ t.pending = s.pending := by
  refine ⟨_, rfl, ?_⟩
  split
  · rfl
  · rw [abortTaken_frame, abort_frame]

theorem ottEmptyReport_completes (s : State) : ∃ t, execOttEmptyReport s = .next t ∧ t.pending = s.pending := by
  refine ⟨_, rfl, ?_⟩
  split
  · rfl
  · simp only
    split
    · split
      · rw [State.settleLink_pending, endDrain_pending]
      · rfl
    all_goals rfl

theorem copyStep_completes (s : State) : ∃ t, execCopyStep s = .next t ∧ t.pending = s.pending := by
  refine ⟨_, rfl, ?_⟩
  split
  · simp only
    split
    · rfl
    · exact finishPlanOp_pending _ _ _
  · rfl

theorem clearStep_completes (s : State) : ∃ t, execClearStep s = .next t ∧ t.pending = s.pending := by
  refine ⟨_, rfl, ?_⟩
  split
  · simp only
    split
    · rfl
    · exact finishPlanOp_pending _ _ _
  · rfl

theorem heldReplyRelease_completes (k : Nat) (s : State) : ∃ t, execHeldReplyRelease k s = .next t ∧ t.pending = s.pending := by
  refine ⟨_, rfl, ?_⟩
  split
  · rfl
  · simp only
    split
    · exact State.reply_pending _ _ _ _
    · rfl

/-- Settles O2: the commands one by one, the control requests by what the Control Unit carries out. -/
theorem everyCommandCompletes : Obligations.EveryCommandCompletes := by
  unfold Obligations.EveryCommandCompletes
  intro c s
  cases c with
  | powerOn | resetNAssert | packetDiscardNotUp frame => exact ⟨_, rfl, rfl⟩
  | startUp sel => exact startUp_completes sel s
  | startUpComplete => exact startUpComplete_completes s
  | carrierGained =>
    refine ⟨_, rfl, ?_⟩
    split
    · rfl
    · rw [State.settleLink_pending]
  | linkLossPlanStore | linkLossControlUnit => exact ⟨_, rfl, settleLink_orStays rfl⟩
  | linkLossPorts => exact ⟨_, rfl, settleLink_orStays s.returnWaking_carries.pending⟩
  | packetArrival frame =>
    refine ⟨_, rfl, ?_⟩
    split
    · rfl
    · exact arrivals_pending [frame] s
  | carrierLost | linkLossIq | creditReturn | transmitDone | hitReport | eventOccurrence | idleTimeout | tickBoundary
  | holdoffExpiry | drainTimeout =>
    refine ⟨_, rfl, ?_⟩
    split
    all_goals rfl
  | headAttempt k credit => exact headAttempt_completes k credit s
  | targetResponse p f => exact targetResponse_completes p f s
  | deadlineExpiry p i o => exact deadlineExpiry_completes p i o s
  | wakeTimeout p o => exact wakeTimeout_completes p o s
  | targetLinkUp p => exact targetLinkUp_completes p s
  | targetLinkDown p o => exact targetLinkDown_completes p o s
  | ottAbort r => exact ottAbort_completes r s
  | ottEmptyReport => exact ottEmptyReport_completes s
  | copyStep => exact copyStep_completes s
  | clearStep => exact clearStep_completes s
  | heldReplyRelease k => exact heldReplyRelease_completes k s
  | resetTraffic =>
    exact ⟨_, rfl, LeavesQueue.takeRequest (fun s t _ => orReply_pending (resetTraffic_pending s t) t _ _) _ s⟩
  | resetFull sel credit o =>
    exact ⟨_, rfl, LeavesQueue.takeRequest (fun s t _ => orReply_pending (resetFull_pending s t sel credit o) t _ _) _ s⟩
  | readStatus | readEvents | readResetCause => exact ⟨_, rfl, ((reply_leavesQueue _ _).withLength 1).takeRequest _ s⟩
  | readWindow => exact ⟨_, rfl, (readWindow_leavesQueue.withLength 3).takeRequest _ s⟩
  | readPage => exact ⟨_, rfl, (readPage_leavesQueue.withLength 4).takeRequest _ s⟩
  | readPort due => exact ⟨_, rfl, ((readPort_leavesQueue due).withLength 2).takeRequest _ s⟩
  | clearCounters => exact ⟨_, rfl, (clearCounters_leavesQueue.withLength 2).takeRequest _ s⟩
  | loadWindow => exact ⟨_, rfl, (loadWindow_leavesQueue.unlessBusy.withLength 34).takeRequest _ s⟩
  | clearWindow => exact ⟨_, rfl, (clearWindow_leavesQueue.unlessBusy.withLength 2).takeRequest _ s⟩
  | loadPages => exact ⟨_, rfl, loadPages_leavesQueue.unlessBusy.loadPagesLength.takeRequest _ s⟩
  | copyPlan | clearPlan =>
    exact ⟨_, rfl, ((LeavesQueue.unlessBusy fun s t _ => s.startPlanOp_pending _ t _).withLength 1).takeRequest _ s⟩
  | switchPlanDrain | switchPlanForce => exact ⟨_, rfl, (switchPlan_leavesQueue.unlessBusy.withLength 2).takeRequest _ s⟩
  | setPlanTiming => exact ⟨_, rfl, (setPlanTiming_leavesQueue.withLength 3).takeRequest _ s⟩
  | portEnable => exact ⟨_, rfl, ((LeavesQueue.onPort enablePort_leavesQueue).withLength 2).takeRequest _ s⟩
  | portDisable o => exact ⟨_, rfl, ((LeavesQueue.onPort (disablePort_leavesQueue o)).withLength 2).takeRequest _ s⟩
  | parkPort => exact ⟨_, rfl, ((LeavesQueue.onPort parkPort_leavesQueue).withLength 2).takeRequest _ s⟩
  | setPort => exact ⟨_, rfl, ((LeavesQueue.onPort setTimeouts_leavesQueue).withLength 8).takeRequest _ s⟩
  | setEventEnables =>
    exact ⟨_, rfl, ((events_leavesQueue fun eu payload => { eu with enables := eventField payload &&& enableBits }).withLength
      3).takeRequest _ s⟩
  | clearEvents => exact ⟨_, rfl, (clearEvents_leavesQueue.withLength 5).takeRequest _ s⟩
  | setHoldoff =>
    exact ⟨_, rfl, ((events_leavesQueue fun eu payload => { eu with holdoffSetting := byteAt payload 1 }).withLength
      2).takeRequest _ s⟩
  | setTimebase => exact ⟨_, rfl, (setTimebase_leavesQueue.withLength 2).takeRequest _ s⟩
  | unknownCommand => exact ⟨_, rfl, (reply_leavesQueue _ _).takeRequest _ s⟩

end Sys2Proof.Machine
end
